-- ==== Sys2Proof/Word.lean ====
section
/-! DEFINITION. The plain types of the part: bytes, sets held as bits, and the named values that the
manual writes in capitals. Each named value stands in the order in which the manual lists it, because
section 11.4 codes a named value by its place in that list. -/

namespace Sys2Proof

/-- One byte on a port or in a memory. -/
abbrev Byte := BitVec 8

/-- A set of attention classes, bit `n` for class code `n` (section 11.1). -/
abbrev ClassSet := BitVec 32

/-- A zone set or zone readings in the 8-byte coding of section 11.1: zone 1 is the most significant bit. -/
abbrev ZoneSet := BitVec 64

/-- The two roles (R190). -/
inductive Role where
  | scanner | gateway
  deriving DecidableEq, Repr

/-- A captured side of a sheet. -/
inductive Side where
  | front | back
  deriving DecidableEq, Repr

/-- The duplex field of an attribute set (R10). -/
inductive Duplex where
  | simplex | duplex
  deriving DecidableEq, Repr

/-- The double-feed policy of an attribute set (R10). -/
inductive Policy where
  | divert | stop | mark
  deriving DecidableEq, Repr

/-- The matching mode of an exemption entry (R60). -/
inductive ExMode where
  | strict | loose
  deriving DecidableEq, Repr

/-- A pocket, which is also a route and a diverter position (R50). -/
inductive Pocket where
  | main | reject
  deriving DecidableEq, Repr

/-- The four path sensors in the order a sheet meets them (section 2.1). -/
inductive Sensor where
  | entry | capture | gate | exit
  deriving DecidableEq, Repr

/-- The two edges a sensor reports. -/
inductive EdgeKind where
  | leading | trailing
  deriving DecidableEq, Repr

/-- The tray events' status (R29). -/
inductive Tray where
  | loaded | empty
  deriving DecidableEq, Repr

/-- The store level of R29 and the level state of R92. -/
inductive Level where
  | normal | pause
  deriving DecidableEq, Repr

/-- Transport states (R29). -/
inductive Transport where
  | idle | armed | feeding | paused | draining | held
  deriving DecidableEq, Repr

/-- Feed modes (R29). -/
inductive FeedMode where
  | batch | fill | learn
  deriving DecidableEq, Repr

/-- Hold reasons (R29). -/
inductive HoldReason where
  | jam | doubleFeedStop | lateDecision | diverter | diverterLate | captureMismatch | patchSuspect
  | storeExhausted | holeLimit
  deriving DecidableEq, Repr

/-- Verdicts (R67). -/
inductive Verdict where
  | clean | exempt | length | layer | both
  deriving DecidableEq, Repr

/-- Phases of a pending learn (R71, R72). -/
inductive LearnPhase where
  | waiting | picked
  deriving DecidableEq, Repr

/-- Batch states in the order of section 1.2. -/
inductive BatchState where
  | opening | active | ended | reconciling | closing | committed | disputed | halted | refused | abandoned
  deriving DecidableEq, Repr

/-- Refusal causes of a batch (R2). -/
inductive RefusalCause where
  | duplicate | tableFull | noAnswer | gatewaySilent
  deriving DecidableEq, Repr

/-- Gateway refusals a batch records (R2). -/
inductive GatewayRefusal where
  | unknownBatch | batchClosed
  deriving DecidableEq, Repr

/-- Dispute causes (R169). -/
inductive DisputeCause where
  | incomplete | unknown | noAnswer
  deriving DecidableEq, Repr

/-- Hole reasons (R153). -/
inductive HoleReason where
  | doubleFeed | pulled | store
  deriving DecidableEq, Repr

/-- Hole states OPEN, CLAIMED, FILLED, WAIVED (R154). -/
inductive HoleState where
  | vacant | claimed | filled | waived
  deriving DecidableEq, Repr

/-- Phases of a fill job (R156). -/
inductive FillPhase where
  | feeding | ending
  deriving DecidableEq, Repr

/-- End causes of a fill (R156). -/
inductive EndCause where
  | stopPatch | trayEmpty | noHoles | stopKey | cancel | refused | noAnswer | ownerGone
  deriving DecidableEq, Repr

/-- States of a granted list entry (R156). -/
inductive GrantState where
  | unused | scanned | stored | refused
  deriving DecidableEq, Repr

/-- Page states (R79). -/
inductive PageState where
  | filling | heldForSheet | ready | sending | sent | failed
  deriving DecidableEq, Repr

/-- The mode of a capture progress entry (R80). -/
inductive KeepMode where
  | keep | drop
  deriving DecidableEq, Repr

/-- Causes of a store loss (R84). -/
inductive LossCause where
  | noRecord | oversize | noBlock
  deriving DecidableEq, Repr

/-- The two transfer channels (R113). -/
inductive ChanId where
  | a | b
  deriving DecidableEq, Repr

/-- Phases of a descriptor: staged EMPTY, OFFERED, GRANTED; active EMPTY, STREAMING (R113). -/
inductive DescPhase where
  | empty | offered | granted | streaming
  deriving DecidableEq, Repr

/-- Give-ups that wait for the burst in transmission (R113, R124). -/
inductive GiveUp where
  | none | ret | restart | discard
  deriving DecidableEq, Repr

/-- Line states (R106 to R108). -/
inductive LineState where
  | unaddressed | listening | joined | conflict
  deriving DecidableEq, Repr

/-- Peer states (R110). -/
inductive PeerState where
  | absent | present | silent
  deriving DecidableEq, Repr

/-- Peer roles (R110). -/
inductive PeerRole where
  | unknown | scanner | gateway | console
  deriving DecidableEq, Repr

/-- The role a PRESENCE frame carries (section 11.1). -/
inductive PresenceRole where
  | scanner | gateway | console
  deriving DecidableEq, Repr

/-- Intake slot states (R134). -/
inductive SlotState where
  | free | granted | receiving | complete | storing
  deriving DecidableEq, Repr

/-- Commit record states OPEN and COMMITTED (R147). -/
inductive CommitState where
  | opened | committed
  deriving DecidableEq, Repr

/-- Sources of the settings in force (R191). -/
inductive SettingsSource where
  | default | partialImage | image
  deriving DecidableEq, Repr

/-- Reasons of an OPEN REFUSE (section 11.1). -/
inductive OpenRefusal where
  | duplicate | tableFull
  deriving DecidableEq, Repr

/-- Reasons of a PAGE REFUSE (section 11.1). -/
inductive PageRefusal where
  | unknownBatch | batchClosed | tooLarge
  deriving DecidableEq, Repr

/-- Reasons of a HOLE REFUSE (section 11.1). -/
inductive HoleRefusal where
  | unknownBatch | badState
  deriving DecidableEq, Repr

/-- Result codes of an ORDER ANSWER in code order (section 11.1). -/
inductive ResultCode where
  | accepted | busy | notIdle | duplicateBatch | tableFull | unknownBatch | badState | holeClaimed
  | wrongRole | notConsole | badArgument
  deriving DecidableEq, Repr

/-- Attention classes in code order (section 11.1). -/
inductive Attn where
  | jam | doubleFeedStop | lateDecision | diverter | diverterLate | captureMismatch | patchSuspect
  | overrun | storeExhausted | holeLimit | learnDone | learnFailed | batchRefused | batchDisputed
  | batchHalted | transferFailed | fillEnded | fillSurplus | peerSilent | lineConflict
  | storePortError | configDefault
  deriving DecidableEq, Repr

/-- QUERY subjects in code order (section 11.1). -/
inductive Subject where
  | station | batch | holes | fill | channels | peers | slots | commit | counters | attention
  deriving DecidableEq, Repr

/-- An attribute set that has passed R10: it always carries a tolerance. -/
structure AttrSet where
  duplex    : Duplex
  policy    : Policy
  bank      : Nat
  nominal   : Option Nat
  tolerance : Nat
  deriving DecidableEq, Repr

/-- An attribute set as it arrives in an order or a capture report, before R10 judges it: the codes as
sent, the nominal length absent or given, the tolerance omitted or given. -/
structure AttrArg where
  duplex    : Nat
  policy    : Nat
  bank      : Nat
  nominal   : Option Nat
  tolerance : Option Nat
  deriving DecidableEq, Repr

/-- A page's identity on the line: batch number, position, side. -/
structure PageId where
  batch    : Nat
  position : Nat
  side     : Side
  deriving DecidableEq, Repr

/-- The header fields of a frame that a block sees: destination, source, ask tag (R94). -/
structure Hdr where
  dst : Nat
  src : Nat
  tag : Nat
  deriving DecidableEq, Repr

/-- The patch code of a capture report, with the attribute set that HEADER and SECTION carry (R44). -/
inductive Patch where
  | none
  | header (attrs : AttrArg)
  | sectionSheet (attrs : AttrArg)
  | stop
  deriving DecidableEq, Repr

end Sys2Proof
end

