-- ==== Sys2Proof/Syntax.lean ====
section
/-! DEFINITION. The commands of the part, one constructor per row of spec/opcode_table.json, with the
row's operands. A frame command carries the header fields and its kind's payload fields (section 11.3);
an order carries its arguments (section 11.4); an expiry names the record whose timer ran out. -/

namespace Sys2Proof

/-- One command given to the part. -/
inductive Instr where
  -- Start (R190, R191)
  | startUp (straps : Nat) (role : Role)
  | settingsLoad (image : Option (List Byte))
  -- Console orders (R183)
  | openBatch (h : Hdr) (batch gateway : Nat) (attrs : AttrArg)
  | endBatch (h : Hdr) (batch : Nat)
  | abandonBatch (h : Hdr) (batch : Nat)
  | waiveHoles (h : Hdr) (batch : Nat) (positions : List Nat)
  | closeAgain (h : Hdr) (batch : Nat)
  | fill (h : Hdr) (batch : Nat)
  | fillCancel (h : Hdr)
  | loadExemption (h : Hdr) (bank entry valid mode : Nat) (mask pattern : ZoneSet)
  | learnExemption (h : Hdr) (bank entry mode : Nat) (mask : ZoneSet)
  | queryStation (h : Hdr) (index : Nat)
  | queryBatch (h : Hdr) (batch index : Nat)
  | queryHoles (h : Hdr) (batch index : Nat)
  | queryFill (h : Hdr) (index : Nat)
  | queryChannels (h : Hdr) (index : Nat)
  | queryPeers (h : Hdr) (index : Nat)
  | querySlots (h : Hdr) (index : Nat)
  | queryCommit (h : Hdr) (batch index : Nat)
  | queryCounters (h : Hdr) (index : Nat)
  | queryAttention (h : Hdr) (index : Nat)
  | ackAttention (h : Hdr) (classes : ClassSet)
  | restart (h : Hdr)
  -- Panel keys
  | startKey
  | stopKey
  | clearKey
  -- Transport port
  | trayReady
  | trayEmpty
  | leadingEdge (tag : Nat) (sensor : Sensor) (pocket : Pocket)
  | trailingEdge (tag : Nat) (sensor : Sensor) (pocket : Pocket) (measure : Option Nat)
  | zoneReading (tag : Nat) (layered : Bool)
  -- Capture port
  | sideBegin (tag : Nat) (side : Side)
  | dataEvent (tag : Nat) (side : Side) (bytes : List Byte)
  | sideEnd (tag : Nat) (side : Side)
  | captureReport (tag : Nat) (front back : Bool) (patch : Patch)
  -- Transport timers and the diverter
  | pickWindowExpiry (tag : Nat)
  | edgeWindowExpiry (tag : Nat) (sensor : Sensor) (edge : EdgeKind)
  | diverterSettleTime
  | readySample (ready : Bool)
  | readyWindowExpiry
  -- Floor line
  | turnInterval
  | frameSent
  | frameHeard (quiet : Nat) (bytes : List Byte)
  | presence (h : Hdr) (role : PresenceRole)
  -- Frames taken by BCT, ICT and TXE
  | batchOpenHeard (h : Hdr) (batch gateway : Nat)
  | batchOpen (h : Hdr) (batch gateway : Nat)
  | openAccept (h : Hdr) (batch : Nat)
  | openRefuse (h : Hdr) (batch : Nat) (reason : OpenRefusal)
  | batchGone (h : Hdr) (batch : Nat)
  | abandon (h : Hdr) (batch : Nat)
  | close (h : Hdr) (batch count : Nat) (waived : List Nat)
  | committed (h : Hdr) (batch : Nat)
  | incomplete (h : Hdr) (batch total excess : Nat) (missing : List Nat)
  | unknown (h : Hdr) (batch : Nat)
  | holeClaim (h : Hdr) (batch wanted : Nat) (held : List Nat)
  | holeGrant (h : Hdr) (batch gateway : Nat) (grants : List (Nat × AttrSet))
  | holeNone (h : Hdr) (batch : Nat)
  | holeRefuse (h : Hdr) (batch : Nat) (reason : HoleRefusal)
  | filled (h : Hdr) (batch position : Nat)
  | release (h : Hdr) (batch : Nat) (final : Bool) (positions : List Nat)
  | pageOffer (h : Hdr) (page : PageId) (pagesOfSheet size : Nat) (mark : Bool)
  | pageData (h : Hdr) (slot offset : Nat) (bytes : List Byte)
  | slotGrant (h : Hdr) (slot start : Nat)
  | slotWait (h : Hdr)
  | pageRefuse (h : Hdr) (reason : PageRefusal)
  | pageStored (h : Hdr) (page : PageId) (slot : Nat)
  | pageFail (h : Hdr) (page : PageId) (slot : Nat)
  | pageFault (h : Hdr) (page : PageId) (slot : Nat)
  -- Store port
  | storeDone
  | storeError
  -- Timers of exchanges
  | openAnswerTimeout (batch : Nat)
  | closeAnswerTimeout (batch : Nat)
  | claimTimeout
  | offerTimeout (channel : ChanId)
  | retryWaitExpiry (channel : ChanId)
  | storeTimerExpiry (page : PageId)
  | grantLifetimeExpiry (slot : Nat)
  | joinListenExpiry
  | presenceTimerExpiry
  | silenceLimitExpiry (address : Nat)
  deriving DecidableEq, Repr

end Sys2Proof
end

