-- ==== Sys2Proof/Decode.lean ====
section
/-! DEFINITION. The command a word spells by the table's bits. No row of spec/opcode_table.json gives
bits, so no word spells a command. (The bytes of frames on the floor line are read in Machine/Wire.lean.) -/

namespace Sys2Proof

/-- The command whose row has the bits `w`: none, since no row has bits. -/
def decodeTableWord (_nbits _w : Nat) : Option Instr := none

end Sys2Proof
end

