-- ==== Sys2Proof/Config.lean ====
section
/-! DEFINITION. What the part fixes: table sizes, limits and times that the manual states as numbers. -/

namespace Sys2Proof.Config

/-- Largest payload of a control frame (R94). -/
def controlPayload : Nat := 128
/-- The station address that denotes every station (R94). -/
def everyStation : Nat := 255
/-- Largest batch number (section 11.1). -/
def maxBatch : Nat := 16777215
/-- Last position of a batch (R16). -/
def maxPosition : Nat := 4095
/-- Entries of the batch table (R1). -/
def batchEntries : Nat := 8
/-- Entries of the room batch directory (R26). -/
def directoryEntries : Nat := 64
/-- Entries of a hole list (R153). -/
def holeEntries : Nat := 32
/-- Positions a fill job may hold (R156). -/
def grantEntries : Nat := 8
/-- Sheets in the track (R36). -/
def trackEntries : Nat := 3
/-- Track tags (R36). -/
def trackTags : Nat := 8
/-- Zones recorded of a sheet (R61). -/
def zones : Nat := 64
/-- Entries of an exemption bank (R60). -/
def bankEntries : Nat := 6
/-- Blocks of page memory and of intake memory (R77, R133). -/
def blocks : Nat := 16384
/-- Bytes of a block (R77). -/
def blockBytes : Nat := 16384
/-- Page records (R78). -/
def pageRecords : Nat := 512
/-- Largest page (R78). -/
def maxPage : Nat := 16776704
/-- Restarts of a page (R126). -/
def maxRestarts : Nat := 3
/-- Frames in the transmit control queue and in the receive queue (R102, R103). -/
def queueFrames : Nat := 16
/-- Peer table entries (R110). -/
def peerEntries : Nat := 16
/-- Intake slots (R134). -/
def slots : Nat := 48
/-- Slots one sender may hold (R133). -/
def slotsPerSender : Nat := 4
/-- Start offset of a page's data in a slot (R133). -/
def startOffset : Nat := 512
/-- Span of slot offset that holds a burst (R123, R138). -/
def span : Nat := 4096
/-- Commit table entries (R147). -/
def commitEntries : Nat := 32
/-- Grant lifetime in ms (R140). -/
def grantLifetime : Nat := 2000
/-- Free records below which the level is PAUSE (R92). -/
def pauseRecords : Nat := 8
/-- Free records at which the level may be NORMAL again (R92). -/
def resumeRecords : Nat := 16
/-- Presence intervals of the join listen (R107). -/
def joinIntervals : Nat := 3
/-- Third claim timeout ends the fill (R158). -/
def claimTimeouts : Nat := 3
/-- The slot byte of a PAGE STORED that names no slot (section 11.1). -/
def noSlot : Nat := 255
/-- The index that means NONE (section 11.1). -/
def noIndex : Nat := 65535
/-- Bytes of the settings image (section 11.5). -/
def imageBytes : Nat := 231
/-- The window of the pick, in ms (R40). -/
def pickWindow : Nat := 300
/-- The window of the ENTRY trailing edge, in ms (R40). -/
def entryTrailWindow : Nat := 4000
/-- The window of each later leading edge, and the margin of each later trailing edge, in ms (R40). -/
def edgeWindow : Nat := 250
/-- Diverter settle time and ready window, in ms (R50). -/
def diverterSettle : Nat := 10
def diverterWindow : Nat := 40
/-- Values that the manual leaves open (log entry 33); nothing constrains them. -/
opaque freeBit : Nat → Bool
opaque freePosition : Nat → BitVec 16
/-- What a byte of memory that nothing has written reads as: DESIGN CHOICE, log entry 8. -/
def unwritten : Byte := 0

end Sys2Proof.Config
end

