-- ==== Sys2Proof/Machine/Records.lean ====
section
/-! DEFINITION. The records that the blocks keep and the frames that cross the line, field by field as
the manual names them. Every record is plain data. -/

namespace Sys2Proof.Machine

/-! ## Frames (chapter 11) -/

/-- An order as ORU reads it from an ORDER's payload (section 11.4). `undecodable` stands for a payload
that R196 refuses before any argument is known. -/
inductive Order where
  | openBatch (batch gateway : Nat) (attrs : AttrArg)
  | endBatch (batch : Nat)
  | abandonBatch (batch : Nat)
  | waiveHoles (batch : Nat) (positions : List Nat)
  | closeAgain (batch : Nat)
  | fill (batch : Nat)
  | fillCancel
  | loadExemption (bank entry valid mode : Nat) (mask pattern : ZoneSet)
  | learnExemption (bank entry mode : Nat) (mask : ZoneSet)
  | query (subject : Subject) (batch index : Nat)
  | ackAttention (classes : ClassSet)
  | restart
  | undecodable
  deriving DecidableEq, Repr

/-- The payload of a frame, by kind (section 11.3). An ORDER ANSWER carries its result code as sent. -/
inductive Payload where
  | order (o : Order)
  | orderAnswer (code : Nat) (body : List Byte)
  | attention (classes : ClassSet)
  | presence (role : PresenceRole)
  | batchOpen (batch gateway : Nat)
  | openAccept (batch : Nat)
  | openRefuse (batch : Nat) (reason : OpenRefusal)
  | batchGone (batch : Nat)
  | abandon (batch : Nat)
  | close (batch count : Nat) (waived : List Nat)
  | committed (batch : Nat)
  | incomplete (batch total excess : Nat) (missing : List Nat)
  | unknown (batch : Nat)
  | holeClaim (batch wanted : Nat) (held : List Nat)
  | holeGrant (batch gateway : Nat) (grants : List (Nat × AttrSet))
  | holeNone (batch : Nat)
  | holeRefuse (batch : Nat) (reason : HoleRefusal)
  | filled (batch position : Nat)
  | release (batch : Nat) (final : Bool) (positions : List Nat)
  | pageOffer (page : PageId) (pagesOfSheet size : Nat) (mark : Bool)
  | slotGrant (slot start : Nat)
  | slotWait
  | pageRefuse (reason : PageRefusal)
  | pageStored (page : PageId) (slot : Nat)
  | pageFail (page : PageId) (slot : Nat)
  | pageFault (page : PageId) (slot : Nat)
  | pageData (slot offset : Nat) (bytes : List Byte)
  deriving DecidableEq, Repr

/-- A frame: header fields and payload (R94). Its bytes and its check are made when it is sent. -/
structure Frame where
  hdr     : Hdr
  payload : Payload
  deriving DecidableEq, Repr

/-- Where the frame in transmission came from: the control queue, a channel, or a channel that a Restart
has emptied meanwhile (R132: such a burst "is not counted as sent for any page"). -/
inductive Origin where
  | control
  | data (ch : ChanId)
  | orphan (ch : ChanId)
  deriving DecidableEq, Repr

/-- The frame in transmission. -/
structure Flight where
  frame  : Frame
  origin : Origin
  deriving DecidableEq, Repr

/-! ## Order Unit -/

/-- The settings in force and their source (R191). -/
structure Settings where
  presenceMs       : Nat := 500
  silenceMultiple  : Nat := 4
  answerMs         : Nat := 200
  retryMs          : Nat := 50
  storeSeconds     : Nat := 30
  pauseLevel       : Nat := 1024
  resumeLevel      : Nat := 2048
  runThreshold     : Nat := 3
  toleranceDefault : Nat := 8
  source           : SettingsSource := .default
  deriving DecidableEq, Repr

/-- What ORU owns (R193). `restartDue` is the model's own: the order whose answer waits for the frame in
transmission. -/
structure Oru where
  address         : Nat := 0
  role            : Role := .scanner
  settings        : Settings := {}
  attention       : ClassSet := 0
  ordersTaken     : Nat := 0
  refusedSource   : Nat := 0
  broadcastOrders : Nat := 0
  attentionFrames : Nat := 0
  restartDue      : Option Hdr := none
  deriving DecidableEq, Repr

/-! ## Floor Line Interface -/

/-- A peer table entry (R110). The time since last heard is the clock less `heardAt`. -/
structure Peer where
  state   : PeerState := .absent
  role    : PeerRole := .unknown
  heardAt : Option Nat := none
  changed : Bool := false
  deriving DecidableEq, Repr

/-- What FLI owns (R112), with the frame in transmission. -/
structure Fli where
  line              : LineState := .unaddressed
  txQueue           : List Frame := []
  rxQueue           : List Frame := []
  peers             : List Peer := List.replicate 16 {}
  askTag            : Nat := 0
  lastData          : ChanId := .b
  presenceDue       : Option Nat := none
  joinDue           : Option Nat := none
  heardAny          : Bool := false
  turnHolder        : Option Nat := none
  inFlight          : Option Flight := none
  checkFailures     : Nat := 0
  malformed         : Nat := 0
  listeningDiscards : Nat := 0
  roleDiscards      : Nat := 0
  rxOverflows       : Nat := 0
  txDrops           : Nat := 0
  unsent            : Nat := 0
  framesSent        : Nat := 0
  deriving DecidableEq, Repr

/-! ## Transport Sequencer -/

/-- The feed binding of a track entry (R36). For FILL it carries the reserved granted position, which is
absent once the reservation is released (R38). -/
inductive Binding where
  | batch (number : Nat)
  | fill (reserved : Option Nat)
  | learn
  deriving DecidableEq, Repr

/-- The two edge times of one sensor (R36). -/
structure SensorTimes where
  lead  : Option Nat := none
  trail : Option Nat := none
  deriving DecidableEq, Repr

/-- The edge record of a track entry (R36). -/
structure EdgeRecord where
  entry   : SensorTimes := {}
  capture : SensorTimes := {}
  gate    : SensorTimes := {}
  exit    : SensorTimes := {}
  deriving DecidableEq, Repr

/-- A capture report: the sides it lists and its patch code (R44). -/
structure Report where
  front : Bool
  back  : Bool
  patch : Patch
  deriving DecidableEq, Repr

/-- A track entry (R36), with the exemption index of R67 and the time of its pick. The zone profile holds
one reading per zone, true for LAYERED. -/
structure TrackEntry where
  tag          : Nat
  binding      : Binding
  snap         : AttrSet
  pickedAt     : Nat
  edges        : EdgeRecord := {}
  length       : Option Nat := none
  profile      : List Bool := []
  verdict      : Option Verdict := none
  exemption    : Option Nat := none
  report       : Option Report := none
  position     : Option Nat := none
  overrun      : Bool := false
  storeLost    : Bool := false
  abandoned    : Bool := false
  route        : Option Pocket := none
  routeSettled : Bool := false
  pages        : List Nat := []
  deriving DecidableEq, Repr

/-- The diverter handshake in progress (R50): the sheet it runs for, whether sampling has begun, and when
the diverter was commanded. -/
structure Handshake where
  tag         : Nat
  sampling    : Bool
  commandedAt : Nat
  deriving DecidableEq, Repr

/-- What TSQ owns (R29), with the handshake of R50. -/
structure Tsq where
  transport         : Transport := .idle
  feedMode          : Option FeedMode := none
  fedBatch          : Option Nat := none
  holdReason        : Option HoldReason := none
  tray              : Tray := .empty
  storeLevel        : Level := .normal
  diverter          : Pocket := .main
  diverterConfirmed : Bool := false
  tagCounter        : Nat := 0
  track             : List TrackEntry := []
  handshake         : Option Handshake := none
  deriving DecidableEq, Repr

/-! ## Double-Feed Monitor -/

/-- An exemption entry (R60). -/
structure Exemption where
  valid   : Bool := false
  mask    : ZoneSet := 0
  pattern : ZoneSet := 0
  mode    : ExMode := .strict
  matched : Nat := 0
  deriving DecidableEq, Repr

/-- A pending learn (R71). -/
structure Learn where
  bank  : Nat
  entry : Nat
  mask  : ZoneSet
  mode  : ExMode
  phase : LearnPhase
  deriving DecidableEq, Repr

/-- What DFM owns (R60, R61, R71): bank 0 entries 0 to 5, then bank 1 entries 0 to 5. -/
structure Dfm where
  exemptions    : List Exemption := List.replicate 12 {}
  learn         : Option Learn := none
  strayReadings : Nat := 0
  deriving DecidableEq, Repr

/-! ## Batch Controller -/

/-- A hole list entry (R153). -/
structure Hole where
  position : Nat
  reason   : HoleReason
  state    : HoleState
  claimant : Option Nat := none
  retries  : Nat := 0
  snap     : AttrSet
  deriving DecidableEq, Repr

/-- The five verdict counts of a batch (R2). -/
structure VerdictCounts where
  clean  : Nat := 0
  exempt : Nat := 0
  length : Nat := 0
  layer  : Nat := 0
  both   : Nat := 0
  deriving DecidableEq, Repr

/-- An INCOMPLETE list (R169). -/
structure CloseResult where
  missing : List Nat
  total   : Nat
  excess  : Nat
  deriving DecidableEq, Repr

/-- A batch record (R2, R169), with the deadlines of its two asks. -/
structure BatchRec where
  number         : Nat
  gateway        : Nat
  state          : BatchState
  refusalCause   : Option RefusalCause := none
  attrs          : AttrSet
  rejectedPatch  : Nat := 0
  scanned        : Nat := 0
  accepted       : Nat := 0
  verdicts       : VerdictCounts := {}
  failedPages    : Nat := 0
  gatewayRefusal : Option GatewayRefusal := none
  holes          : List Hole := []
  openAsk        : Option Nat := none
  openDue        : Nat := 0
  closeAsk       : Option Nat := none
  closeDue       : Nat := 0
  lastClose      : Option CloseResult := none
  disputeCause   : Option DisputeCause := none
  closeAttempts  : Nat := 0
  terminalOrder  : Option Nat := none
  deriving DecidableEq, Repr

/-- A room batch directory entry (R26). -/
structure DirEntry where
  batch   : Nat
  owner   : Nat
  gateway : Nat
  heardAt : Nat
  deriving DecidableEq, Repr

/-- A granted list entry (R156). -/
structure Grant where
  position : Nat
  snap     : AttrSet
  state    : GrantState
  required : Nat
  stored   : Nat
  deriving DecidableEq, Repr

/-- The fill job record (R156), with the deadline of its claim. -/
structure FillJob where
  batch       : Nat
  owner       : Nat
  gateway     : Nat
  atHome      : Bool
  phase       : FillPhase := .feeding
  endCause    : Option EndCause := none
  refusal     : Option HoleRefusal := none
  granted     : List Grant := []
  claimTag    : Option Nat := none
  claimDue    : Nat := 0
  claims      : Nat := 0
  timeouts    : Nat := 0
  releaseSet  : List Nat := []
  filledCount : Nat := 0
  deriving DecidableEq, Repr

/-- What BCT owns (R1, R26, R156). The table holds at most 8 records; an entry with no record is free.
The directory stands in the order the entries were last heard, longest ago first. -/
structure Bct where
  batches      : List BatchRec := []
  terminalNext : Nat := 0
  directory    : List DirEntry := []
  fill         : Option FillJob := none
  deriving DecidableEq, Repr

/-! ## Page Store -/

/-- A byte memory in canonical form: addresses strictly rising, no byte equal to what an unlisted address
reads as. -/
abbrev Memory := List Host.Cell

/-- A used page record (R78) under its identifier. -/
structure PageRec where
  id             : Nat
  state          : PageState := .filling
  batch          : Option Nat := none
  position       : Option Nat := none
  side           : Side
  pagesOfSheet   : Option Nat := none
  mark           : Bool := false
  fillFlag       : Bool := false
  size           : Nat := 0
  blocks         : List Nat := []
  restarts       : Nat := 0
  tag            : Nat
  discardPending : Bool := false
  deriving DecidableEq, Repr

/-- A capture progress entry (R80). -/
structure Progress where
  frontBegun : Bool := false
  frontEnded : Bool := false
  backBegun  : Bool := false
  backEnded  : Bool := false
  mode       : KeepMode := .keep
  deriving DecidableEq, Repr

/-- A batch queue: its READY pages, by identifier, in queue order (R87). -/
structure BatchQueue where
  batch : Nat
  pages : List Nat := []
  deriving DecidableEq, Repr

/-- What PGS owns (R77 to R92). `recs` holds the used records; `recPool` the free identifiers in an order
the manual leaves free (log entry 6). -/
structure Pgs where
  recs         : List PageRec := []
  recPool      : List Nat := List.range 512
  freeRecs     : Nat := 512
  freeBlocks   : Nat := 16384
  mem          : Memory := []
  progress     : List Progress := List.replicate 8 {}
  level        : Level := .normal
  queues       : List BatchQueue := []
  fillQueue    : List Nat := []
  strayCapture : Nat := 0
  lossNoRecord : Nat := 0
  lossOversize : Nat := 0
  lossNoBlock  : Nat := 0
  deriving DecidableEq, Repr

/-! ## Transfer Engine -/

/-- A descriptor (R113), with the deadline of the pending ask and, for an active descriptor whose page
waits for its frame, whether a PAGE STORED set the give-up (R120) and whether the restart limit was
already met when RESTART was set (R126). -/
structure Desc where
  phase     : DescPhase := .empty
  page      : Option Nat := none
  gateway   : Option Nat := none
  slot      : Option Nat := none
  start     : Nat := 0
  next      : Nat := 0
  remaining : Nat := 0
  lastBurst : Option Nat := none
  askTag    : Option Nat := none
  askDue    : Nat := 0
  giveUp    : GiveUp := .none
  stored    : Bool := false
  fatal     : Bool := false
  deriving DecidableEq, Repr

/-- A transfer channel (R113); `retryDue` is present while the retry wait runs. -/
structure Channel where
  active   : Desc := {}
  staged   : Desc := {}
  retryDue : Option Nat := none
  deriving DecidableEq, Repr

/-- An outstanding-sent entry (R125). -/
structure Outstanding where
  page    : Nat
  gateway : Nat
  slot    : Nat
  due     : Nat
  deriving DecidableEq, Repr

/-- What TXE owns (R113, R125, section 6.9). -/
structure Txe where
  chanA            : Channel := {}
  chanB            : Channel := {}
  outstanding      : List Outstanding := []
  offers           : Nat := 0
  grants           : Nat := 0
  waits            : Nat := 0
  refusals         : Nat := 0
  storedPages      : Nat := 0
  offerTimeouts    : Nat := 0
  staleAnswers     : Nat := 0
  failRestarts     : Nat := 0
  faultRestarts    : Nat := 0
  staleCompletions : Nat := 0
  storeTimeouts    : Nat := 0
  failedPages      : Nat := 0
  deriving DecidableEq, Repr

/-! ## Intake Controller -/

/-- What a slot in use holds: sender, page fields from the offer, expected next offset and reserved blocks
(R134). A FREE slot has none of them, the expected next offset too (log entry 43). These are also the fields of the
page header (R133, log entry 9). -/
structure SlotHold where
  sender       : Nat
  page         : PageId
  pagesOfSheet : Nat
  mark         : Bool
  size         : Nat
  expected     : Nat
  blocks       : List Nat
  deriving DecidableEq, Repr

/-- An intake slot (R134). While the idle age runs it is the clock less `idleSince`; `idleStop` is the age at
which it stopped, absent while it runs (R138, R140). -/
structure Slot where
  state     : SlotState := .free
  hold      : Option SlotHold := none
  idleSince : Nat := 0
  idleStop  : Option Nat := some 0
  disowned  : Bool := false
  former    : Option (Nat × PageId) := none
  deriving DecidableEq, Repr

/-- The record of one position with a side stored (R147). -/
structure PosRec where
  position     : Nat
  front        : Bool := false
  back         : Bool := false
  pagesOfSheet : Option Nat := none
  mark         : Bool := false
  deriving DecidableEq, Repr

/-- A commit record (R147). A position with no entry in `positions` has no side stored. -/
structure CommitRec where
  batch     : Nat
  owner     : Nat
  state     : CommitState := .opened
  positions : List PosRec := []
  present   : Nat := 0
  order     : Option Nat := none
  deriving DecidableEq, Repr

/-- What ICT owns (R133 to R147, section 7.6). -/
structure Ict where
  slots              : List Slot := List.replicate 48 {}
  freeBlocks         : Nat := 16384
  mem                : Memory := []
  storeQueue         : List Nat := []
  portBusy           : Bool := false
  commits            : List CommitRec := []
  commitNext         : Nat := 0
  offersGranted      : Nat := 0
  offersWaited       : Nat := 0
  offersRefused      : Nat := 0
  offersStored       : Nat := 0
  burstsTaken        : Nat := 0
  faultsSent         : Nat := 0
  expiredSlots       : Nat := 0
  storedPages        : Nat := 0
  storeErrors        : Nat := 0
  disownedCompletions : Nat := 0
  strayCompletions   : Nat := 0
  deriving DecidableEq, Repr

/-! ## Ports -/

/-- What the part drives on a port: the tray lift, a pick with its tag, a diverter command, a frame on the
line as bytes, and a page write on the store port (slot, header fields, page data). -/
inductive PortOut where
  | trayLift
  | pick (tag : Nat)
  | diverter (position : Pocket)
  | line (bytes : List Byte)
  /-- The whole hold of the slot stands for the page header of R133 (log entry 9). -/
  | storeWrite (slot : Nat) (header : SlotHold) (data : List Byte)
  deriving DecidableEq, Repr

end Sys2Proof.Machine
end

