-- ==== Sys2Proof/Machine/State.lean ====
section
/-! DEFINITION. The state of the part: one record per block, which owns it (introduction, Blocks), with the
clock, the port record and the queue of waiting commands; the reasons a step can stop; the state at
reset. -/

namespace Sys2Proof.Machine

/-- Where the Start sequence stands (R192): before START_UP, between START_UP and the end of the settings
load, and after it. -/
inductive Power where
  | off | loading | running
  deriving DecidableEq, Repr

/-- The whole state of one station. `freeNext` is the model's own: the number of values that the manual leaves
open and that have been taken so far (log entry 33). -/
structure State where
  power   : Power := .off
  now     : Nat := 0
  oru     : Oru := {}
  fli     : Fli := {}
  tsq     : Tsq := {}
  dfm     : Dfm := {}
  bct     : Bct := {}
  pgs     : Pgs := {}
  txe     : Txe := {}
  ict     : Ict := {}
  freeNext : Nat := 0
  portLog : List PortOut := []
  pending : List Instr := []
  deriving DecidableEq, Repr

/-- Why a step stops with a fault. The manual names no stop of the machine, so the type has no
constructor and no meaning answers a fault; nothing is unsafe in that. -/
inductive Fault where
  deriving DecidableEq, Repr

/-- Why a command has no meaning. -/
inductive Refusal where
  /-- Raised by an arm of exec whose command has no meaning yet; safe, since the machine stops there. No
  arm raises it now. -/
  | notModelled (mnemonic : String)
  deriving DecidableEq, Repr

/-- Power-up: the straps are not sampled, every block stands at the Start value its chapter gives, and the
fields that Start itself fixes wait for START_UP and SETTINGS_LOAD (log entry 1). -/
def State.reset : State := {}

end Sys2Proof.Machine
end

