-- ==== Sys2Proof/Machine/Ops.lean ====
section
/-! DEFINITION. The named operations that every block uses: counts that saturate, keyed updates of tables,
byte memories made of blocks, the clock, and handing a frame to the Floor Line Interface. -/

namespace Sys2Proof

/-- COMMITTED, REFUSED and ABANDONED are the terminal states (R1). -/
def BatchState.terminal : BatchState → Bool
  | .committed | .refused | .abandoned => true
  | _ => false

end Sys2Proof

namespace Sys2Proof.Machine

/-! ## Counts and tables -/

/-- A count raised by one that stops at its upper bound (R2, section 5.9). -/
def bump (bound n : Nat) : Nat := min bound (n + 1)
def bump8 (n : Nat) : Nat := bump 255 n
def bump16 (n : Nat) : Nat := bump 65535 n
def bump32 (n : Nat) : Nat := bump 4294967295 n

/-- The list with its first element that meets `p` changed by `f`. -/
def updFirst {α : Type} (p : α → Bool) (f : α → α) : List α → List α
  | [] => []
  | x :: xs => if p x then f x :: xs else x :: updFirst p f xs

/-! ## One update per block -/

def State.modOru (s : State) (f : Oru → Oru) : State := { s with oru := f s.oru }
def State.modFli (s : State) (f : Fli → Fli) : State := { s with fli := f s.fli }
def State.modTsq (s : State) (f : Tsq → Tsq) : State := { s with tsq := f s.tsq }
def State.modDfm (s : State) (f : Dfm → Dfm) : State := { s with dfm := f s.dfm }
def State.modBct (s : State) (f : Bct → Bct) : State := { s with bct := f s.bct }
def State.modPgs (s : State) (f : Pgs → Pgs) : State := { s with pgs := f s.pgs }
def State.modTxe (s : State) (f : Txe → Txe) : State := { s with txe := f s.txe }
def State.modIct (s : State) (f : Ict → Ict) : State := { s with ict := f s.ict }

/-- The part drives a port. -/
def State.drive (s : State) (o : PortOut) : State := { s with portLog := s.portLog ++ [o] }

/-! ## The clock -/

/-- The clock is brought to the end of a timer whose expiry is taken (log entry 3). -/
def State.advanceTo (s : State) (t : Nat) : State := { s with now := max s.now t }

/-! ## Byte memories (R77, R133) -/

/-- One byte of a memory. -/
def Memory.read : Memory → Nat → Byte
  | [], _ => Config.unwritten
  | (b, v) :: rest, a => if a = b then v else Memory.read rest a

/-- One byte written, in canonical form: a byte equal to what an unlisted address reads as is not listed. -/
def Memory.write : Memory → Nat → Byte → Memory
  | [], a, v => if v = Config.unwritten then [] else [(a, v)]
  | (b, w) :: rest, a, v =>
    if a < b then (if v = Config.unwritten then (b, w) :: rest else (a, v) :: (b, w) :: rest)
    else if a = b then (if v = Config.unwritten then rest else (a, v) :: rest)
    else (b, w) :: Memory.write rest a v

/-- The canonical form: addresses strictly rising, nothing listed that reads as unlisted. -/
abbrev Memory.wf (m : Memory) : Prop :=
  m.Pairwise (fun c d => c.1 < d.1) ∧ ∀ c ∈ m, c.2 ≠ Config.unwritten

/-- The memory address of byte `off` of what a block list holds (R77, R133). -/
def blockAddr (blocks : List Nat) (off : Nat) : Nat :=
  blocks.getD (off / Config.blockBytes) 0 * Config.blockBytes + off % Config.blockBytes

/-- Bytes written at successive offsets of a block list. -/
def Memory.writeRun : Memory → List Nat → Nat → List Byte → Memory
  | m, _, _, [] => m
  | m, blocks, off, v :: vs => Memory.writeRun (m.write (blockAddr blocks off) v) blocks (off + 1) vs

/-- Bytes read from successive offsets of a block list. -/
def Memory.readRun (m : Memory) (blocks : List Nat) (off n : Nat) : List Byte :=
  (List.range n).map fun k => m.read (blockAddr blocks (off + k))

/-- Blocks needed for `n` bytes, rounded up (R78, R134). -/
def blocksFor (n : Nat) : Nat := (n + (Config.blockBytes - 1)) / Config.blockBytes

/-- The `n` lowest blocks, from `k` up, that `used` does not list. -/
def takeFree (used : List Nat) : Nat → Nat → Nat → List Nat
  | 0, _, _ => []
  | _ + 1, _, 0 => []
  | fuel + 1, k, n + 1 =>
    if used.contains k then takeFree used fuel (k + 1) (n + 1) else k :: takeFree used fuel (k + 1) n

/-- Blocks taken from the pool: the manual says "in any order"; the lowest numbered (log entry 7). -/
def freshBlocks (used : List Nat) (n : Nat) : List Nat := takeFree used Config.blocks 0 n

/-! ## Handing frames to the Floor Line Interface (R103, R104) -/

/-- A frame handed to FLI: it joins the transmit control queue, is dropped when the queue is full, or is
discarded and counted as unsent, by the line state (R103). -/
def hand (dst tag : Nat) (p : Payload) (s : State) : State :=
  match s.fli.line with
  | .joined | .listening =>
    if s.fli.txQueue.length < Config.queueFrames then
      s.modFli fun l => { l with txQueue := l.txQueue ++ [⟨⟨dst, s.oru.address, tag⟩, p⟩] }
    else s.modFli fun l => { l with txDrops := bump16 l.txDrops }
  | .unaddressed | .conflict => s.modFli fun l => { l with unsent := bump16 l.unsent }

/-- A frame that is neither an ask nor an answer bears tag 0 (section 11.2). -/
def tell (dst : Nat) (p : Payload) (s : State) : State := hand dst 0 p s

/-- An ask: FLI writes the counter's value into the frame and advances the counter (R104). The asking
block reads the tag as `s.fli.askTag` before the call. -/
def ask (dst : Nat) (p : Payload) (s : State) : State :=
  hand dst s.fli.askTag p (s.modFli fun l => { l with askTag := (l.askTag + 1) % 256 })

/-- The end of an answer timeout started now (R105). -/
def State.answerDue (s : State) : Nat := s.now + s.oru.settings.answerMs

/-! ## Reading and changing the tables -/

/-- The batch record with a number (R1: the table holds no two). -/
def State.findBatch (s : State) (n : Nat) : Option BatchRec := s.bct.batches.find? (·.number == n)

/-- A batch record changed. -/
def State.updBatch (s : State) (n : Nat) (f : BatchRec → BatchRec) : State :=
  s.modBct fun b => { b with batches := updFirst (·.number == n) f b.batches }

/-- The directory entry for a number (R26). -/
def State.findDir (s : State) (n : Nat) : Option DirEntry := s.bct.directory.find? (·.batch == n)

/-- The page record with an identifier. -/
def State.findRec (s : State) (id : Nat) : Option PageRec := s.pgs.recs.find? (·.id == id)

def State.updRec (s : State) (id : Nat) (f : PageRec → PageRec) : State :=
  s.modPgs fun g => { g with recs := updFirst (·.id == id) f g.recs }

/-- The track entry with a tag. -/
def State.findEntry (s : State) (tag : Nat) : Option TrackEntry := s.tsq.track.find? (·.tag == tag)

def State.updEntry (s : State) (tag : Nat) (f : TrackEntry → TrackEntry) : State :=
  s.modTsq fun t => { t with track := updFirst (·.tag == tag) f t.track }

/-- A capture progress entry (R80). -/
def State.progressOf (s : State) (tag : Nat) : Progress := s.pgs.progress.getD tag {}

def State.updProgress (s : State) (tag : Nat) (f : Progress → Progress) : State :=
  s.modPgs fun g => { g with progress := g.progress.modify tag f }

/-- A channel of the Transfer Engine. -/
def State.chan (s : State) : ChanId → Channel
  | .a => s.txe.chanA
  | .b => s.txe.chanB

def State.updChan (s : State) (c : ChanId) (f : Channel → Channel) : State :=
  match c with
  | .a => s.modTxe fun t => { t with chanA := f t.chanA }
  | .b => s.modTxe fun t => { t with chanB := f t.chanB }

/-- A peer table entry (R110). -/
def State.peer (s : State) (a : Nat) : Peer := s.fli.peers.getD a {}

/-- The peer table shows the address PRESENT. -/
def State.isPresent (s : State) (a : Nat) : Bool := (s.peer a).state == .present

/-- An intake slot; a number outside 0 to 47 has none. -/
def State.slot? (s : State) (n : Nat) : Option Slot := s.ict.slots[n]?

def State.updSlot (s : State) (n : Nat) (f : Slot → Slot) : State :=
  s.modIct fun i => { i with slots := i.slots.modify n f }

/-- The commit record of a batch (R147). -/
def State.findCommit (s : State) (n : Nat) : Option CommitRec := s.ict.commits.find? (·.batch == n)

def State.updCommit (s : State) (n : Nat) (f : CommitRec → CommitRec) : State :=
  s.modIct fun i => { i with commits := updFirst (·.batch == n) f i.commits }

/-- The fill job changed, if there is one. -/
def State.updJob (s : State) (f : FillJob → FillJob) : State :=
  s.modBct fun b => { b with fill := b.fill.map f }

end Sys2Proof.Machine
end

