-- ==== Sys2Proof/Machine/Flags.lean ====
section
/-! DEFINITION. What the station shows of its condition: the attention set with its ATTENTION frame
(R187), the motor line (section 2.2, R55, R59) and the panel lamps (R189). -/

namespace Sys2Proof

/-- The class codes (section 11.1). -/
def Attn.code : Attn → Nat
  | .jam => 0 | .doubleFeedStop => 1 | .lateDecision => 2 | .diverter => 3 | .diverterLate => 4
  | .captureMismatch => 5 | .patchSuspect => 6 | .overrun => 7 | .storeExhausted => 8 | .holeLimit => 9
  | .learnDone => 10 | .learnFailed => 11 | .batchRefused => 12 | .batchDisputed => 13
  | .batchHalted => 14 | .transferFailed => 15 | .fillEnded => 16 | .fillSurplus => 17
  | .peerSilent => 18 | .lineConflict => 19 | .storePortError => 20 | .configDefault => 21

/-- The class as a set of one. -/
def Attn.bit (c : Attn) : ClassSet := 1#32 <<< c.code

/-- Every hold reason is raised as the class of the same name (R55). -/
def HoldReason.attn : HoldReason → Attn
  | .jam => .jam | .doubleFeedStop => .doubleFeedStop | .lateDecision => .lateDecision
  | .diverter => .diverter | .diverterLate => .diverterLate | .captureMismatch => .captureMismatch
  | .patchSuspect => .patchSuspect | .storeExhausted => .storeExhausted | .holeLimit => .holeLimit

end Sys2Proof

namespace Sys2Proof.Machine

/-- The 22 classes; bits 22 to 31 stand for no class. -/
def classMask : ClassSet := 0x3fffff#32

/-- A block raises a class: the class joins the set, and the one that finds the set empty causes an
ATTENTION frame to the console (R187). -/
def raise (c : Attn) (s : State) : State :=
  if s.oru.attention = 0 then
    tell 0 (.attention c.bit)
      (s.modOru fun o => { o with attention := c.bit, attentionFrames := bump16 o.attentionFrames })
  else s.modOru fun o => { o with attention := o.attention ||| c.bit }

/-- The motor by transport state (table of section 2.2). -/
def motorOf : Transport → Bool
  | .feeding | .paused | .draining => true
  | .idle | .armed | .held => false

/-- What TSQ drives the motor to: HELD stops it (R55), and so do Start and Restart, which leave IDLE (R59); a
gateway and a station before the end of the settings load have it stopped. -/
def State.motorRuns (s : State) : Bool :=
  s.power == .running && s.oru.role == .scanner && motorOf s.tsq.transport

/-- The four lamps. -/
structure Lamps where
  ready     : Bool
  hold      : Bool
  attention : Bool
  line      : Bool
  deriving DecidableEq, Repr

/-- What ORU drives the lamps to (R189): every lamp is unlit until the settings load is over. -/
def State.lamps (s : State) : Lamps :=
  if s.power = .running then
    { ready := s.oru.role = .scanner ∧ (s.tsq.transport = .armed ∨ s.tsq.transport = .feeding)
      hold := s.oru.role = .scanner ∧ s.tsq.transport = .held
      attention := s.oru.attention ≠ 0
      line := s.fli.line = .joined }
  else { ready := false, hold := false, attention := false, line := false }

end Sys2Proof.Machine
end

