-- ==== Sys2Proof/Machine/Transport.lean ====
section
/-! DEFINITION. The Transport Sequencer's shared operations: holds, windows, routes, the diverter
handshake, picks, the store level signals and the end of a feed (chapter 2). -/

namespace Sys2Proof

/-- LENGTH, LAYER and BOTH are the suspect verdicts (R67). -/
def Verdict.suspect : Verdict → Bool
  | .length | .layer | .both => true
  | .clean | .exempt => false

/-- The window timers run in ARMED, FEEDING, PAUSED and DRAINING (R40). -/
def Transport.windowsRun : Transport → Bool
  | .armed | .feeding | .paused | .draining => true
  | .idle | .held => false

end Sys2Proof

namespace Sys2Proof.Machine

/-! ## Reading track entries -/

/-- The edge times of one sensor (R36). -/
def EdgeRecord.times (r : EdgeRecord) : Sensor → SensorTimes
  | .entry => r.entry | .capture => r.capture | .gate => r.gate | .exit => r.exit

/-- One sensor's edge times changed. -/
def EdgeRecord.upd (r : EdgeRecord) (sn : Sensor) (f : SensorTimes → SensorTimes) : EdgeRecord :=
  match sn with
  | .entry => { r with entry := f r.entry } | .capture => { r with capture := f r.capture }
  | .gate => { r with gate := f r.gate } | .exit => { r with exit := f r.exit }

/-- The binding is FILL. -/
def Binding.isFill : Binding → Bool
  | .fill _ => true
  | _ => false

/-- The entry is bound to the batch; an entry marked abandoned is bound to none (R25). -/
def TrackEntry.boundTo (e : TrackEntry) (b : Nat) : Bool := e.binding == .batch b && !e.abandoned

/-- The verdict is suspect. -/
def TrackEntry.suspect (e : TrackEntry) : Bool := e.verdict.any (·.suspect)

/-- The report carries a patch code. -/
def TrackEntry.patched (e : TrackEntry) : Bool := e.report.any (·.patch != .none)

/-- The entry meets the three conditions of a marked sheet (R69). -/
def TrackEntry.marked (e : TrackEntry) : Bool := e.suspect && e.snap.policy == .mark && !e.overrun

/-- The entry has taken a position of its batch or may still take one (R49; R14, R44, R46). -/
def TrackEntry.mayTake (e : TrackEntry) (b : Nat) : Bool :=
  e.boundTo b && !e.overrun && (e.report.isNone || e.position.isSome)

/-- The sheets of the track bound to a batch (R20). -/
def State.boundCount (s : State) (b : Nat) : Nat := s.tsq.track.countP (·.boundTo b)

/-! ## Holds (R55) -/

/-- A hold cause is taken: HELD is entered with it, or in HELD its class is raised and the first reason
kept. -/
def hold (r : HoldReason) (s : State) : State :=
  if s.tsq.transport = .held then raise r.attn s
  else raise r.attn
    (s.modTsq fun t => { t with transport := .held, holdReason := some r, handshake := none })

/-! ## Windows (R40) -/

/-- The sensor before a sensor in the path. -/
def sensorBefore : Sensor → Option Sensor
  | .entry => none | .capture => some .entry | .gate => some .capture | .exit => some .gate

/-- The end of the window of an awaited edge; none while the edge has no window or has been taken. -/
def windowEnd (e : TrackEntry) (sn : Sensor) (edge : EdgeKind) : Option Nat :=
  let own := e.edges.times sn
  match edge with
  | .leading =>
    if own.lead.isSome then none else
    match sensorBefore sn with
    | none => some (e.pickedAt + Config.pickWindow)
    | some p => (e.edges.times p).lead.map (· + Config.edgeWindow)
  | .trailing =>
    if own.trail.isSome then none else
    match sn, own.lead, e.edges.entry.lead, e.edges.entry.trail with
    | .entry, some t, _, _ => some (t + Config.entryTrailWindow)
    | _, some t, some a, some b => some (t + (b - a) + Config.edgeWindow)
    | _, _, _, _ => none

/-! ## The diverter handshake (R50) -/

/-- The entry that owns the gate: the oldest whose trailing edge has not been taken at GATE. -/
def State.gateOwner (s : State) : Option TrackEntry := s.tsq.track.find? (·.edges.gate.trail.isNone)

/-- The handshake begins for a sheet whose route is decided. -/
def startHandshake (tag : Nat) (route : Pocket) (s : State) : State :=
  if s.tsq.diverter = route ∧ s.tsq.diverterConfirmed then
    s.updEntry tag fun e => { e with routeSettled := true }
  else
    (s.modTsq fun t => { t with
      diverter := route, diverterConfirmed := false, handshake := some ⟨tag, false, s.now⟩ }).drive
        (.diverter route)

/-- The handshake is started for the entry that owns the gate as soon as its route is decided. -/
def handshakeTest (s : State) : State :=
  match s.gateOwner with
  | some e =>
    match e.route with
    | some r =>
      if e.routeSettled ∨ s.tsq.handshake.isSome ∨ s.tsq.transport = .held then s
      else startHandshake e.tag r s
    | none => s
  | none => s

/-! ## Routes (R48, R49) -/

/-- Every earlier entry in the track has its report taken. -/
def earlierReported (track : List TrackEntry) (tag : Nat) : Bool :=
  (track.takeWhile (·.tag != tag)).all (·.report.isSome)

/-- The route that an entry's overrun mark, policy and verdict call for. -/
def TrackEntry.routeWanted (e : TrackEntry) : Option Pocket :=
  if e.overrun then some .reject else
  match e.snap.policy, e.verdict with
  | .mark, _ => some .main
  | .divert, some v => if v.suspect then some .reject else some .main
  | .stop, some v => if v.suspect then none else some .main
  | _, none => none

/-- The holes that the batch has, with those that other sheets routed REJECT may yet make (R49). -/
def State.holesExpected (s : State) (b tag : Nat) : Nat :=
  ((s.findBatch b).map (·.holes.length)).getD 0 +
    s.tsq.track.countP fun e => e.tag != tag && e.route == some .reject && e.mayTake b

/-- A hole would fit for the entry, or none is to be checked for. -/
def State.holeFits (s : State) (e : TrackEntry) : Bool :=
  match e.binding with
  | .batch b => !e.mayTake b || s.holesExpected b e.tag < Config.holeEntries
  | _ => true

/-- The entry's route is decided, and the handshake begins if the entry owns the gate. -/
def decideRoute (tag : Nat) (route : Pocket) (s : State) : State :=
  handshakeTest (s.updEntry tag fun e => { e with route := some route })

/-- TSQ tests an entry's route. -/
def routeTest (tag : Nat) (s : State) : State :=
  match s.findEntry tag with
  | none => s
  | some e =>
    if s.tsq.transport = .held ∨ e.route.isSome ∨ ¬ earlierReported s.tsq.track tag then s else
    match e.routeWanted with
    | none => s
    | some .main => decideRoute tag .main s
    | some .reject => if s.holeFits e then decideRoute tag .reject s else hold .holeLimit s

/-- The tags of the entries later in the track than one. -/
def State.laterTags (s : State) (tag : Nat) : List Nat :=
  ((s.tsq.track.dropWhile (·.tag != tag)).drop 1).map (·.tag)

/-- The routes of the later entries tested, oldest first (R44). -/
def routesLater (tag : Nat) (s : State) : State := (s.laterTags tag).foldl (fun s t => routeTest t s) s

/-! ## Picks (R37 to R39) -/

/-- Positions of the fill job reserved by sheets in the track. -/
def State.reserves (s : State) (p : Nat) : Bool := s.tsq.track.any (·.binding == .fill (some p))

/-- The granted position the next fill pick takes: first in granted order, UNUSED, not reserved (R38). -/
def State.nextFill (s : State) : Option Grant :=
  s.bct.fill.bind fun j => j.granted.find? fun g => g.state == .unused && !s.reserves g.position

/-- The learn snapshot (R72). -/
def learnSnap (bank tolerance : Nat) : AttrSet := ⟨.duplex, .divert, bank, none, tolerance⟩

/-- A pick is issued: the tag, the new entry, the reset of the tag's capture progress, the command. -/
def pickSheet (binding : Binding) (snap : AttrSet) (s : State) : State :=
  ((s.modTsq fun t => { t with
      tagCounter := (t.tagCounter + 1) % Config.trackTags
      track := t.track ++ [{ tag := t.tagCounter, binding, snap, pickedAt := s.now }] }).updProgress
    s.tsq.tagCounter fun _ => {}).drive (.pick s.tsq.tagCounter)

/-- The learn sheet's pick: its route is REJECT at once, the learn is PICKED, the transport drains. -/
def pickLearn (l : Learn) (s : State) : State :=
  let tag := s.tsq.tagCounter
  let s := pickSheet .learn (learnSnap l.bank s.oru.settings.toleranceDefault) s
  let s := s.modDfm fun d => { d with learn := some { l with phase := .picked } }
  let s := s.modTsq fun t => { t with transport := .draining }
  decideRoute tag .reject s

/-- The most recently picked sheet has shown its trailing edge at ENTRY, or the track is empty. -/
def trackReady (track : List TrackEntry) : Bool :=
  match track.getLast? with
  | none => true
  | some e => e.edges.entry.trail.isSome

/-- The pick condition and the pick (R37); only a batch in ACTIVE may be fed (section 1.2). -/
def pickTest (s : State) : State :=
  if s.tsq.transport = .feeding ∧ s.tsq.track.length < Config.trackEntries ∧ trackReady s.tsq.track then
    match s.tsq.feedMode with
    | some .batch =>
      match s.tsq.fedBatch.bind s.findBatch with
      | some b => if b.state = .active then pickSheet (.batch b.number) b.attrs s else s
      | none => s
    | some .fill =>
      match s.nextFill with
      | some g => pickSheet (.fill (some g.position)) g.snap s
      | none => s
    | some .learn =>
      match s.dfm.learn with
      | some l => pickLearn l s
      | none => s
    | none => s
  else s

/-! ## Store level signals (R33) -/

def pauseSignal (s : State) : State :=
  s.modTsq fun t => { t with
    storeLevel := .pause, transport := if t.transport = .feeding then .paused else t.transport }

def resumeSignal (s : State) : State :=
  pickTest (s.modTsq fun t => { t with
    storeLevel := .normal, transport := if t.transport = .paused then .feeding else t.transport })

/-! ## The end of a feed (R34, R35) -/

/-- IDLE is entered; the feed mode and the fed batch become absent (R29). -/
def toIdle (s : State) : State :=
  s.modTsq fun t => { t with transport := .idle, feedMode := none, fedBatch := none }

/-- The feed stops: from FEEDING or PAUSED to DRAINING, from ARMED to IDLE, else no change. -/
def feedStops (s : State) : State :=
  match s.tsq.transport with
  | .feeding | .paused => s.modTsq fun t => { t with transport := .draining }
  | .armed => toIdle s
  | .idle | .draining | .held => s

/-- DRAINING with an empty track. -/
def State.drained (s : State) : Bool := s.tsq.transport == .draining && s.tsq.track.isEmpty

/-- The feed has entered DRAINING with an empty track and passes through it at once (R35). A transport that was
in DRAINING already is left as it is by a withdrawal (R34): the DRAINING test of the settle comes later (R53). -/
def drainedNow (before after : State) : Bool := before.tsq.transport != .draining && after.drained

/-- A withdrawal that names a batch (R34); the feed is in BATCH mode, so the DRAINING test gives no fill
notice. -/
def withdrawBatch (b : Nat) (s : State) : State :=
  if s.tsq.feedMode = some .batch ∧ s.tsq.fedBatch = some b then
    let s' := feedStops s
    if drainedNow s s' then toIdle s' else s'
  else s

/-- A withdrawal that names the fill job, before the DRAINING test. -/
def withdrawFill (s : State) : State := if s.tsq.feedMode = some .fill then feedStops s else s

end Sys2Proof.Machine
end

