-- ==== Sys2Proof/Machine/Detection.lean ====
section
/-! DEFINITION. The Double-Feed Monitor: zone readings, the two tests, exemption matching, the verdict and
the learn (chapter 3). -/

namespace Sys2Proof.Machine

/-! ## Tests (R63 to R66) -/

/-- A run of consecutive LAYERED readings at least as long as the threshold; `run` is the run so far. -/
def hasRun (threshold : Nat) : Nat → List Bool → Bool
  | run, [] => threshold ≤ run
  | run, true :: rest => hasRun threshold (run + 1) rest
  | run, false :: rest => threshold ≤ run || hasRun threshold 0 rest

/-- Readings from zone `k + 1` on as a zone set; a zone without a reading counts as CLEAR. -/
def zoneSetFrom : Nat → List Bool → ZoneSet
  | _, [] => 0
  | k, b :: rest => (if b then 1#64 <<< (63 - k) else 0) ||| zoneSetFrom (k + 1) rest

/-- A profile's readings as a zone set, zone 1 the most significant bit. -/
def zoneSet (profile : List Bool) : ZoneSet := zoneSetFrom 0 (profile.take Config.zones)

/-- The number of zones in a set. -/
def zoneCount (z : ZoneSet) : Nat := (List.range 64).countP fun k => z.getLsbD k

/-- Masked zones that may differ (R66). -/
def unequalAllowed : ExMode → Nat
  | .strict => 0
  | .loose => 2

/-- The entry matches a sheet with this profile (R66). -/
def Exemption.fits (x : Exemption) (profile : List Bool) : Bool :=
  x.valid && x.mask != 0 && zoneCount (x.mask &&& (zoneSet profile ^^^ x.pattern)) ≤ unequalAllowed x.mode

/-- Length suspicion (R63); an absent length stands for NO_MEASURE. -/
def lengthSuspicion (snap : AttrSet) (length : Option Nat) : Bool :=
  match snap.nominal, length with
  | none, _ => false
  | some _, none => true
  | some n, some l => n + snap.tolerance < l

/-- The place of entry `k` of a bank among the twelve. -/
def exemptionIndex (bank k : Nat) : Nat := Config.bankEntries * bank + k

/-- The first entry of the bank that matches, in index order (R65). -/
def searchBank (d : Dfm) (bank : Nat) (profile : List Bool) : Option Nat :=
  (List.range Config.bankEntries).find? fun k => (d.exemptions.getD (exemptionIndex bank k) {}).fits profile

/-- The verdict table (R67): length suspicion, layer suspicion before the search, match found. -/
def verdictTable : Bool → Bool → Bool → Verdict
  | false, false, _ => .clean
  | false, true, true => .exempt
  | true, false, _ => .length
  | true, true, true => .length
  | false, true, false => .layer
  | true, true, false => .both

/-- The verdict of a sheet and the entry index recorded with it (R63 to R67). -/
def judge (s : State) (e : TrackEntry) : Verdict × Option Nat :=
  let layered := hasRun s.oru.settings.runThreshold 0 e.profile
  let index := if layered then searchBank s.dfm e.snap.bank e.profile else none
  (verdictTable (lengthSuspicion e.snap e.length) layered index.isSome, index)

/-- The match count of the matching entry raised (R65). -/
def countMatch (bank : Nat) (index : Option Nat) (s : State) : State :=
  match index with
  | none => s
  | some k => s.modDfm fun d => { d with
      exemptions := d.exemptions.modify (exemptionIndex bank k) fun x => { x with matched := bump16 x.matched } }

/-- An exemption entry written, its match count set to 0 (R70, R73). -/
def writeExemption (bank entry : Nat) (x : Exemption) (s : State) : State :=
  s.modDfm fun d => { d with exemptions := d.exemptions.set (exemptionIndex bank entry) { x with matched := 0 } }

/-- The learn completes at the learn sheet's verdict in phase PICKED (R73). -/
def completeLearn (profile : List Bool) (s : State) : State :=
  match s.dfm.learn with
  | some l =>
    if l.phase = .picked then
      let s := writeExemption l.bank l.entry
        { valid := true, mask := l.mask, pattern := zoneSet profile, mode := l.mode } s
      raise .learnDone (s.modDfm fun d => { d with learn := none })
    else s
  | none => s

/-- A zone reading (R61). -/
def zoneReading (tag : Nat) (layered : Bool) (s : State) : State :=
  if s.tsq.transport.windowsRun then
    match s.tsq.track.getLast? with
    | some e =>
      if e.tag = tag ∧ e.edges.entry.trail = none then
        if e.profile.length < Config.zones then s.updEntry tag fun e => { e with profile := e.profile ++ [layered] }
        else s
      else s.modDfm fun d => { d with strayReadings := bump16 d.strayReadings }
    | none => s.modDfm fun d => { d with strayReadings := bump16 d.strayReadings }
  else s

end Sys2Proof.Machine
end

