-- ==== Sys2Proof/Machine/Intake.lean ====
section
/-! DEFINITION. The Intake Controller: offers, bursts, the store queue and port, the commit table (chapter 7). -/

namespace Sys2Proof.Machine

/-! ## Slots (R133 to R135) -/

/-- A slot holds a page in use in every state except FREE. -/
def Slot.inUse (sl : Slot) : Bool := sl.state != .free

/-- The slot holds a page of the batch. -/
def Slot.ofBatch (b : Nat) (sl : Slot) : Bool := sl.inUse && sl.hold.any (·.page.batch == b)

/-- The slot was granted to the sender. -/
def Slot.ofSender (a : Nat) (sl : Slot) : Bool := sl.inUse && sl.hold.any (·.sender == a)

/-- GRANTED or RECEIVING: the idle age runs. -/
def Slot.filling (sl : Slot) : Bool := sl.state == .granted || sl.state == .receiving

/-- The idle age (R140), at most the grant lifetime. -/
def Slot.idleAge (sl : Slot) (now : Nat) : Nat := min Config.grantLifetime (sl.idleStop.getD (now - sl.idleSince))

/-- Every block that a slot reserves (R133). -/
def Ict.reserved (i : Ict) : List Nat :=
  i.slots.flatMap fun sl => match sl.hold with | some h => h.blocks | none => []

/-- A slot made FREE: its former holding remembered (R135), its idle age kept as it stopped (log entry 43). -/
def Slot.freed (sl : Slot) (now : Nat) : Slot :=
  { state := .free, hold := none, disowned := false, idleSince := sl.idleSince
    idleStop := some (sl.idleAge now), former := sl.hold.map fun h => (h.sender, h.page) }

/-- Freeing a slot (R135). -/
def freeSlot (n : Nat) (s : State) : State :=
  match s.slot? n with
  | none => s
  | some sl =>
    let blocks := (sl.hold.map (·.blocks.length)).getD 0
    s.modIct fun i => { i with
      slots := i.slots.set n (sl.freed s.now)
      freeBlocks := i.freeBlocks + blocks
      storeQueue := i.storeQueue.filter (· != n) }

/-- The numbers of the slots that meet a test. -/
def State.slotsWhere (s : State) (p : Slot → Bool) : List Nat :=
  (List.range s.ict.slots.length).filter fun n => (s.slot? n).any p

/-- Several slots freed. -/
def freeSlots (ns : List Nat) (s : State) : State := ns.foldl (fun s n => freeSlot n s) s

/-! ## Offers (R136, R137) -/

/-- The record of a position (R147). -/
def CommitRec.positionRec (r : CommitRec) (p : Nat) : PosRec :=
  (r.positions.find? (·.position == p)).getD { position := p }

/-- The side of the position is stored. -/
def PosRec.has (p : PosRec) : Side → Bool
  | .front => p.front
  | .back => p.back

/-- The commit record shows the side stored. -/
def CommitRec.stored (r : CommitRec) (p : PageId) : Bool := (r.positionRec p.position).has p.side

/-- Blocks that a page needs in a slot (R134). -/
def slotBlocks (size : Nat) : Nat := blocksFor (Config.startOffset + size)

/-- The lowest-numbered FREE slot. -/
def State.lowestFree (s : State) : Option Nat :=
  (List.range s.ict.slots.length).find? fun n => (s.slot? n).any (!·.inUse)

/-- The slots in use that the source holds. -/
def State.slotsHeld (s : State) (a : Nat) : Nat := s.ict.slots.countP (Slot.ofSender a)

/-- A slot in use holds the page, whatever its sender. -/
def State.pageInSlot (s : State) (p : PageId) : Bool :=
  s.ict.slots.any fun sl => sl.inUse && sl.hold.any (·.page == p)

/-- The slot is granted and SLOT GRANT sent (R137). -/
def grantSlot (h : Hdr) (n : Nat) (p : PageId) (k size : Nat) (mark : Bool) (s : State) : State :=
  let blocks := freshBlocks s.ict.reserved (slotBlocks size)
  let hold : SlotHold :=
    { sender := h.src, page := p, pagesOfSheet := k, mark, size, expected := Config.startOffset, blocks }
  let s := s.modIct fun i => { i with
    slots := i.slots.set n { state := .granted, hold := some hold, idleSince := s.now, idleStop := none }
    freeBlocks := i.freeBlocks - blocks.length
    offersGranted := bump16 i.offersGranted }
  hand h.src h.tag (.slotGrant n Config.startOffset) s

/-- An offer answered SLOT WAIT. -/
def answerWait (h : Hdr) (s : State) : State :=
  hand h.src h.tag .slotWait (s.modIct fun i => { i with offersWaited := bump16 i.offersWaited })

/-- An offer answered PAGE REFUSE. -/
def answerRefuse (h : Hdr) (r : PageRefusal) (s : State) : State :=
  hand h.src h.tag (.pageRefuse r) (s.modIct fun i => { i with offersRefused := bump16 i.offersRefused })

/-- An offer answered PAGE STORED. -/
def answerStored (h : Hdr) (p : PageId) (s : State) : State :=
  hand h.src h.tag (.pageStored p Config.noSlot) (s.modIct fun i => { i with offersStored := bump16 i.offersStored })

/-- PAGE OFFER (R136); one of source 0 is taken as one of a station, and its slot has sender 0 (log entry 39). -/
def takePageOffer (h : Hdr) (p : PageId) (k size : Nat) (mark : Bool) (s : State) : State :=
  match s.findCommit p.batch with
  | none => answerRefuse h .unknownBatch s
  | some r =>
    if r.stored p then answerStored h p s
    else if r.state = .committed then answerRefuse h .batchClosed s
    else if Config.maxPage < size then answerRefuse h .tooLarge s
    else if s.pageInSlot p then answerWait h s
    else if Config.slotsPerSender ≤ s.slotsHeld h.src then answerWait h s
    else match s.lowestFree with
      | none => answerWait h s
      | some n =>
        if s.ict.freeBlocks < slotBlocks size then answerWait h s else grantSlot h n p k size mark s

/-! ## The store port (R142, R143) -/

/-- The idle port takes the head of the store queue (R142, R143); the write shows all that the slot holds and the page
data (log entry 9). -/
def storeTest (s : State) : State :=
  match s.ict.portBusy, s.ict.storeQueue with
  | false, n :: rest =>
    let s' := (s.modIct fun i => { i with storeQueue := rest, portBusy := true }).updSlot n
      fun sl => { sl with state := .storing }
    match (s.slot? n).bind (·.hold) with
    | some h => s'.drive (.storeWrite n h (Memory.readRun s.ict.mem h.blocks Config.startOffset h.size))
    | none => s'
  | _, _ => s

/-! ## Bursts (R138, R139) -/

/-- The conditions under which a burst is taken into a slot (R138). -/
def burstFits (src off len : Nat) (sl : Slot) : Bool :=
  sl.filling && sl.hold.any fun h =>
    h.sender == src && off == h.expected && off % Config.span + len ≤ Config.span &&
      off + len ≤ Config.startOffset + h.size

/-- A burst taken into its slot. -/
def takeBurst (n : Nat) (h : SlotHold) (bytes : List Byte) (s : State) : State :=
  let expected := h.expected + bytes.length
  let full := expected == Config.startOffset + h.size
  let s := s.modIct fun i => { i with
    mem := Memory.writeRun i.mem h.blocks h.expected bytes
    burstsTaken := bump16 i.burstsTaken }
  let s := s.updSlot n fun sl => { sl with
    hold := some { h with expected }
    state := if full then .complete else .receiving
    idleSince := s.now
    idleStop := if full then some 0 else none }
  if full then storeTest (s.modIct fun i => { i with storeQueue := i.storeQueue ++ [n] }) else s

/-- A PAGE FAULT that names a page. -/
def faultPage (src n : Nat) (p : PageId) (s : State) : State :=
  tell src (.pageFault p n) (s.modIct fun i => { i with faultsSent := bump16 i.faultsSent })

/-- A PAGE FAULT that names no page is carried with batch number 0; its position and side are values that
the manual leaves open (log entry 33). -/
def faultNoPage (src n : Nat) (s : State) : State :=
  let side := if Config.freeBit s.freeNext then Side.back else Side.front
  faultPage src n ⟨0, (Config.freePosition s.freeNext).toNat, side⟩ { s with freeNext := s.freeNext + 1 }

/-- A fault on a burst (R139). -/
def burstFault (src n : Nat) (s : State) : State :=
  match s.slot? n with
  | none => faultNoPage src n s
  | some sl =>
    match sl.state, sl.hold with
    | .free, _ =>
      match sl.former with
      | some (a, p) => if a = src then faultPage src n p s else faultNoPage src n s
      | none => faultNoPage src n s
    | .storing, some h => if h.sender = src then faultPage src n h.page s else faultNoPage src n s
    | _, some h => if h.sender = src then faultPage src n h.page (freeSlot n s) else faultNoPage src n s
    | _, none => faultNoPage src n s

/-- PAGE DATA (R138, R139). -/
def takePageData (h : Hdr) (n off : Nat) (bytes : List Byte) (s : State) : State :=
  match s.slot? n with
  | some sl =>
    match sl.hold with
    | some hold => if burstFits h.src off bytes.length sl then takeBurst n hold bytes s else burstFault h.src n s
    | none => burstFault h.src n s
  | none => burstFault h.src n s

/-! ## Completions (R144 to R146) -/

/-- The slot being written. -/
def State.storingSlot (s : State) : Option Nat :=
  (List.range s.ict.slots.length).find? fun n => (s.slot? n).any (·.state == .storing)

/-- A side stored; the first side of a position writes its pages-of-sheet; a mark is kept (R144). -/
def PosRec.store (p : PosRec) (h : SlotHold) : PosRec :=
  { p with
    front := p.front || h.page.side == .front
    back := p.back || h.page.side == .back
    pagesOfSheet := if p.front || p.back then p.pagesOfSheet else some h.pagesOfSheet
    mark := p.mark || h.mark }

/-- A position is present (R147). -/
def PosRec.isPresent (p : PosRec) : Bool :=
  match p.pagesOfSheet with
  | some 1 => p.front
  | some _ => p.front && p.back
  | none => false

/-- A position record put in its place. -/
def setPosition (p : PosRec) : List PosRec → List PosRec
  | [] => [p]
  | x :: xs =>
    if p.position < x.position then p :: x :: xs
    else if p.position = x.position then p :: xs
    else x :: setPosition p xs

/-- Steps 1 and 2 of R144. -/
def CommitRec.record (r : CommitRec) (h : SlotHold) : CommitRec :=
  let old := r.positionRec h.page.position
  let new := old.store h
  { r with
    positions := setPosition new r.positions
    present := if new.isPresent && !old.isPresent then r.present + 1 else r.present }

/-- How the completion of a write is taken. -/
inductive Belongs where
  | open_ | committed (stored : Bool) | disowned
  deriving DecidableEq, Repr

/-- Whether the write still belongs to its batch (R144 to R146). -/
def State.writeBelongs (s : State) (sl : Slot) (h : SlotHold) : Belongs :=
  if sl.disowned then .disowned else
  match s.findCommit h.page.batch with
  | some r => if r.state = .opened then .open_ else .committed (r.stored h.page)
  | none => .disowned

/-- A completion whose write no longer belongs to an OPEN batch (R146). -/
def lateCompletion (n : Nat) (h : SlotHold) (stored : Option Bool) (s : State) : State :=
  match stored with
  | none => (freeSlot n s).modIct fun i => { i with disownedCompletions := bump16 i.disownedCompletions }
  | some true => freeSlot n (tell h.sender (.pageStored h.page n) s)
  | some false => freeSlot n (faultPage h.sender n h.page s)

/-- A stray completion (R146). -/
def strayCompletion (s : State) : State :=
  s.modIct fun i => { i with portBusy := false, strayCompletions := bump16 i.strayCompletions }

/-- STORE DONE (R144, R146). -/
def storeDone (s : State) : State :=
  match s.storingSlot with
  | none => storeTest (strayCompletion s)
  | some n =>
    let s := s.modIct fun i => { i with portBusy := false }
    match s.slot? n with
    | some sl =>
      match sl.hold with
      | some h =>
        storeTest (match s.writeBelongs sl h with
          | .open_ =>
            let s := s.updCommit h.page.batch fun r => r.record h
            (freeSlot n (tell h.sender (.pageStored h.page n) s)).modIct
              fun i => { i with storedPages := bump16 i.storedPages }
          | .committed stored => lateCompletion n h (some stored) s
          | .disowned => lateCompletion n h none s)
      | none => storeTest (freeSlot n s)
    | none => storeTest s

/-- STORE ERROR (R145, R146). -/
def storeError (s : State) : State :=
  match s.storingSlot with
  | none => storeTest (strayCompletion s)
  | some n =>
    let s := s.modIct fun i => { i with portBusy := false }
    match s.slot? n with
    | some sl =>
      match sl.hold with
      | some h =>
        storeTest (match s.writeBelongs sl h with
          | .open_ =>
            let s := freeSlot n (tell h.sender (.pageFail h.page n) s)
            raise .storePortError (s.modIct fun i => { i with storeErrors := bump16 i.storeErrors })
          | .committed stored => lateCompletion n h (some stored) s
          | .disowned => lateCompletion n h none s)
      | none => storeTest (freeSlot n s)
    | none => storeTest s

/-! ## The commit table (R147 to R150) -/

/-- Every slot of a batch GRANTED, RECEIVING or COMPLETE is freed. -/
def freeBatchSlots (b : Nat) (s : State) : State :=
  freeSlots (s.slotsWhere fun sl => sl.ofBatch b && sl.state != .storing) s

/-- The slots of an abandoned batch: freed, a STORING one disowned (R149). -/
def abandonSlots (b : Nat) (s : State) : State :=
  (freeBatchSlots b s).modIct fun i => { i with
    slots := i.slots.map fun sl => if sl.ofBatch b && sl.state == .storing then { sl with disowned := true } else sl }

/-- ICT abandons an entry (R149). -/
def abandonEntry (b : Nat) (s : State) : State :=
  (abandonSlots b s).modIct fun i => { i with commits := i.commits.filter (·.batch != b) }

/-- ABANDON frame (R149). -/
def takeAbandon (h : Hdr) (b : Nat) (s : State) : State :=
  if (s.findCommit b).any (·.owner == h.src) then abandonEntry b s else s

/-- ABANDON BATCH at a gateway (R149). -/
def abandonAtGateway (b : Nat) (s : State) : ResultCode × State :=
  if (s.findCommit b).isSome then (.accepted, abandonEntry b s) else (.unknownBatch, s)

/-- The COMMITTED entry with the oldest committed order. -/
def oldestCommitted : List CommitRec → Option CommitRec
  | [] => none
  | r :: rs =>
    match oldestCommitted rs with
    | none => if r.state = .committed then some r else none
    | some x => if r.state = .committed ∧ r.order.getD 0 ≤ x.order.getD 0 then some r else some x

/-- An entry made anew. -/
def makeEntry (b owner : Nat) (s : State) : State :=
  s.modIct fun i => { i with commits := i.commits ++ [{ batch := b, owner }] }

/-- BATCH OPEN at a gateway (R148); one of source 0 is taken as one of a station, and its entry has owner 0 (log entry
39). -/
def takeBatchOpen (h : Hdr) (b gateway : Nat) (s : State) : State :=
  if gateway ≠ s.oru.address then s else
  let accept (s : State) : State := hand h.src h.tag (.openAccept b) s
  match s.findCommit b with
  | some r =>
    if r.state = .committed then accept (makeEntry b h.src (abandonEntry b s))
    else if r.owner = h.src then accept s
    else hand h.src h.tag (.openRefuse b .duplicate) s
  | none =>
    if s.ict.commits.length < Config.commitEntries then accept (makeEntry b h.src s)
    else match oldestCommitted s.ict.commits with
      | some old => accept (makeEntry b h.src (abandonEntry old.batch s))
      | none => hand h.src h.tag (.openRefuse b .tableFull) s

/-- The positions present in a record. -/
def CommitRec.presentList (r : CommitRec) : List Nat := (r.positions.filter (·.isPresent)).map (·.position)

/-- The missing positions of a close, in rising order (R150). -/
def CommitRec.missing (r : CommitRec) (count : Nat) (waived : List Nat) : List Nat :=
  let present := r.presentList
  (List.range' 1 count).filter fun p => !waived.contains p && !present.contains p

/-- The present positions above the close count (R150). -/
def CommitRec.excess (r : CommitRec) (count : Nat) : Nat := r.presentList.countP fun p => count < p

/-- A COMMITTED answer to an OPEN entry (R150). -/
def commitBatch (b : Nat) (s : State) : State :=
  let order := s.ict.commitNext
  let s := s.updCommit b fun r => { r with state := .committed, order := some order }
  freeBatchSlots b (s.modIct fun i => { i with commitNext := i.commitNext + 1 })

/-- CLOSE (R150). -/
def takeClose (h : Hdr) (b count : Nat) (waived : List Nat) (s : State) : State :=
  match s.findCommit b with
  | none => hand h.src h.tag (.unknown b) s
  | some r =>
    if r.owner ≠ h.src then hand h.src h.tag (.unknown b) s else
    let missing := r.missing count waived
    let excess := r.excess count
    if missing = [] ∧ excess = 0 then
      let s := hand h.src h.tag (.committed b) s
      if r.state = .opened then commitBatch b s else s
    else hand h.src h.tag (.incomplete b missing.length excess (missing.take 8)) s

/-! ## Timers and silence (R140, R141) -/

/-- A slot's idle age reaches the grant lifetime. -/
def lifetimeOver (n : Nat) (s : State) : State :=
  match s.slot? n with
  | some sl =>
    if sl.filling then
      (freeSlot n (s.advanceTo (sl.idleSince + Config.grantLifetime))).modIct fun i => { i with
        expiredSlots := bump16 i.expiredSlots }
    else s
  | none => s

/-- ICT takes a silence notice. -/
def ictSilence (a : Nat) (s : State) : State :=
  freeSlots (s.slotsWhere fun sl => sl.filling && sl.ofSender a) s

end Sys2Proof.Machine
end

