-- ==== Sys2Proof/Machine/Reconcile.lean ====
section
/-! DEFINITION. The Batch Controller's tests on a batch that takes no more sheets: the ENDED test (R20),
the close condition and CLOSE (R170, R171), the return from HALTED (R22), and new holes (R15, R153). -/

namespace Sys2Proof.Machine

/-- The Page Store's count of used records that bear a batch number (R91). -/
def State.pagesOf (s : State) (b : Nat) : Nat := s.pgs.recs.countP (·.batch == some b)

/-- No entry of the hole list is OPEN or CLAIMED. -/
def holesSettled (hs : List Hole) : Bool := hs.all fun h => h.state == .filled || h.state == .waived

/-- The waived list of a CLOSE: the positions of the WAIVED holes in rising order (R171). -/
def waivedList (hs : List Hole) : List Nat := (hs.filter (·.state == .waived)).map (·.position)

/-- The batch moves to CLOSING and CLOSE is sent (R171). -/
def sendClose (r : BatchRec) (s : State) : State :=
  let tag := s.fli.askTag
  let s := s.updBatch r.number fun r => { r with
    state := .closing, closeAsk := some tag, closeDue := s.answerDue, closeAttempts := bump8 r.closeAttempts }
  ask r.gateway (.close r.number r.scanned (waivedList r.holes)) s

/-- The close condition tested for a batch (R170). -/
def closeTest (b : Nat) (s : State) : State :=
  match s.findBatch b with
  | some r => if r.state = .reconciling ∧ holesSettled r.holes ∧ s.pagesOf b = 0 then sendClose r s else s
  | none => s

/-- The ENDED test: a batch in ENDED with no track entry bound to it moves to RECONCILING (R20). -/
def endedTest (b : Nat) (s : State) : State :=
  match s.findBatch b with
  | some r =>
    if r.state = .ended ∧ s.boundCount b = 0 then
      closeTest b (s.updBatch b fun r => { r with state := .reconciling })
    else s
  | none => s

/-- The failed page count is back at 0: a halted batch moves to ENDED (R22). -/
def haltEndTest (b : Nat) (s : State) : State :=
  match s.findBatch b with
  | some r =>
    if r.state = .halted ∧ r.failedPages = 0 then
      endedTest b (s.updBatch b fun r => { r with state := .ended })
    else s
  | none => s

/-- The Page Store has freed a FAILED own page (R22). -/
def lowerFailed (b : Nat) (s : State) : State :=
  s.updBatch b fun r => { r with failedPages := r.failedPages - 1 }

/-- A hole entered by position, lowest first (R153). -/
def insertHole (h : Hole) : List Hole → List Hole
  | [] => [h]
  | x :: xs => if h.position < x.position then h :: x :: xs else x :: insertHole h xs

/-- BCT adds a hole for a position (R15). -/
def addHole (b position : Nat) (reason : HoleReason) (snap : AttrSet) (s : State) : State :=
  s.updBatch b fun r => { r with
    holes := insertHole { position, reason, state := .vacant, snap } r.holes }

/-- BCT adds a position to the accepted set (R15). -/
def acceptPosition (b : Nat) (s : State) : State :=
  s.updBatch b fun r => { r with accepted := r.accepted + 1 }

end Sys2Proof.Machine
end

