-- ==== Sys2Proof/Machine/PageStore.lean ====
section
/-! DEFINITION. The Page Store: allocation and freeing of records and blocks with the level test, the
queues, and the records of a sheet (chapter 4). -/

namespace Sys2Proof.Machine

/-! ## Levels (R92) -/

/-- The level test, made after every allocation and every free. -/
def levelTest (s : State) : State :=
  match s.pgs.level with
  | .normal =>
    if s.pgs.freeBlocks < s.oru.settings.pauseLevel ∨ s.pgs.freeRecs < Config.pauseRecords then
      pauseSignal (s.modPgs fun g => { g with level := .pause })
    else s
  | .pause =>
    if s.oru.settings.resumeLevel ≤ s.pgs.freeBlocks ∧ Config.resumeRecords ≤ s.pgs.freeRecs then
      resumeSignal (s.modPgs fun g => { g with level := .normal })
    else s

/-! ## Freeing (R91) -/

/-- Any queue without the page. -/
def unqueue (id : Nat) (g : Pgs) : Pgs :=
  { g with
    queues := g.queues.map fun q => { q with pages := q.pages.filter (· != id) }
    fillQueue := g.fillQueue.filter (· != id) }

/-- A record freed: its blocks and itself return to the pools, and it leaves any queue; the level is
tested; a FAILED own page lowers its batch's count (R22); a batch whose last record is freed is reported to
BCT (R91, R170). -/
def freeRec (id : Nat) (s : State) : State :=
  match s.findRec id with
  | none => s
  | some r =>
    let s := levelTest (s.modPgs fun g => unqueue id { g with
      recs := g.recs.eraseP (·.id == id)
      recPool := g.recPool ++ [id]
      freeRecs := g.freeRecs + 1
      freeBlocks := g.freeBlocks + r.blocks.length })
    match r.batch with
    | none => s
    | some b =>
      let s := if r.state = .failed ∧ ¬ r.fillFlag then haltEndTest b (lowerFailed b s) else s
      if s.pagesOf b = 0 then closeTest b s else s

/-! ## Queues (R87 to R89) -/

/-- FRONT stands before BACK. -/
def sideOrder : Side → Nat
  | .front => 0
  | .back => 1

/-- A key of two numbers precedes another. -/
def keyBefore (a b : Nat × Nat) : Bool := a.1 < b.1 || (a.1 == b.1 && a.2 < b.2)

/-- A page put in its place in a queue ordered by a key. -/
def insertBy (key : Nat → Nat × Nat) (id : Nat) : List Nat → List Nat
  | [] => [id]
  | x :: xs => if keyBefore (key id) (key x) then id :: x :: xs else x :: insertBy key id xs

/-- Position order, and FRONT before BACK (R87). -/
def State.pageKey (s : State) (id : Nat) : Nat × Nat :=
  match s.findRec id with
  | some r => (r.position.getD 0, sideOrder r.side)
  | none => (0, 0)

/-- Fill order: the order in which the positions were granted, and FRONT before BACK (R88). -/
def State.fillKey (s : State) (id : Nat) : Nat × Nat :=
  match s.findRec id with
  | some r =>
    let granted := (s.bct.fill.map (·.granted)).getD []
    (granted.findIdx fun g => some g.position == r.position, sideOrder r.side)
  | none => (0, 0)

/-- A record enters READY and takes its place in its queue (R86, R89). -/
def enterReady (id : Nat) (s : State) : State :=
  match s.findRec id with
  | none => s
  | some r =>
    let s := s.updRec id fun r => { r with state := .ready }
    if r.fillFlag then s.modPgs fun g => { g with fillQueue := insertBy s.fillKey id g.fillQueue }
    else
      let join (q : BatchQueue) : BatchQueue := { q with pages := insertBy s.pageKey id q.pages }
      s.modPgs fun g => { g with queues := updFirst (fun q => some q.batch == r.batch) join g.queues }

/-- A batch's queue made empty at the end of the queue list (R87). -/
def addQueue (b : Nat) (s : State) : State :=
  s.modPgs fun g => { g with queues := g.queues ++ [{ batch := b }] }

/-- A batch's queue removed from the queue list (R87). -/
def dropQueue (b : Nat) (s : State) : State :=
  s.modPgs fun g => { g with queues := g.queues.filter (·.batch != b) }

/-! ## Allocation (R78, R81, R82) -/

/-- The batch number and fill flag of a sheet's records (R78); a FILL sheet whose job has been removed gives no batch
(log entry 40). -/
def State.sheetBatch (s : State) (e : TrackEntry) : Option Nat × Bool :=
  match e.binding with
  | .batch b => (some b, false)
  | .fill _ => (s.bct.fill.map (·.batch), true)
  | .learn => (none, false)

/-- A record allocated for a side of a sheet (R81), for a pool that is not empty. -/
def allocRec (e : TrackEntry) (side : Side) (s : State) : State :=
  match s.pgs.recPool with
  | [] => s
  | id :: pool =>
    let (batch, fillFlag) := s.sheetBatch e
    let r : PageRec :=
      { id, side, tag := e.tag, batch, fillFlag, position := e.position, mark := e.marked }
    let s := s.modPgs fun g => { g with
      recs := g.recs ++ [r], recPool := pool, freeRecs := g.freeRecs - 1 }
    levelTest (s.updEntry e.tag fun e => { e with pages := e.pages ++ [id] })

/-- Every block that a page record lists (R77). -/
def Pgs.listed (g : Pgs) : List Nat := g.recs.flatMap (·.blocks)

/-- Data appended to a record, with `n` new blocks (R82). -/
def appendData (r : PageRec) (bytes : List Byte) (n : Nat) (s : State) : State :=
  let fresh := freshBlocks s.pgs.listed n
  let blocks := r.blocks ++ fresh
  let s := s.modPgs fun g => { g with
    mem := Memory.writeRun g.mem blocks r.size bytes, freeBlocks := g.freeBlocks - fresh.length }
  let s := s.updRec r.id fun r => { r with blocks, size := r.size + bytes.length }
  if n = 0 then s else levelTest s

/-- The record held for a side of a sheet in the track. -/
def State.sideRec (s : State) (e : TrackEntry) (side : Side) : Option PageRec :=
  (e.pages.filterMap s.findRec).find? (·.side == side)

/-- The mark flag set on every record an entry lists (R69, R85). -/
def markPages (ids : List Nat) (s : State) : State :=
  ids.foldl (fun s id => s.updRec id fun r => { r with mark := true }) s

/-- A sheet's position written into every record its entry lists (R85). -/
def placePages (ids : List Nat) (position : Nat) (s : State) : State :=
  ids.foldl (fun s id => s.updRec id fun r => { r with position := some position }) s

/-- A page identifier removed from the track entry that lists it, whose sheet's progress entry becomes
DROP (R90). -/
def detachRec (id : Nat) (s : State) : State :=
  match s.tsq.track.find? (·.pages.contains id) with
  | some e =>
    (s.updEntry e.tag fun e => { e with pages := e.pages.filter (· != id) }).updProgress e.tag
      fun p => { p with mode := .drop }
  | none => s

end Sys2Proof.Machine
end

