-- ==== Sys2Proof/Machine/Channels.lean ====
section
/-! DEFINITION. The Transfer Engine's channels: choosing and offering a page, emptying and promoting
descriptors, return and discard of a page it holds (sections 6.1, 6.2, 6.4, 6.8; R90). -/

namespace Sys2Proof.Machine

/-! ## Reading the channels -/

/-- The channel has a burst in transmission (R124). -/
def State.bursting (s : State) (c : ChanId) : Bool :=
  match s.fli.inFlight with
  | some f => f.origin == .data c
  | none => false

/-- The channel with a page in its staged descriptor. -/
def State.stagedChan (s : State) (id : Nat) : Option ChanId :=
  if s.txe.chanA.staged.page = some id then some .a
  else if s.txe.chanB.staged.page = some id then some .b else none

/-- The channel with a page in its active descriptor. -/
def State.activeChan (s : State) (id : Nat) : Option ChanId :=
  if s.txe.chanA.active.page = some id then some .a
  else if s.txe.chanB.active.page = some id then some .b else none

/-- The gateway of a page: the batch record's for an own page, the fill job's for a fill page (R114). -/
def State.pageGateway (s : State) (r : PageRec) : Option Nat :=
  if r.fillFlag then s.bct.fill.map (·.gateway) else (r.batch.bind s.findBatch).map (·.gateway)

/-- A page's identity on the line. -/
def PageRec.pageId (r : PageRec) : PageId := ⟨r.batch.getD 0, r.position.getD 0, r.side⟩

/-! ## Emptying and promoting -/

/-- A descriptor empties: bytes remaining and bytes in the last burst keep their values (R113), and so do the
offsets (log entry 21). -/
def emptyDesc (d : Desc) : Desc :=
  { start := d.start, next := d.next, remaining := d.remaining, lastBurst := d.lastBurst }

/-- A staged descriptor empties. -/
def emptyStaged (c : ChanId) (s : State) : State :=
  s.updChan c fun ch => { ch with staged := emptyDesc ch.staged }

/-- A GRANTED staged page is promoted to an EMPTY active descriptor (R122). -/
def promoteChan (ch : Channel) : Channel :=
  if ch.staged.phase = .granted ∧ ch.active.phase = .empty then
    { ch with
      active := { ch.staged with phase := .streaming, lastBurst := none, giveUp := .none }
      staged := emptyDesc ch.staged }
  else ch

/-- The active descriptor empties, and a GRANTED staged page is promoted. -/
def emptyActive (c : ChanId) (s : State) : State :=
  s.updChan c fun ch => promoteChan { ch with active := emptyDesc ch.active }

/-! ## Offers (R114, R115) -/

/-- The head page of a queue, when it may be offered: its gateway is PRESENT. -/
def State.offerable (s : State) (queue : List Nat) : Option (PageRec × Nat) :=
  match queue.head?.bind s.findRec with
  | some r =>
    match s.pageGateway r with
    | some g => if s.isPresent g then some (r, g) else none
    | none => none
  | none => none

/-- The own page that a channel takes: the head of the first queue whose head may be offered. -/
def State.ownPage (s : State) : Option (PageRec × Nat) := s.pgs.queues.findSome? fun q => s.offerable q.pages

/-- The page that a channel takes (R114). -/
def State.pageFor (s : State) : ChanId → Option (PageRec × Nat)
  | .a => s.ownPage
  | .b => (s.offerable s.pgs.fillQueue).orElse fun _ => s.ownPage

/-- A channel takes a page and offers it (R115). -/
def offerPage (c : ChanId) (r : PageRec) (gateway : Nat) (s : State) : State :=
  let tag := s.fli.askTag
  let s := (s.modPgs (unqueue r.id)).updRec r.id fun r => { r with state := .sending }
  let s := s.updChan c fun ch => { ch with
    staged := { ch.staged with
      phase := .offered, page := some r.id, gateway := some gateway, askTag := some tag, askDue := s.answerDue } }
  let s := s.modTxe fun t => { t with offers := bump16 t.offers }
  ask gateway (.pageOffer r.pageId (r.pagesOfSheet.getD 0) r.size r.mark) s

/-- One channel's offer test (R115). -/
def offerOne (c : ChanId) (s : State) : State :=
  if (s.chan c).staged.phase = .empty ∧ (s.chan c).retryDue = none then
    match s.pageFor c with
    | some (r, g) => offerPage c r g s
    | none => s
  else s

/-- The offer test of both channels; channel A takes first. -/
def offerTest (s : State) : State := offerOne .b (offerOne .a s)

/-! ## Leaving the Transfer Engine -/

/-- A page returns to READY at its place in its queue (R89); one with discard pending is freed (R90). -/
def toReady (id : Nat) (s : State) : State :=
  match s.findRec id with
  | some r => if r.discardPending then freeRec id s else enterReady id s
  | none => s

/-- An outstanding-sent entry leaves the list (R125). -/
def dropOutstanding (id : Nat) (s : State) : State :=
  s.modTxe fun t => { t with outstanding := t.outstanding.filter (·.page != id) }

/-- A page that TXE holds is given up and freed at once, or after its burst in transmission (R131). -/
def txeDiscard (id : Nat) (s : State) : State :=
  match s.stagedChan id with
  | some c => freeRec id (emptyStaged c s)
  | none =>
    match s.activeChan id with
    | some c =>
      if s.bursting c then s.updChan c fun ch => { ch with active := { ch.active with giveUp := .discard } }
      else freeRec id (emptyActive c s)
    | none => s

/-- A discard of one record, by its state (R90); the offer test that a discard may call for follows the
discards of the rule that causes them (log entry 11). -/
def discardRec (id : Nat) (s : State) : State :=
  match s.findRec id with
  | none => s
  | some r =>
    let s := detachRec id s
    match r.state with
    | .filling | .heldForSheet | .ready | .failed => freeRec id s
    | .sent => freeRec id (dropOutstanding id s)
    | .sending =>
      if r.discardPending then s
      else txeDiscard id (s.updRec id fun r => { r with discardPending := true })

/-- Discards of several records, then the offer test. -/
def discardAll (ids : List Nat) (s : State) : State :=
  if ids = [] then s else offerTest (ids.foldl (fun s id => discardRec id s) s)

/-- The records that meet a test, by identifier. -/
def State.recsWhere (s : State) (p : PageRec → Bool) : List Nat := (s.pgs.recs.filter p).map (·.id)

end Sys2Proof.Machine
end

