-- ==== Sys2Proof/Machine/FillJob.lean ====
section
/-! DEFINITION. Holes at their owner and the fill job at the filler: claims, grants, fill notices, releases
and the end of a fill (chapter 8). A local fill calls the owner's operations at once (R157). -/

namespace Sys2Proof

/-- The states in which an owner grants holes (R159). -/
def BatchState.grants : BatchState → Bool
  | .active | .ended | .reconciling | .halted => true
  | _ => false

end Sys2Proof

namespace Sys2Proof.Machine

/-! ## At the owner (R159, R165 to R167) -/

/-- A CLAIMED hole returns to OPEN (R159, R166, R167). -/
def Hole.reopen (h : Hole) : Hole :=
  { h with state := .vacant, claimant := none, retries := bump8 h.retries }

/-- The hole becomes CLAIMED by a station. -/
def Hole.claimFor (a : Nat) (h : Hole) : Hole := { h with state := .claimed, claimant := some a }

/-- The hole is CLAIMED by the station. -/
def Hole.claimedBy (a : Nat) (h : Hole) : Bool := h.state == .claimed && h.claimant == some a

/-- Steps 1 and 2 of R159: the claim's held list is taken as what the filler holds. -/
def reconcileHeld (a : Nat) (held : List Nat) (h : Hole) : Hole :=
  if h.claimedBy a && !held.contains h.position then h.reopen
  else if h.state == .vacant && held.contains h.position then h.claimFor a
  else h

/-- Step 3 of R159: the lowest OPEN holes, up to a number, become CLAIMED. -/
def claimLowest (a : Nat) : Nat → List Hole → List Hole
  | _, [] => []
  | 0, hs => hs
  | n + 1, h :: hs =>
    if h.state = .vacant then h.claimFor a :: claimLowest a n hs else h :: claimLowest a (n + 1) hs

/-- The positions and snapshots that step 3 of R159 takes. -/
def lowestVacant (n : Nat) (hs : List Hole) : List (Nat × AttrSet) :=
  ((hs.filter (·.state == .vacant)).take n).map fun h => (h.position, h.snap)

/-- The owner takes a claim: the answer and the state after it (R159). -/
def ownerClaim (a b wanted : Nat) (held : List Nat) (s : State) : Payload × State :=
  match s.findBatch b with
  | none => (.holeRefuse b .unknownBatch, s)
  | some r =>
    if r.state.terminal then (.holeRefuse b .unknownBatch, s)
    else if r.state.grants then
      let holes := r.holes.map (reconcileHeld a held)
      let taken := lowestVacant wanted holes
      let s := s.updBatch b fun r => { r with holes := claimLowest a wanted holes }
      (if taken = [] then .holeNone b else .holeGrant b r.gateway taken, s)
    else (.holeRefuse b .badState, s)

/-- The owner takes a FILLED (R165). -/
def ownerFilled (b position : Nat) (s : State) : State :=
  match s.findBatch b with
  | none => s
  | some r =>
    let hit (h : Hole) : Bool := h.position == position && (h.state == .vacant || h.state == .claimed)
    if ¬ r.state.terminal ∧ r.holes.any hit then
      closeTest b (s.updBatch b fun r => { r with
        holes := updFirst hit (fun h => { h with state := .filled, claimant := none }) r.holes })
    else s

/-- A hole under a RELEASE from a station (R166). -/
def Hole.released (a : Nat) (final : Bool) (positions : List Nat) (h : Hole) : Hole :=
  if h.claimedBy a && (final || positions.contains h.position) then h.reopen else h

/-- The owner takes a RELEASE (R166). -/
def ownerRelease (a b : Nat) (final : Bool) (positions : List Nat) (s : State) : State :=
  match s.findBatch b with
  | none => s
  | some r =>
    if r.state.terminal then s
    else s.updBatch b fun r => { r with holes := r.holes.map (Hole.released a final positions) }

/-- Every hole CLAIMED by a silent station returns to OPEN (R167). -/
def ownerSilent (a : Nat) (s : State) : State :=
  s.modBct fun t => { t with batches := t.batches.map fun r =>
    if r.state.terminal then r
    else { r with holes := r.holes.map (Hole.released a true []) } }

/-! ## Frames of the fill -/

/-- A RELEASE to the owner, or the owner's taking of it in a local fill. -/
def sendRelease (j : FillJob) (final : Bool) (s : State) : State :=
  if j.atHome then ownerRelease s.oru.address j.batch final j.releaseSet s
  else tell j.owner (.release j.batch final j.releaseSet) s

/-- A FILLED to the owner, or the owner's taking of it in a local fill. -/
def sendFilled (j : FillJob) (position : Nat) (s : State) : State :=
  if j.atHome then ownerFilled j.batch position s else tell j.owner (.filled j.batch position) s

/-! ## The end of a fill (R163, R164) -/

/-- Entries that an ENDING job gives up: REFUSED, or UNUSED and not reserved. -/
def State.givesUp (s : State) (g : Grant) : Bool :=
  g.state == .refused || (g.state == .unused && !s.reserves g.position)

/-- Entries that an ENDING job waits for: SCANNED, or UNUSED and reserved. -/
def State.waitsFor (s : State) (g : Grant) : Bool :=
  g.state == .scanned || (g.state == .unused && s.reserves g.position)

/-- What an ENDING job gives up leaves the list and joins the release set. -/
def collectReleases (s : State) : State :=
  s.updJob fun j => { j with
    granted := j.granted.filter fun g => !s.givesUp g
    releaseSet := j.releaseSet ++ (j.granted.filter s.givesUp).map (·.position) }

/-- The record removed: the final RELEASE, then FILL_ENDED (R164). -/
def removeJob (j : FillJob) (s : State) : State :=
  let s := sendRelease j true s
  raise .fillEnded (s.modBct fun b => { b with fill := none })

/-- The test of a job in ENDING after an event of R161 or R162 (R164). -/
def endingTest (s : State) : State :=
  match s.bct.fill with
  | some j =>
    if j.phase = .ending then
      let s := collectReleases s
      match s.bct.fill with
      | some j => if j.granted.any s.waitsFor then s else removeJob j s
      | none => s
    else s
  | none => s

/-- A withdrawal of the fill feed by a job in ENDING: the notice of a feed that drains at once has no effect then. -/
def withdrawEnding (s : State) : State :=
  let s' := withdrawFill s
  if s.tsq.feedMode = some .fill ∧ drainedNow s s' then toIdle s' else s'

/-- A fill in FEEDING ends (R163). -/
def fillEnd (cause : EndCause) (refusal : Option HoleRefusal) (s : State) : State :=
  match s.bct.fill with
  | some j =>
    if j.phase = .feeding then
      let s := s.updJob fun j => { j with
        phase := .ending, endCause := some cause, refusal := refusal, claimTag := none }
      let s := collectReleases (withdrawEnding s)
      match s.bct.fill with
      | some j =>
        if j.granted.any s.waitsFor then
          if j.releaseSet = [] then s
          else (sendRelease j false s).updJob fun j => { j with releaseSet := [] }
        else removeJob j s
      | none => s
    else s
  | none => s

/-- The owner is this station and gives the batch up: a local fill of it ends (R167). -/
def ownerGone (b : Nat) (s : State) : State :=
  match s.bct.fill with
  | some j => if j.atHome ∧ j.batch = b then fillEnd .ownerGone none s else s
  | none => s

/-! ## Claims (R158, R160) -/

/-- Entries held by a claim: UNUSED or SCANNED. -/
def Grant.held (g : Grant) : Bool := g.state == .unused || g.state == .scanned

/-- No UNUSED entry without a reservation. -/
def State.allReserved (s : State) (j : FillJob) : Bool :=
  j.granted.all fun g => g.state != .unused || s.reserves g.position

/-- The claim condition (R158). -/
def State.claimDueNow (s : State) (first : Bool) (j : FillJob) : Bool :=
  j.phase == .feeding && j.claimTag == none && s.allReserved j &&
    j.granted.countP (·.held) < Config.grantEntries && (first || s.tsq.tray == .loaded)

/-- Pages required under a snapshot (R156). -/
def pagesRequired (snap : AttrSet) : Nat :=
  match snap.duplex with
  | .simplex => 1
  | .duplex => 2

/-- A granted position joins the young end while the list has room and does not hold it (R160). -/
def joinGrant (list : List Grant) (g : Nat × AttrSet) : List Grant :=
  if list.length < Config.grantEntries ∧ ¬ list.any (·.position == g.1) then
    list ++ [{ position := g.1, snap := g.2, state := .unused, required := pagesRequired g.2, stored := 0 }]
  else list

/-- A claim ends by an answer. -/
def claimAnswered (s : State) : State := s.updJob fun j => { j with claimTag := none, timeouts := 0 }

/-- HOLE GRANT taken; `again` is the test of R158 that follows. -/
def takeGrant (again : State → State) (gateway : Nat) (grants : List (Nat × AttrSet)) (s : State) : State :=
  again (pickTest ((claimAnswered s).updJob fun j => { j with
    gateway := gateway, granted := grants.foldl joinGrant j.granted }))

/-- HOLE NONE taken. -/
def takeNone (s : State) : State :=
  let surplus := s.bct.fill.any (·.claims != 1) && s.tsq.tray == .loaded
  let s := fillEnd .noHoles none (claimAnswered s)
  if surplus then raise .fillSurplus s else s

/-- HOLE REFUSE taken. -/
def takeHoleRefuse (reason : HoleRefusal) (s : State) : State :=
  fillEnd .refused (some reason) (claimAnswered s)

/-- A local claim's answer, taken at once (R157). -/
def takeLocal (again : State → State) (answer : Payload) (s : State) : State :=
  match answer with
  | .holeGrant _ g gs => takeGrant again g gs s
  | .holeNone _ => takeNone s
  | .holeRefuse _ r => takeHoleRefuse r s
  | _ => s

/-- The filler claims (R158). -/
def makeClaim (again : State → State) (j : FillJob) (s : State) : State :=
  let held := j.granted.filter (·.held)
  let wanted := Config.grantEntries - held.length
  let positions := held.map (·.position)
  let s := s.updJob fun j => { j with granted := held, claims := bump8 j.claims }
  if j.atHome then
    let (answer, s) := ownerClaim s.oru.address j.batch wanted positions s
    takeLocal again answer s
  else
    let tag := s.fli.askTag
    ask j.owner (.holeClaim j.batch wanted positions)
      (s.updJob fun j => { j with claimTag := some tag, claimDue := s.answerDue })

/-- The test's act on the feed: no unreserved UNUSED entry and an EMPTY tray withdraw it; a transport that
has drained then gives the notice that ends the fill (R158, R35, R163). -/
def feedTest (s : State) : State :=
  match s.bct.fill with
  | some j =>
    if j.phase = .feeding ∧ s.allReserved j ∧ s.tsq.tray = .empty ∧ s.tsq.feedMode = some .fill then
      let s' := withdrawFill s
      if drainedNow s s' then toIdle (fillEnd .trayEmpty none s') else s'
    else s
  | none => s

/-- BCT's test of R158. The count bounds the claims that a local fill can make in one step (log entry 30). -/
def fillTest : Nat → Bool → State → State
  | 0, _, s => s
  | n + 1, first, s =>
    feedTest (match s.bct.fill with
      | some j => if s.claimDueNow first j then makeClaim (fillTest n false) j s else s
      | none => s)

/-- The tests that follow a change of a fill sheet, a fill page or the fill feed (R158, R164). -/
def fillChanged (s : State) : State := endingTest (fillTest 4 false s)

/-! ## The feed-stop notice (R35, R163) -/

/-- TSQ tells BCT that the fill feed has stopped. -/
def feedStopped (s : State) : State :=
  match s.tsq.tray with
  | .empty => fillEnd .trayEmpty none s
  | .loaded => fillTest 4 false s

/-- The DRAINING test (R35). -/
def drainTest (s : State) : State :=
  if s.drained then toIdle (if s.tsq.feedMode = some .fill then feedStopped s else s) else s

/-! ## Fill sheets and fill pages (R161, R162) -/

/-- A granted list entry changed. -/
def updGrant (position : Nat) (f : Grant → Grant) (s : State) : State :=
  s.updJob fun j => { j with granted := updFirst (·.position == position) f j.granted }

/-- The granted list entry of a position. -/
def State.findGrant (s : State) (position : Nat) : Option Grant :=
  s.bct.fill.bind fun j => j.granted.find? (·.position == position)

/-- A fill sheet settled in the main pocket with a position. -/
def fillScanned (position : Nat) (s : State) : State :=
  fillChanged (updGrant position (fun g => { g with state := .scanned, stored := 0 }) s)

/-- A fill sheet settled in the reject pocket, or was pulled, with a position. -/
def fillRefused (position : Nat) (s : State) : State :=
  fillChanged (updGrant position (fun g => { g with state := .refused }) s)

/-- What a stored fill page changes: an entry in SCANNED alone (R162). The filled count stops at its bound 4095 (log
entry 46). -/
def storeGrant (position : Nat) (s : State) : State :=
  match s.bct.fill, s.findGrant position with
  | some j, some g =>
    if g.state = .scanned then
      if g.required ≤ g.stored + 1 then
        let s := updGrant position (fun g => { g with state := .stored, stored := g.stored + 1 }) s
        let s := s.updJob fun j => { j with filledCount := bump Config.maxPosition j.filledCount }
        sendFilled j position s
      else updGrant position (fun g => { g with stored := g.stored + 1 }) s
    else s
  | _, _ => s

/-- A fill page is stored (R162); the test of R158 follows whether or not an entry changed. -/
def fillStored (position : Nat) (s : State) : State := fillChanged (storeGrant position s)

/-- What a fill position that cannot be stored changes: an entry in SCANNED alone (R162). -/
def refuseGrant (position : Nat) (s : State) : State :=
  match s.findGrant position with
  | some g =>
    if g.state = .scanned then
      let s := updGrant position (fun g => { g with state := .refused }) s
      discardAll (s.recsWhere fun r => r.fillFlag && r.position == some position) s
    else s
  | none => s

/-- A fill position cannot be stored: a page failed, or a required side is missing (R162); the test of R158
follows whether or not an entry changed. -/
def fillFailed (position : Nat) (s : State) : State := fillChanged (refuseGrant position s)

/-- A FILL reservation is released (R38). -/
def releaseReservation (tag : Nat) (s : State) : State :=
  s.updEntry tag fun e => { e with binding := match e.binding with
    | .fill _ => .fill none
    | b => b }

end Sys2Proof.Machine
end

