-- ==== Sys2Proof/Machine/Transfer.lean ====
section
/-! DEFINITION. The Transfer Engine's answers, bursts, completions, timeouts and failures (sections 6.3 to
6.7), and the halt of a batch (R21). -/

namespace Sys2Proof.Machine

/-! ## Failure (R21, R128) -/

/-- The refusals that a batch records as its gateway refusal (R21). -/
def gatewayRefusalOf : Option PageRefusal → Option GatewayRefusal
  | some .unknownBatch => some .unknownBatch
  | some .batchClosed => some .batchClosed
  | _ => none

/-- An own page of a batch has entered FAILED (R21). The failed page count stops at its bound 512 (log entry 46). -/
def haltBatch (b : Nat) (reason : Option PageRefusal) (s : State) : State :=
  match s.findBatch b with
  | none => s
  | some r =>
    let s := s.updBatch b fun r => { r with
      failedPages := bump 512 r.failedPages
      gatewayRefusal := r.gatewayRefusal.orElse fun _ => gatewayRefusalOf reason }
    match r.state with
    | .active => withdrawBatch b (raise .batchHalted (s.updBatch b fun r => { r with state := .halted }))
    | .ended | .reconciling => raise .batchHalted (s.updBatch b fun r => { r with state := .halted })
    | _ => s

/-- A page enters FAILED (R128); one with discard pending is freed instead (R90). -/
def pageFailed (id : Nat) (reason : Option PageRefusal) (s : State) : State :=
  match s.findRec id with
  | none => s
  | some r =>
    if r.discardPending then freeRec id s else
    let s := raise .transferFailed (s.updRec id fun r => { r with state := .failed })
    let s := s.modTxe fun t => { t with failedPages := bump16 t.failedPages }
    if r.fillFlag then fillFailed (r.position.getD 0) s else haltBatch (r.batch.getD 0) reason s

/-! ## Answers to an offer (R116 to R119) -/

/-- The descriptor in OFFERED that an answer is for: its tag, and the gateway as source. -/
def State.offerAnswered (s : State) (h : Hdr) : Option ChanId :=
  let hit (d : Desc) : Bool := d.phase == .offered && d.askTag == some h.tag && d.gateway == some h.src
  if hit s.txe.chanA.staged then some .a else if hit s.txe.chanB.staged then some .b else none

/-- An answer or completion that finds nothing. -/
def staleAnswer (s : State) : State := s.modTxe fun t => { t with staleAnswers := bump16 t.staleAnswers }

/-- A channel's retry wait begins (R118). -/
def startRetry (c : ChanId) (s : State) : State :=
  s.updChan c fun ch => { ch with retryDue := some (s.now + s.oru.settings.retryMs) }

/-- A grant in range (R117). -/
def grantOkay (slot start : Nat) : Bool := slot < Config.slots && start % 16 == 0 && start ≤ 4080

/-- A staged descriptor becomes GRANTED. -/
def Desc.granted (d : Desc) (slot start size : Nat) : Desc :=
  { d with phase := .granted, askTag := none, slot := some slot, start, next := start, remaining := size }

/-- SLOT GRANT (R117). -/
def takeSlotGrant (h : Hdr) (slot start : Nat) (s : State) : State :=
  match s.offerAnswered h with
  | none => staleAnswer s
  | some c =>
    let id := (s.chan c).staged.page.getD 0
    if grantOkay slot start then
      let size := ((s.findRec id).map (·.size)).getD 0
      let s := s.modTxe fun t => { t with grants := bump16 t.grants }
      let s := s.updChan c fun ch => promoteChan { ch with staged := ch.staged.granted slot start size }
      if (s.chan c).staged.phase = .empty then offerTest s else s
    else offerTest (startRetry c (staleAnswer (toReady id (emptyStaged c s))))

/-- SLOT WAIT (R118). -/
def takeSlotWait (h : Hdr) (s : State) : State :=
  match s.offerAnswered h with
  | none => staleAnswer s
  | some c =>
    let id := (s.chan c).staged.page.getD 0
    let s := (toReady id (emptyStaged c s)).modTxe fun t => { t with waits := bump16 t.waits }
    offerTest (startRetry c s)

/-- PAGE REFUSE (R119). -/
def takePageRefuse (h : Hdr) (reason : PageRefusal) (s : State) : State :=
  match s.offerAnswered h with
  | none => staleAnswer s
  | some c =>
    let id := (s.chan c).staged.page.getD 0
    let s := (emptyStaged c s).modTxe fun t => { t with refusals := bump16 t.refusals }
    offerTest (pageFailed id (some reason) s)

/-! ## PAGE STORED (R120) -/

/-- The gateway of a page: the one it is offered or was sent to, else the one it would be offered to. -/
def State.holderGateway (s : State) (r : PageRec) : Option Nat :=
  match s.stagedChan r.id with
  | some c => (s.chan c).staged.gateway
  | none =>
    match s.activeChan r.id with
    | some c => (s.chan c).active.gateway
    | none =>
      match s.txe.outstanding.find? (·.page == r.id) with
      | some o => some o.gateway
      | none => s.pageGateway r

/-- The record bears this identity and no discard has given it up: a discarded page is found by no answer or
completion (R131, R180; log entry 38). -/
def PageRec.named (r : PageRec) (p : PageId) : Bool :=
  !r.discardPending && r.batch == some p.batch && r.position == some p.position && r.side == p.side

/-- The record that a PAGE STORED names (R120; the first of two, log entry 29). -/
def State.storedRec (s : State) (src : Nat) (p : PageId) : Option PageRec :=
  s.pgs.recs.find? fun r => r.named p &&
    (r.state == .ready || r.state == .sending || r.state == .sent) && s.holderGateway r == some src

/-- A page is freed by its PAGE STORED: BCT is told of a fill page, the record is freed, the count rises. -/
def finishStored (id : Nat) (s : State) : State :=
  match s.findRec id with
  | none => s
  | some r =>
    let s := if r.fillFlag then fillStored (r.position.getD 0) s else s
    (freeRec id s).modTxe fun t => { t with storedPages := bump16 t.storedPages }

/-- PAGE STORED (R120). One taken before a discard wins over it where both wait for the same frame (log entry 41). -/
def takePageStored (h : Hdr) (p : PageId) (s : State) : State :=
  match s.storedRec h.src p with
  | none => staleAnswer s
  | some r =>
    match s.stagedChan r.id with
    | some c => offerTest (finishStored r.id (emptyStaged c s))
    | none =>
      match s.activeChan r.id with
      | some c =>
        if s.bursting c then
          s.updChan c fun ch => { ch with active := { ch.active with giveUp := .discard, stored := true } }
        else offerTest (finishStored r.id (emptyActive c s))
      | none => offerTest (finishStored r.id (dropOutstanding r.id s))

/-! ## Bursts (R123, R124) -/

/-- The channel has a burst ready. -/
def State.burstReady (s : State) (c : ChanId) : Bool :=
  let d := (s.chan c).active
  d.phase == .streaming && 0 < d.remaining && d.giveUp == .none && !s.bursting c

/-- The length of the next burst: to the next 4096-byte boundary of slot offset, or the page's end. -/
def burstLength (next remaining : Nat) : Nat := min (Config.span - next % Config.span) remaining

/-- The PAGE DATA frame of a channel's next burst. -/
def State.burstFrame (s : State) (c : ChanId) : Frame :=
  let d := (s.chan c).active
  let blocks := ((d.page.bind s.findRec).map (·.blocks)).getD []
  let data := Memory.readRun s.pgs.mem blocks (d.next - d.start) (burstLength d.next d.remaining)
  ⟨⟨d.gateway.getD 0, s.oru.address, 0⟩, .pageData (d.slot.getD 0) d.next data⟩

/-- The active page has been sent whole: SENT, and outstanding (R124, R125). -/
def pageSent (c : ChanId) (s : State) : State :=
  let d := (s.chan c).active
  let id := d.page.getD 0
  let s := s.updRec id fun r => { r with state := .sent }
  let s := s.modTxe fun t => { t with outstanding := t.outstanding ++
    [⟨id, d.gateway.getD 0, d.slot.getD 0, s.now + 1000 * s.oru.settings.storeSeconds⟩] }
  offerTest (emptyActive c s)

/-- The active page is given up as its give-up says (R124); a PAGE STORED taken before a discard wins over it (log
entry 41). -/
def giveUpNow (c : ChanId) (d : Desc) (s : State) : State :=
  let id := d.page.getD 0
  let s := emptyActive c s
  offerTest (match d.giveUp with
    | .none => s
    | .ret => toReady id s
    | .restart => if d.fatal then pageFailed id none s else toReady id s
    | .discard => if d.stored then finishStored id s else freeRec id s)

/-- A PAGE DATA frame of a channel has been sent (R124). -/
def burstSent (c : ChanId) (length : Nat) (s : State) : State :=
  let d := (s.chan c).active
  if d.giveUp = .none then
    let s := s.updChan c fun ch => { ch with active := { ch.active with
      next := ch.active.next + length, remaining := ch.active.remaining - length, lastBurst := some length } }
    if (s.chan c).active.remaining = 0 then pageSent c s else s
  else giveUpNow c d s

/-! ## PAGE FAIL and PAGE FAULT (R126) -/

/-- The two kinds of completion that restart a page. -/
inductive Setback where
  | fail | fault
  deriving DecidableEq, Repr

/-- TXE's restart count for the kind. -/
def countRestart (k : Setback) (s : State) : State :=
  s.modTxe fun t => match k with
    | .fail => { t with failRestarts := bump16 t.failRestarts }
    | .fault => { t with faultRestarts := bump16 t.faultRestarts }

/-- A give-up RESTART is set beside what is pending: it replaces RETURN and not DISCARD (R124). -/
def GiveUp.withRestart : GiveUp → GiveUp
  | .discard => .discard
  | _ => .restart

/-- A give-up RETURN is set beside what is pending: it replaces nothing (R124). -/
def GiveUp.withReturn : GiveUp → GiveUp
  | .none => .ret
  | g => g

/-- The page's restart count raised, to 3 at most (R126). -/
def raiseRestarts (id : Nat) (s : State) : State :=
  s.updRec id fun r => { r with restarts := bump Config.maxRestarts r.restarts }

/-- The page restarts, or at the limit fails (R126). -/
def restartPage (r : PageRec) (s : State) : State :=
  if r.restarts < Config.maxRestarts then toReady r.id (raiseRestarts r.id s) else pageFailed r.id none s

/-- The channel whose active page a completion names. -/
def State.activeNamed (s : State) (src : Nat) (p : PageId) (slot : Nat) : Option (ChanId × PageRec) :=
  let hit (c : ChanId) : Option (ChanId × PageRec) :=
    let d := (s.chan c).active
    match d.page.bind s.findRec with
    | some r => if r.named p ∧ d.gateway = some src ∧ d.slot = some slot then some (c, r) else none
    | none => none
  (hit .a).orElse fun _ => hit .b

/-- The outstanding page that a completion names. -/
def State.outstandingNamed (s : State) (src : Nat) (p : PageId) (slot : Nat) : Option PageRec :=
  s.txe.outstanding.findSome? fun o =>
    match s.findRec o.page with
    | some r => if r.named p ∧ o.gateway = src ∧ o.slot = slot then some r else none
    | none => none

/-- PAGE FAIL or PAGE FAULT (R126). -/
def takeSetback (k : Setback) (h : Hdr) (p : PageId) (slot : Nat) (s : State) : State :=
  match s.activeNamed h.src p slot with
  | some (c, r) =>
    let s := countRestart k s
    if s.bursting c then
      let fatal := Config.maxRestarts ≤ r.restarts
      (raiseRestarts r.id s).updChan c fun ch => { ch with active := { ch.active with
        giveUp := GiveUp.withRestart ch.active.giveUp, fatal := ch.active.fatal || fatal } }
    else offerTest (restartPage r (emptyActive c s))
  | none =>
    match s.outstandingNamed h.src p slot with
    | some r => offerTest (restartPage r (dropOutstanding r.id (countRestart k s)))
    | none => s.modTxe fun t => { t with staleCompletions := bump16 t.staleCompletions }

/-! ## Timers (R118, R121, R127) -/

/-- A channel's answer timeout expires with its staged descriptor in OFFERED. -/
def offerExpired (c : ChanId) (s : State) : State :=
  let d := (s.chan c).staged
  if d.phase = .offered then
    let s := toReady (d.page.getD 0) (emptyStaged c (s.advanceTo d.askDue))
    offerTest (s.modTxe fun t => { t with offerTimeouts := bump16 t.offerTimeouts })
  else s

/-- A channel's retry wait expires. -/
def retryExpired (c : ChanId) (s : State) : State :=
  match (s.chan c).retryDue with
  | some due => offerOne c ((s.advanceTo due).updChan c fun ch => { ch with retryDue := none })
  | none => s

/-- The store timer of an outstanding page expires. -/
def storeTimerExpired (p : PageId) (s : State) : State :=
  match s.txe.outstanding.find? fun o => (s.findRec o.page).any (·.named p) with
  | some o =>
    let s := toReady o.page (dropOutstanding o.page (s.advanceTo o.due))
    offerTest (s.modTxe fun t => { t with storeTimeouts := bump16 t.storeTimeouts })
  | none => s

/-! ## Silence of a gateway (R129) -/

/-- One channel's page for a silent gateway: the staged one first, then the active one. -/
def silenceChan (g : Nat) (c : ChanId) (s : State) : State :=
  let st := (s.chan c).staged
  let s := if st.phase ≠ .empty ∧ st.gateway = some g then toReady (st.page.getD 0) (emptyStaged c s) else s
  let d := (s.chan c).active
  if d.phase = .streaming ∧ d.gateway = some g then
    if s.bursting c then
      s.updChan c fun ch => { ch with active := { ch.active with giveUp := GiveUp.withReturn ch.active.giveUp } }
    else toReady (d.page.getD 0) (emptyActive c s)
  else s

/-- TXE takes a silence notice. -/
def txeSilence (g : Nat) (s : State) : State := offerTest (silenceChan g .b (silenceChan g .a s))

end Sys2Proof.Machine
end

