-- ==== Sys2Proof/Machine/Operands.lean ====
section
/-! DEFINITION. The judgement of what frames, orders and reports carry: attribute sets (R10), the payload
ranges of R195, the order arguments of R196. -/

namespace Sys2Proof

def Duplex.ofCode : Nat → Option Duplex
  | 0 => some .simplex | 1 => some .duplex | _ => none

def Policy.ofCode : Nat → Option Policy
  | 0 => some .divert | 1 => some .stop | 2 => some .mark | _ => none

def ExMode.ofCode : Nat → Option ExMode
  | 0 => some .strict | 1 => some .loose | _ => none

/-- A nominal length is absent or 1 to 2000 mm (R10). -/
def nominalOk (nominal : Option Nat) : Bool :=
  match nominal with
  | none => true
  | some l => 1 ≤ l && l ≤ 2000

/-- An attribute set as received, checked against the ranges of R10 with an omitted tolerance resolved to
the settings' default; absent when a field is out of range. -/
def AttrArg.resolve (a : AttrArg) (toleranceDefault : Nat) : Option AttrSet :=
  match Duplex.ofCode a.duplex, Policy.ofCode a.policy with
  | some d, some p =>
    let t := a.tolerance.getD toleranceDefault
    if a.bank ≤ 1 ∧ nominalOk a.nominal ∧ t ≤ 50 then some ⟨d, p, a.bank, a.nominal, t⟩ else none
  | _, _ => none

end Sys2Proof

namespace Sys2Proof.Machine

/-- A batch number that names a batch (section 11.1). -/
def batchOk (b : Nat) : Bool := 1 ≤ b && b ≤ Config.maxBatch

/-- A position of a batch. -/
def positionOk (p : Nat) : Bool := 1 ≤ p && p ≤ Config.maxPosition

/-- A gateway's address. -/
def gatewayOk (g : Nat) : Bool := 1 ≤ g && g ≤ 15

/-- The attribute set of a granted position (R195): length and tolerance are judged. -/
def grantOk (g : Nat × AttrSet) : Bool :=
  positionOk g.1 && (match g.2.nominal with | none => true | some l => l ≤ 2000) && g.2.tolerance ≤ 50

/-- The counts and fields of a payload of known kind from a source lie in the ranges of R195. -/
def Payload.inRange (src : Nat) : Payload → Bool
  | .order _ => true
  | .orderAnswer _ _ => true
  | .attention _ => true
  | .presence r => r != .console || src == 0
  | .batchOpen b g => batchOk b && gatewayOk g
  | .openAccept b => batchOk b
  | .openRefuse b _ => batchOk b
  | .batchGone b => batchOk b
  | .abandon b => batchOk b
  | .close b n ps => batchOk b && n ≤ Config.maxPosition && ps.length ≤ 32 && ps.all positionOk
  | .committed b => batchOk b
  | .incomplete b t e ps =>
      batchOk b && t ≤ Config.maxPosition && e ≤ Config.maxPosition && ps.length ≤ 8 && ps.all positionOk
  | .unknown b => batchOk b
  | .holeClaim b w ps => batchOk b && w + ps.length ≤ 8 && ps.all positionOk
  | .holeGrant b g gs =>
      batchOk b && gatewayOk g && 1 ≤ gs.length && gs.length ≤ 8 && gs.all grantOk
  | .holeNone b => batchOk b
  | .holeRefuse b _ => batchOk b
  | .filled b p => batchOk b && positionOk p
  | .release b _ ps => batchOk b && ps.length ≤ 8 && ps.all positionOk
  | .pageOffer p k size _ =>
      batchOk p.batch && positionOk p.position && (k == 1 || k == 2) && 1 ≤ size
  | .slotGrant _ _ => true
  | .slotWait => true
  | .pageRefuse _ => true
  | .pageStored p _ => batchOk p.batch
  | .pageFail p _ => batchOk p.batch
  | .pageFault _ _ => true
  | .pageData _ _ bytes => 1 ≤ bytes.length && bytes.length ≤ Config.span

/-- The arguments of an order of a known code and length pass R196. -/
def Order.argsOk : Order → Bool
  | .waiveHoles _ ps => 1 ≤ ps.length && ps.length ≤ 32
  | .loadExemption _ _ valid _ _ _ => valid ≤ 1
  | .query _ _ index => index ≤ 4095
  | .undecodable => false
  | _ => true

end Sys2Proof.Machine
end

