-- ==== Sys2Proof/Machine/Wire.lean ====
section
/-! DEFINITION. Bytes on the floor line: number and code fields (section 11.1), the frame check (R194),
the payload layouts (sections 11.3, 11.4), and the settings image's check (R197). -/

namespace Sys2Proof

/-! ## Codes of named values (section 11.1) -/

def Side.code : Side → Nat
  | .front => 0 | .back => 1

def Side.ofCode : Nat → Option Side
  | 0 => some .front | 1 => some .back | _ => none

def Duplex.code : Duplex → Nat
  | .simplex => 0 | .duplex => 1

def Policy.code : Policy → Nat
  | .divert => 0 | .stop => 1 | .mark => 2

def ExMode.code : ExMode → Nat
  | .strict => 0 | .loose => 1

def PresenceRole.code : PresenceRole → Nat
  | .scanner => 0 | .gateway => 1 | .console => 2

def PresenceRole.ofCode : Nat → Option PresenceRole
  | 0 => some .scanner | 1 => some .gateway | 2 => some .console | _ => none

def OpenRefusal.code : OpenRefusal → Nat
  | .duplicate => 0 | .tableFull => 1

def OpenRefusal.ofCode : Nat → Option OpenRefusal
  | 0 => some .duplicate | 1 => some .tableFull | _ => none

def PageRefusal.code : PageRefusal → Nat
  | .unknownBatch => 0 | .batchClosed => 1 | .tooLarge => 2

def PageRefusal.ofCode : Nat → Option PageRefusal
  | 0 => some .unknownBatch | 1 => some .batchClosed | 2 => some .tooLarge | _ => none

def HoleRefusal.code : HoleRefusal → Nat
  | .unknownBatch => 0 | .badState => 1

def HoleRefusal.ofCode : Nat → Option HoleRefusal
  | 0 => some .unknownBatch | 1 => some .badState | _ => none

def ResultCode.code : ResultCode → Nat
  | .accepted => 0 | .busy => 1 | .notIdle => 2 | .duplicateBatch => 3 | .tableFull => 4
  | .unknownBatch => 5 | .badState => 6 | .holeClaimed => 7 | .wrongRole => 8 | .notConsole => 9
  | .badArgument => 10

def Subject.code : Subject → Nat
  | .station => 0 | .batch => 1 | .holes => 2 | .fill => 3 | .channels => 4 | .peers => 5 | .slots => 6
  | .commit => 7 | .counters => 8 | .attention => 9

def Subject.ofCode : Nat → Option Subject
  | 0 => some .station | 1 => some .batch | 2 => some .holes | 3 => some .fill | 4 => some .channels
  | 5 => some .peers | 6 => some .slots | 7 => some .commit | 8 => some .counters | 9 => some .attention
  | _ => none

/-- A flag byte: 0 no, 1 yes. -/
def flagCode (b : Bool) : Nat := if b then 1 else 0

def flagOf : Nat → Option Bool
  | 0 => some false | 1 => some true | _ => none

end Sys2Proof

namespace Sys2Proof.Machine

/-! ## Numbers -/

/-- A number in `n` bytes, most significant byte first (section 11.1). -/
def be : Nat → Nat → List Byte
  | 0, _ => []
  | n + 1, v => BitVec.ofNat 8 (v / 256 ^ n) :: be n v

/-- The number that bytes hold, most significant byte first. -/
def num (bs : List Byte) : Nat := bs.foldl (fun a b => a * 256 + b.toNat) 0

/-- An attribute set in its six bytes (section 11.1). -/
def attrBytes (a : AttrSet) : List Byte :=
  be 1 a.duplex.code ++ be 1 a.policy.code ++ be 1 a.bank ++ be 2 (a.nominal.getD 0) ++ be 1 a.tolerance

/-- The nominal length of two bytes: 0 stands for absent. -/
def nominalOf (l : Nat) : Option Nat := if l = 0 then none else some l

/-- An attribute set that carries only listed codes. -/
def attrOf (d p k l0 l1 t : Byte) : Option AttrSet :=
  match Duplex.ofCode d.toNat, Policy.ofCode p.toNat with
  | some d, some p => some ⟨d, p, k.toNat, nominalOf (num [l0, l1]), t.toNat⟩
  | _, _ => none

/-- An attribute set of an order, its codes as sent; tolerance 255 stands for omitted. -/
def attrArgOf (d p k l0 l1 t : Byte) : AttrArg :=
  ⟨d.toNat, p.toNat, k.toNat, nominalOf (num [l0, l1]), if t = 255#8 then none else some t.toNat⟩

def attrArgBytes (a : AttrArg) : List Byte :=
  be 1 a.duplex ++ be 1 a.policy ++ be 1 a.bank ++ be 2 (a.nominal.getD 0) ++ be 1 (a.tolerance.getD 255)

/-- Positions of two bytes each. -/
def positionsBytes : List Nat → List Byte
  | [] => []
  | p :: ps => be 2 p ++ positionsBytes ps

/-- Exactly `n` positions. -/
def positionsOf : Nat → List Byte → Option (List Nat)
  | 0, [] => some []
  | n + 1, a :: b :: rest => (positionsOf n rest).map (num [a, b] :: ·)
  | _, _ => none

/-- Positions with their attribute sets, eight bytes each. -/
def grantsBytes : List (Nat × AttrSet) → List Byte
  | [] => []
  | g :: gs => be 2 g.1 ++ attrBytes g.2 ++ grantsBytes gs

/-- Exactly `n` positions with their attribute sets. -/
def grantsOf : Nat → List Byte → Option (List (Nat × AttrSet))
  | 0, [] => some []
  | n + 1, a :: b :: d :: p :: k :: l0 :: l1 :: t :: rest =>
    match attrOf d p k l0 l1 t, grantsOf n rest with
    | some s, some gs => some ((num [a, b], s) :: gs)
    | _, _ => none
  | _, _ => none

/-! ## Checks -/

/-- One bit through a check register, most significant bit first. -/
def crcBit {w : Nat} (poly r : BitVec w) (bit : Bool) : BitVec w :=
  if r.msb != bit then (r <<< 1) ^^^ poly else r <<< 1

/-- One byte, its most significant bit first. -/
def crcByte {w : Nat} (poly r : BitVec w) (b : Byte) : BitVec w :=
  let step (r : BitVec w) (k : Nat) : BitVec w := crcBit poly r (b.getLsbD k)
  step (step (step (step (step (step (step (step r 7) 6) 5) 4) 3) 2) 1) 0

/-- A check register after bytes in order. -/
def crc {w : Nat} (poly : BitVec w) : BitVec w → List Byte → BitVec w
  | r, [] => r
  | r, b :: bs => crc poly (crcByte poly r b) bs

/-- The frame check (R194). -/
def frameCheck (bs : List Byte) : BitVec 32 := ~~~ (crc 0x04C11DB7#32 0xFFFFFFFF#32 bs)

/-- The image check (R197). -/
def imageCheck (bs : List Byte) : BitVec 16 := crc 0x1021#16 0xFFFF#16 bs

/-! ## Payloads (section 11.3) -/

/-- The kind code of a payload. -/
def Payload.kind : Payload → Nat
  | .order _ => 1 | .orderAnswer _ _ => 2 | .attention _ => 3 | .presence _ => 4 | .batchOpen _ _ => 5
  | .openAccept _ => 6 | .openRefuse _ _ => 7 | .batchGone _ => 8 | .abandon _ => 9 | .close _ _ _ => 10
  | .committed _ => 11 | .incomplete _ _ _ _ => 12 | .unknown _ => 13 | .holeClaim _ _ _ => 14
  | .holeGrant _ _ _ => 15 | .holeNone _ => 16 | .holeRefuse _ _ => 17 | .filled _ _ => 18
  | .release _ _ _ => 19 | .pageOffer _ _ _ _ => 20 | .slotGrant _ _ => 21 | .slotWait => 22
  | .pageRefuse _ => 23 | .pageStored _ _ => 24 | .pageFail _ _ => 25 | .pageFault _ _ => 26
  | .pageData _ _ _ => 27

/-- The order code and the arguments of an order (section 11.4). -/
def Order.bytes : Order → List Byte
  | .openBatch b g a => be 1 1 ++ be 3 b ++ be 1 g ++ attrArgBytes a
  | .endBatch b => be 1 2 ++ be 3 b
  | .abandonBatch b => be 1 3 ++ be 3 b
  | .waiveHoles b ps => be 1 4 ++ be 3 b ++ be 1 ps.length ++ positionsBytes ps
  | .closeAgain b => be 1 5 ++ be 3 b
  | .fill b => be 1 6 ++ be 3 b
  | .fillCancel => be 1 7
  | .loadExemption k e v m mask pat =>
      be 1 8 ++ be 1 k ++ be 1 e ++ be 1 v ++ be 1 m ++ be 8 mask.toNat ++ be 8 pat.toNat
  | .learnExemption k e m mask => be 1 9 ++ be 1 k ++ be 1 e ++ be 1 m ++ be 8 mask.toNat
  | .query s b i => be 1 10 ++ be 1 s.code ++ be 3 b ++ be 2 i
  | .ackAttention cs => be 1 11 ++ be 4 cs.toNat
  | .restart => be 1 12
  | .undecodable => be 1 0

/-- The order that an ORDER payload spells; `undecodable` where R196 refuses its code or its length. -/
def Order.ofBytes (code : Nat) (args : List Byte) : Order :=
  match code, args with
  | 1, [b0, b1, b2, g, d, p, k, l0, l1, t] =>
      .openBatch (num [b0, b1, b2]) g.toNat (attrArgOf d p k l0 l1 t)
  | 2, [b0, b1, b2] => .endBatch (num [b0, b1, b2])
  | 3, [b0, b1, b2] => .abandonBatch (num [b0, b1, b2])
  | 4, b0 :: b1 :: b2 :: n :: rest =>
      match positionsOf n.toNat rest with
      | some ps => .waiveHoles (num [b0, b1, b2]) ps
      | none => .undecodable
  | 5, [b0, b1, b2] => .closeAgain (num [b0, b1, b2])
  | 6, [b0, b1, b2] => .fill (num [b0, b1, b2])
  | 7, [] => .fillCancel
  | 8, [k, e, v, m, m0, m1, m2, m3, m4, m5, m6, m7, p0, p1, p2, p3, p4, p5, p6, p7] =>
      .loadExemption k.toNat e.toNat v.toNat m.toNat
        (BitVec.ofNat 64 (num [m0, m1, m2, m3, m4, m5, m6, m7]))
        (BitVec.ofNat 64 (num [p0, p1, p2, p3, p4, p5, p6, p7]))
  | 9, [k, e, m, m0, m1, m2, m3, m4, m5, m6, m7] =>
      .learnExemption k.toNat e.toNat m.toNat (BitVec.ofNat 64 (num [m0, m1, m2, m3, m4, m5, m6, m7]))
  | 10, [s, b0, b1, b2, i0, i1] =>
      match Subject.ofCode s.toNat with
      | some s => .query s (num [b0, b1, b2]) (num [i0, i1])
      | none => .undecodable
  | 11, [c0, c1, c2, c3] => .ackAttention (BitVec.ofNat 32 (num [c0, c1, c2, c3]))
  | 12, [] => .restart
  | _, _ => .undecodable

/-- The fields of a page's identity. -/
def pageBytes (p : PageId) : List Byte := be 3 p.batch ++ be 2 p.position ++ be 1 p.side.code

/-- The payload's fields in order (section 11.3). -/
def Payload.bytes : Payload → List Byte
  | .order o => o.bytes
  | .orderAnswer code body => be 1 code ++ body
  | .attention cs => be 4 cs.toNat
  | .presence r => be 1 r.code
  | .batchOpen b g => be 3 b ++ be 1 g
  | .openAccept b => be 3 b
  | .openRefuse b r => be 3 b ++ be 1 r.code
  | .batchGone b => be 3 b
  | .abandon b => be 3 b
  | .close b n ps => be 3 b ++ be 2 n ++ be 1 ps.length ++ positionsBytes ps
  | .committed b => be 3 b
  | .incomplete b t e ps => be 3 b ++ be 1 ps.length ++ be 2 t ++ be 2 e ++ positionsBytes ps
  | .unknown b => be 3 b
  | .holeClaim b w ps => be 3 b ++ be 1 w ++ be 1 ps.length ++ positionsBytes ps
  | .holeGrant b g gs => be 3 b ++ be 1 g ++ be 1 gs.length ++ grantsBytes gs
  | .holeNone b => be 3 b
  | .holeRefuse b r => be 3 b ++ be 1 r.code
  | .filled b p => be 3 b ++ be 2 p
  | .release b final ps => be 3 b ++ be 1 (flagCode final) ++ be 1 ps.length ++ positionsBytes ps
  | .pageOffer p k size mark => pageBytes p ++ be 1 k ++ be 4 size ++ be 1 (flagCode mark)
  | .slotGrant slot start => be 1 slot ++ be 2 start
  | .slotWait => []
  | .pageRefuse r => be 1 r.code
  | .pageStored p slot => pageBytes p ++ be 1 slot
  | .pageFail p slot => pageBytes p ++ be 1 slot
  | .pageFault p slot => pageBytes p ++ be 1 slot
  | .pageData slot off bytes => be 1 slot ++ be 4 off ++ bytes

/-- A completion's page and slot, of seven bytes. -/
def completionOf (mk : PageId → Nat → Payload) (bs : List Byte) : Option Payload :=
  match bs with
  | [b0, b1, b2, p0, p1, sd, slot] =>
      (Side.ofCode sd.toNat).map fun side => mk ⟨num [b0, b1, b2], num [p0, p1], side⟩ slot.toNat
  | _ => none

/-- The payload that bytes of a kind spell; absent when the kind is unknown, the length is not the kind's
or a code is not listed (R195). The counts and ranges are judged by `Payload.inRange`. -/
def Payload.ofBytes (kind : Nat) (bs : List Byte) : Option Payload :=
  match kind, bs with
  | 1, code :: args => some (.order (Order.ofBytes code.toNat args))
  | 2, code :: body => some (.orderAnswer code.toNat body)
  | 3, [c0, c1, c2, c3] => some (.attention (BitVec.ofNat 32 (num [c0, c1, c2, c3])))
  | 4, [r] => (PresenceRole.ofCode r.toNat).map .presence
  | 5, [b0, b1, b2, g] => some (.batchOpen (num [b0, b1, b2]) g.toNat)
  | 6, [b0, b1, b2] => some (.openAccept (num [b0, b1, b2]))
  | 7, [b0, b1, b2, r] => (OpenRefusal.ofCode r.toNat).map (.openRefuse (num [b0, b1, b2]))
  | 8, [b0, b1, b2] => some (.batchGone (num [b0, b1, b2]))
  | 9, [b0, b1, b2] => some (.abandon (num [b0, b1, b2]))
  | 10, b0 :: b1 :: b2 :: c0 :: c1 :: n :: rest =>
      (positionsOf n.toNat rest).map (.close (num [b0, b1, b2]) (num [c0, c1]))
  | 11, [b0, b1, b2] => some (.committed (num [b0, b1, b2]))
  | 12, b0 :: b1 :: b2 :: n :: t0 :: t1 :: e0 :: e1 :: rest =>
      (positionsOf n.toNat rest).map (.incomplete (num [b0, b1, b2]) (num [t0, t1]) (num [e0, e1]))
  | 13, [b0, b1, b2] => some (.unknown (num [b0, b1, b2]))
  | 14, b0 :: b1 :: b2 :: w :: n :: rest =>
      (positionsOf n.toNat rest).map (.holeClaim (num [b0, b1, b2]) w.toNat)
  | 15, b0 :: b1 :: b2 :: g :: n :: rest =>
      (grantsOf n.toNat rest).map (.holeGrant (num [b0, b1, b2]) g.toNat)
  | 16, [b0, b1, b2] => some (.holeNone (num [b0, b1, b2]))
  | 17, [b0, b1, b2, r] => (HoleRefusal.ofCode r.toNat).map (.holeRefuse (num [b0, b1, b2]))
  | 18, [b0, b1, b2, p0, p1] => some (.filled (num [b0, b1, b2]) (num [p0, p1]))
  | 19, b0 :: b1 :: b2 :: f :: n :: rest =>
      match flagOf f.toNat, positionsOf n.toNat rest with
      | some final, some ps => some (.release (num [b0, b1, b2]) final ps)
      | _, _ => none
  | 20, [b0, b1, b2, p0, p1, sd, k, s0, s1, s2, s3, m] =>
      match Side.ofCode sd.toNat, flagOf m.toNat with
      | some side, some mark =>
          some (.pageOffer ⟨num [b0, b1, b2], num [p0, p1], side⟩ k.toNat (num [s0, s1, s2, s3]) mark)
      | _, _ => none
  | 21, [slot, o0, o1] => some (.slotGrant slot.toNat (num [o0, o1]))
  | 22, [] => some .slotWait
  | 23, [r] => (PageRefusal.ofCode r.toNat).map .pageRefuse
  | 24, bs => completionOf .pageStored bs
  | 25, bs => completionOf .pageFail bs
  | 26, bs => completionOf .pageFault bs
  | 27, slot :: o0 :: o1 :: o2 :: o3 :: data => some (.pageData slot.toNat (num [o0, o1, o2, o3]) data)
  | _, _ => none

/-- The largest payload of a kind (R99 step 2). -/
def payloadLimit (kind : Nat) : Nat := if kind = 27 then 4101 else 128

/-- A whole frame: header, payload, frame check (section 11.2). -/
def Frame.bytes (f : Frame) : List Byte :=
  let body := be 1 f.hdr.dst ++ be 1 f.hdr.src ++ be 1 f.payload.kind ++ be 1 f.hdr.tag ++
    be 2 f.payload.bytes.length ++ f.payload.bytes
  body ++ be 4 (frameCheck body).toNat

/-- A frame as it arrives: its header fields, its kind and its payload bytes, when the check holds and
nothing is missing or left over (R194). -/
structure RawFrame where
  hdr     : Hdr
  kind    : Nat
  payload : List Byte
  deriving DecidableEq, Repr

/-- The tests of R194 on what was heard. -/
def RawFrame.ofBytes (bs : List Byte) : Option RawFrame :=
  match bs with
  | d :: s :: k :: t :: l0 :: l1 :: rest =>
    let len := num [l0, l1]
    if rest.length = len + 4 ∧ be 4 (frameCheck (bs.take (6 + len))).toNat = rest.drop len then
      some ⟨⟨d.toNat, s.toNat, t.toNat⟩, k.toNat, rest.take len⟩
    else none
  | _ => none

end Sys2Proof.Machine
end

