-- ==== Sys2Proof/Machine/Query.lean ====
section
/-! DEFINITION. QUERY: the items of the ten subjects, their coding and the runs that answers carry (R185,
R186, section 11.4; log entry 16 names the codings chosen). -/

namespace Sys2Proof

/-! ## Places of named values, in the order their record lists them

A list that begins with 'absent' is counted from its first named value: an absent field is coded by its own byte,
not by a place (log entry 16). -/

def Role.place : Role → Nat
  | .scanner => 0 | .gateway => 1

def LineState.place : LineState → Nat
  | .unaddressed => 0 | .listening => 1 | .joined => 2 | .conflict => 3

def SettingsSource.place : SettingsSource → Nat
  | .default => 0 | .partialImage => 1 | .image => 2

def Transport.place : Transport → Nat
  | .idle => 0 | .armed => 1 | .feeding => 2 | .paused => 3 | .draining => 4 | .held => 5

/-- 'absent' is not counted (log entry 16). -/
def FeedMode.place : FeedMode → Nat
  | .batch => 0 | .fill => 1 | .learn => 2

def HoldReason.place : HoldReason → Nat
  | .jam => 0 | .doubleFeedStop => 1 | .lateDecision => 2 | .diverter => 3 | .diverterLate => 4
  | .captureMismatch => 5 | .patchSuspect => 6 | .storeExhausted => 7 | .holeLimit => 8

def Tray.place : Tray → Nat
  | .loaded => 0 | .empty => 1

def Level.place : Level → Nat
  | .normal => 0 | .pause => 1

/-- 'absent' is not counted (log entry 16). -/
def Pocket.place : Pocket → Nat
  | .main => 0 | .reject => 1

def Verdict.place : Verdict → Nat
  | .clean => 0 | .exempt => 1 | .length => 2 | .layer => 3 | .both => 4

def LearnPhase.place : LearnPhase → Nat
  | .waiting => 0 | .picked => 1

def BatchState.place : BatchState → Nat
  | .opening => 0 | .active => 1 | .ended => 2 | .reconciling => 3 | .closing => 4 | .committed => 5
  | .disputed => 6 | .halted => 7 | .refused => 8 | .abandoned => 9

def RefusalCause.place : RefusalCause → Nat
  | .duplicate => 0 | .tableFull => 1 | .noAnswer => 2 | .gatewaySilent => 3

def GatewayRefusal.place : GatewayRefusal → Nat
  | .unknownBatch => 0 | .batchClosed => 1

def DisputeCause.place : DisputeCause → Nat
  | .incomplete => 0 | .unknown => 1 | .noAnswer => 2

def HoleReason.place : HoleReason → Nat
  | .doubleFeed => 0 | .pulled => 1 | .store => 2

def HoleState.place : HoleState → Nat
  | .vacant => 0 | .claimed => 1 | .filled => 2 | .waived => 3

def FillPhase.place : FillPhase → Nat
  | .feeding => 0 | .ending => 1

def EndCause.place : EndCause → Nat
  | .stopPatch => 0 | .trayEmpty => 1 | .noHoles => 2 | .stopKey => 3 | .cancel => 4 | .refused => 5
  | .noAnswer => 6 | .ownerGone => 7

def GrantState.place : GrantState → Nat
  | .unused => 0 | .scanned => 1 | .stored => 2 | .refused => 3

def PageState.place : PageState → Nat
  | .filling => 0 | .heldForSheet => 1 | .ready => 2 | .sending => 3 | .sent => 4 | .failed => 5

/-- The staged phases are EMPTY, OFFERED, GRANTED and the active ones EMPTY, STREAMING (R113). -/
def DescPhase.place : DescPhase → Nat
  | .empty => 0 | .offered => 1 | .granted => 2 | .streaming => 1

def GiveUp.place : GiveUp → Nat
  | .none => 0 | .ret => 1 | .restart => 2 | .discard => 3

def PeerState.place : PeerState → Nat
  | .absent => 0 | .present => 1 | .silent => 2

def PeerRole.place : PeerRole → Nat
  | .unknown => 0 | .scanner => 1 | .gateway => 2 | .console => 3

def SlotState.place : SlotState → Nat
  | .free => 0 | .granted => 1 | .receiving => 2 | .complete => 3 | .storing => 4

def CommitState.place : CommitState → Nat
  | .opened => 0 | .committed => 1

end Sys2Proof

namespace Sys2Proof.Machine

/-! ## Field coding (section 11.4) -/

/-- A field that may be absent. -/
def optField {α : Type} (f : α → List Byte) : Option α → List Byte
  | none => be 1 0
  | some x => be 1 1 ++ f x

/-- A yes-or-no field. -/
def flagField (b : Bool) : List Byte := be 1 (flagCode b)

/-- A list with its count byte. -/
def listField {α : Type} (f : α → List Byte) (xs : List α) : List Byte := be 1 xs.length ++ xs.flatMap f

/-- A time in ms in four bytes. -/
def timeField (t : Nat) : List Byte := be 4 t

/-! ## STATION -/

def settingsItem (c : Settings) : List Byte :=
  timeField c.presenceMs ++ be 1 c.silenceMultiple ++ timeField c.answerMs ++ timeField c.retryMs ++
    timeField (1000 * c.storeSeconds) ++ be 2 c.pauseLevel ++ be 2 c.resumeLevel ++ be 1 c.runThreshold ++
    be 1 c.toleranceDefault ++ be 1 c.source.place

def transportItem (t : Tsq) : List Byte :=
  be 1 t.transport.place ++ optField (fun m => be 1 m.place) t.feedMode ++ optField (be 3) t.fedBatch ++
    optField (fun r => be 1 r.place) t.holdReason ++ be 1 t.tray.place ++ be 1 t.storeLevel.place ++
    be 1 t.diverter.place ++ flagField t.diverterConfirmed ++ be 1 t.tagCounter

def stationItem (s : State) : List Byte :=
  be 1 s.oru.address ++ be 1 s.oru.role.place ++ be 1 s.fli.line.place ++ settingsItem s.oru.settings ++
    (match s.oru.role with | .scanner => transportItem s.tsq | .gateway => [])

def bindingField : Binding → List Byte
  | .batch b => be 1 0 ++ be 3 b
  | .fill p => be 1 1 ++ optField (be 2) p
  | .learn => be 1 2

def sensorField (picked : Nat) (t : SensorTimes) : List Byte :=
  optField (fun x => timeField (x - picked)) t.lead ++ optField (fun x => timeField (x - picked)) t.trail

def patchField : Patch → List Byte
  | .none => be 1 0
  | .header a => be 1 1 ++ be 1 0 ++ attrArgBytes a
  | .sectionSheet a => be 1 1 ++ be 1 1 ++ attrArgBytes a
  | .stop => be 1 1 ++ be 1 2

/-- The sides that a report lists. -/
def Report.sides (r : Report) : List Side := (if r.front then [.front] else []) ++ if r.back then [.back] else []

def reportField (r : Report) : List Byte := listField (fun d => be 1 d.code) r.sides ++ patchField r.patch

def pageField (s : State) (id : Nat) : List Byte :=
  match s.findRec id with
  | some r => be 2 id ++ be 1 r.state.place ++ be 4 r.size
  | none => be 2 id

/-- A track entry: the fields of R36 in their order; the exemption index, for which R36's table has no row, stands
straight after the verdict (R186; log entry 16). -/
def trackItem (s : State) (e : TrackEntry) : List Byte :=
  be 1 e.tag ++ bindingField e.binding ++ attrBytes e.snap ++
    sensorField e.pickedAt e.edges.entry ++ sensorField e.pickedAt e.edges.capture ++
    sensorField e.pickedAt e.edges.gate ++ sensorField e.pickedAt e.edges.exit ++
    optField (be 2) e.length ++ be 1 e.profile.length ++ be 8 (zoneSet e.profile).toNat ++
    optField (fun v => be 1 v.place) e.verdict ++ optField (be 1) e.exemption ++
    optField reportField e.report ++ optField (be 2) e.position ++ flagField e.overrun ++
    flagField e.storeLost ++ flagField e.abandoned ++ optField (fun p => be 1 p.place) e.route ++
    flagField e.routeSettled ++ listField (pageField s) e.pages

/-- A track place; an empty place is an item with no fields. -/
def placeItem (s : State) (k : Nat) : List Byte :=
  match s.tsq.track[k]? with
  | some e => trackItem s e
  | none => []

def exemptionItem (x : Exemption) : List Byte := flagField x.valid ++ be 1 x.mode.code ++ be 2 x.matched

/-- Every field of R71, then the learn snapshot of R72 (R186; log entry 16). -/
def learnItem (tolerance : Nat) (l : Learn) : List Byte :=
  be 1 l.bank ++ be 1 l.entry ++ be 8 l.mask.toNat ++ be 1 l.mode.code ++ be 1 l.phase.place ++
    attrBytes (learnSnap l.bank tolerance)

def stationItems (s : State) : List (List Byte) :=
  match s.oru.role with
  | .gateway => [stationItem s]
  | .scanner =>
    stationItem s :: (List.range Config.trackEntries).map (placeItem s) ++ s.dfm.exemptions.map exemptionItem ++
      [optField (learnItem s.oru.settings.toleranceDefault) s.dfm.learn]

/-! ## BATCH and HOLES -/

def verdictCountsField (c : VerdictCounts) : List Byte :=
  be 2 c.clean ++ be 2 c.exempt ++ be 2 c.length ++ be 2 c.layer ++ be 2 c.both

def batchItem (r : BatchRec) : List Byte :=
  be 3 r.number ++ be 1 r.gateway ++ be 1 r.state.place ++ optField (fun c => be 1 c.place) r.refusalCause ++
    attrBytes r.attrs ++ be 1 r.rejectedPatch ++ be 2 r.scanned ++ be 2 r.accepted ++
    verdictCountsField r.verdicts ++ be 2 r.failedPages ++ optField (fun c => be 1 c.place) r.gatewayRefusal ++
    optField (be 1) r.openAsk ++ optField (be 4) r.terminalOrder

def closeResultField (c : CloseResult) : List Byte := listField (be 2) c.missing ++ be 2 c.total ++ be 2 c.excess

def pageStates : List PageState := [.filling, .heldForSheet, .ready, .sending, .sent, .failed]

def closeItem (s : State) (r : BatchRec) : List Byte :=
  optField (be 1) r.closeAsk ++ optField closeResultField r.lastClose ++
    optField (fun c => be 1 c.place) r.disputeCause ++ be 1 r.closeAttempts ++
    pageStates.flatMap fun st => be 2 (s.pgs.recs.countP fun p => p.batch == some r.number && p.state == st)

def holeItem (h : Hole) : List Byte :=
  be 2 h.position ++ be 1 h.reason.place ++ be 1 h.state.place ++ optField (be 1) h.claimant ++
    be 1 h.retries ++ attrBytes h.snap

/-! ## FILL -/

def jobItem (j : FillJob) : List Byte :=
  be 3 j.batch ++ be 1 j.owner ++ be 1 j.gateway ++ flagField j.atHome ++ be 1 j.phase.place ++
    optField (fun c => be 1 c.place) j.endCause ++ optField (fun r => be 1 r.code) j.refusal ++
    optField (be 1) j.claimTag ++ be 1 j.claims ++ be 1 j.timeouts ++ listField (be 2) j.releaseSet ++
    be 2 j.filledCount

def grantItem (g : Grant) : List Byte :=
  be 2 g.position ++ attrBytes g.snap ++ be 1 g.state.place ++ be 1 g.required ++ be 1 g.stored

def fillItems (s : State) : List (List Byte) :=
  optField jobItem s.bct.fill :: ((s.bct.fill.map (·.granted)).getD []).map grantItem

/-! ## CHANNELS -/

def descItem (d : Desc) : List Byte :=
  be 1 d.phase.place ++ optField (be 2) d.page ++ optField (be 1) d.gateway ++ optField (be 1) d.slot ++
    be 2 d.start ++ be 4 d.next ++ be 3 d.remaining ++ optField (be 2) d.lastBurst ++ optField (be 1) d.askTag

def channelItem (c : Channel) : List Byte :=
  descItem c.active ++ be 1 c.active.giveUp.place ++ descItem c.staged ++ flagField c.retryDue.isSome

def outstandingItem (now : Nat) (o : Outstanding) : List Byte :=
  be 2 o.page ++ be 1 o.gateway ++ be 1 o.slot ++ timeField (o.due - now)

def channelItems (s : State) : List (List Byte) := [channelItem s.txe.chanA, channelItem s.txe.chanB]

def outstandingItems (s : State) : List (List Byte) := s.txe.outstanding.map (outstandingItem s.now)

/-! ## PEERS -/

def peerItem (now : Nat) (p : Peer) : List Byte :=
  be 1 p.state.place ++ be 1 p.role.place ++ optField (fun t => timeField (min 65535 (now - t))) p.heardAt ++
    flagField p.changed

/-! ## SLOTS and COMMIT -/

/-- A slot with the fields that R134 names for QUERY SLOTS; in a FREE slot the sender, the page identity, the size and the
expected next offset are each absent (log entry 43). -/
def slotItem (now : Nat) (sl : Slot) : List Byte :=
  be 1 sl.state.place ++ optField (fun h => be 1 h.sender) sl.hold ++ optField (fun h => pageBytes h.page) sl.hold ++
    optField (fun h => be 4 h.size) sl.hold ++ optField (fun h => be 4 h.expected) sl.hold ++
    timeField (sl.idleAge now) ++ flagField sl.disowned

def slotItems (s : State) : List (List Byte) :=
  (be 2 s.ict.freeBlocks ++ flagField s.ict.portBusy ++ listField (be 1) s.ict.storeQueue) ::
    s.ict.slots.map (slotItem s.now)

/-- The positions from one on that a test keeps, at most 8, in rising order. -/
def firstEight (start : Nat) (p : Nat → Bool) : List Nat :=
  ((List.range' start (Config.maxPosition + 1 - start)).filter p).take 8

/-- The two lists of a COMMIT item: positions not present, and marked positions (R186). -/
def commitLists (r : CommitRec) (start : Nat) : List Nat × List Nat :=
  let present := r.presentList
  let marked := (r.positions.filter (·.mark)).map (·.position)
  (firstEight start fun p => !present.contains p, firstEight start fun p => marked.contains p)

/-- The item of COMMIT: its fields stand in the order in which R186 lists them, the state before the owner (log entry
16). -/
def commitItem (r : CommitRec) (start : Nat) : List Byte :=
  let (missing, marked) := commitLists r start
  be 1 r.state.place ++ be 1 r.owner ++ be 2 r.present ++ optField (be 4) r.order ++
    optField (be 2) r.presentList.getLast? ++ listField (be 2) missing ++ listField (be 2) marked

/-- The position after the eighth of a list that holds 8. -/
def afterEighth (ps : List Nat) : Option Nat := (ps[7]?).map (· + 1)

/-- The next index of a COMMIT answer (R186): NONE where the eighth listed position, and not the one after it, is 4095
(log entry 45). -/
def commitNext (r : CommitRec) (start : Nat) : Nat :=
  let (missing, marked) := commitLists r start
  let next := match afterEighth missing, afterEighth marked with
    | some a, some b => min a b
    | some a, none => a
    | none, some b => b
    | none, none => Config.noIndex
  if next = Config.maxPosition + 1 then Config.noIndex else next

/-! ## COUNTERS -/

def fliCounters (l : Fli) : List Byte :=
  be 2 l.checkFailures ++ be 2 l.malformed ++ be 2 l.listeningDiscards ++ be 2 l.roleDiscards ++
    be 2 l.rxOverflows ++ be 2 l.txDrops ++ be 2 l.unsent ++ be 4 l.framesSent

def pgsCounters (g : Pgs) : List Byte :=
  be 2 g.freeBlocks ++ be 2 g.freeRecs ++ be 1 g.level.place ++ be 2 g.strayCapture ++ be 2 g.lossNoRecord ++
    be 2 g.lossOversize ++ be 2 g.lossNoBlock

def txeCounters (t : Txe) : List Byte :=
  be 2 t.offers ++ be 2 t.grants ++ be 2 t.waits ++ be 2 t.refusals ++ be 2 t.storedPages ++
    be 2 t.offerTimeouts ++ be 2 t.staleAnswers ++ be 2 t.failRestarts ++ be 2 t.faultRestarts ++
    be 2 t.staleCompletions ++ be 2 t.storeTimeouts ++ be 2 t.failedPages

def slotStates : List SlotState := [.free, .granted, .receiving, .complete, .storing]

def ictCounters (i : Ict) : List Byte :=
  be 2 i.offersGranted ++ be 2 i.offersWaited ++ be 2 i.offersRefused ++ be 2 i.offersStored ++
    be 2 i.burstsTaken ++ be 2 i.faultsSent ++ be 2 i.expiredSlots ++ be 2 i.storedPages ++
    be 2 i.storeErrors ++ be 2 i.disownedCompletions ++ be 2 i.strayCompletions ++ be 2 i.freeBlocks ++
    slotStates.flatMap fun st => be 1 (i.slots.countP (·.state == st))

def oruCounters (o : Oru) : List Byte :=
  be 2 o.ordersTaken ++ be 2 o.refusedSource ++ be 2 o.broadcastOrders ++ be 2 o.attentionFrames

def counterItems (s : State) : List (List Byte) :=
  match s.oru.role with
  | .scanner => [fliCounters s.fli, pgsCounters s.pgs, txeCounters s.txe, be 2 s.dfm.strayReadings, oruCounters s.oru]
  | .gateway => [fliCounters s.fli, ictCounters s.ict, oruCounters s.oru]

/-! ## Answers (R185) -/

/-- The body of an accepted QUERY. -/
def queryBody (subject : Subject) (batch first next : Nat) (items : List (List Byte)) : List Byte :=
  be 1 subject.code ++ be 3 batch ++ be 2 first ++ be 1 items.length ++ be 2 next ++
    items.flatMap fun i => be 1 i.length ++ i

/-- The bytes left for items in the payload of an ORDER ANSWER: its result code and the nine bytes before the
items are taken off R94's limit (section 11.4). -/
def answerRoom : Nat := Config.controlPayload - 10

/-- The leading items, each with its length byte, that fit a room (R94; log entry 17). -/
def fitItems : Nat → List (List Byte) → List (List Byte)
  | _, [] => []
  | room, i :: is => if i.length + 1 ≤ room then i :: fitItems (room - (i.length + 1)) is else []

/-- The run of items that an answer carries: consecutive items from the first index, as many as the subject's
limit and R94's allow (R185). -/
def queryRun (first limit : Nat) (items : List (List Byte)) : List (List Byte) :=
  fitItems answerRoom ((items.drop first).take limit)

/-- An answer with a run of consecutive items from an index. -/
def answerRun (subject : Subject) (batch first limit : Nat) (items : List (List Byte)) : ResultCode × List Byte :=
  if items.length < first then (.badArgument, []) else
  let run := queryRun first limit items
  let next := if first + run.length = items.length then Config.noIndex else first + run.length
  (.accepted, queryBody subject batch first next run)

/-- CHANNELS: an answer does not mix channel items and outstanding items (R186). -/
def answerChannels (s : State) (first : Nat) : ResultCode × List Byte :=
  let items := channelItems s ++ outstandingItems s
  answerRun .channels 0 first (if first < 2 then 2 - first else 8) items

/-- The subject's role is the station's (R186). -/
def Subject.inRole (subject : Subject) (role : Role) : Bool :=
  match subject with
  | .station | .peers | .counters | .attention => true
  | .batch | .holes | .fill | .channels => role == .scanner
  | .slots | .commit => role == .gateway

/-- The items of PEERS (R186). -/
def peerItems (s : State) : List (List Byte) := s.fli.peers.map (peerItem s.now)

/-- The answer to a QUERY (R185). -/
def answerQuery (subject : Subject) (batch index : Nat) (s : State) : ResultCode × List Byte :=
  if ¬ Subject.inRole subject s.oru.role then (.wrongRole, []) else
  match subject with
  | .station => answerRun .station 0 index 3 (stationItems s)
  | .batch =>
    match s.findBatch batch with
    | some r => answerRun .batch batch index 1 [batchItem r, closeItem s r]
    | none => (.unknownBatch, [])
  | .holes =>
    match s.findBatch batch with
    | some r => answerRun .holes batch index 8 (r.holes.map holeItem)
    | none => (.unknownBatch, [])
  | .fill => answerRun .fill 0 index 9 (fillItems s)
  | .channels => answerChannels s index
  | .peers => answerRun .peers 0 index 16 (peerItems s)
  | .slots => answerRun .slots 0 index 4 (slotItems s)
  | .commit =>
    match s.findCommit batch with
    | some r =>
      let start := max 1 index
      (.accepted, queryBody .commit batch index (commitNext r start) [commitItem r start])
    | none => (.unknownBatch, [])
  | .counters => answerRun .counters 0 index 2 (counterItems s)
  | .attention => answerRun .attention 0 index 1 [be 4 s.oru.attention.toNat]

/-- The changed marks of the peers that an answer from an index carries are cleared (R110, R186). -/
def clearMarks (index : Nat) (s : State) : State :=
  let carried := (queryRun index 16 (peerItems s)).length
  s.modFli fun l => { l with
    peers := l.peers.take index ++ ((l.peers.drop index).take carried).map (fun p => { p with changed := false }) ++
      l.peers.drop (index + carried) }

end Sys2Proof.Machine
end

