-- ==== Sys2Proof/Machine/Batches.lean ====
section
/-! DEFINITION. The Batch Controller's orders, frames and timeouts: opening, ending, abandoning, waiving and
closing a batch, the room batch directory, and the orders and answers of a fill (chapters 1, 8, 9). -/

namespace Sys2Proof.Machine

/-! ## The room batch directory (R26) -/

/-- The first entry whose owner is not this station removed. -/
def dropForeign (own : Nat) : List DirEntry → List DirEntry
  | [] => []
  | e :: es => if e.owner ≠ own then es else e :: dropForeign own es

/-- An entry made or overwritten, last heard now; a full directory loses the one last heard longest ago
that is not this station's. -/
def setDir (e : DirEntry) (s : State) : State :=
  s.modBct fun b =>
    let rest := b.directory.filter (·.batch != e.batch)
    let rest := if rest.length < Config.directoryEntries then rest else dropForeign s.oru.address rest
    { b with directory := rest ++ [e] }

/-- The entry for a number removed, when its owner is the station named. -/
def removeDir (batch owner : Nat) (s : State) : State :=
  s.modBct fun b => { b with directory := b.directory.filter fun e => !(e.batch == batch && e.owner == owner) }

/-! ## Terminal states (R1, R2, R9) -/

/-- A record enters a terminal state and receives the next terminal order; its queue leaves the queue list
(R87). -/
def enterTerminal (b : Nat) (state : BatchState) (s : State) : State :=
  let order := s.bct.terminalNext
  let s := s.updBatch b fun r => { r with state, terminalOrder := some order }
  dropQueue b (s.modBct fun t => { t with terminalNext := t.terminalNext + 1 })

/-- A record in OPENING enters REFUSED (R9); `abandon` is set under R6, R7 and R8. -/
def refuseBatch (b : Nat) (cause : RefusalCause) (abandon : Bool) (s : State) : State :=
  match s.findBatch b with
  | none => s
  | some r =>
    let s := enterTerminal b .refused s
    let s := s.updBatch b fun r => { r with refusalCause := some cause, openAsk := none }
    let s := if abandon then tell r.gateway (.abandon b) s else s
    let s := removeDir b s.oru.address (tell Config.everyStation (.batchGone b) s)
    ownerGone b (raise .batchRefused s)

/-! ## OPEN BATCH (R1, R3, R4) -/

/-- The record of an accepted OPEN BATCH. -/
def newBatch (b gateway : Nat) (attrs : AttrSet) (tag due : Nat) : BatchRec :=
  { number := b, gateway, state := .opening, attrs, openAsk := some tag, openDue := due }

/-- The terminal record that entered its state longest ago (R1). -/
def oldestTerminal : List BatchRec → Option BatchRec
  | [] => none
  | r :: rs =>
    match oldestTerminal rs with
    | none => if r.state.terminal then some r else none
    | some x => if r.state.terminal && r.terminalOrder.getD 0 ≤ x.terminalOrder.getD 0 then some r else some x

/-- The entry chosen for a new record (R1): a terminal record of the number, a free entry, the oldest
terminal record. -/
def placeBatch (r : BatchRec) (table : List BatchRec) : List BatchRec :=
  if table.any (·.number == r.number) then updFirst (·.number == r.number) (fun _ => r) table
  else if table.length < Config.batchEntries then table ++ [r]
  else match oldestTerminal table with
    | some old => updFirst (·.number == old.number) (fun _ => r) table
    | none => table

/-- OPEN BATCH (R3, R4). -/
def openBatch (b gateway : Nat) (a : AttrArg) (s : State) : ResultCode × State :=
  match a.resolve s.oru.settings.toleranceDefault with
  | none => (.badArgument, s)
  | some attrs =>
    if ¬ batchOk b ∨ ¬ gatewayOk gateway ∨ gateway = s.oru.address then (.badArgument, s)
    else if s.bct.batches.any fun r => r.state == .opening || r.state == .active then (.busy, s)
    else if (s.findDir b).any (·.owner != s.oru.address) ∨ (s.findBatch b).any (!·.state.terminal) then
      (.duplicateBatch, s)
    else if Config.batchEntries ≤ s.bct.batches.length ∧ s.bct.batches.all (!·.state.terminal) then (.tableFull, s)
    else
      let r := newBatch b gateway attrs s.fli.askTag s.answerDue
      let s := s.modBct fun t => { t with batches := placeBatch r t.batches }
      let s := addQueue b (setDir ⟨b, s.oru.address, gateway, s.now⟩ s)
      (.accepted, ask Config.everyStation (.batchOpen b gateway) s)

/-! ## END BATCH (R17), CLOSE AGAIN (R178) -/

def endBatch (b : Nat) (s : State) : ResultCode × State :=
  match s.findBatch b with
  | none => (.unknownBatch, s)
  | some r =>
    match r.state with
    | .active =>
      (.accepted, endedTest b (withdrawBatch b (s.updBatch b fun r => { r with state := .ended })))
    | .ended | .halted => (.accepted, s)
    | _ => (.badState, s)

def closeAgain (b : Nat) (s : State) : ResultCode × State :=
  match s.findBatch b with
  | none => (.unknownBatch, s)
  | some r =>
    if r.state = .disputed then
      (.accepted, closeTest b (s.updBatch b fun r => { r with state := .reconciling }))
    else (.badState, s)

/-! ## ABANDON BATCH at a scanner (R24, R25) -/

/-- A track entry of an abandoned batch (R25). -/
def TrackEntry.abandon (b : Nat) (e : TrackEntry) : TrackEntry :=
  if e.boundTo b then { e with abandoned := true, position := none } else e

/-- The sheets of an abandoned batch marked, their capture progress set to DROP (R25). -/
def markAbandoned (b : Nat) (s : State) : State :=
  let tags := (s.tsq.track.filter (·.boundTo b)).map (·.tag)
  let s := s.modTsq fun t => { t with track := t.track.map (TrackEntry.abandon b) }
  tags.foldl (fun s tag => s.updProgress tag fun p => { p with mode := .drop }) s

def abandonBatch (b : Nat) (s : State) : ResultCode × State :=
  match s.findBatch b with
  | none => (.unknownBatch, s)
  | some r =>
    if r.state.terminal then (.badState, s) else
    let s := enterTerminal b .abandoned s
    let s := s.updBatch b fun r => { r with openAsk := none, closeAsk := none }
    let s := discardAll (s.recsWhere fun r => r.batch == some b && !r.fillFlag) s
    let s := markAbandoned b (withdrawBatch b s)
    let s := s.updBatch b fun r => { r with holes := [] }
    let s := tell r.gateway (.abandon b) s
    let s := removeDir b s.oru.address (tell Config.everyStation (.batchGone b) s)
    (.accepted, ownerGone b s)

/-! ## WAIVE HOLES (R155, R23) -/

/-- A position named more than once is taken once. -/
def dedup : List Nat → List Nat
  | [] => []
  | p :: ps => if ps.contains p then dedup ps else p :: dedup ps

/-- The hole list entry of a position. -/
def BatchRec.hole? (r : BatchRec) (p : Nat) : Option Hole := r.holes.find? (·.position == p)

/-- The records of a position of a batch. -/
def State.positionRecs (s : State) (b p : Nat) : List PageRec :=
  s.pgs.recs.filter fun r => r.batch == some b && r.position == some p

/-- The local fill job fills this station's own batch of the number. -/
def State.fillsOwn (s : State) (b : Nat) : Bool := s.bct.fill.any fun j => j.atHome && j.batch == b

/-- A sheet in the track holds the position of the batch: one bound to the batch, or one of a local fill of it. A
reserved position is held once the report has given it to the sheet (log entry 42). -/
def State.sheetHolds (s : State) (b p : Nat) : Bool :=
  s.tsq.track.any fun e => e.position == some p && (e.boundTo b || (e.binding.isFill && s.fillsOwn b))

/-- Check 3 of R155 for one position. -/
def State.waiveBad (s : State) (r : BatchRec) (p : Nat) : Bool :=
  p == 0 || r.scanned < p || s.sheetHolds r.number p ||
    ((r.hole? p).isNone && !(s.positionRecs r.number p).isEmpty &&
      (s.positionRecs r.number p).all (·.state != .failed))

/-- The states in which R155 refuses the order. -/
def BatchRec.waiveRefused (r : BatchRec) : Bool :=
  match r.state with
  | .opening | .closing | .committed | .refused | .abandoned => true
  | _ => false

/-- Sheets of the track that may yet take a hole list entry (check 5 of R155, R49). -/
def State.holesComing (s : State) (b : Nat) : Nat :=
  s.tsq.track.countP fun e => e.route == some .reject && e.mayTake b

/-- One named position takes its effect in the record; a FILLED hole stays as it is (R155), in DISPUTED too (log
entry 44). -/
def BatchRec.waiveOne (r : BatchRec) (p : Nat) : BatchRec :=
  match r.hole? p with
  | some _ =>
    let hit (h : Hole) : Bool := h.position == p && h.state == .vacant
    { r with holes := updFirst hit (fun h => { h with state := .waived }) r.holes }
  | none => { r with
      accepted := r.accepted - 1
      holes := insertHole { position := p, reason := .store, state := .waived, snap := r.attrs } r.holes }

def waiveHoles (b : Nat) (named : List Nat) (s : State) : ResultCode × State :=
  match s.findBatch b with
  | none => (.unknownBatch, s)
  | some r =>
    let ps := dedup named
    let fresh := ps.filter fun p => (r.hole? p).isNone
    if r.waiveRefused then (.badState, s)
    else if ps.any (s.waiveBad r) then (.badArgument, s)
    else if ps.any fun p => (r.hole? p).any (·.state == .claimed) then (.holeClaimed, s)
    else if Config.holeEntries < r.holes.length + fresh.length + s.holesComing b then (.tableFull, s)
    else
      let s := s.updBatch b fun r => ps.foldl BatchRec.waiveOne r
      let s := discardAll (fresh.flatMap fun p => (s.positionRecs b p).map (·.id)) s
      (.accepted, closeTest b s)

/-! ## Answers to BATCH OPEN (R5, R6), BATCH OPEN and BATCH GONE heard (R8, R26, R167) -/

/-- The record in OPENING that an answer is for. -/
def State.openAnswered (s : State) (h : Hdr) (b : Nat) : Bool :=
  (s.findBatch b).any fun r => r.state == .opening && r.openAsk == some h.tag && r.gateway == h.src

def takeOpenAccept (h : Hdr) (b : Nat) (s : State) : State :=
  if s.openAnswered h b then s.updBatch b fun r => { r with state := .active, openAsk := none } else s

/-- The refusal cause that an OPEN REFUSE carries. -/
def openRefusalCause : OpenRefusal → RefusalCause
  | .duplicate => .duplicate
  | .tableFull => .tableFull

def takeOpenRefuse (h : Hdr) (b : Nat) (reason : OpenRefusal) (s : State) : State :=
  if s.openAnswered h b then refuseBatch b (openRefusalCause reason) false s else s

def openExpired (b : Nat) (s : State) : State :=
  match s.findBatch b with
  | some r =>
    if r.state = .opening ∧ r.openAsk.isSome then refuseBatch b .noAnswer true (s.advanceTo r.openDue) else s
  | none => s

/-- BATCH OPEN heard at a scanner: the withdrawal of R8, then the directory (R26); one of source 0 is taken as one
of a station (log entry 39). -/
def takeBatchOpenHeard (h : Hdr) (b gateway : Nat) (s : State) : State :=
  let s := if (s.findBatch b).any (·.state == .opening) ∧ h.src < s.oru.address then
    refuseBatch b .duplicate true s else s
  if (s.findDir b).any (·.owner == s.oru.address) then s else setDir ⟨b, h.src, gateway, s.now⟩ s

def takeBatchGone (h : Hdr) (b : Nat) (s : State) : State :=
  let s := removeDir b h.src s
  match s.bct.fill with
  | some j => if j.batch = b ∧ j.owner = h.src then fillEnd .ownerGone none s else s
  | none => s

/-! ## Answers to CLOSE (R172 to R176) -/

/-- The record in CLOSING that an answer is for. -/
def State.closeAnswered (s : State) (h : Hdr) (b : Nat) : Bool :=
  (s.findBatch b).any fun r => r.state == .closing && r.closeAsk == some h.tag && r.gateway == h.src

/-- A close that did not commit. -/
def dispute (b : Nat) (cause : DisputeCause) (result : Option CloseResult) (s : State) : State :=
  raise .batchDisputed (s.updBatch b fun r => { r with
    state := .disputed, closeAsk := none, disputeCause := some cause, lastClose := result })

def takeCommitted (h : Hdr) (b : Nat) (s : State) : State :=
  if s.closeAnswered h b then
    let s := enterTerminal b .committed s
    let s := s.updBatch b fun r => { r with closeAsk := none, disputeCause := none, lastClose := none }
    let s := removeDir b s.oru.address (tell Config.everyStation (.batchGone b) s)
    ownerGone b s
  else s

def takeIncomplete (h : Hdr) (b total excess : Nat) (missing : List Nat) (s : State) : State :=
  if s.closeAnswered h b then dispute b .incomplete (some ⟨missing, total, excess⟩) s else s

def takeUnknown (h : Hdr) (b : Nat) (s : State) : State :=
  if s.closeAnswered h b then dispute b .unknown none s else s

def closeExpired (b : Nat) (s : State) : State :=
  match s.findBatch b with
  | some r =>
    if r.state = .closing ∧ r.closeAsk.isSome then dispute b .noAnswer none (s.advanceTo r.closeDue) else s
  | none => s

/-! ## FILL and FILL CANCEL (R157, R163) -/

def fillOrder (b : Nat) (s : State) : ResultCode × State :=
  if b = 0 then (.badArgument, s)
  else if s.tsq.transport ≠ .idle then (.notIdle, s)
  else if s.bct.fill.isSome then (.busy, s)
  else match s.findDir b with
    | none => (.unknownBatch, s)
    | some d =>
      let j : FillJob :=
        { batch := b, owner := d.owner, gateway := d.gateway, atHome := d.owner == s.oru.address }
      (.accepted, fillTest 4 true (s.modBct fun t => { t with fill := some j }))

def fillCancel (s : State) : ResultCode × State :=
  match s.bct.fill with
  | none => (.badState, s)
  | some _ => (.accepted, fillEnd .cancel none s)

/-! ## The claim exchange on the line (R159, R160, R165, R166) -/

/-- A HOLE CLAIM taken by the owner and answered (R159); one of source 0 is taken as one of a station, and the holes
that it takes have claimant 0 (log entry 39). -/
def takeHoleClaim (h : Hdr) (b wanted : Nat) (held : List Nat) (s : State) : State :=
  let (answer, s) := ownerClaim h.src b wanted held s
  hand h.src h.tag answer s

/-- The pending claim that an answer is for. -/
def State.claimAnsweredBy (s : State) (h : Hdr) (b : Nat) : Bool :=
  s.bct.fill.any fun j => j.claimTag == some h.tag && j.owner == h.src && j.batch == b

def takeHoleGrant (h : Hdr) (b gateway : Nat) (grants : List (Nat × AttrSet)) (s : State) : State :=
  if s.claimAnsweredBy h b then takeGrant (fillTest 4 false) gateway grants s else s

def takeHoleNone (h : Hdr) (b : Nat) (s : State) : State := if s.claimAnsweredBy h b then takeNone s else s

def takeHoleRefusal (h : Hdr) (b : Nat) (reason : HoleRefusal) (s : State) : State :=
  if s.claimAnsweredBy h b then takeHoleRefuse reason s else s

/-- The claim's timeout expires (R158). -/
def claimExpired (s : State) : State :=
  match s.bct.fill with
  | some j =>
    if j.claimTag.isSome then
      let s := (s.advanceTo j.claimDue).updJob fun j => { j with
        claimTag := none, timeouts := bump Config.claimTimeouts j.timeouts }
      if Config.claimTimeouts ≤ j.timeouts + 1 then fillEnd .noAnswer none s else fillTest 4 false s
    else s
  | none => s

/-! ## Silence (R7, R167) -/

/-- BCT takes a silence notice. -/
def bctSilence (a : Nat) (s : State) : State :=
  let opening := s.bct.batches.filter fun r => r.state == .opening && r.gateway == a
  ownerSilent a (opening.foldl (fun s r => refuseBatch r.number .gatewaySilent true s) s)

end Sys2Proof.Machine
end

