-- ==== Sys2Proof/Machine/Capture.lean ====
section
/-! DEFINITION. The capture port at the Page Store: side-begin, data, side-end and store loss (sections 4.3,
4.4), with the Transport Sequencer's taking of the loss (R56). -/

namespace Sys2Proof.Machine

/-- Progress of one side. -/
def Progress.begin (p : Progress) : Side → Progress
  | .front => { p with frontBegun := true, frontEnded := false }
  | .back => { p with backBegun := true, backEnded := false }

def Progress.markBegun (p : Progress) : Side → Progress
  | .front => { p with frontBegun := true }
  | .back => { p with backBegun := true }

def Progress.markEnded (p : Progress) : Side → Progress
  | .front => { p with frontEnded := true }
  | .back => { p with backEnded := true }

/-- The side has reached its side-end in the Page Store (R80). -/
def Progress.ended (p : Progress) : Side → Bool
  | .front => p.frontEnded
  | .back => p.backEnded

/-- A stray capture event (R80). -/
def strayCapture (s : State) : State := s.modPgs fun g => { g with strayCapture := bump16 g.strayCapture }

/-- The exhaustion count of a cause raised (R84). -/
def countLoss (c : LossCause) (s : State) : State :=
  s.modPgs fun g => match c with
    | .noRecord => { g with lossNoRecord := bump16 g.lossNoRecord }
    | .oversize => { g with lossOversize := bump16 g.lossOversize }
    | .noBlock => { g with lossNoBlock := bump16 g.lossNoBlock }

/-- A sheet suffers a store loss (R84); TSQ marks the entry and holds (R56). -/
def storeLoss (c : LossCause) (e : TrackEntry) (s : State) : State :=
  let s := s.updEntry e.tag fun e => { e with pages := [] }
  let s := e.pages.foldl (fun s id => freeRec id s) s
  let s := s.updProgress e.tag fun p => { p with mode := .drop }
  let s := (countLoss c s).updEntry e.tag fun e => { e with storeLost := true }
  hold .storeExhausted s

/-- A record of a sheet in the track freed, its identifier removed from the entry. -/
def freeSheetRec (e : TrackEntry) (id : Nat) (s : State) : State :=
  freeRec id (s.updEntry e.tag fun e => { e with pages := e.pages.filter (· != id) })

/-- Side-begin (R81). -/
def sideBegin (tag : Nat) (side : Side) (s : State) : State :=
  match s.findEntry tag with
  | none => strayCapture s
  | some e =>
    match (s.progressOf tag).mode with
    | .drop => s.updProgress tag (·.markBegun side)
    | .keep =>
      let s := match s.sideRec e side with
        | some r => freeSheetRec e r.id s
        | none => s
      if s.pgs.freeRecs = 0 then storeLoss .noRecord e s
      else (allocRec e side s).updProgress tag (·.begin side)

/-- The record in FILLING for a side of a sheet. -/
def State.fillingRec (s : State) (e : TrackEntry) (side : Side) : Option PageRec :=
  match s.sideRec e side with
  | some r => if r.state = .filling then some r else none
  | none => none

/-- Data event (R82). -/
def dataEvent (tag : Nat) (side : Side) (bytes : List Byte) (s : State) : State :=
  match s.findEntry tag with
  | none => strayCapture s
  | some e =>
    match (s.progressOf tag).mode with
    | .drop => s
    | .keep =>
      match s.fillingRec e side with
      | none => strayCapture s
      | some r =>
        let size := r.size + bytes.length
        let n := blocksFor size - r.blocks.length
        if Config.maxPage < size then storeLoss .oversize e s
        else if s.pgs.freeBlocks < n then storeLoss .noBlock e s
        else appendData r bytes n s

/-- Side-end (R83). -/
def sideEnd (tag : Nat) (side : Side) (s : State) : State :=
  match s.findEntry tag with
  | none => strayCapture s
  | some e =>
    match (s.progressOf tag).mode with
    | .drop => s.updProgress tag (·.markEnded side)
    | .keep =>
      match s.fillingRec e side with
      | none => strayCapture s
      | some r =>
        if r.size = 0 then freeSheetRec e r.id s
        else (s.updRec r.id fun r => { r with state := .heldForSheet }).updProgress tag (·.markEnded side)

end Sys2Proof.Machine
end

