-- ==== Sys2Proof/Machine/Sheet.lean ====
section
/-! DEFINITION. A sheet's passage: the panel keys, tray events, edges, windows, capture reports, the diverter,
settling, misfeeds and CLEAR (chapter 2). -/

namespace Sys2Proof.Machine

/-! ## Keys and tray (R30 to R32) -/

/-- A feed mode is chosen: tray lift, ARMED. -/
def armFeed (mode : FeedMode) (batch : Option Nat) (s : State) : State :=
  (s.modTsq fun t => { t with transport := .armed, feedMode := some mode, fedBatch := batch }).drive .trayLift

/-- The fill job holds a granted position that is UNUSED. -/
def State.fillReady (s : State) : Bool := s.bct.fill.any fun j => j.granted.any (·.state == .unused)

/-- The START key (R30). -/
def startPressed (s : State) : State :=
  if s.tsq.transport ≠ .idle then s
  else if s.dfm.learn.isSome then armFeed .learn none s
  else if s.fillReady then armFeed .fill none s
  else match s.bct.batches.find? (·.state == .active) with
    | some r => armFeed .batch (some r.number) s
    | none => s

/-- The STOP key (R32); in FILL mode BCT is told first (log entry 12). -/
def stopPressed (s : State) : State :=
  match s.tsq.transport with
  | .armed | .feeding | .paused =>
    let s := if s.tsq.feedMode = some .fill then fillEnd .stopKey none s else s
    drainTest (feedStops s)
  | .idle | .draining | .held => s

/-- Tray-ready (R31). -/
def trayLoaded (s : State) : State :=
  let s := s.modTsq fun t => { t with tray := .loaded }
  if s.tsq.transport = .armed then
    pickTest (s.modTsq fun t => { t with
      transport := match t.storeLevel with | .normal => .feeding | .pause => .paused })
  else s

/-- Tray-empty (R31). -/
def trayEmptied (s : State) : State := s.modTsq fun t => { t with tray := .empty }

/-! ## Verdict (R43) -/

/-- The matching verdict count raised (R2, R15). -/
def VerdictCounts.count (c : VerdictCounts) : Verdict → VerdictCounts
  | .clean => { c with clean := bump16 c.clean }
  | .exempt => { c with exempt := bump16 c.exempt }
  | .length => { c with length := bump16 c.length }
  | .layer => { c with layer := bump16 c.layer }
  | .both => { c with both := bump16 c.both }

/-- The verdict passed to BCT for a sheet bound to a batch. -/
def countVerdict (e : TrackEntry) (v : Verdict) (s : State) : State :=
  match e.binding with
  | .batch b => if e.abandoned then s else s.updBatch b fun r => { r with verdicts := r.verdicts.count v }
  | _ => s

/-- What TSQ does with the verdict of a sheet not bound to LEARN (R43, R69; log entry 32). -/
def actOnVerdict (e : TrackEntry) (v : Verdict) (s : State) : State :=
  let s := countVerdict e v s
  let s := if e.marked then markPages e.pages s else s
  let stops := e.suspect && e.snap.policy == .stop && !e.overrun
  let patch := e.suspect && e.patched
  let s := if stops then hold .doubleFeedStop s else s
  let s := if patch then hold .patchSuspect s else s
  if stops || patch then s else routeTest e.tag s

/-- The verdict point: an entry whose trailing edge at ENTRY has been recorded (R43, R62, R73). -/
def verdictPoint (tag : Nat) (measure : Option Nat) (s : State) : State :=
  let s := s.updEntry tag fun e => { e with length := measure }
  match s.findEntry tag with
  | none => s
  | some e =>
    let (v, index) := judge s e
    let e := { e with verdict := some v, exemption := index }
    let s := countMatch e.snap.bank index (s.updEntry tag fun _ => e)
    match e.binding with
    | .learn => completeLearn e.profile s
    | _ => actOnVerdict e v s

/-! ## Settling (R53, R86) -/

/-- The side is required by the snapshot's duplex field (R44, R86). -/
def sideRequired (snap : AttrSet) : Side → Bool
  | .front => true
  | .back => snap.duplex == .duplex

/-- The records of a sheet that its eligible notice takes into READY. -/
def eligibleRec (snap : AttrSet) (r : PageRec) : Bool := r.state == .heldForSheet && sideRequired snap r.side

/-- Every required side is among the records. -/
def sidesPresent (snap : AttrSet) (rs : List PageRec) : Bool :=
  rs.any (·.side == .front) && (snap.duplex == .simplex || rs.any (·.side == .back))

/-- The eligible notice (R86; log entry 28): the required complete sides enter READY, the other records are
discarded, BCT is told of a fill position without a required side, and the channels make one offer test. -/
def pagesEligible (e : TrackEntry) (s : State) : State :=
  let recs := e.pages.filterMap s.findRec
  let good := recs.filter (eligibleRec e.snap)
  let s := good.foldl (fun s r => enterReady r.id
    (s.updRec r.id fun r => { r with pagesOfSheet := some (pagesRequired e.snap) })) s
  let s := (recs.filter fun r => !eligibleRec e.snap r).foldl (fun s r => discardRec r.id s) s
  let s := match e.binding, e.position with
    | .fill _, some p => if sidesPresent e.snap good then s else fillFailed p s
    | _, _ => s
  offerTest s

/-- The notices of a settled sheet, first to BCT, then to the Page Store (R53). -/
def settleNotices (e : TrackEntry) (s : State) : State :=
  match e.binding, e.position, e.route with
  | .batch b, some _, some .main => pagesEligible e (acceptPosition b s)
  | .batch b, some p, _ => discardAll e.pages (addHole b p .doubleFeed e.snap s)
  | .fill _, some p, some .main => pagesEligible e (fillScanned p s)
  | .fill _, some p, _ => discardAll e.pages (fillRefused p s)
  | .fill _, none, _ => discardAll e.pages (fillChanged s)
  | _, _, _ => discardAll e.pages s

/-- The ENDED test for the batch an entry was bound to. -/
def endedTestFor (e : TrackEntry) (s : State) : State :=
  match e.binding with
  | .batch b => if e.abandoned then s else endedTest b s
  | _ => s

/-- An entry removed from the track. -/
def removeEntry (tag : Nat) (s : State) : State :=
  s.modTsq fun t => { t with track := t.track.eraseP (·.tag == tag) }

/-- An entry settles (R53). -/
def settle (e : TrackEntry) (s : State) : State :=
  pickTest (drainTest (endedTestFor e (settleNotices e (removeEntry e.tag s))))

/-! ## Edges (R42, R51, R52, R54) -/

/-- A leading edge that the entry awaits. -/
def leadAwaited (e : TrackEntry) (sn : Sensor) : Bool :=
  (e.edges.times sn).lead.isNone &&
    (match sensorBefore sn with | none => true | some p => (e.edges.times p).lead.isSome)

/-- A trailing edge that the entry awaits (log entry 13). -/
def trailAwaited (e : TrackEntry) (sn : Sensor) : Bool :=
  (e.edges.times sn).lead.isSome && (e.edges.times sn).trail.isNone &&
    (match sensorBefore sn with | none => true | some p => (e.edges.times p).trail.isSome)

/-- An older sheet has not yet shown its trailing edge at the sensor. -/
def State.overlaps (s : State) (tag : Nat) (sn : Sensor) : Bool :=
  (s.tsq.track.takeWhile (·.tag != tag)).any fun e => (e.edges.times sn).trail.isNone

/-- A leading edge event. -/
def leadingEdge (tag : Nat) (sn : Sensor) (pocket : Pocket) (s : State) : State :=
  if ¬ s.tsq.transport.windowsRun then s else
  match s.findEntry tag with
  | none => hold .captureMismatch s
  | some e =>
    if ¬ leadAwaited e sn ∨ s.overlaps tag sn then hold .jam s else
    let s := s.updEntry tag fun e => { e with edges := e.edges.upd sn fun t => { t with lead := some s.now } }
    match sn with
    | .entry | .capture => s
    | .gate =>
      if e.routeSettled then s else if e.route.isSome then hold .diverterLate s else hold .lateDecision s
    | .exit => if e.route = some pocket then s else hold .diverter s

/-- A trailing edge event; `measure` is the length measure of the ENTRY sensor (R62). -/
def trailingEdge (tag : Nat) (sn : Sensor) (measure : Option Nat) (s : State) : State :=
  if ¬ s.tsq.transport.windowsRun then s else
  match s.findEntry tag with
  | none => hold .captureMismatch s
  | some e =>
    if ¬ trailAwaited e sn then hold .jam s else
    let s := s.updEntry tag fun e => { e with edges := e.edges.upd sn fun t => { t with trail := some s.now } }
    match sn with
    | .entry => pickTest (verdictPoint tag measure s)
    | .capture => s
    | .gate => handshakeTest s
    | .exit => if e.report.isSome then settle e s else hold .captureMismatch s

/-! ## Capture reports (R44 to R47) -/

/-- The sides a report lists have reached their side-ends (R44). -/
def reportEnded (p : Progress) (front back : Bool) : Bool :=
  (!front || p.ended .front) && (!back || p.ended .back)

/-- A required side is missing from the report (R44). -/
def sideMissing (snap : AttrSet) (front back : Bool) : Bool :=
  !front || (snap.duplex == .duplex && !back)

/-- A position written into the entry and its records; a missing required side then holds. -/
def placeSheet (e : TrackEntry) (position : Nat) (front back : Bool) (s : State) : State :=
  let s := s.updEntry e.tag fun e => { e with position := some position }
  let s := placePages e.pages position s
  if sideMissing e.snap front back then hold .captureMismatch s else s

/-- Later entries of the same feed marked overrun, their reservations released (R46). -/
def markOverrun (e : TrackEntry) (s : State) : State :=
  let same (x : TrackEntry) : Bool := match e.binding, x.binding with
    | .batch b, _ => x.boundTo b
    | .fill _, .fill _ => true
    | _, _ => false
  let tags := (((s.tsq.track.dropWhile (·.tag != e.tag)).drop 1).filter same).map (·.tag)
  let s := tags.foldl (fun s t => releaseReservation t (s.updEntry t fun x => { x with overrun := true })) s
  if tags = [] then s else raise .overrun s

/-- From FEEDING or PAUSED the transport enters DRAINING. -/
def drainFeed (s : State) : State :=
  s.modTsq fun t => { t with
    transport := if t.transport = .feeding ∨ t.transport = .paused then .draining else t.transport }

/-- BCT moves a batch from ACTIVE to ENDED (R16, R19). -/
def endActive (b : Nat) (s : State) : State :=
  s.updBatch b fun r => { r with state := if r.state = .active then .ended else r.state }

/-- The batch is in a state that assigns positions (R14). -/
def BatchState.assigns : BatchState → Bool
  | .active | .ended | .halted => true
  | _ => false

/-- A position requested for a sheet bound to a batch, and its limit (R14, R16). -/
def assignPosition (e : TrackEntry) (b : Nat) (front back : Bool) (s : State) : State :=
  match s.findBatch b with
  | none => s
  | some r =>
    if BatchState.assigns r.state ∧ r.scanned < Config.maxPosition then
      let p := r.scanned + 1
      let s := placeSheet e p front back (s.updBatch b fun r => { r with scanned := p })
      if p = Config.maxPosition then markOverrun e (drainFeed (endActive b s)) else s
    else s

/-- Re-binding of one later entry (R45). -/
def rebindOne (attrs : AttrSet) (tag : Nat) (s : State) : State :=
  match s.findEntry tag with
  | none => s
  | some e =>
    match e.verdict with
    | none => s.updEntry tag fun e => { e with snap := attrs }
    | some _ =>
      let e := { e with snap := { e.snap with duplex := attrs.duplex, policy := attrs.policy } }
      let s := s.updEntry tag fun _ => e
      let s := if e.marked then markPages e.pages s else s
      if e.suspect && e.snap.policy == .stop && !e.overrun then hold .doubleFeedStop s else s

/-- HEADER or SECTION for a sheet bound to a batch (R12, R45). -/
def patchAttrs (e : TrackEntry) (b : Nat) (a : AttrArg) (s : State) : State :=
  match a.resolve s.oru.settings.toleranceDefault with
  | none => s.updBatch b fun r => { r with rejectedPatch := bump8 r.rejectedPatch }
  | some attrs =>
    let s := s.updBatch b fun r => { r with attrs }
    let later := ((s.tsq.track.dropWhile (·.tag != e.tag)).drop 1).filter (·.boundTo b)
    (later.map (·.tag)).foldl (fun s t => rebindOne attrs t s) s

/-- The effect of a report by binding and patch code (R44); a sheet of an abandoned batch has none (R25). -/
def reportEffect (e : TrackEntry) (front back : Bool) (patch : Patch) (s : State) : State :=
  match e.binding with
  | .batch b =>
    if e.abandoned then s else
    match patch with
    | .none => if e.overrun then s else assignPosition e b front back s
    | .header a => patchAttrs e b a s
    | .sectionSheet a => patchAttrs e b a s
    | .stop => endedTest b (markOverrun e (drainFeed (endActive b s)))
  | .fill reserved =>
    match patch, reserved with
    | .none, some p => fillChanged (if e.overrun then s else placeSheet e p front back s)
    | .none, none => fillChanged s
    | .header _, _ => fillChanged (releaseReservation e.tag s)
    | .sectionSheet _, _ => fillChanged (releaseReservation e.tag s)
    | .stop, _ =>
      let s := drainFeed (releaseReservation e.tag s)
      fillChanged (markOverrun e (fillEnd .stopPatch none s))
  | .learn => s

/-- R47 when the report is the later cause. -/
def patchSuspectTest (e : TrackEntry) (patch : Patch) (s : State) : State :=
  if patch ≠ .none ∧ e.suspect then hold .patchSuspect s else s

/-- A capture report (R44). -/
def captureReport (tag : Nat) (front back : Bool) (patch : Patch) (s : State) : State :=
  if s.tsq.transport = .idle then s else
  match s.tsq.track.find? (·.report.isNone) with
  | none => hold .captureMismatch s
  | some e =>
    if e.tag ≠ tag ∨ ¬ reportEnded (s.progressOf tag) front back then hold .captureMismatch s else
    let s := s.updEntry tag fun e => { e with report := some ⟨front, back, patch⟩ }
    let s := routesLater tag (reportEffect e front back patch s)
    pickTest (patchSuspectTest e patch s)

/-! ## Windows and the diverter's waits (R40, R41, R50) -/

/-- The learn returns to WAITING when its pick was a misfeed (R74). -/
def relearn (s : State) : State :=
  s.modDfm fun d => { d with learn := d.learn.map fun l => { l with phase := .waiting } }

/-- A handshake that runs for a sheet is given up with it (log entry 15). -/
def dropHandshake (tag : Nat) (s : State) : State :=
  s.modTsq fun t => { t with handshake := if t.handshake.any (·.tag == tag) then none else t.handshake }

/-- The hole of a sheet that leaves the track with a position of a batch and no settling: STORE where the store lost
its pages, else PULLED (R57, R153). -/
def pulledHole (e : TrackEntry) (b p : Nat) (s : State) : State :=
  addHole b p (if e.storeLost then .store else .pulled) e.snap s

/-- The notice to the binding of a misfed entry. A position that its report gave it goes to the hole list as a pulled
sheet's does, so that it stays in one of R14's places (log entry 15). -/
def misfedNotice (e : TrackEntry) (s : State) : State :=
  match e.binding, e.position with
  | .batch b, some p => pulledHole e b p s
  | .batch _, none => s
  | .fill _, _ => fillChanged s
  | .learn, _ => relearn s

/-- A pick that found no sheet in an EMPTY tray (R41). Its pages and its handshake are given up; where the entry holds
a position and R49 finds no room for its hole, the transport holds with HOLE_LIMIT and keeps the entry (log entry
15). -/
def misfeed (e : TrackEntry) (s : State) : State :=
  if e.position.isSome && !s.holeFits e then hold .holeLimit s else
  let s := drainFeed (dropHandshake e.tag (removeEntry e.tag s))
  drainTest (endedTestFor e (misfedNotice e (discardAll e.pages s)))

/-- The pick window of an entry expires (R41). -/
def pickWindowExpired (tag : Nat) (s : State) : State :=
  match s.findEntry tag with
  | none => s
  | some e =>
    match windowEnd e .entry .leading with
    | none => s
    | some due =>
      if ¬ s.tsq.transport.windowsRun then s else
      let s := s.advanceTo due
      match s.tsq.tray with
      | .empty => misfeed e s
      | .loaded => hold .jam s

/-- The window of another awaited edge expires (R40). -/
def edgeWindowExpired (tag : Nat) (sn : Sensor) (edge : EdgeKind) (s : State) : State :=
  match s.findEntry tag with
  | none => s
  | some e =>
    match windowEnd e sn edge with
    | none => s
    | some due => if s.tsq.transport.windowsRun then hold .jam (s.advanceTo due) else s

/-- 10 ms have passed since the diverter was commanded (R50 step 3). -/
def settleTimeOver (s : State) : State :=
  match s.tsq.handshake with
  | some h =>
    if h.sampling then s else
    (s.advanceTo (h.commandedAt + Config.diverterSettle)).modTsq fun t => { t with
      handshake := some { h with sampling := true } }
  | none => s

/-- A sample of the ready line (R50 step 4). -/
def readySampled (ready : Bool) (s : State) : State :=
  match s.tsq.handshake with
  | some h =>
    if h.sampling ∧ ready then
      (s.modTsq fun t => { t with diverterConfirmed := true, handshake := none }).updEntry h.tag
        fun e => { e with routeSettled := true }
    else s
  | none => s

/-- 40 ms have passed since the command without a ready sample (R50 step 5). -/
def readyWindowOver (s : State) : State :=
  match s.tsq.handshake with
  | some h => hold .diverter (s.advanceTo (h.commandedAt + Config.diverterWindow))
  | none => s

/-! ## CLEAR (R57, R58) -/

/-- One pulled entry's notices. A pulled fill sheet reserves nothing from its pull on, so that the tests after it (R158,
R164) find its position free when a local claim grants it again. -/
def pullEntry (e : TrackEntry) (s : State) : State :=
  match e.binding, e.position with
  | .batch b, some p => pulledHole e b p s
  | .fill _, some p => fillRefused p (releaseReservation e.tag s)
  | .fill _, none => fillChanged (releaseReservation e.tag s)
  | .learn, _ =>
    if s.dfm.learn.any (·.phase == .picked) then
      raise .learnFailed (s.modDfm fun d => { d with learn := none })
    else s
  | .batch _, none => s

/-- The entries and holes that a CLEAR in BATCH feed mode would put in the hole list (R58). -/
def State.holesAtClear (s : State) (b : Nat) : Nat :=
  ((s.findBatch b).map (·.holes.length)).getD 0 +
    s.tsq.track.countP fun e => e.boundTo b && e.position.isSome

/-- The CLEAR is taken: every sheet is pulled and the transport is IDLE (R57). -/
def clearPath (s : State) : State :=
  let mode := s.tsq.feedMode
  let fed := s.tsq.fedBatch
  let track := s.tsq.track
  let s := track.foldl (fun s e => pullEntry e s) s
  let s := discardAll (s.tsq.track.flatMap (·.pages)) s
  let s := (s.modTsq fun t => { t with
    track := [], holdReason := none, handshake := none, diverter := .main, diverterConfirmed := false }).drive
      (.diverter .main)
  let s := toIdle s
  match mode, fed with
  | some .batch, some b => endedTest b s
  | some .fill, _ => feedStopped s
  | _, _ => s

/-- The CLEAR key. -/
def clearPressed (s : State) : State :=
  if s.tsq.transport ≠ .held then s else
  match s.tsq.feedMode, s.tsq.fedBatch with
  | some .batch, some b => if Config.holeEntries < s.holesAtClear b then raise .holeLimit s else clearPath s
  | _, _ => clearPath s

end Sys2Proof.Machine
end

