-- ==== Sys2Proof/Machine/Orders.lean ====
section
/-! DEFINITION. The Order Unit: the checks of an order, its effect and its answer (R182, R183), the orders
on exemptions and attention (R70, R71, R188), and RESTART (R193). -/

namespace Sys2Proof.Machine

/-- An ORDER ANSWER to the order's source, bearing its tag (R182). -/
def answer (h : Hdr) (code : ResultCode) (body : List Byte) (s : State) : State :=
  hand h.src h.tag (.orderAnswer code.code body) s

/-! ## Exemptions (R70, R71) -/

/-- A pending learn names the entry. -/
def Dfm.learns (d : Dfm) (bank entry : Nat) : Bool := d.learn.any fun l => l.bank == bank && l.entry == entry

def loadExemption (bank entry valid mode : Nat) (mask pattern : ZoneSet) (s : State) : ResultCode × State :=
  match ExMode.ofCode mode with
  | none => (.badArgument, s)
  | some m =>
    if 1 < bank ∨ Config.bankEntries ≤ entry then (.badArgument, s)
    else if s.tsq.transport ≠ .idle then (.notIdle, s)
    else if s.dfm.learns bank entry then (.busy, s)
    else (.accepted, writeExemption bank entry { valid := valid == 1, mask, pattern, mode := m } s)

def learnExemption (bank entry mode : Nat) (mask : ZoneSet) (s : State) : ResultCode × State :=
  match ExMode.ofCode mode with
  | none => (.badArgument, s)
  | some m =>
    if 1 < bank ∨ Config.bankEntries ≤ entry ∨ mask = 0 then (.badArgument, s)
    else if s.tsq.transport ≠ .idle then (.notIdle, s)
    else (.accepted, s.modDfm fun d => { d with learn := some { bank, entry, mask, mode := m, phase := .waiting } })

/-! ## ACK ATTENTION (R188) -/

/-- The named classes leave the set; bits that stand for no class are passed over (R196). -/
def ackAttention (classes : ClassSet) (s : State) : State :=
  s.modOru fun o => { o with attention := o.attention &&& ~~~ classes }

/-! ## RESTART (R193) -/

/-- TSQ at Restart (R29, R59). -/
def restartTsq (s : State) : State :=
  (s.modTsq fun t => { tray := t.tray }).drive (.diverter .main)

/-- DFM at Restart (R76). -/
def restartDfm (s : State) : State := s.modDfm fun d => { d with learn := none }

/-- BCT at Restart (R28, R168). -/
def restartBct (s : State) : State := s.modBct fun _ => {}

/-- PGS at Restart (R93); the bytes of free blocks are not touched. -/
def restartPgs (s : State) : State :=
  s.modPgs fun g =>
    { mem := g.mem
      strayCapture := g.strayCapture
      lossNoRecord := g.lossNoRecord
      lossOversize := g.lossOversize
      lossNoBlock := g.lossNoBlock }

/-- A burst in transmission is not counted as sent for any page (R132). -/
def Origin.orphaned : Origin → Origin
  | .data c => .orphan c
  | o => o

/-- TXE at Restart (R132). -/
def restartTxe (s : State) : State :=
  (s.modTxe fun t => { t with chanA := {}, chanB := {}, outstanding := [] }).modFli fun l => { l with
    inFlight := l.inFlight.map fun f => { f with origin := f.origin.orphaned } }

/-- A slot at Restart: a STORING one is disowned, every other is FREE without a former holding (R152), its idle age 0
(log entry 43). -/
def Slot.restarted (sl : Slot) : Slot := if sl.state = .storing then { sl with disowned := true } else {}

/-- ICT at Restart (R152). -/
def restartIct (s : State) : State :=
  s.modIct fun i =>
    let slots := i.slots.map fun sl => sl.restarted
    let kept := ({ i with slots } : Ict).reserved.length
    { i with slots, freeBlocks := Config.blocks - kept, storeQueue := [], commits := [], commitNext := 0 }

/-- Every block in use takes its Restart. -/
def restartBlocks (s : State) : State :=
  match s.oru.role with
  | .scanner => restartTxe (restartPgs (restartBct (restartDfm (restartTsq s))))
  | .gateway => restartIct s

/-- FLI's Restart once no frame is in transmission, and the answer (R112, R193). -/
def restartLine (h : Hdr) (s : State) : State :=
  let s := s.modFli fun l => { l with
    txQueue := [], rxQueue := []
    presenceDue := if l.line = .joined then some (s.now + s.oru.settings.presenceMs) else l.presenceDue }
  answer h .accepted [] (s.modOru fun o => { o with restartDue := none })

/-- RESTART: a frame in transmission is finished before the queues are emptied (log entry 25). -/
def restartOrder (h : Hdr) (s : State) : State :=
  let s := restartBlocks s
  if s.fli.inFlight = none then restartLine h s else s.modOru fun o => { o with restartDue := some h }

/-! ## Orders (R182, R183) -/

/-- The order has an owning block in the role (R183). -/
def Order.owned (role : Role) : Order → Bool
  | .abandonBatch _ | .query _ _ _ | .ackAttention _ | .restart | .undecodable => true
  | _ => role == .scanner

/-- An order that has passed checks 1 to 4: its owning block's checks and effect, then the answer. -/
def runOrder (h : Hdr) (o : Order) (s : State) : State :=
  let done (r : ResultCode × State) : State := answer h r.1 [] r.2
  match o with
  | .openBatch b g a => done (openBatch b g a s)
  | .endBatch b => done (endBatch b s)
  | .abandonBatch b =>
    match s.oru.role with
    | .scanner => done (abandonBatch b s)
    | .gateway => done (abandonAtGateway b s)
  | .waiveHoles b ps => done (waiveHoles b ps s)
  | .closeAgain b => done (closeAgain b s)
  | .fill b => done (fillOrder b s)
  | .fillCancel => done (fillCancel s)
  | .loadExemption k e v m mask pat => done (loadExemption k e v m mask pat s)
  | .learnExemption k e m mask => done (learnExemption k e m mask s)
  | .query subject b i =>
    let (code, body) := answerQuery subject b i s
    let s := if code = .accepted ∧ subject = .peers then clearMarks i s else s
    answer h code body s
  | .ackAttention cs =>
    let s := ackAttention cs s
    answer h .accepted (be 4 s.oru.attention.toNat) s
  | .restart => restartOrder h s
  | .undecodable => done (.badArgument, s)

/-- ORU takes an ORDER (R182). -/
def takeOrder (h : Hdr) (o : Order) (s : State) : State :=
  if h.dst = Config.everyStation then s.modOru fun u => { u with broadcastOrders := bump16 u.broadcastOrders }
  else
    let s := s.modOru fun u => { u with ordersTaken := bump16 u.ordersTaken }
    if h.src ≠ 0 then
      answer h .notConsole [] (s.modOru fun u => { u with refusedSource := bump16 u.refusedSource })
    else if ¬ o.argsOk then answer h .badArgument [] s
    else if ¬ o.owned s.oru.role then answer h .wrongRole [] s
    else runOrder h o s

end Sys2Proof.Machine
end

