-- ==== Sys2Proof/Machine/FloorLine.lean ====
section
/-! DEFINITION. The Floor Line Interface: taking frames in, the peer table, conflict, access to the line,
sending, joining and presence (chapter 5). -/

namespace Sys2Proof.Machine

/-! ## Delivery (R100 to R102) -/

/-- A kind has an owner in the role (R101). -/
def Payload.owned (role : Role) : Payload → Bool
  | .order _ | .presence _ | .batchOpen _ _ => true
  | .orderAnswer _ _ | .attention _ => false
  | .abandon _ | .close _ _ _ | .pageOffer _ _ _ _ | .pageData _ _ _ => role == .gateway
  | _ => role == .scanner

/-- The owning block takes a frame. -/
def take (f : Frame) (s : State) : State :=
  let h := f.hdr
  match f.payload with
  | .order o => takeOrder h o s
  | .batchOpen b g =>
    match s.oru.role with
    | .scanner => takeBatchOpenHeard h b g s
    | .gateway => takeBatchOpen h b g s
  | .openAccept b => takeOpenAccept h b s
  | .openRefuse b r => takeOpenRefuse h b r s
  | .batchGone b => takeBatchGone h b s
  | .abandon b => takeAbandon h b s
  | .close b n ps => takeClose h b n ps s
  | .committed b => takeCommitted h b s
  | .incomplete b t e ps => takeIncomplete h b t e ps s
  | .unknown b => takeUnknown h b s
  | .holeClaim b w ps => takeHoleClaim h b w ps s
  | .holeGrant b g gs => takeHoleGrant h b g gs s
  | .holeNone b => takeHoleNone h b s
  | .holeRefuse b r => takeHoleRefusal h b r s
  | .filled b p => ownerFilled b p s
  | .release b final ps => ownerRelease h.src b final ps s
  | .pageOffer p k size mark => takePageOffer h p k size mark s
  | .slotGrant slot start => takeSlotGrant h slot start s
  | .slotWait => takeSlotWait h s
  | .pageRefuse r => takePageRefuse h r s
  | .pageStored p _ => takePageStored h p s
  | .pageFail p slot => takeSetback .fail h p slot s
  | .pageFault p slot => takeSetback .fault h p slot s
  | .pageData slot off bytes => takePageData h slot off bytes s
  | .orderAnswer _ _ | .attention _ | .presence _ => s

/-- The block that owns the frame can take it: ORU takes no order while a RESTART waits for its answer
(R102, R184). -/
def canTake (f : Frame) (s : State) : Bool :=
  match f.payload with
  | .order _ => s.oru.restartDue.isNone
  | _ => true

/-- A frame enters the receive queue, whose head is handed to its block as soon as that can take it (R102;
log entry 5). -/
def receive (f : Frame) (s : State) : State :=
  if Config.queueFrames ≤ s.fli.rxQueue.length then
    s.modFli fun l => { l with rxOverflows := bump16 l.rxOverflows }
  else if s.fli.rxQueue = [] ∧ canTake f s then take f s
  else s.modFli fun l => { l with rxQueue := l.rxQueue ++ [f] }

/-- Delivery by kind and role (R101). -/
def deliver (f : Frame) (s : State) : State :=
  if ¬ f.payload.owned s.oru.role then s.modFli fun l => { l with roleDiscards := bump16 l.roleDiscards }
  else match f.payload with
    | .presence _ => s
    | .pageData _ _ _ => take f s
    | _ => receive f s

/-- A frame that a listening scanner's directory takes (R100). -/
def directoryFrame : Payload → Bool
  | .batchOpen _ _ | .batchGone _ => true
  | _ => false

def malformedFrame (s : State) : State := s.modFli fun l => { l with malformed := bump16 l.malformed }

/-- A frame at step 6 of R99, and by line state (R195, R100). -/
def accept (f : Frame) (s : State) : State :=
  if s.fli.line = .unaddressed then s
  else if ¬ f.payload.inRange f.hdr.src then malformedFrame s
  else match s.fli.line with
    | .listening =>
      if s.oru.role = .scanner ∧ directoryFrame f.payload then deliver f s
      else s.modFli fun l => { l with listeningDiscards := bump16 l.listeningDiscards }
    | _ => deliver f s

/-- A frame at step 5 of R99: addressed to this station or to every station. -/
def arrive (f : Frame) (s : State) : State :=
  if f.hdr.dst = s.oru.address ∨ f.hdr.dst = Config.everyStation then accept f s else s

/-! ## Conflict and peers (R108, R110, R111) -/

/-- A frame that bears the station's own address as source (R108). -/
def conflict (s : State) : State :=
  match s.fli.line with
  | .listening | .joined =>
    raise .lineConflict (s.modFli fun l => { l with
      line := .conflict, txQueue := [], unsent := min 65535 (l.unsent + l.txQueue.length)
      presenceDue := none, joinDue := none })
  | .unaddressed | .conflict => s

/-- The role that a peer entry takes from a frame (R110). -/
def peerRoleOf (src : Nat) (held : PeerRole) : Option PresenceRole → PeerRole
  | some .scanner => if src = 0 then .console else .scanner
  | some .gateway => if src = 0 then .console else .gateway
  | some .console => .console
  | none => if src = 0 then .console else held

/-- A peer entry after a frame from its address. -/
def Peer.heard (p : Peer) (src now : Nat) (role : Option PresenceRole) : Peer :=
  let r := peerRoleOf src p.role role
  { state := .present, role := r, heardAt := some now
    changed := p.changed || p.state != .present || r != p.role }

/-- Step 4 of R99; a return to PRESENT is reported to TXE in the scanner role (R110, R130). -/
def peerUpdate (src : Nat) (role : Option PresenceRole) (s : State) : State :=
  let back := !s.isPresent src
  let s := s.modFli fun l => { l with peers := l.peers.modify src fun p => p.heard src s.now role }
  if back ∧ s.oru.role = .scanner then offerTest s else s

/-- The silence limit in ms (R111). -/
def silenceMs (c : Settings) : Nat := c.silenceMultiple * c.presenceMs

/-- A peer's silence limit is reached (R111). -/
def silenceOver (a : Nat) (s : State) : State :=
  match s.fli.line, (s.peer a).heardAt with
  | .unaddressed, _ => s
  | _, some t =>
    if s.isPresent a then
      let s := (s.advanceTo (t + silenceMs s.oru.settings)).modFli fun l => { l with
        peers := l.peers.modify a fun p => { p with state := .silent, changed := true } }
      let s := raise .peerSilent s
      match s.oru.role with
      | .scanner => txeSilence a (bctSilence a s)
      | .gateway => ictSilence a s
    else s
  | _, none => s

/-! ## Frames heard (R95, R96, R99) -/

/-- The address that holds the interval after `quiet` whole intervals of quiet, absent while the station does
not know where the turn stands (R96). -/
def Fli.turn (l : Fli) (quiet : Nat) : Option Nat := l.turnHolder.map fun t => (t + quiet + 1) % 16

/-- The turn holder of a frame whose beginning `quiet` intervals of quiet preceded (R96); the first frame heard
whole puts a station in step with the line, even one whose source step 2 of R99 finds outside 0 to 15 (log entry
18). -/
def turnAfter (l : Fli) (quiet : Nat) (src : Option Nat) : Option Nat :=
  match l.heardAny, src with
  | false, some a => some a
  | _, _ => l.turn quiet

/-- The role that a PRESENCE carries, taken at step 4 of R99, whatever step 6 then says of its source (R110; log
entry 19). -/
def presenceRoleOf (f : RawFrame) : Option PresenceRole :=
  match Payload.ofBytes f.kind f.payload with
  | some (.presence r) => some r
  | _ => none

/-- Step 2 of R99. -/
def headerOk (f : RawFrame) : Bool :=
  f.hdr.src ≤ 15 && (f.hdr.dst ≤ 15 || f.hdr.dst == Config.everyStation) && f.payload.length ≤ payloadLimit f.kind

/-- Steps 2 to 6 of R99 for a frame whose check holds. -/
def hearFrame (f : RawFrame) (s : State) : State :=
  if ¬ headerOk f then malformedFrame s
  else if f.hdr.src = s.oru.address then conflict s
  else
    let s := peerUpdate f.hdr.src (presenceRoleOf f) s
    if f.hdr.dst = s.oru.address ∨ f.hdr.dst = Config.everyStation then
      match Payload.ofBytes f.kind f.payload with
      | some p => accept ⟨f.hdr, p⟩ s
      | none => malformedFrame s
    else s

/-- A frame heard after `quiet` whole turn intervals of quiet (R99); a station hears nothing while it sends
(log entry 26) and takes nothing in UNADDRESSED (R106). -/
def hear (quiet : Nat) (bytes : List Byte) (s : State) : State :=
  if s.fli.inFlight.isSome ∨ s.fli.line = .unaddressed then s else
  match RawFrame.ofBytes bytes with
  | none => s.modFli fun l => { l with
      turnHolder := turnAfter l quiet none, checkFailures := bump16 l.checkFailures }
  | some f => hearFrame f (s.modFli fun l => { l with
      turnHolder := turnAfter l quiet (some f.hdr.src), heardAny := true })

/-- A PRESENCE frame that has passed the check and the header test (R99 from step 3; log entry 4). -/
def hearPresence (h : Hdr) (role : PresenceRole) (s : State) : State :=
  if s.fli.line = .unaddressed then s
  else if h.src = s.oru.address then conflict s
  else arrive ⟨h, .presence role⟩ (peerUpdate h.src (some role) s)

/-! ## Sending (R97, R124) -/

/-- The channel whose burst goes next (R97). -/
def State.nextBurst (s : State) : Option ChanId :=
  match s.burstReady .a, s.burstReady .b with
  | true, true => some (match s.fli.lastData with | .a => .b | .b => .a)
  | true, false => some .a
  | false, true => some .b
  | false, false => none

/-- A frame begins. -/
def beginFrame (f : Frame) (o : Origin) (s : State) : State :=
  (s.modFli fun l => { l with inFlight := some ⟨f, o⟩, turnHolder := some s.oru.address }).drive (.line f.bytes)

/-- The turn, counted from the turn holder, comes to this station within the next sixteen intervals (R96). -/
def State.turnComes (s : State) : Bool := (List.range 16).any fun quiet => s.fli.turn quiet == some s.oru.address

/-- An interval starts that is the station's own by the turn holder it follows: if it may send, it begins the frame
that R97 chooses, or lets the interval pass (R96; log entry 18). -/
def ownTurn (s : State) : State :=
  if s.fli.line = .joined ∧ s.fli.inFlight = none ∧ s.turnComes = true then
    match s.fli.txQueue with
    | f :: _ => beginFrame f .control s
    | [] =>
      match s.nextBurst with
      | some c => beginFrame (s.burstFrame c) (.data c) s
      | none => s
  else s

/-- The bytes of page data in a frame. -/
def Payload.dataLength : Payload → Nat
  | .pageData _ _ bytes => bytes.length
  | _ => 0

/-- What leaves with a sent frame: the head of the control queue, or a channel's burst. -/
def sentEffect (f : Flight) (s : State) : State :=
  match f.origin with
  | .control => s.modFli fun l => { l with txQueue := l.txQueue.drop 1 }
  | .data c => burstSent c f.frame.payload.dataLength (s.modFli fun l => { l with lastData := c })
  | .orphan c => s.modFli fun l => { l with lastData := c }

/-- The last part of a frame has left the station (R94, R97, R109, R124); a RESTART that waited for it is
then finished (R112). -/
def sent (s : State) : State :=
  match s.fli.inFlight with
  | none => s
  | some f =>
    let s := s.modFli fun l => { l with
      inFlight := none, framesSent := bump32 l.framesSent
      presenceDue := some (s.now + s.oru.settings.presenceMs) }
    let s := sentEffect f s
    match s.oru.restartDue with
    | some h => restartLine h s
    | none => s

/-! ## Joining and presence (R107, R109) -/

/-- The role that a station's PRESENCE carries. -/
def ownPresence : Role → PresenceRole
  | .scanner => .scanner
  | .gateway => .gateway

/-- A PRESENCE frame handed to the queue. -/
def handPresence (s : State) : State := tell Config.everyStation (.presence (ownPresence s.oru.role)) s

/-- The presence timer started. -/
def startPresence (s : State) : State :=
  s.modFli fun l => { l with presenceDue := some (s.now + s.oru.settings.presenceMs) }

/-- The join listen expires (R107); a station that has heard no frame counts the turn from now (R96). -/
def joinOver (s : State) : State :=
  match s.fli.line, s.fli.joinDue with
  | .listening, some due =>
    let s := (s.advanceTo due).modFli fun l => { l with
      line := .joined, joinDue := none, turnHolder := if l.heardAny then l.turnHolder else some 15 }
    startPresence (handPresence s)
  | _, _ => s

/-- A PRESENCE frame is waiting in the transmit control queue. -/
def Fli.presenceWaits (l : Fli) : Bool :=
  l.txQueue.any fun f => match f.payload with | .presence _ => true | _ => false

/-- The presence timer expires (R109). -/
def presenceOver (s : State) : State :=
  match s.fli.presenceDue with
  | some due =>
    let s := s.advanceTo due
    startPresence (if s.fli.presenceWaits then s else handPresence s)
  | none => s

end Sys2Proof.Machine
end

