-- ==== Sys2Proof/Machine/FrameCommands.lean ====
section
/-! DEFINITION. The commands that are frames heard, one meaning each: the frame enters R99 at step 3 (log
entry 4) and reaches the block that owns its kind. -/

namespace Sys2Proof.Machine

/-- A step's outcome: until the settings load is over the part takes no event (R192). -/
def running (f : State → State) (s : State) : Host.Outcome State Fault Refusal :=
  .next (if s.power = .running then f s else s)

/-- A frame of a kind has been heard: step 3 of R99, then steps 5 and 6; the peer table's step 4 belongs to
FRAME_HEARD and PRESENCE (log entry 4). -/
def frameIn (h : Hdr) (p : Payload) (s : State) : Host.Outcome State Fault Refusal :=
  running (fun s => if h.src = s.oru.address then conflict s else arrive ⟨h, p⟩ s) s

/-- OPEN BATCH (R3, R4). -/
def execOpenBatch (h : Hdr) (b g : Nat) (a : AttrArg) (s : State) : Host.Outcome State Fault Refusal :=
  frameIn h (.order (.openBatch b g a)) s

/-- END BATCH (R17). -/
def execEndBatch (h : Hdr) (b : Nat) (s : State) : Host.Outcome State Fault Refusal :=
  frameIn h (.order (.endBatch b)) s

/-- ABANDON BATCH (R24 at a scanner, R149 at a gateway). -/
def execAbandonBatch (h : Hdr) (b : Nat) (s : State) : Host.Outcome State Fault Refusal :=
  frameIn h (.order (.abandonBatch b)) s

/-- WAIVE HOLES (R155, R23). -/
def execWaiveHoles (h : Hdr) (b : Nat) (ps : List Nat) (s : State) : Host.Outcome State Fault Refusal :=
  frameIn h (.order (.waiveHoles b ps)) s

/-- CLOSE AGAIN (R178). -/
def execCloseAgain (h : Hdr) (b : Nat) (s : State) : Host.Outcome State Fault Refusal :=
  frameIn h (.order (.closeAgain b)) s

/-- FILL (R157). -/
def execFill (h : Hdr) (b : Nat) (s : State) : Host.Outcome State Fault Refusal :=
  frameIn h (.order (.fill b)) s

/-- FILL CANCEL (R163). -/
def execFillCancel (h : Hdr) (s : State) : Host.Outcome State Fault Refusal :=
  frameIn h (.order .fillCancel) s

/-- LOAD EXEMPTION (R70). -/
def execLoadExemption (h : Hdr) (k e v m : Nat) (mask pat : ZoneSet) (s : State) : Host.Outcome State Fault Refusal :=
  frameIn h (.order (.loadExemption k e v m mask pat)) s

/-- LEARN EXEMPTION (R71). -/
def execLearnExemption (h : Hdr) (k e m : Nat) (mask : ZoneSet) (s : State) : Host.Outcome State Fault Refusal :=
  frameIn h (.order (.learnExemption k e m mask)) s

/-- QUERY STATION (R185, R186). -/
def execQueryStation (h : Hdr) (i : Nat) (s : State) : Host.Outcome State Fault Refusal :=
  frameIn h (.order (.query .station 0 i)) s

/-- QUERY BATCH (R185, R186). -/
def execQueryBatch (h : Hdr) (b i : Nat) (s : State) : Host.Outcome State Fault Refusal :=
  frameIn h (.order (.query .batch b i)) s

/-- QUERY HOLES (R185, R186). -/
def execQueryHoles (h : Hdr) (b i : Nat) (s : State) : Host.Outcome State Fault Refusal :=
  frameIn h (.order (.query .holes b i)) s

/-- QUERY FILL (R185, R186). -/
def execQueryFill (h : Hdr) (i : Nat) (s : State) : Host.Outcome State Fault Refusal :=
  frameIn h (.order (.query .fill 0 i)) s

/-- QUERY CHANNELS (R185, R186). -/
def execQueryChannels (h : Hdr) (i : Nat) (s : State) : Host.Outcome State Fault Refusal :=
  frameIn h (.order (.query .channels 0 i)) s

/-- QUERY PEERS (R185, R186). -/
def execQueryPeers (h : Hdr) (i : Nat) (s : State) : Host.Outcome State Fault Refusal :=
  frameIn h (.order (.query .peers 0 i)) s

/-- QUERY SLOTS (R185, R186). -/
def execQuerySlots (h : Hdr) (i : Nat) (s : State) : Host.Outcome State Fault Refusal :=
  frameIn h (.order (.query .slots 0 i)) s

/-- QUERY COMMIT (R185, R186). -/
def execQueryCommit (h : Hdr) (b i : Nat) (s : State) : Host.Outcome State Fault Refusal :=
  frameIn h (.order (.query .commit b i)) s

/-- QUERY COUNTERS (R185, R186). -/
def execQueryCounters (h : Hdr) (i : Nat) (s : State) : Host.Outcome State Fault Refusal :=
  frameIn h (.order (.query .counters 0 i)) s

/-- QUERY ATTENTION (R185, R186). -/
def execQueryAttention (h : Hdr) (i : Nat) (s : State) : Host.Outcome State Fault Refusal :=
  frameIn h (.order (.query .attention 0 i)) s

/-- ACK ATTENTION (R188). -/
def execAckAttention (h : Hdr) (cs : ClassSet) (s : State) : Host.Outcome State Fault Refusal :=
  frameIn h (.order (.ackAttention cs)) s

/-- RESTART (R193). -/
def execRestart (h : Hdr) (s : State) : Host.Outcome State Fault Refusal :=
  frameIn h (.order .restart) s

/-- BATCH OPEN heard at a scanner (R26, R8). -/
def execBatchOpenHeard (h : Hdr) (b g : Nat) (s : State) : Host.Outcome State Fault Refusal :=
  frameIn h (.batchOpen b g) s

/-- BATCH OPEN at a gateway (R148). -/
def execBatchOpen (h : Hdr) (b g : Nat) (s : State) : Host.Outcome State Fault Refusal :=
  frameIn h (.batchOpen b g) s

/-- OPEN ACCEPT (R5). -/
def execOpenAccept (h : Hdr) (b : Nat) (s : State) : Host.Outcome State Fault Refusal :=
  frameIn h (.openAccept b) s

/-- OPEN REFUSE (R5, R9). -/
def execOpenRefuse (h : Hdr) (b : Nat) (r : OpenRefusal) (s : State) : Host.Outcome State Fault Refusal :=
  frameIn h (.openRefuse b r) s

/-- BATCH GONE (R26, R167). -/
def execBatchGone (h : Hdr) (b : Nat) (s : State) : Host.Outcome State Fault Refusal :=
  frameIn h (.batchGone b) s

/-- ABANDON (R149). -/
def execAbandon (h : Hdr) (b : Nat) (s : State) : Host.Outcome State Fault Refusal :=
  frameIn h (.abandon b) s

/-- CLOSE (R150). -/
def execClose (h : Hdr) (b n : Nat) (ps : List Nat) (s : State) : Host.Outcome State Fault Refusal :=
  frameIn h (.close b n ps) s

/-- COMMITTED (R173). -/
def execCommitted (h : Hdr) (b : Nat) (s : State) : Host.Outcome State Fault Refusal :=
  frameIn h (.committed b) s

/-- INCOMPLETE (R174). -/
def execIncomplete (h : Hdr) (b t e : Nat) (ps : List Nat) (s : State) : Host.Outcome State Fault Refusal :=
  frameIn h (.incomplete b t e ps) s

/-- UNKNOWN (R175). -/
def execUnknown (h : Hdr) (b : Nat) (s : State) : Host.Outcome State Fault Refusal :=
  frameIn h (.unknown b) s

/-- HOLE CLAIM (R159). -/
def execHoleClaim (h : Hdr) (b w : Nat) (ps : List Nat) (s : State) : Host.Outcome State Fault Refusal :=
  frameIn h (.holeClaim b w ps) s

/-- HOLE GRANT (R160). -/
def execHoleGrant (h : Hdr) (b g : Nat) (gs : List (Nat × AttrSet)) (s : State) : Host.Outcome State Fault Refusal :=
  frameIn h (.holeGrant b g gs) s

/-- HOLE NONE (R160). -/
def execHoleNone (h : Hdr) (b : Nat) (s : State) : Host.Outcome State Fault Refusal :=
  frameIn h (.holeNone b) s

/-- HOLE REFUSE (R160). -/
def execHoleRefuse (h : Hdr) (b : Nat) (r : HoleRefusal) (s : State) : Host.Outcome State Fault Refusal :=
  frameIn h (.holeRefuse b r) s

/-- FILLED (R165). -/
def execFilled (h : Hdr) (b p : Nat) (s : State) : Host.Outcome State Fault Refusal :=
  frameIn h (.filled b p) s

/-- RELEASE (R166). -/
def execRelease (h : Hdr) (b : Nat) (final : Bool) (ps : List Nat) (s : State) : Host.Outcome State Fault Refusal :=
  frameIn h (.release b final ps) s

/-- PAGE OFFER (R136). -/
def execPageOffer (h : Hdr) (p : PageId) (k size : Nat) (mark : Bool) (s : State) : Host.Outcome State Fault Refusal :=
  frameIn h (.pageOffer p k size mark) s

/-- PAGE DATA (R138, R139). -/
def execPageData (h : Hdr) (slot off : Nat) (bytes : List Byte) (s : State) : Host.Outcome State Fault Refusal :=
  frameIn h (.pageData slot off bytes) s

/-- SLOT GRANT (R117). -/
def execSlotGrant (h : Hdr) (slot start : Nat) (s : State) : Host.Outcome State Fault Refusal :=
  frameIn h (.slotGrant slot start) s

/-- SLOT WAIT (R118). -/
def execSlotWait (h : Hdr) (s : State) : Host.Outcome State Fault Refusal :=
  frameIn h (.slotWait) s

/-- PAGE REFUSE (R119). -/
def execPageRefuse (h : Hdr) (r : PageRefusal) (s : State) : Host.Outcome State Fault Refusal :=
  frameIn h (.pageRefuse r) s

/-- PAGE STORED (R120). -/
def execPageStored (h : Hdr) (p : PageId) (slot : Nat) (s : State) : Host.Outcome State Fault Refusal :=
  frameIn h (.pageStored p slot) s

/-- PAGE FAIL (R126). -/
def execPageFail (h : Hdr) (p : PageId) (slot : Nat) (s : State) : Host.Outcome State Fault Refusal :=
  frameIn h (.pageFail p slot) s

/-- PAGE FAULT (R126). -/
def execPageFault (h : Hdr) (p : PageId) (slot : Nat) (s : State) : Host.Outcome State Fault Refusal :=
  frameIn h (.pageFault p slot) s

end Sys2Proof.Machine
end

