-- ==== Sys2Proof/Machine/Startup.lean ====
section
/-! DEFINITION. Start: the straps, the settings image and the Start state of every block (R190 to R192, R197,
R75). -/

namespace Sys2Proof.Machine

/-- The straps are sampled: until the settings load ends no event is taken (R190, R192). -/
def sampleStraps (straps : Nat) (role : Role) (s : State) : State :=
  { power := .loading, now := s.now, portLog := s.portLog, freeNext := s.freeNext, pending := s.pending
    oru := { address := straps % 16, role } }

/-- `n` bytes of the image from byte `k`, as a number. -/
def imageField (image : List Byte) (k n : Nat) : Nat := num ((image.drop k).take n)

/-- The image is whole and its check holds (R197). -/
def imageOk (image : List Byte) : Bool :=
  Config.imageBytes ≤ image.length && (imageCheck (image.take 229)).toNat == imageField image 229 2

/-- A setting: the image's value when it is in range, else the default (R191). -/
def setting (ok : Bool) (v default : Nat) : Nat := if ok then v else default

/-- Within a range, both ends included. -/
def within (lo hi v : Nat) : Bool := lo ≤ v && v ≤ hi

/-- The settings in force from an image whose check holds (R191, R197). -/
def settingsOf (image : List Byte) : Settings :=
  let f := imageField image
  let okP := f 0 1 ≤ 2
  let okS := f 1 1 ≤ 3
  let okA := within 50 1000 (f 2 2)
  let okR := within 10 500 (f 4 2)
  let okT := within 5 120 (f 6 1)
  let okL := within 256 4096 (f 7 2)
  let pause := setting okL (f 7 2) 1024
  let okU := within (pause + 256) 16384 (f 9 2)
  let okN := within 1 8 (f 11 1)
  let okD := within 0 50 (f 12 1)
  { presenceMs := setting okP (250 * 2 ^ f 0 1) 500
    silenceMultiple := setting okS (2 * 2 ^ f 1 1) 4
    answerMs := setting okA (f 2 2) 200
    retryMs := setting okR (f 4 2) 50
    storeSeconds := setting okT (f 6 1) 30
    pauseLevel := pause
    resumeLevel := setting okU (f 9 2) (max 2048 (pause + 256))
    runThreshold := setting okN (f 11 1) 3
    toleranceDefault := setting okD (f 12 1) 8
    source := if okP && okS && okA && okR && okT && okL && okU && okN && okD then .image else .partialImage }

/-- The mode that an exemption entry's mode byte gives; for a byte that is neither STRICT nor LOOSE the entry
is invalid, and the manual leaves its mode open (log entry 33). -/
def imageMode (byte free : Nat) : ExMode :=
  match ExMode.ofCode byte with
  | some m => m
  | none => if Config.freeBit free then .loose else .strict

/-- Exemption entry `k` of the twelve (R75, section 11.5). -/
def imageExemption (image : List Byte) (free k : Nat) : Exemption :=
  let at_ := 13 + 18 * k
  { valid := imageField image at_ 1 == 1 && imageField image (at_ + 1) 1 ≤ 1
    mode := imageMode (imageField image (at_ + 1) 1) (free + k)
    mask := BitVec.ofNat 64 (imageField image (at_ + 2) 8)
    pattern := BitVec.ofNat 64 (imageField image (at_ + 10) 8) }

/-- The settings and the exemption entries that the load gives (R191, R75). -/
def loadImage (image : Option (List Byte)) (free : Nat) : Settings × List Exemption :=
  match image with
  | some bytes =>
    if imageOk bytes then (settingsOf bytes, (List.range 12).map (imageExemption bytes free))
    else ({}, List.replicate 12 {})
  | none => ({}, List.replicate 12 {})

/-- Every block takes its Start state (R192: R28, R59, R75, R93, R112, R132, R152, R193). -/
def startState (image : Option (List Byte)) (s : State) : State :=
  let (settings, exemptions) := loadImage image s.freeNext
  let line : Fli :=
    if 1 ≤ s.oru.address then
      { line := .listening, joinDue := some (s.now + Config.joinIntervals * settings.presenceMs) }
    else {}
  { power := .running, now := s.now, portLog := s.portLog, freeNext := s.freeNext + 12, pending := s.pending
    oru := { address := s.oru.address, role := s.oru.role, settings }
    dfm := { exemptions }
    fli := line }

/-- The settings load ends (R191, R192). -/
def loadSettings (image : Option (List Byte)) (s : State) : State :=
  if s.power = .loading then
    let s := startState image s
    let s := match s.oru.role with | .scanner => s.drive (.diverter .main) | .gateway => s
    if s.oru.settings.source = .image then s else raise .configDefault s
  else s

end Sys2Proof.Machine
end

