-- ==== Sys2Proof/Machine/PortCommands.lean ====
section
/-! DEFINITION. The commands of Start, the panel, the transport, capture and store ports, the line's own
events and the timers, one meaning each. -/

namespace Sys2Proof.Machine

/-- A command of a block in use in the scanner role only. -/
def scanner (f : State → State) (s : State) : Host.Outcome State Fault Refusal :=
  running (fun s => if s.oru.role = .scanner then f s else s) s

/-- A command of a block in use in the gateway role only. -/
def gateway (f : State → State) (s : State) : Host.Outcome State Fault Refusal :=
  running (fun s => if s.oru.role = .gateway then f s else s) s

/-- Power-up: the straps are sampled (R190; log entry 27). -/
def execStartUp (straps : Nat) (role : Role) (s : State) : Host.Outcome State Fault Refusal :=
  .next (sampleStraps straps role s)

/-- The settings load ends (R191, R192; log entry 27). -/
def execSettingsLoad (image : Option (List Byte)) (s : State) : Host.Outcome State Fault Refusal :=
  .next (loadSettings image s)

/-- The START key (R30); ignored at a gateway (R183). -/
def execStartKey (s : State) : Host.Outcome State Fault Refusal :=
  scanner startPressed s

/-- The STOP key (R32). -/
def execStopKey (s : State) : Host.Outcome State Fault Refusal :=
  scanner stopPressed s

/-- The CLEAR key (R57, R58). -/
def execClearKey (s : State) : Host.Outcome State Fault Refusal :=
  scanner clearPressed s

/-- Tray-ready (R31). -/
def execTrayReady (s : State) : Host.Outcome State Fault Refusal :=
  scanner trayLoaded s

/-- Tray-empty (R31). -/
def execTrayEmpty (s : State) : Host.Outcome State Fault Refusal :=
  scanner trayEmptied s

/-- A leading edge (R42, R51, R52); the pocket counts at EXIT only. -/
def execLeadingEdge (tag : Nat) (sn : Sensor) (pocket : Pocket) (s : State) : Host.Outcome State Fault Refusal :=
  scanner (leadingEdge tag sn pocket) s

/-- A trailing edge (R42, R43, R53, R54); the length measure counts at ENTRY only, the pocket nowhere. -/
def execTrailingEdge (tag : Nat) (sn : Sensor) (_pocket : Pocket) (m : Option Nat) (s : State) : Host.Outcome State Fault Refusal :=
  scanner (trailingEdge tag sn m) s

/-- A zone reading (R61). -/
def execZoneReading (tag : Nat) (layered : Bool) (s : State) : Host.Outcome State Fault Refusal :=
  scanner (zoneReading tag layered) s

/-- A side-begin (R81). -/
def execSideBegin (tag : Nat) (side : Side) (s : State) : Host.Outcome State Fault Refusal :=
  scanner (sideBegin tag side) s

/-- A data event (R82). -/
def execDataEvent (tag : Nat) (side : Side) (bytes : List Byte) (s : State) : Host.Outcome State Fault Refusal :=
  scanner (dataEvent tag side bytes) s

/-- A side-end (R83). -/
def execSideEnd (tag : Nat) (side : Side) (s : State) : Host.Outcome State Fault Refusal :=
  scanner (sideEnd tag side) s

/-- A capture report (R44). -/
def execCaptureReport (tag : Nat) (front back : Bool) (patch : Patch) (s : State) : Host.Outcome State Fault Refusal :=
  scanner (captureReport tag front back patch) s

/-- A pick window expires (R41). -/
def execPickWindowExpiry (tag : Nat) (s : State) : Host.Outcome State Fault Refusal :=
  scanner (pickWindowExpired tag) s

/-- Another edge window expires (R40). -/
def execEdgeWindowExpiry (tag : Nat) (sn : Sensor) (edge : EdgeKind) (s : State) : Host.Outcome State Fault Refusal :=
  scanner (edgeWindowExpired tag sn edge) s

/-- The diverter settle time is over (R50). -/
def execDiverterSettleTime (s : State) : Host.Outcome State Fault Refusal :=
  scanner settleTimeOver s

/-- A sample of the ready line (R50). -/
def execReadySample (ready : Bool) (s : State) : Host.Outcome State Fault Refusal :=
  scanner (readySampled ready) s

/-- The ready window expires (R50). -/
def execReadyWindowExpiry (s : State) : Host.Outcome State Fault Refusal :=
  scanner readyWindowOver s

/-- A turn interval starts in which the station holds the turn (R96, R97; log entry 18). -/
def execTurnInterval (s : State) : Host.Outcome State Fault Refusal := running ownTurn s

/-- A frame has been sent (R94, R124). -/
def execFrameSent (s : State) : Host.Outcome State Fault Refusal :=
  running sent s

/-- A frame is heard (R99). -/
def execFrameHeard (quiet : Nat) (bytes : List Byte) (s : State) : Host.Outcome State Fault Refusal :=
  running (hear quiet bytes) s

/-- A PRESENCE frame is heard (R109, R110). -/
def execPresence (h : Hdr) (role : PresenceRole) (s : State) : Host.Outcome State Fault Refusal :=
  running (hearPresence h role) s

/-- STORE DONE (R144, R146). -/
def execStoreDone (s : State) : Host.Outcome State Fault Refusal :=
  gateway storeDone s

/-- STORE ERROR (R145, R146). -/
def execStoreError (s : State) : Host.Outcome State Fault Refusal :=
  gateway storeError s

/-- The answer timeout of a BATCH OPEN expires (R6). -/
def execOpenAnswerTimeout (b : Nat) (s : State) : Host.Outcome State Fault Refusal :=
  scanner (openExpired b) s

/-- The answer timeout of a CLOSE expires (R176). -/
def execCloseAnswerTimeout (b : Nat) (s : State) : Host.Outcome State Fault Refusal :=
  scanner (closeExpired b) s

/-- The answer timeout of a HOLE CLAIM expires (R158). -/
def execClaimTimeout (s : State) : Host.Outcome State Fault Refusal :=
  scanner claimExpired s

/-- The answer timeout of a PAGE OFFER expires (R121). -/
def execOfferTimeout (c : ChanId) (s : State) : Host.Outcome State Fault Refusal :=
  scanner (offerExpired c) s

/-- A retry wait expires (R118). -/
def execRetryWaitExpiry (c : ChanId) (s : State) : Host.Outcome State Fault Refusal :=
  scanner (retryExpired c) s

/-- A store timer expires (R127). -/
def execStoreTimerExpiry (p : PageId) (s : State) : Host.Outcome State Fault Refusal :=
  scanner (storeTimerExpired p) s

/-- A slot's idle age reaches the grant lifetime (R140). -/
def execGrantLifetimeExpiry (n : Nat) (s : State) : Host.Outcome State Fault Refusal :=
  gateway (lifetimeOver n) s

/-- The join listen expires (R107). -/
def execJoinListenExpiry (s : State) : Host.Outcome State Fault Refusal :=
  running joinOver s

/-- The presence timer expires (R109). -/
def execPresenceTimerExpiry (s : State) : Host.Outcome State Fault Refusal :=
  running presenceOver s

/-- A peer's silence limit is reached (R111). -/
def execSilenceLimitExpiry (a : Nat) (s : State) : Host.Outcome State Fault Refusal :=
  running (silenceOver a) s

end Sys2Proof.Machine
end

