-- ==== Sys2Proof/Machine/Dispatch.lean ====
section
/-! DEFINITION. The meaning of each command: one arm per row of the table. -/

namespace Sys2Proof.Machine

def exec (i : Instr) (s : State) : Host.Outcome State Fault Refusal :=
  match i with
  | .startUp straps role => Sys2Proof.Machine.execStartUp straps role s
  | .settingsLoad image => Sys2Proof.Machine.execSettingsLoad image s
  | .openBatch h batch gateway attrs => Sys2Proof.Machine.execOpenBatch h batch gateway attrs s
  | .endBatch h batch => Sys2Proof.Machine.execEndBatch h batch s
  | .abandonBatch h batch => Sys2Proof.Machine.execAbandonBatch h batch s
  | .waiveHoles h batch positions => Sys2Proof.Machine.execWaiveHoles h batch positions s
  | .closeAgain h batch => Sys2Proof.Machine.execCloseAgain h batch s
  | .fill h batch => Sys2Proof.Machine.execFill h batch s
  | .fillCancel h => Sys2Proof.Machine.execFillCancel h s
  | .loadExemption h bank entry valid mode mask pattern => Sys2Proof.Machine.execLoadExemption h bank entry valid mode mask pattern s
  | .learnExemption h bank entry mode mask => Sys2Proof.Machine.execLearnExemption h bank entry mode mask s
  | .queryStation h index => Sys2Proof.Machine.execQueryStation h index s
  | .queryBatch h batch index => Sys2Proof.Machine.execQueryBatch h batch index s
  | .queryHoles h batch index => Sys2Proof.Machine.execQueryHoles h batch index s
  | .queryFill h index => Sys2Proof.Machine.execQueryFill h index s
  | .queryChannels h index => Sys2Proof.Machine.execQueryChannels h index s
  | .queryPeers h index => Sys2Proof.Machine.execQueryPeers h index s
  | .querySlots h index => Sys2Proof.Machine.execQuerySlots h index s
  | .queryCommit h batch index => Sys2Proof.Machine.execQueryCommit h batch index s
  | .queryCounters h index => Sys2Proof.Machine.execQueryCounters h index s
  | .queryAttention h index => Sys2Proof.Machine.execQueryAttention h index s
  | .ackAttention h classes => Sys2Proof.Machine.execAckAttention h classes s
  | .restart h => Sys2Proof.Machine.execRestart h s
  | .startKey => Sys2Proof.Machine.execStartKey s
  | .stopKey => Sys2Proof.Machine.execStopKey s
  | .clearKey => Sys2Proof.Machine.execClearKey s
  | .trayReady => Sys2Proof.Machine.execTrayReady s
  | .trayEmpty => Sys2Proof.Machine.execTrayEmpty s
  | .leadingEdge tag sensor pocket => Sys2Proof.Machine.execLeadingEdge tag sensor pocket s
  | .trailingEdge tag sensor pocket measure => Sys2Proof.Machine.execTrailingEdge tag sensor pocket measure s
  | .zoneReading tag layered => Sys2Proof.Machine.execZoneReading tag layered s
  | .sideBegin tag side => Sys2Proof.Machine.execSideBegin tag side s
  | .dataEvent tag side bytes => Sys2Proof.Machine.execDataEvent tag side bytes s
  | .sideEnd tag side => Sys2Proof.Machine.execSideEnd tag side s
  | .captureReport tag front back patch => Sys2Proof.Machine.execCaptureReport tag front back patch s
  | .pickWindowExpiry tag => Sys2Proof.Machine.execPickWindowExpiry tag s
  | .edgeWindowExpiry tag sensor edge => Sys2Proof.Machine.execEdgeWindowExpiry tag sensor edge s
  | .diverterSettleTime => Sys2Proof.Machine.execDiverterSettleTime s
  | .readySample ready => Sys2Proof.Machine.execReadySample ready s
  | .readyWindowExpiry => Sys2Proof.Machine.execReadyWindowExpiry s
  | .turnInterval => Sys2Proof.Machine.execTurnInterval s
  | .frameSent => Sys2Proof.Machine.execFrameSent s
  | .frameHeard quiet bytes => Sys2Proof.Machine.execFrameHeard quiet bytes s
  | .presence h role => Sys2Proof.Machine.execPresence h role s
  | .batchOpenHeard h batch gateway => Sys2Proof.Machine.execBatchOpenHeard h batch gateway s
  | .batchOpen h batch gateway => Sys2Proof.Machine.execBatchOpen h batch gateway s
  | .openAccept h batch => Sys2Proof.Machine.execOpenAccept h batch s
  | .openRefuse h batch reason => Sys2Proof.Machine.execOpenRefuse h batch reason s
  | .batchGone h batch => Sys2Proof.Machine.execBatchGone h batch s
  | .abandon h batch => Sys2Proof.Machine.execAbandon h batch s
  | .close h batch count waived => Sys2Proof.Machine.execClose h batch count waived s
  | .committed h batch => Sys2Proof.Machine.execCommitted h batch s
  | .incomplete h batch total excess missing => Sys2Proof.Machine.execIncomplete h batch total excess missing s
  | .unknown h batch => Sys2Proof.Machine.execUnknown h batch s
  | .holeClaim h batch wanted held => Sys2Proof.Machine.execHoleClaim h batch wanted held s
  | .holeGrant h batch gateway grants => Sys2Proof.Machine.execHoleGrant h batch gateway grants s
  | .holeNone h batch => Sys2Proof.Machine.execHoleNone h batch s
  | .holeRefuse h batch reason => Sys2Proof.Machine.execHoleRefuse h batch reason s
  | .filled h batch position => Sys2Proof.Machine.execFilled h batch position s
  | .release h batch final positions => Sys2Proof.Machine.execRelease h batch final positions s
  | .pageOffer h page pagesOfSheet size mark => Sys2Proof.Machine.execPageOffer h page pagesOfSheet size mark s
  | .pageData h slot offset bytes => Sys2Proof.Machine.execPageData h slot offset bytes s
  | .slotGrant h slot start => Sys2Proof.Machine.execSlotGrant h slot start s
  | .slotWait h => Sys2Proof.Machine.execSlotWait h s
  | .pageRefuse h reason => Sys2Proof.Machine.execPageRefuse h reason s
  | .pageStored h page slot => Sys2Proof.Machine.execPageStored h page slot s
  | .pageFail h page slot => Sys2Proof.Machine.execPageFail h page slot s
  | .pageFault h page slot => Sys2Proof.Machine.execPageFault h page slot s
  | .storeDone => Sys2Proof.Machine.execStoreDone s
  | .storeError => Sys2Proof.Machine.execStoreError s
  | .openAnswerTimeout batch => Sys2Proof.Machine.execOpenAnswerTimeout batch s
  | .closeAnswerTimeout batch => Sys2Proof.Machine.execCloseAnswerTimeout batch s
  | .claimTimeout => Sys2Proof.Machine.execClaimTimeout s
  | .offerTimeout channel => Sys2Proof.Machine.execOfferTimeout channel s
  | .retryWaitExpiry channel => Sys2Proof.Machine.execRetryWaitExpiry channel s
  | .storeTimerExpiry page => Sys2Proof.Machine.execStoreTimerExpiry page s
  | .grantLifetimeExpiry slot => Sys2Proof.Machine.execGrantLifetimeExpiry slot s
  | .joinListenExpiry => Sys2Proof.Machine.execJoinListenExpiry s
  | .presenceTimerExpiry => Sys2Proof.Machine.execPresenceTimerExpiry s
  | .silenceLimitExpiry address => Sys2Proof.Machine.execSilenceLimitExpiry address s

end Sys2Proof.Machine
end

