-- ==== Sys2Proof/Safety.lean ====
section
/-! DEFINITION. The bounds and the accounting that the manual says always hold, as predicates of one block's
state, and the words in which statements about commands are written. -/

namespace Sys2Proof.Machine

/-! ## What always holds -/

/-- The transmit control queue and the receive queue hold at most 16 frames (R102, R103). -/
def Fli.queuesBounded (l : Fli) : Prop :=
  l.txQueue.length ≤ Config.queueFrames ∧ l.rxQueue.length ≤ Config.queueFrames

/-- The sheet track holds at most 3 sheets (R36). -/
def Tsq.trackBounded (t : Tsq) : Prop := t.track.length ≤ Config.trackEntries

/-- Free and used records and blocks of the page store add up, each block is listed at most once, each
record lists the blocks that its size needs, and no identifier is used twice, or used and free (R77, R78). -/
structure Pgs.accounted (g : Pgs) : Prop where
  blocks  : g.freeBlocks + g.listed.length = Config.blocks
  records : g.freeRecs + g.recs.length = Config.pageRecords
  pool    : g.recPool.length = g.freeRecs
  once    : g.listed.Nodup
  exist   : ∀ k ∈ g.listed, k < Config.blocks
  sized   : ∀ r ∈ g.recs, r.blocks.length = blocksFor r.size
  ids     : (g.recs.map (·.id) ++ g.recPool).Nodup

/-- A slot is FREE exactly when it holds no page. -/
def Slot.holdOk (sl : Slot) : Prop := sl.state = .free ↔ sl.hold = none

/-- The pages that the slots hold, in slot order. -/
def Ict.pagesHeld (i : Ict) : List PageId := i.slots.filterMap fun sl => sl.hold.map (·.page)

/-- Free and reserved blocks of intake memory add up, no block is reserved twice, there are 48 slots, no
sender holds more than 4, no page stands in two slots, and the store queue lists each COMPLETE slot once at most
(R133, R142). -/
structure Ict.accounted (i : Ict) : Prop where
  blocks  : i.freeBlocks + i.reserved.length = Config.blocks
  once    : i.reserved.Nodup
  exist   : ∀ k ∈ i.reserved, k < Config.blocks
  slots   : i.slots.length = Config.slots
  holds   : ∀ sl ∈ i.slots, sl.holdOk
  senders : ∀ a, i.slots.countP (Slot.ofSender a) ≤ Config.slotsPerSender
  pages   : i.pagesHeld.Nodup
  queue   : ∀ n ∈ i.storeQueue, (i.slots[n]?).any (·.state == .complete)
  queued  : i.storeQueue.Nodup

/-- The commit table holds at most 32 entries, no two of one batch (R147). -/
structure Ict.committing (i : Ict) : Prop where
  table   : i.commits.length ≤ Config.commitEntries
  batches : (i.commits.map (·.batch)).Nodup

/-- A hole list stands in position order (R153). -/
def holesRising (hs : List Hole) : Prop := hs.Pairwise fun x y => x.position ≤ y.position

/-- A batch that OPEN BATCH finds busy: OPENING or ACTIVE. -/
def BatchRec.live (r : BatchRec) : Bool := r.state == .opening || r.state == .active

/-- The batch table holds at most 8 records, no two of one number and at most one in OPENING or ACTIVE (R1,
R3), each with its holes in position order (R153); the directory holds at most 64 entries, no two of one number
(R26); a fill job holds at most 8 positions, no two alike (R156). -/
structure Bct.bounded (b : Bct) : Prop where
  table    : b.batches.length ≤ Config.batchEntries
  numbers  : (b.batches.map (·.number)).Nodup
  oneLive  : b.batches.countP (·.live) ≤ 1
  holes    : ∀ r ∈ b.batches, holesRising r.holes
  room     : b.directory.length ≤ Config.directoryEntries
  known    : (b.directory.map (·.batch)).Nodup
  granted  : ∀ j, b.fill = some j → j.granted.length ≤ Config.grantEntries
  distinct : ∀ j, b.fill = some j → (j.granted.map (·.position)).Nodup

/-- Both memories keep their canonical form. -/
def State.memoriesWf (s : State) : Prop := s.pgs.mem.wf ∧ s.ict.mem.wf

/-- Every directory entry with this station as owner, but for the numbers named, is for a batch of the table
that is not in a terminal state; so at most 8 entries have this station as owner (R26). -/
def State.ownListed (s : State) (but : List Nat) : Prop :=
  ∀ d ∈ s.bct.directory, d.owner = s.oru.address → d.batch ∉ but →
    ∃ r ∈ s.bct.batches, r.number = d.batch ∧ r.state.terminal = false

/-- The tables of fixed length: 16 peers (R110), 12 exemption entries (R60), 8 capture progress entries (R80). -/
structure State.sized (s : State) : Prop where
  peers      : s.fli.peers.length = 16
  exemptions : s.dfm.exemptions.length = 12
  progress   : s.pgs.progress.length = 8

/-- Everything above. -/
structure State.Inv (s : State) : Prop where
  queues : s.fli.queuesBounded
  track  : s.tsq.trackBounded
  pages  : s.pgs.accounted
  intake : s.ict.accounted
  commits : s.ict.committing
  tables : s.bct.bounded
  sized  : s.sized
  own    : s.ownListed []
  mems   : s.memoriesWf

/-- The settings in force lie in the ranges of R191 (R92: a pause and a resume level within their bounds). -/
structure Settings.inRange (c : Settings) : Prop where
  presence : c.presenceMs ∈ [250, 500, 1000]
  silence  : c.silenceMultiple ∈ [2, 4, 8, 16]
  answer   : 50 ≤ c.answerMs ∧ c.answerMs ≤ 1000
  retry    : 10 ≤ c.retryMs ∧ c.retryMs ≤ 500
  store    : 5 ≤ c.storeSeconds ∧ c.storeSeconds ≤ 120
  pause    : 256 ≤ c.pauseLevel ∧ c.pauseLevel ≤ 4096
  resume   : c.pauseLevel + 256 ≤ c.resumeLevel ∧ c.resumeLevel ≤ 16384
  run      : 1 ≤ c.runThreshold ∧ c.runThreshold ≤ 8
  length   : c.toleranceDefault ≤ 50

/-! ## Words for statements -/

/-- The station runs and delivers frames: JOINED or CONFLICT (R100), with nothing before them in the receive
queue. -/
def State.listens (s : State) : Prop :=
  s.power = .running ∧ (s.fli.line = .joined ∨ s.fli.line = .conflict) ∧ s.fli.rxQueue = []

/-- A frame of another station for this station or for every station (R99, steps 3 and 5). -/
def State.reached (s : State) (h : Hdr) : Prop :=
  (h.dst = s.oru.address ∨ h.dst = Config.everyStation) ∧ h.src ≠ s.oru.address

/-- An ORDER for this station alone, of another station, that ORU can take now (R182, R184). -/
def State.takesOrder (s : State) (h : Hdr) : Prop :=
  s.listens ∧ s.oru.restartDue = none ∧ h.dst = s.oru.address ∧ h.dst ≠ Config.everyStation ∧
    h.src ≠ s.oru.address

/-- The same from the console. -/
def State.consoleOrder (s : State) (h : Hdr) : Prop := s.takesOrder h ∧ h.src = 0

/-- A scanner that runs. -/
def State.scans (s : State) : Prop := s.power = .running ∧ s.oru.role = .scanner

/-- A gateway that runs. -/
def State.archives (s : State) : Prop := s.power = .running ∧ s.oru.role = .gateway

/-- The state with an order counted as taken. -/
def State.orderCounted (s : State) : State :=
  { s with oru := { s.oru with ordersTaken := bump16 s.oru.ordersTaken } }

/-- The header and the order of an order command. -/
def commandOrder : Instr → Option (Hdr × Order)
  | .openBatch h b g a => some (h, .openBatch b g a)
  | .endBatch h b => some (h, .endBatch b)
  | .abandonBatch h b => some (h, .abandonBatch b)
  | .waiveHoles h b ps => some (h, .waiveHoles b ps)
  | .closeAgain h b => some (h, .closeAgain b)
  | .fill h b => some (h, .fill b)
  | .fillCancel h => some (h, .fillCancel)
  | .loadExemption h k e v m mask pat => some (h, .loadExemption k e v m mask pat)
  | .learnExemption h k e m mask => some (h, .learnExemption k e m mask)
  | .queryStation h i => some (h, .query .station 0 i)
  | .queryBatch h b i => some (h, .query .batch b i)
  | .queryHoles h b i => some (h, .query .holes b i)
  | .queryFill h i => some (h, .query .fill 0 i)
  | .queryChannels h i => some (h, .query .channels 0 i)
  | .queryPeers h i => some (h, .query .peers 0 i)
  | .querySlots h i => some (h, .query .slots 0 i)
  | .queryCommit h b i => some (h, .query .commit b i)
  | .queryCounters h i => some (h, .query .counters 0 i)
  | .queryAttention h i => some (h, .query .attention 0 i)
  | .ackAttention h cs => some (h, .ackAttention cs)
  | .restart h => some (h, .restart)
  | _ => none

/-- The frame that a frame command stands for; PRESENCE, which the peer table takes first, is apart. -/
def commandFrame : Instr → Option Frame
  | .batchOpenHeard h b g | .batchOpen h b g => some ⟨h, .batchOpen b g⟩
  | .openAccept h b => some ⟨h, .openAccept b⟩
  | .openRefuse h b r => some ⟨h, .openRefuse b r⟩
  | .batchGone h b => some ⟨h, .batchGone b⟩
  | .abandon h b => some ⟨h, .abandon b⟩
  | .close h b n ps => some ⟨h, .close b n ps⟩
  | .committed h b => some ⟨h, .committed b⟩
  | .incomplete h b t e ps => some ⟨h, .incomplete b t e ps⟩
  | .unknown h b => some ⟨h, .unknown b⟩
  | .holeClaim h b w ps => some ⟨h, .holeClaim b w ps⟩
  | .holeGrant h b g gs => some ⟨h, .holeGrant b g gs⟩
  | .holeNone h b => some ⟨h, .holeNone b⟩
  | .holeRefuse h b r => some ⟨h, .holeRefuse b r⟩
  | .filled h b p => some ⟨h, .filled b p⟩
  | .release h b final ps => some ⟨h, .release b final ps⟩
  | .pageOffer h p k size mark => some ⟨h, .pageOffer p k size mark⟩
  | .pageData h slot off bytes => some ⟨h, .pageData slot off bytes⟩
  | .slotGrant h slot start => some ⟨h, .slotGrant slot start⟩
  | .slotWait h => some ⟨h, .slotWait⟩
  | .pageRefuse h r => some ⟨h, .pageRefuse r⟩
  | .pageStored h p slot => some ⟨h, .pageStored p slot⟩
  | .pageFail h p slot => some ⟨h, .pageFail p slot⟩
  | .pageFault h p slot => some ⟨h, .pageFault p slot⟩
  | c => (commandOrder c).map fun x => ⟨x.1, .order x.2⟩

end Sys2Proof.Machine
end

