-- ==== Sys2Proof/WellFormed.lean ====
section
/-! DEFINITION. Which commands can be given at all: every operand fits the field that carries it on its
port (sections 11.1, 11.3, 11.4 for frames and orders; R36, R40, R61, R62, R80 for port events; R190 for
the straps). What the part does with a representable operand that is out of range is its own rule's
business and not judged here. -/

namespace Sys2Proof

/-- A number that fits `n` bytes. -/
def fitsBytes (n v : Nat) : Bool := v < 256 ^ n

/-- Header fields are bytes. -/
def Hdr.wf (h : Hdr) : Bool := fitsBytes 1 h.dst && fitsBytes 1 h.src && fitsBytes 1 h.tag

/-- An attribute argument in its six bytes: 0 stands for an absent nominal length and 255 for an omitted
tolerance, so neither may be given as a value. -/
def AttrArg.wf (a : AttrArg) : Bool :=
  fitsBytes 1 a.duplex && fitsBytes 1 a.policy && fitsBytes 1 a.bank &&
    (match a.nominal with | none => true | some l => 0 < l && fitsBytes 2 l) &&
    (match a.tolerance with | none => true | some t => t < 255)

/-- A judged attribute set in its six bytes. -/
def AttrSet.wf (a : AttrSet) : Bool :=
  fitsBytes 1 a.bank && (match a.nominal with | none => true | some l => 0 < l && fitsBytes 2 l) &&
    fitsBytes 1 a.tolerance

def Patch.wf : Patch → Bool
  | .none => true
  | .header a => a.wf
  | .sectionSheet a => a.wf
  | .stop => true

/-- A list of positions with a one-byte count. -/
def positionsWf (ps : List Nat) : Bool := fitsBytes 1 ps.length && ps.all (fitsBytes 2)

def PageId.wf (p : PageId) : Bool := fitsBytes 3 p.batch && fitsBytes 2 p.position

/-- Every operand of the command fits its field. -/
def Instr.wf : Instr → Bool
  | .startUp straps _ => straps < 16
  | .settingsLoad image => (match image with | none => true | some bytes => bytes.length ≤ Config.imageBytes)
  | .openBatch h b g a => h.wf && fitsBytes 3 b && fitsBytes 1 g && a.wf
  | .endBatch h b => h.wf && fitsBytes 3 b
  | .abandonBatch h b => h.wf && fitsBytes 3 b
  | .waiveHoles h b ps => h.wf && fitsBytes 3 b && positionsWf ps
  | .closeAgain h b => h.wf && fitsBytes 3 b
  | .fill h b => h.wf && fitsBytes 3 b
  | .fillCancel h => h.wf
  | .loadExemption h bank entry valid mode _ _ =>
      h.wf && fitsBytes 1 bank && fitsBytes 1 entry && fitsBytes 1 valid && fitsBytes 1 mode
  | .learnExemption h bank entry mode _ => h.wf && fitsBytes 1 bank && fitsBytes 1 entry && fitsBytes 1 mode
  | .queryStation h i => h.wf && fitsBytes 2 i
  | .queryBatch h b i => h.wf && fitsBytes 3 b && fitsBytes 2 i
  | .queryHoles h b i => h.wf && fitsBytes 3 b && fitsBytes 2 i
  | .queryFill h i => h.wf && fitsBytes 2 i
  | .queryChannels h i => h.wf && fitsBytes 2 i
  | .queryPeers h i => h.wf && fitsBytes 2 i
  | .querySlots h i => h.wf && fitsBytes 2 i
  | .queryCommit h b i => h.wf && fitsBytes 3 b && fitsBytes 2 i
  | .queryCounters h i => h.wf && fitsBytes 2 i
  | .queryAttention h i => h.wf && fitsBytes 2 i
  | .ackAttention h _ => h.wf
  | .restart h => h.wf
  | .startKey => true
  | .stopKey => true
  | .clearKey => true
  | .trayReady => true
  | .trayEmpty => true
  | .leadingEdge tag _ _ => tag < Config.trackTags
  | .trailingEdge tag _ _ m => tag < Config.trackTags && (match m with | none => true | some l => l ≤ 8191)
  | .zoneReading tag _ => tag < Config.trackTags
  | .sideBegin tag _ => tag < Config.trackTags
  | .dataEvent tag _ bytes => tag < Config.trackTags && 0 < bytes.length && bytes.length ≤ Config.blockBytes
  | .sideEnd tag _ => tag < Config.trackTags
  | .captureReport tag _ _ patch => tag < Config.trackTags && patch.wf
  | .pickWindowExpiry tag => tag < Config.trackTags
  | .edgeWindowExpiry tag _ _ => tag < Config.trackTags
  | .diverterSettleTime => true
  | .readySample _ => true
  | .readyWindowExpiry => true
  | .turnInterval => true
  | .frameSent => true
  | .frameHeard _ bytes => 0 < bytes.length
  | .presence h _ => h.wf
  | .batchOpenHeard h b g => h.wf && fitsBytes 3 b && fitsBytes 1 g
  | .batchOpen h b g => h.wf && fitsBytes 3 b && fitsBytes 1 g
  | .openAccept h b => h.wf && fitsBytes 3 b
  | .openRefuse h b _ => h.wf && fitsBytes 3 b
  | .batchGone h b => h.wf && fitsBytes 3 b
  | .abandon h b => h.wf && fitsBytes 3 b
  | .close h b n ps => h.wf && fitsBytes 3 b && fitsBytes 2 n && positionsWf ps
  | .committed h b => h.wf && fitsBytes 3 b
  | .incomplete h b t e ps => h.wf && fitsBytes 3 b && fitsBytes 2 t && fitsBytes 2 e && positionsWf ps
  | .unknown h b => h.wf && fitsBytes 3 b
  | .holeClaim h b w ps => h.wf && fitsBytes 3 b && fitsBytes 1 w && positionsWf ps
  | .holeGrant h b g gs =>
      h.wf && fitsBytes 3 b && fitsBytes 1 g && fitsBytes 1 gs.length &&
        gs.all fun p => fitsBytes 2 p.1 && p.2.wf
  | .holeNone h b => h.wf && fitsBytes 3 b
  | .holeRefuse h b _ => h.wf && fitsBytes 3 b
  | .filled h b p => h.wf && fitsBytes 3 b && fitsBytes 2 p
  | .release h b _ ps => h.wf && fitsBytes 3 b && positionsWf ps
  | .pageOffer h p k size _ => h.wf && p.wf && fitsBytes 1 k && fitsBytes 4 size
  | .pageData h slot off bytes => h.wf && fitsBytes 1 slot && fitsBytes 4 off && bytes.length ≤ Config.span
  | .slotGrant h slot start => h.wf && fitsBytes 1 slot && fitsBytes 2 start
  | .slotWait h => h.wf
  | .pageRefuse h _ => h.wf
  | .pageStored h p slot => h.wf && p.wf && fitsBytes 1 slot
  | .pageFail h p slot => h.wf && p.wf && fitsBytes 1 slot
  | .pageFault h p slot => h.wf && p.wf && fitsBytes 1 slot
  | .storeDone => true
  | .storeError => true
  | .openAnswerTimeout b => fitsBytes 3 b
  | .closeAnswerTimeout b => fitsBytes 3 b
  | .claimTimeout => true
  | .offerTimeout _ => true
  | .retryWaitExpiry _ => true
  | .storeTimerExpiry p => p.wf
  | .grantLifetimeExpiry slot => slot < Config.slots
  | .joinListenExpiry => true
  | .presenceTimerExpiry => true
  | .silenceLimitExpiry a => a < Config.peerEntries

end Sys2Proof
end

