-- ==== Sys2Proof/Certificates/Slice0/Obligations.lean ====
section
/-! DEFINITION. The statements given to the provers, each a proposition about the model. A result is stated as
the next state of the command, so what a statement does not change in it is unchanged. Where a result names a
shared operation, it is the one of the model; `hand`, `ask`, `raise`, `hold`, `levelTest`, `pickTest`, `drainTest`,
`offerTest`, `freeRec`, `enterReady`, `closeTest`, `endedTest`, `storeTest`, `tell`, `discardAll`, `markPages`,
`placePages`, `endActive`, `drainFeed`, `withdrawBatch`, `fillEnd` and `freeBatchSlots` have statements here that say what
they do. -/

open Sys2Proof Sys2Proof.Machine

/-! ## The machine as a whole -/

/-- A step takes the command at the front of the queue and runs it on the queue's rest; with no command waiting
it is 1 ms of the clock, which is the model's choice (log entry 2). -/
def Obligations.StepRunsFront : Prop :=
  (∀ (c : Instr) (rest : List Instr) (s : State), s.pending = c :: rest →
     step s = exec c { s with pending := rest }) ∧
  ∀ s : State, s.pending = [] → step s = .next { s with now := s.now + 1 }

/-- Every command of every state answers a next state; it leaves the queue and never turns the clock back. Address,
role, settings and the Start sequence's place change by START_UP and SETTINGS_LOAD only.
No command stops: the clock is the model's (log entries 2, 3). -/
def Obligations.EveryCommandAnswersNext : Prop :=
  (∀ (c : Instr) (s : State), ∃ t, exec c s = .next t ∧ t.pending = s.pending ∧ s.now ≤ t.now) ∧
  ∀ (c : Instr) (s t : State), (∀ x r, c ≠ .startUp x r) → (∀ i, c ≠ .settingsLoad i) → exec c s = .next t →
    t.oru.address = s.oru.address ∧ t.oru.role = s.oru.role ∧ t.oru.settings = s.oru.settings ∧ t.power = s.power

/-- The state at reset meets the invariant.
The values at reset that the manual does not give are the model's (log entry 1). -/
def Obligations.ResetMeetsInv : Prop := State.reset.Inv ∧ Settings.inRange State.reset.oru.settings

/-- Every step keeps what `State.Inv` says, and no more than that: at most 16 frames in each of the two frame queues,
at most 3 sheets in the track, the page store's records and blocks accounted for with no identifier twice, the
intake's slots and blocks accounted for with no page in two slots, at most 32 commit entries and no two of one batch,
the bounds of the batch table, the directory and the fill job, every hole list in position order, the peer table, the
exemption entries and the progress entries at their lengths, own directory entries for batches that are not terminal,
and both memories in canonical form. And every step keeps the settings in force in their ranges. -/
def Obligations.StepKeepsInv : Prop :=
  (∀ s t : State, s.Inv → step s = .next t → t.Inv) ∧
  ∀ s t : State, Settings.inRange s.oru.settings → step s = .next t → Settings.inRange t.oru.settings

/-! ## Start -/

/-- START_UP: the straps are sampled, and until the settings load ends the part takes no event.
That START_UP is a power cycle and that the clock, the port log and the queue go on is the model's (log entry
27). -/
def Obligations.StartUpSamplesStraps : Prop :=
  (∀ (straps : Nat) (role : Role) (s : State), straps < 16 →
    exec (.startUp straps role) s = .next
      { power := .loading, now := s.now, portLog := s.portLog, freeNext := s.freeNext, pending := s.pending
        oru := { address := straps, role } }) ∧
  (∀ (c : Instr) (s : State), s.power ≠ .running → (∀ x r, c ≠ .startUp x r) → (∀ i, c ≠ .settingsLoad i) →
    exec c s = .next s)

/-- The blocks' state when the settings load has ended, before CONFIG_DEFAULT is raised. -/
def loadedState (settings : Settings) (exemptions : List Exemption) (s : State) : State :=
  { power := .running, now := s.now, freeNext := s.freeNext + 12, pending := s.pending
    portLog := if s.oru.role = .scanner then s.portLog ++ [.diverter .main] else s.portLog
    oru := { address := s.oru.address, role := s.oru.role, settings }
    dfm := { exemptions }
    fli := if s.oru.address = 0 then { line := .unaddressed }
      else { line := .listening, joinDue := some (s.now + 3 * settings.presenceMs) } }

/-- SETTINGS_LOAD. Without a memory, or with an image whose check fails: every default, every exemption entry
invalid, CONFIG_DEFAULT. With an image whose check holds: the settings and entries that it gives, each setting the
image's value inside its range and else the default, and CONFIG_DEFAULT exactly when one was out of its range; each
exemption entry byte by byte, valid exactly for a valid byte of 1 and a mode byte of 0 or 1.
That the load is taken only after START_UP, and the free values of an image whose codes are none, are the model's
(log entries 27, 33). -/
def Obligations.SettingsLoadEndsStart : Prop :=
  (∀ (image : Option (List Byte)) (s : State), s.power = .loading →
     (∀ bytes, image = some bytes → imageOk bytes = false) →
     exec (.settingsLoad image) s = .next (raise .configDefault (loadedState
       { presenceMs := 500, silenceMultiple := 4, answerMs := 200, retryMs := 50, storeSeconds := 30
         pauseLevel := 1024, resumeLevel := 2048, runThreshold := 3, toleranceDefault := 8, source := .default }
       (List.replicate 12 { valid := false, mask := 0, pattern := 0, mode := .strict, matched := 0 }) s))) ∧
  (∀ (bytes : List Byte) (s : State), s.power = .loading → imageOk bytes = true →
     let t := loadedState (settingsOf bytes) ((List.range 12).map (imageExemption bytes s.freeNext)) s
     exec (.settingsLoad (some bytes)) s = .next
       (if (settingsOf bytes).source = .image then t else raise .configDefault t)) ∧
  ∀ bytes : List Byte,
    let c := settingsOf bytes
    let f := imageField bytes
    c.presenceMs = (if f 0 1 = 0 then 250 else if f 0 1 = 1 then 500 else if f 0 1 = 2 then 1000 else 500) ∧
    c.silenceMultiple = (if f 1 1 = 0 then 2 else if f 1 1 = 1 then 4 else if f 1 1 = 2 then 8
      else if f 1 1 = 3 then 16 else 4) ∧
    c.answerMs = (if 50 ≤ f 2 2 ∧ f 2 2 ≤ 1000 then f 2 2 else 200) ∧
    c.retryMs = (if 10 ≤ f 4 2 ∧ f 4 2 ≤ 500 then f 4 2 else 50) ∧
    c.storeSeconds = (if 5 ≤ f 6 1 ∧ f 6 1 ≤ 120 then f 6 1 else 30) ∧
    c.pauseLevel = (if 256 ≤ f 7 2 ∧ f 7 2 ≤ 4096 then f 7 2 else 1024) ∧
    c.resumeLevel = (if c.pauseLevel + 256 ≤ f 9 2 ∧ f 9 2 ≤ 16384 then f 9 2 else max 2048 (c.pauseLevel + 256)) ∧
    c.runThreshold = (if 1 ≤ f 11 1 ∧ f 11 1 ≤ 8 then f 11 1 else 3) ∧
    c.toleranceDefault = (if f 12 1 ≤ 50 then f 12 1 else 8) ∧
    (c.source = .image ∨ c.source = .partialImage) ∧
    (c.source = .image ↔ f 0 1 ≤ 2 ∧ f 1 1 ≤ 3 ∧ (50 ≤ f 2 2 ∧ f 2 2 ≤ 1000) ∧ (10 ≤ f 4 2 ∧ f 4 2 ≤ 500) ∧
      (5 ≤ f 6 1 ∧ f 6 1 ≤ 120) ∧ (256 ≤ f 7 2 ∧ f 7 2 ≤ 4096) ∧ (c.pauseLevel + 256 ≤ f 9 2 ∧ f 9 2 ≤ 16384) ∧
      (1 ≤ f 11 1 ∧ f 11 1 ≤ 8) ∧ f 12 1 ≤ 50) ∧
    (∀ k v, bytes[k]? = some v → f k 1 = v.toNat) ∧
    (∀ k v w, bytes[k]? = some v → bytes[k + 1]? = some w → f k 2 = 256 * v.toNat + w.toNat) ∧
    (imageOk bytes = true ↔ 231 ≤ bytes.length ∧ (imageCheck (bytes.take 229)).toNat = f 229 2) ∧
    ∀ (k free : Nat), k < 12 →
      let x := imageExemption bytes free k
      (x.valid = true ↔ f (13 + 18 * k) 1 = 1 ∧ f (14 + 18 * k) 1 ≤ 1) ∧
      (f (14 + 18 * k) 1 = 0 → x.mode = .strict) ∧ (f (14 + 18 * k) 1 = 1 → x.mode = .loose) ∧
      (1 < f (14 + 18 * k) 1 → x.mode = if Config.freeBit (free + k) then .loose else .strict) ∧
      x.mask = BitVec.ofNat 64 (f (15 + 18 * k) 8) ∧ x.pattern = BitVec.ofNat 64 (f (23 + 18 * k) 8) ∧ x.matched = 0

/-! ## Frames handed, asks, attention, holds, levels -/

/-- A block hands a frame to the Floor Line Interface, by line state and room; an ask bears the counter's value,
and the counter goes on by one, from 255 back to 0; a frame that is neither an ask nor an answer bears tag 0. -/
def Obligations.HandedFrameJoinsOrIsLost : Prop :=
  (∀ (dst tag : Nat) (p : Payload) (s : State),
     ((s.fli.line = .joined ∨ s.fli.line = .listening) → s.fli.txQueue.length < 16 →
       hand dst tag p s =
         { s with fli := { s.fli with txQueue := s.fli.txQueue ++ [⟨⟨dst, s.oru.address, tag⟩, p⟩] } }) ∧
     ((s.fli.line = .joined ∨ s.fli.line = .listening) → 16 ≤ s.fli.txQueue.length →
       hand dst tag p s = { s with fli := { s.fli with txDrops := min 65535 (s.fli.txDrops + 1) } }) ∧
     ((s.fli.line = .unaddressed ∨ s.fli.line = .conflict) →
       hand dst tag p s = { s with fli := { s.fli with unsent := min 65535 (s.fli.unsent + 1) } })) ∧
  (∀ (dst : Nat) (p : Payload) (s : State), Machine.tell dst p s = hand dst 0 p s) ∧
  ∀ (dst : Nat) (p : Payload) (s : State), s.fli.askTag ≤ 255 →
    ask dst p s = hand dst s.fli.askTag p
      { s with fli := { s.fli with askTag := if s.fli.askTag = 255 then 0 else s.fli.askTag + 1 } }

/-- A class raised: into an empty set with an ATTENTION frame to the console, into another without, and with no
change when it is there already. -/
def Obligations.RaiseJoinsTheAttentionSet : Prop :=
  ∀ (c : Attn) (s : State),
    (s.oru.attention = 0 →
      raise c s = hand 0 0 (.attention c.bit)
        { s with oru := { s.oru with attention := c.bit, attentionFrames := min 65535 (s.oru.attentionFrames + 1) } }) ∧
    (s.oru.attention ≠ 0 →
      raise c s = { s with oru := { s.oru with attention := s.oru.attention ||| c.bit } }) ∧
    (s.oru.attention ≠ 0 → s.oru.attention &&& c.bit = c.bit → raise c s = s)

/-- A hold cause: HELD with its reason and its class; in HELD the class alone. The level test of the Page Store and
the signals it gives. The motor: it runs in FEEDING, PAUSED and DRAINING of a scanner that runs, and a hold cause stops
it.
That the motor is a function of the state and is not in the port log is the model's (log entry 10). -/
def Obligations.HoldsAndLevelSignals : Prop :=
  ((∀ (r : HoldReason) (s : State),
      (s.tsq.transport ≠ .held →
        hold r s = raise r.attn
          { s with tsq := { s.tsq with transport := .held, holdReason := some r, handshake := none } }) ∧
      (s.tsq.transport = .held → hold r s = raise r.attn s)) ∧
   ∀ s : State,
     (s.pgs.level = .normal → (s.pgs.freeBlocks < s.oru.settings.pauseLevel ∨ s.pgs.freeRecs < 8) →
       levelTest s = { s with
         pgs := { s.pgs with level := .pause }
         tsq := { s.tsq with
           storeLevel := .pause, transport := if s.tsq.transport = .feeding then .paused else s.tsq.transport } }) ∧
     (s.pgs.level = .pause → s.oru.settings.resumeLevel ≤ s.pgs.freeBlocks → 16 ≤ s.pgs.freeRecs →
       levelTest s = pickTest { s with
         pgs := { s.pgs with level := .normal }
         tsq := { s.tsq with
           storeLevel := .normal, transport := if s.tsq.transport = .paused then .feeding else s.tsq.transport } }) ∧
     (s.pgs.level = .normal → s.oru.settings.pauseLevel ≤ s.pgs.freeBlocks → 8 ≤ s.pgs.freeRecs →
       levelTest s = s) ∧
     (s.pgs.level = .pause → (s.pgs.freeBlocks < s.oru.settings.resumeLevel ∨ s.pgs.freeRecs < 16) →
       levelTest s = s)) ∧
  ∀ s : State,
    (s.motorRuns = true ↔ s.power = .running ∧ s.oru.role = .scanner ∧
      (s.tsq.transport = .feeding ∨ s.tsq.transport = .paused ∨ s.tsq.transport = .draining)) ∧
    ∀ r : HoldReason, (hold r s).motorRuns = false

/-- The lamps follow the state. -/
def Obligations.LampsFollowTheState : Prop :=
  ∀ s : State,
    (s.power ≠ .running → s.lamps = ⟨false, false, false, false⟩) ∧
    (s.power = .running →
      (s.lamps.ready = true ↔ s.oru.role = .scanner ∧ (s.tsq.transport = .armed ∨ s.tsq.transport = .feeding)) ∧
      (s.lamps.hold = true ↔ s.oru.role = .scanner ∧ s.tsq.transport = .held) ∧
      (s.lamps.attention = true ↔ s.oru.attention ≠ 0) ∧
      (s.lamps.line = true ↔ s.fli.line = .joined))

/-! ## Orders -/

/-- Checks 1 to 4 of the Order Unit, for every order command; an ORDER ANSWER goes to the order's source and bears
its tag and its code. What check 3 asks of the arguments of each order, and the roles in which each order has an owning
block. -/
def Obligations.OrdersCheckedBeforeTheirOwner : Prop :=
  ((∀ (c : Instr) (h : Hdr) (o : Order) (s : State), commandOrder c = some (h, o) →
      (s.listens → s.oru.restartDue = none → h.src ≠ s.oru.address → h.dst = 255 →
        exec c s = .next { s with oru := { s.oru with broadcastOrders := min 65535 (s.oru.broadcastOrders + 1) } }) ∧
      (s.takesOrder h → h.src ≠ 0 →
        exec c s = .next (answer h .notConsole [] { s with oru := { s.oru with
          ordersTaken := min 65535 (s.oru.ordersTaken + 1), refusedSource := min 65535 (s.oru.refusedSource + 1) } })) ∧
      (s.consoleOrder h → o.argsOk = false → exec c s = .next (answer h .badArgument [] s.orderCounted)) ∧
      (s.consoleOrder h → o.argsOk = true → o.owned s.oru.role = false →
        exec c s = .next (answer h .wrongRole [] s.orderCounted))) ∧
   ∀ (h : Hdr) (r : ResultCode) (body : List Byte) (s : State),
     answer h r body s = hand h.src h.tag (.orderAnswer r.code body) s) ∧
  ∀ o : Order,
    (o.argsOk = true ↔ match o with
      | .waiveHoles _ ps => 1 ≤ ps.length ∧ ps.length ≤ 32
      | .loadExemption _ _ v _ _ _ => v ≤ 1
      | .query _ _ i => i ≤ 4095
      | .undecodable => False
      | _ => True) ∧
    ∀ role : Role, o.owned role = true ↔ match o with
      | .abandonBatch _ | .query _ _ _ | .ackAttention _ | .restart | .undecodable => True
      | _ => role = .scanner

/-- OPEN BATCH accepted: the record, the directory entry, the batch queue and the BATCH OPEN ask, then the answer.
The entry that a new record takes: the terminal record of its number, else a free entry, else the record that
entered its terminal state longest ago; every other record stays.
OPEN BATCH refused: the four checks in their order. An attribute set as received is taken whole when every field
is in its range, its omitted tolerance written from the settings, and not at all otherwise. -/
def Obligations.OpenBatchJudged : Prop :=
  ((∀ (h : Hdr) (b g : Nat) (a : AttrArg) (attrs : AttrSet) (s : State), s.consoleOrder h → s.oru.role = .scanner →
      a.resolve s.oru.settings.toleranceDefault = some attrs → 1 ≤ b → b ≤ 16777215 → 1 ≤ g → g ≤ 15 →
      g ≠ s.oru.address → (∀ r ∈ s.bct.batches, r.state ≠ .opening ∧ r.state ≠ .active) →
      (∀ d, s.findDir b = some d → d.owner = s.oru.address) →
      (∀ r, s.findBatch b = some r → r.state.terminal = true) →
      (s.bct.batches.length < 8 ∨ ∃ r ∈ s.bct.batches, r.state.terminal = true) →
      let record : BatchRec :=
        { number := b, gateway := g, state := .opening, attrs, openAsk := some s.fli.askTag
          openDue := s.now + s.oru.settings.answerMs }
      let t := setDir ⟨b, s.oru.address, g, s.now⟩
        { s.orderCounted with bct := { s.bct with batches := placeBatch record s.bct.batches } }
      exec (.openBatch h b g a) s = .next (answer h .accepted []
        (ask 255 (.batchOpen b g) { t with pgs := { s.pgs with queues := s.pgs.queues ++ [{ batch := b }] } })) ∧
      t.findBatch b = some record) ∧
   ∀ (r : BatchRec) (l m : List BatchRec) (old : BatchRec),
     (old.number = r.number → (∀ x ∈ l, x.number ≠ r.number) → placeBatch r (l ++ old :: m) = l ++ r :: m) ∧
     ((∀ x ∈ l, x.number ≠ r.number) → l.length < 8 → placeBatch r l = l ++ [r]) ∧
     ((∀ x ∈ l ++ old :: m, x.number ≠ r.number) → 8 ≤ (l ++ old :: m).length →
       ((l ++ old :: m).map (·.number)).Nodup → old.state.terminal = true →
       (∀ x ∈ l ++ m, x.state.terminal = true → old.terminalOrder.getD 0 < x.terminalOrder.getD 0) →
       placeBatch r (l ++ old :: m) = l ++ r :: m)) ∧
  (∀ (h : Hdr) (b g : Nat) (a : AttrArg) (s : State), s.consoleOrder h → s.oru.role = .scanner →
     let bad := b = 0 ∨ 16777215 < b ∨ g = 0 ∨ 15 < g ∨ g = s.oru.address ∨
       a.resolve s.oru.settings.toleranceDefault = none
     let busy := ∃ r ∈ s.bct.batches, r.state = .opening ∨ r.state = .active
     let dup := (∃ d, s.findDir b = some d ∧ d.owner ≠ s.oru.address) ∨
       ∃ r, s.findBatch b = some r ∧ r.state.terminal = false
     let full := 8 ≤ s.bct.batches.length ∧ ∀ r ∈ s.bct.batches, r.state.terminal = false
     let refused (r : ResultCode) := exec (.openBatch h b g a) s = .next (answer h r [] s.orderCounted)
     (bad → refused .badArgument) ∧ (¬ bad → busy → refused .busy) ∧
     (¬ bad → ¬ busy → dup → refused .duplicateBatch) ∧ (¬ bad → ¬ busy → ¬ dup → full → refused .tableFull)) ∧
  ∀ (a : AttrArg) (default : Nat),
    let t := a.tolerance.getD default
    (∀ d p, Duplex.ofCode a.duplex = some d → Policy.ofCode a.policy = some p → a.bank ≤ 1 → t ≤ 50 →
      (a.nominal = none ∨ ∃ l, a.nominal = some l ∧ 1 ≤ l ∧ l ≤ 2000) →
      a.resolve default = some ⟨d, p, a.bank, a.nominal, t⟩) ∧
    ((1 < a.duplex ∨ 2 < a.policy ∨ 1 < a.bank ∨ 50 < t ∨ a.nominal = some 0 ∨ ∃ l, a.nominal = some l ∧ 2000 < l) →
      a.resolve default = none)

/-- END BATCH by the state of the batch; CLOSE AGAIN returns a DISPUTED batch to RECONCILING and tests the close
condition at once. -/
def Obligations.EndBatchAndCloseAgain : Prop :=
  (∀ (h : Hdr) (b : Nat) (s : State), s.consoleOrder h → s.oru.role = .scanner →
     (s.findBatch b = none → exec (.endBatch h b) s = .next (answer h .unknownBatch [] s.orderCounted)) ∧
     ∀ r, s.findBatch b = some r →
       (r.state = .active → exec (.endBatch h b) s = .next (answer h .accepted []
         (endedTest b (withdrawBatch b (s.orderCounted.updBatch b fun r => { r with state := .ended }))))) ∧
       (r.state = .ended ∨ r.state = .halted →
         exec (.endBatch h b) s = .next (answer h .accepted [] s.orderCounted)) ∧
       (r.state ≠ .active → r.state ≠ .ended → r.state ≠ .halted →
         exec (.endBatch h b) s = .next (answer h .badState [] s.orderCounted))) ∧
  ∀ (h : Hdr) (b : Nat) (s : State), s.consoleOrder h → s.oru.role = .scanner →
    (s.findBatch b = none → exec (.closeAgain h b) s = .next (answer h .unknownBatch [] s.orderCounted)) ∧
    ∀ r, s.findBatch b = some r →
      (r.state = .disputed → exec (.closeAgain h b) s = .next (answer h .accepted []
        (closeTest b (s.orderCounted.updBatch b fun r => { r with state := .reconciling })))) ∧
      (r.state ≠ .disputed → exec (.closeAgain h b) s = .next (answer h .badState [] s.orderCounted))

/-- A withdrawal acts on the named batch's feed alone: FEEDING and PAUSED drain, ARMED returns to IDLE, and a feed
that drains with an empty track is IDLE at once. The ENDED test and the close test: a batch that no sheet is bound
to reconciles, and one that is ready to close sends CLOSE. -/
def Obligations.EndedReconcilesAndReadyCloses : Prop :=
  (∀ (b : Nat) (s : State),
     let feeds := s.tsq.feedMode = some .batch ∧ s.tsq.fedBatch = some b
     let idle (s : State) : State :=
       { s with tsq := { s.tsq with transport := .idle, feedMode := none, fedBatch := none } }
     (¬ feeds → withdrawBatch b s = s) ∧
     (feeds → s.tsq.transport = .armed → withdrawBatch b s = idle s) ∧
     (feeds → s.tsq.transport = .feeding ∨ s.tsq.transport = .paused → s.tsq.track ≠ [] →
       withdrawBatch b s = { s with tsq := { s.tsq with transport := .draining } }) ∧
     (feeds → s.tsq.transport = .feeding ∨ s.tsq.transport = .paused → s.tsq.track = [] →
       withdrawBatch b s = idle s) ∧
     (feeds → s.tsq.transport = .held ∨ s.tsq.transport = .idle → withdrawBatch b s = s)) ∧
  ∀ (b : Nat) (r : BatchRec) (s : State), s.findBatch b = some r →
    (r.state = .ended → (∀ e ∈ s.tsq.track, e.boundTo b = false) →
      endedTest b s = closeTest b (s.updBatch b fun r => { r with state := .reconciling })) ∧
    (r.state ≠ .ended ∨ (∃ e ∈ s.tsq.track, e.boundTo b = true) → endedTest b s = s) ∧
    (r.state = .reconciling → (∀ x ∈ r.holes, x.state = .filled ∨ x.state = .waived) →
      (∀ p ∈ s.pgs.recs, p.batch ≠ some b) →
      closeTest b s = ask r.gateway
        (.close b r.scanned ((r.holes.filter fun x => x.state == .waived).map fun x => x.position))
        (s.updBatch b fun r => { r with
          state := .closing, closeAsk := some s.fli.askTag, closeDue := s.now + s.oru.settings.answerMs
          closeAttempts := min 255 (r.closeAttempts + 1) })) ∧
    (r.state ≠ .reconciling ∨ (∃ x ∈ r.holes, x.state = .vacant ∨ x.state = .claimed) ∨
      (∃ p ∈ s.pgs.recs, p.batch = some b) → closeTest b s = s)

/-- ABANDON BATCH at a scanner: its whole next state, in which the record is ABANDONED without holes, every own page
of the batch is freed or is SENDING with discard pending (its burst is in transmission, the discard was pending
before, or no channel holds it), the batch's feed is withdrawn, its sheets are marked and lose their positions, and a
local fill of it ends with OWNER_GONE; and that state where the station holds no page, no sheet and no fill for it. A
commit entry abandoned at a gateway, by its owner's ABANDON or by the console: every slot of the batch freed but one
being written, which is disowned; no frame to any sender; without an entry nothing changes.
The one offer test after the discards, before the ABANDON frame, and the idle age that a freed slot keeps are the
model's (log entries 11, 43). -/
def Obligations.AbandonedInBothRoles : Prop :=
  (∀ (h : Hdr) (b : Nat) (s : State), s.consoleOrder h → s.oru.role = .scanner →
     (s.findBatch b = none → exec (.abandonBatch h b) s = .next (answer h .unknownBatch [] s.orderCounted)) ∧
     ∀ r, s.findBatch b = some r →
       (r.state.terminal = true → exec (.abandonBatch h b) s = .next (answer h .badState [] s.orderCounted)) ∧
       (r.state.terminal = false →
         let own := s.pgs.recs.filter fun q => q.batch == some b && !q.fillFlag
         let lingers (id : Nat) : Prop := (∃ c, s.bursting c = true ∧ (s.chan c).active.page = some id) ∨
           ∀ c, (s.chan c).staged.page ≠ some id ∧ (s.chan c).active.page ≠ some id
         let entered : State := { s.orderCounted with
           bct := { s.bct with
             terminalNext := s.bct.terminalNext + 1
             batches := updFirst (·.number == b) (fun r => { r with
               state := .abandoned, terminalOrder := some s.bct.terminalNext, openAsk := none
               closeAsk := none }) s.bct.batches }
           pgs := { s.pgs with queues := s.pgs.queues.filter (·.batch != b) } }
         let freed := withdrawBatch b (discardAll (own.map (·.id)) entered)
         let tags := (freed.tsq.track.filter (·.boundTo b)).map (·.tag)
         let marked : State := { freed with
           tsq := { freed.tsq with
             track := freed.tsq.track.map fun e =>
               if e.boundTo b then { e with abandoned := true, position := none } else e }
           pgs := { freed.pgs with
             progress := tags.foldl (fun l tag => l.modify tag fun p => { p with mode := .drop }) freed.pgs.progress }
           bct := { freed.bct with
             batches := updFirst (·.number == b) (fun r => { r with holes := [] }) freed.bct.batches } }
         let told := removeDir b s.oru.address
           (Machine.tell 255 (.batchGone b) (Machine.tell r.gateway (.abandon b) marked))
         let t := match told.bct.fill with
           | some j => if j.atHome ∧ j.batch = b then fillEnd .ownerGone none told else told
           | none => told
         exec (.abandonBatch h b) s = .next (answer h .accepted [] t) ∧
         (∃ u, t.findBatch b = some u ∧
           u.state = .abandoned ∧ u.terminalOrder = some s.bct.terminalNext ∧ u.openAsk = none ∧
           u.closeAsk = none ∧ u.holes = [] ∧ u.scanned = r.scanned ∧ u.accepted = r.accepted) ∧
         ((s.pgs.recs.map (·.id)).Nodup → ∀ q ∈ t.pgs.recs, q.batch = some b → q.fillFlag = false →
           q.state = .sending ∧ q.discardPending = true ∧
             ∃ x ∈ own, x.id = q.id ∧ x.state = .sending ∧ (x.discardPending = true ∨ lingers q.id)) ∧
         (∀ e ∈ t.tsq.track, e.boundTo b = false) ∧
         ∀ d ∈ t.bct.directory, ¬ (d.batch = b ∧ d.owner = s.oru.address)) ∧
       (r.state.terminal = false → (∀ p ∈ s.pgs.recs, p.batch ≠ some b) → (∀ e ∈ s.tsq.track, e.boundTo b = false) →
         s.bct.fill = none → s.tsq.fedBatch ≠ some b →
         exec (.abandonBatch h b) s = .next (answer h .accepted [] (removeDir b s.oru.address
           (Machine.tell 255 (.batchGone b) (Machine.tell r.gateway (.abandon b)
             { s.orderCounted with
                 bct := { s.bct with
                   terminalNext := s.bct.terminalNext + 1
                   batches := updFirst (·.number == b) (fun r => { r with
                     state := .abandoned, terminalOrder := some s.bct.terminalNext
                     openAsk := none, closeAsk := none, holes := [] }) s.bct.batches }
                 pgs := { s.pgs with queues := s.pgs.queues.filter (·.batch != b) } })))))) ∧
  (∀ (h : Hdr) (b : Nat) (s : State), s.oru.role = .gateway → s.findCommit b = none →
    (s.consoleOrder h → exec (.abandonBatch h b) s = .next (answer h .unknownBatch [] s.orderCounted)) ∧
    (s.listens → s.reached h → 1 ≤ b → b ≤ 16777215 → exec (.abandon h b) s = .next s)) ∧
  ∀ (h : Hdr) (b : Nat) (r : CommitRec) (s : State), s.oru.role = .gateway → s.findCommit b = some r →
    let left (s : State) : State := { s with ict := { s.ict with
      commits := s.ict.commits.filter (·.batch != b)
      slots := s.ict.slots.map fun sl =>
        if sl.ofBatch b then (if sl.state = .storing then { sl with disowned := true } else sl.freed s.now) else sl
      freeBlocks := s.ict.freeBlocks + (s.ict.slots.map fun sl =>
        if sl.ofBatch b ∧ sl.state ≠ .storing then (sl.hold.map (·.blocks.length)).getD 0 else 0).sum
      storeQueue := s.ict.storeQueue.filter fun n =>
        !(s.ict.slots[n]?).any fun sl => sl.ofBatch b && sl.state != .storing } }
    (s.consoleOrder h → exec (.abandonBatch h b) s = .next (answer h .accepted [] (left s.orderCounted))) ∧
    (s.listens → s.reached h → 1 ≤ b → b ≤ 16777215 → r.owner = h.src →
      exec (.abandon h b) s = .next (left s)) ∧
    (s.listens → s.reached h → 1 ≤ b → b ≤ 16777215 → r.owner ≠ h.src → exec (.abandon h b) s = .next s)

/-- WAIVE HOLES of positions that are open, filled or waived holes: the open ones become WAIVED, and the close
condition is tested. Of an accepted position with a FAILED page, or with no page left: it leaves the accepted set and
becomes a WAIVED hole with reason STORE, its records are freed or are SENDING with discard pending, the failed count
falls by the FAILED own pages freed, at 0 a HALTED batch moves to ENDED and on, and the close condition is tested.
WAIVE HOLES refused: the five checks in their order, and the sheets that the fifth counts.
The one offer test after the discards, before the close test, is the model's (log entry 11). That a local fill's sheet
holds its position from its report on is read from R14 and R161 (log entry 42); that a FILLED hole stays FILLED in
DISPUTED is the model's (log entry 44). -/
def Obligations.WaiveHolesJudged : Prop :=
  ((∀ (h : Hdr) (b : Nat) (ps : List Nat) (r : BatchRec) (s : State), s.consoleOrder h → s.oru.role = .scanner →
      1 ≤ ps.length → ps.length ≤ 32 → s.findBatch b = some r → r.waiveRefused = false →
      (r.holes.map (·.position)).Nodup →
      (∀ p ∈ ps, 1 ≤ p ∧ p ≤ r.scanned ∧ (∃ x ∈ r.holes, x.position = p ∧ x.state ≠ .claimed) ∧
        ∀ e ∈ s.tsq.track, e.position = some p → e.boundTo b = false ∧
          ¬ ((∃ k, e.binding = .fill k) ∧ ∃ j, s.bct.fill = some j ∧ j.atHome = true ∧ j.batch = b)) →
      r.holes.length + s.holesComing b ≤ 32 →
      exec (.waiveHoles h b ps) s = .next (answer h .accepted [] (closeTest b (s.orderCounted.updBatch b fun r =>
        { r with holes := r.holes.map fun x =>
            if x.position ∈ ps ∧ x.state = .vacant then { x with state := .waived } else x })))) ∧
   ∀ (h : Hdr) (b p : Nat) (r : BatchRec) (s : State), s.consoleOrder h → s.oru.role = .scanner →
     s.findBatch b = some r → r.waiveRefused = false → 1 ≤ p → p ≤ r.scanned → (∀ x ∈ r.holes, x.position ≠ p) →
     (∀ e ∈ s.tsq.track, e.position = some p → e.boundTo b = false ∧
       ¬ ((∃ k, e.binding = .fill k) ∧ ∃ j, s.bct.fill = some j ∧ j.atHome = true ∧ j.batch = b)) →
     ((∀ q ∈ s.pgs.recs, ¬ (q.batch = some b ∧ q.position = some p)) ∨
       ∃ q ∈ s.pgs.recs, q.batch = some b ∧ q.position = some p ∧ q.state = .failed) →
     r.holes.length + 1 + s.holesComing b ≤ 32 →
     let qs := s.pgs.recs.filter fun q => q.batch == some b && q.position == some p
     let failed := qs.countP fun q => q.state == .failed && !q.fillFlag
     let lingers (id : Nat) : Prop := (∃ c, s.bursting c = true ∧ (s.chan c).active.page = some id) ∨
       ∀ c, (s.chan c).staged.page ≠ some id ∧ (s.chan c).active.page ≠ some id
     let holes := insertHole { position := p, reason := .store, state := .waived, snap := r.attrs } r.holes
     let t := closeTest b (discardAll (qs.map (·.id))
       (s.orderCounted.updBatch b fun r => { r with accepted := r.accepted - 1, holes }))
     exec (.waiveHoles h b [p]) s = .next (answer h .accepted [] t) ∧
     ((s.pgs.recs.map (·.id)).Nodup →
       (∀ q ∈ t.pgs.recs, q.batch = some b → q.position = some p → q.state = .sending ∧ q.discardPending = true ∧
         ∃ x ∈ qs, x.id = q.id ∧ x.state = .sending ∧ (x.discardPending = true ∨ lingers q.id)) ∧
       ∃ u, t.findBatch b = some u ∧ u.accepted = r.accepted - 1 ∧ u.holes = holes ∧ u.scanned = r.scanned ∧
         u.failedPages = r.failedPages - failed ∧
         (r.state = .halted → failed = 0 ∨ failed < r.failedPages → u.state = .halted) ∧
         (r.state = .halted → 0 < failed → r.failedPages ≤ failed →
           ((∃ e ∈ s.tsq.track, e.boundTo b = true) → u.state = .ended) ∧
           ((∀ e ∈ s.tsq.track, e.boundTo b = false) → u.state = .reconciling ∨ u.state = .closing)) ∧
         (r.state = .reconciling → u.state = .reconciling ∨ u.state = .closing) ∧
         (r.state ≠ .halted → r.state ≠ .reconciling → u.state = r.state))) ∧
  (∀ (b : Nat) (s : State), s.holesComing b = s.tsq.track.countP fun e => e.route == some .reject &&
    (e.binding == .batch b && !e.abandoned && !e.overrun && (e.report.isNone || e.position.isSome))) ∧
  ∀ (h : Hdr) (b : Nat) (ps : List Nat) (s : State), s.consoleOrder h → s.oru.role = .scanner →
    1 ≤ ps.length → ps.length ≤ 32 →
    let refused (c : ResultCode) := exec (.waiveHoles h b ps) s = .next (answer h c [] s.orderCounted)
    (s.findBatch b = none → refused .unknownBatch) ∧
    ∀ r, s.findBatch b = some r →
      let badState := r.state ∈ [.opening, .closing, .committed, .refused, .abandoned]
      let pages (p : Nat) := s.pgs.recs.filter fun q => q.batch == some b && q.position == some p
      let badArgument := ∃ p ∈ ps, p = 0 ∨ r.scanned < p ∨
        (∃ e ∈ s.tsq.track, e.position = some p ∧ (e.boundTo b = true ∨
          ((∃ k, e.binding = .fill k) ∧ ∃ j, s.bct.fill = some j ∧ j.atHome = true ∧ j.batch = b))) ∨
        ((∀ x ∈ r.holes, x.position ≠ p) ∧ pages p ≠ [] ∧ ∀ q ∈ pages p, q.state ≠ .failed)
      let claimed := ∃ p ∈ ps, ∃ x, r.hole? p = some x ∧ x.state = .claimed
      (badState → refused .badState) ∧ (¬ badState → badArgument → refused .badArgument) ∧
      (¬ badState → ¬ badArgument → claimed → refused .holeClaimed) ∧
      (¬ badState → ¬ badArgument → ¬ claimed →
        32 < r.holes.length + ((dedup ps).filter fun p => (r.hole? p).isNone).length + s.holesComing b →
        refused .tableFull)

/-- FILL: the checks, the job of a remote owner's batch with its first claim, and the job of an own batch, whose first
claim is taken at once. FILL CANCEL ends the fill; with nothing held it is removed at once, with a final RELEASE and
FILL_ENDED. A fill that ends: the feed is withdrawn, what it gives up joins the release set, and with nothing to wait
for it is removed with a final RELEASE; else a RELEASE that is not final gives up what there is. In ENDING the test
after an event does the same with a final RELEASE alone.
The bound of 4 claims in one step is the model's (log entry 30). -/
def Obligations.FillMadeAndCancelled : Prop :=
  ((∀ (h : Hdr) (b : Nat) (s : State), s.consoleOrder h → s.oru.role = .scanner →
      let refused (c : ResultCode) := exec (.fill h b) s = .next (answer h c [] s.orderCounted)
      let job (d : DirEntry) : FillJob :=
        { batch := b, owner := d.owner, gateway := d.gateway, atHome := false, phase := .feeding, granted := []
          claims := 0, timeouts := 0, releaseSet := [], filledCount := 0 }
      (b = 0 → refused .badArgument) ∧ (b ≠ 0 → s.tsq.transport ≠ .idle → refused .notIdle) ∧
      (b ≠ 0 → s.tsq.transport = .idle → s.bct.fill ≠ none → refused .busy) ∧
      (b ≠ 0 → s.tsq.transport = .idle → s.bct.fill = none → s.findDir b = none → refused .unknownBatch) ∧
      ∀ d, b ≠ 0 → s.tsq.transport = .idle → s.bct.fill = none → s.findDir b = some d →
        (d.owner ≠ s.oru.address →
          exec (.fill h b) s = .next (answer h .accepted [] (ask d.owner (.holeClaim b 8 [])
            { s.orderCounted with bct := { s.bct with
                fill := some { job d with
                  claims := 1, claimTag := some s.fli.askTag, claimDue := s.now + s.oru.settings.answerMs } } }))) ∧
        (d.owner = s.oru.address →
          exec (.fill h b) s = .next (answer h .accepted [] (fillTest 4 true
            { s.orderCounted with bct := { s.bct with fill := some { job d with atHome := true } } })))) ∧
   ∀ (h : Hdr) (s : State), s.consoleOrder h → s.oru.role = .scanner →
     (s.bct.fill = none → exec (.fillCancel h) s = .next (answer h .badState [] s.orderCounted)) ∧
     ∀ j, s.bct.fill = some j →
       exec (.fillCancel h) s = .next (answer h .accepted [] (fillEnd .cancel none s.orderCounted)) ∧
       (j.phase = .feeding → j.atHome = false → (∀ g ∈ j.granted, g.state = .stored) → s.tsq.feedMode ≠ some .fill →
         fillEnd .cancel none s = raise .fillEnded (
           { Machine.tell j.owner (.release j.batch true j.releaseSet) s with bct := { s.bct with fill := none } }))) ∧
  ∀ (cause : EndCause) (refusal : Option HoleRefusal) (j : FillJob) (s : State), s.bct.fill = some j →
    let reserved (p : Nat) : Bool := s.tsq.track.any fun e => e.binding == .fill (some p)
    let gives (g : Grant) : Bool := g.state == .refused || (g.state == .unused && !reserved g.position)
    let waits (g : Grant) : Prop := g.state = .scanned ∨ (g.state = .unused ∧ reserved g.position = true)
    let ending : FillJob := { j with
      granted := j.granted.filter fun g => !gives g
      releaseSet := j.releaseSet ++ (j.granted.filter gives).map (·.position) }
    let job (j : FillJob) (s : State) : State := { s with bct := { s.bct with fill := some j } }
    let sends (j : FillJob) (final : Bool) (s : State) : State :=
      if j.atHome then ownerRelease s.oru.address j.batch final j.releaseSet s
      else Machine.tell j.owner (.release j.batch final j.releaseSet) s
    let removed (j : FillJob) (s : State) : State :=
      let u := sends j true s
      raise .fillEnded { u with bct := { u.bct with fill := none } }
    (j.phase = .ending →
      fillEnd cause refusal s = s ∧
      ((∃ g ∈ j.granted, waits g) → endingTest s = job ending s) ∧
      ((∀ g ∈ j.granted, ¬ waits g) → endingTest s = removed ending (job ending s))) ∧
    (j.phase = .feeding →
      let ended : FillJob := { ending with phase := .ending, endCause := some cause, refusal, claimTag := none }
      let idle : Tsq := { s.tsq with transport := .idle, feedMode := none, fedBatch := none }
      let moves := s.tsq.transport = .feeding ∨ s.tsq.transport = .paused
      let feed : Tsq :=
        if s.tsq.feedMode = some .fill ∧ (s.tsq.transport = .armed ∨ (moves ∧ s.tsq.track = [])) then idle
        else if s.tsq.feedMode = some .fill ∧ moves then { s.tsq with transport := .draining }
        else s.tsq
      let t : State := { job ended s with tsq := feed }
      endingTest s = s ∧
      ((∀ g ∈ j.granted, ¬ waits g) → fillEnd cause refusal s = removed ended t) ∧
      ((∃ g ∈ j.granted, waits g) → fillEnd cause refusal s = if ended.releaseSet = [] then t else
        let u := sends ended false t
        { u with bct := { u.bct with fill := u.bct.fill.map fun j => { j with releaseSet := [] } } }))

/-- LOAD EXEMPTION: the checks in their order, and the entry written with match count 0. LEARN EXEMPTION: the checks
in their order, and the pending learn in WAITING, in place of any other. -/
def Obligations.ExemptionOrders : Prop :=
  (∀ (h : Hdr) (k e v m : Nat) (mask pattern : ZoneSet) (s : State), s.consoleOrder h → s.oru.role = .scanner →
     v ≤ 1 →
     let bad := 1 < k ∨ 5 < e ∨ 1 < m
     let learns := ∃ l, s.dfm.learn = some l ∧ l.bank = k ∧ l.entry = e
     let run := exec (.loadExemption h k e v m mask pattern) s
     (bad → run = .next (answer h .badArgument [] s.orderCounted)) ∧
     (¬ bad → s.tsq.transport ≠ .idle → run = .next (answer h .notIdle [] s.orderCounted)) ∧
     (¬ bad → s.tsq.transport = .idle → learns → run = .next (answer h .busy [] s.orderCounted)) ∧
     (¬ bad → s.tsq.transport = .idle → ¬ learns → run = .next (answer h .accepted []
       { s.orderCounted with dfm := { s.dfm with
           exemptions := s.dfm.exemptions.set (6 * k + e)
             { valid := v == 1, mask, pattern, mode := if m = 0 then .strict else .loose, matched := 0 } } }))) ∧
  ∀ (h : Hdr) (k e m : Nat) (mask : ZoneSet) (s : State), s.consoleOrder h → s.oru.role = .scanner →
    let bad := 1 < k ∨ 5 < e ∨ 1 < m ∨ mask = 0
    let run := exec (.learnExemption h k e m mask) s
    (bad → run = .next (answer h .badArgument [] s.orderCounted)) ∧
    (¬ bad → s.tsq.transport ≠ .idle → run = .next (answer h .notIdle [] s.orderCounted)) ∧
    (¬ bad → s.tsq.transport = .idle → run = .next (answer h .accepted []
      { s.orderCounted with dfm := { s.dfm with
          learn := some ⟨k, e, mask, if m = 0 then .strict else .loose, .waiting⟩ } }))

/-- A QUERY of each of the ten subjects changes nothing but what its answer is: the code and the body of R185; QUERY
PEERS clears the changed marks of the entries it carries. Which subject is refused when, the items and the limit of
every other, COMMIT's item and its next index; and the run of items that an accepted answer carries, the leading ones
that R186's limit and the 128 bytes of R94 allow.
The coding of an item's fields is the model's where section 11.4 leaves it open, and so is the order of a COMMIT item's
fields, the state before the owner (log entry 16); that R94 cuts a run short of R186's number is read from R94 and R185
(log entry 17); what a FREE slot shows is the model's (log entry 43); that COMMIT's next index is NONE where the eighth
listed position is 4095 is read from R186 (log entry 45). -/
def Obligations.QueriesAnswered : Prop :=
  (∀ (h : Hdr) (b i : Nat) (s : State), s.consoleOrder h → i ≤ 4095 →
     let answers (c : Instr) (q : Subject) (b : Nat) :=
       exec c s = .next (answer h (answerQuery q b i s.orderCounted).1 (answerQuery q b i s.orderCounted).2
         s.orderCounted)
     answers (.queryStation h i) .station 0 ∧ answers (.queryBatch h b i) .batch b ∧
     answers (.queryHoles h b i) .holes b ∧ answers (.queryFill h i) .fill 0 ∧
     answers (.queryChannels h i) .channels 0 ∧ answers (.querySlots h i) .slots 0 ∧
     answers (.queryCommit h b i) .commit b ∧ answers (.queryCounters h i) .counters 0 ∧
     answers (.queryAttention h i) .attention 0 ∧
     (16 < i → s.fli.peers.length = 16 →
       exec (.queryPeers h i) s = .next (answer h .badArgument [] s.orderCounted)) ∧
     (i ≤ 16 → s.fli.peers.length = 16 →
       let run := queryRun i 16 (s.fli.peers.map (peerItem s.now))
       exec (.queryPeers h i) s = .next (answer h .accepted
         (queryBody .peers 0 i (if i + run.length = 16 then 65535 else i + run.length) run)
         { s.orderCounted with fli := { s.fli with
             peers := s.fli.peers.take i ++
               ((s.fli.peers.drop i).take run.length).map (fun p => { p with changed := false }) ++
               s.fli.peers.drop (i + run.length) } }))) ∧
  (∀ (b i : Nat) (s : State),
    (s.oru.role = .gateway → (∀ q ∈ [Subject.batch, .holes, .fill, .channels],
        answerQuery q b i s = (.wrongRole, [])) ∧
      answerQuery .station b i s = answerRun .station 0 i 3 [stationItem s] ∧
      answerQuery .slots b i s = answerRun .slots 0 i 4
        ((be 2 s.ict.freeBlocks ++ flagField s.ict.portBusy ++ listField (be 1) s.ict.storeQueue) ::
          s.ict.slots.map (slotItem s.now)) ∧
      answerQuery .counters b i s =
        answerRun .counters 0 i 2 [fliCounters s.fli, ictCounters s.ict, oruCounters s.oru] ∧
      (s.findCommit b = none → answerQuery .commit b i s = (.unknownBatch, [])) ∧
      ∀ r, s.findCommit b = some r →
        let from_ := if i = 0 then 1 else i
        let eight (p : Nat → Bool) : List Nat := ((List.range' from_ (4096 - from_)).filter p).take 8
        let missing := eight fun p => decide (p ∉ (r.positions.filter (·.isPresent)).map (·.position))
        let marked := eight fun p => decide (p ∈ (r.positions.filter (·.mark)).map (·.position))
        let after (l : List Nat) : Nat := if l.length = 8 then l.getLastD 0 + 1 else 4096
        let next := min (after missing) (after marked)
        answerQuery .commit b i s = (.accepted, queryBody .commit b i (if next = 4096 then 65535 else next)
          [be 1 r.state.place ++ be 1 r.owner ++ be 2 r.present ++ optField (be 4) r.order ++
            optField (be 2) ((r.positions.filter (·.isPresent)).map (·.position)).getLast? ++
            listField (be 2) missing ++ listField (be 2) marked])) ∧
    (s.oru.role = .scanner → (∀ q ∈ [Subject.slots, .commit], answerQuery q b i s = (.wrongRole, [])) ∧
      answerQuery .station b i s = answerRun .station 0 i 3
        ([stationItem s, placeItem s 0, placeItem s 1, placeItem s 2] ++ s.dfm.exemptions.map exemptionItem ++
          [optField (learnItem s.oru.settings.toleranceDefault) s.dfm.learn]) ∧
      (s.findBatch b = none → answerQuery .batch b i s = (.unknownBatch, []) ∧
        answerQuery .holes b i s = (.unknownBatch, [])) ∧
      (∀ r, s.findBatch b = some r →
        answerQuery .batch b i s = answerRun .batch b i 1 [batchItem r, closeItem s r] ∧
        answerQuery .holes b i s = answerRun .holes b i 8 (r.holes.map holeItem)) ∧
      (s.bct.fill = none → answerQuery .fill b i s = answerRun .fill 0 i 9 [be 1 0]) ∧
      (∀ j, s.bct.fill = some j →
        answerQuery .fill b i s = answerRun .fill 0 i 9 ((be 1 1 ++ jobItem j) :: j.granted.map grantItem)) ∧
      (let items := [channelItem s.txe.chanA, channelItem s.txe.chanB] ++
         s.txe.outstanding.map (outstandingItem s.now)
       (i < 2 → answerQuery .channels b i s = answerRun .channels 0 i (2 - i) items) ∧
       (2 ≤ i → answerQuery .channels b i s = answerRun .channels 0 i 8 items)) ∧
      answerQuery .counters b i s = answerRun .counters 0 i 2
        [fliCounters s.fli, pgsCounters s.pgs, txeCounters s.txe, be 2 s.dfm.strayReadings, oruCounters s.oru]) ∧
    answerQuery .attention b i s = answerRun .attention 0 i 1 [be 4 s.oru.attention.toNat]) ∧
  ∀ (q : Subject) (b i limit : Nat) (items : List (List Byte)),
    let run := queryRun i limit items
    let bytes (l : List (List Byte)) : Nat := (l.map fun x => x.length + 1).sum
    (items.length < i → answerRun q b i limit items = (.badArgument, [])) ∧
    (i ≤ items.length → answerRun q b i limit items =
      (.accepted, queryBody q b i (if i + run.length = items.length then 65535 else i + run.length) run)) ∧
    (∃ left, (items.drop i).take limit = run ++ left ∧ bytes run ≤ 118 ∧
      ∀ x xs, left = x :: xs → 118 < bytes run + (x.length + 1)) ∧
    ∀ next, queryBody q b i next run = be 1 q.code ++ be 3 b ++ be 2 i ++ be 1 run.length ++ be 2 next ++
      (run.map fun x => be 1 x.length ++ x).flatten

/-- ACK ATTENTION removes the named classes and answers with the set that remains, in both roles. -/
def Obligations.AckAttentionRemovesTheNamed : Prop :=
  ∀ (h : Hdr) (cs : ClassSet) (s : State), s.consoleOrder h →
    let rest := s.oru.attention &&& ~~~ cs
    exec (.ackAttention h cs) s = .next (answer h .accepted (be 4 rest.toNat)
      { s with oru := { s.oru with
          ordersTaken := min 65535 (s.oru.ordersTaken + 1), attention := rest } })

/-- RESTART with no frame in transmission, at a scanner, and at a gateway, where every slot becomes FREE but one being
written, which is disowned. With a frame in transmission the queues and the answer wait (log entry 25), which is not
stated here.
The order of the record pool, the terminal and committed orders starting at 0, the offsets of the descriptors at 0 and
the idle age of the slots at 0 are the model's (log entries 6, 20, 21, 43). -/
def Obligations.RestartClearsTheBlocks : Prop :=
  (∀ (h : Hdr) (s : State), s.consoleOrder h → s.oru.role = .scanner → s.fli.inFlight = none →
     exec (.restart h) s = .next (answer h .accepted []
       { s.orderCounted with
       fli := { s.fli with
         txQueue := [], rxQueue := []
         presenceDue := if s.fli.line = .joined then some (s.now + s.oru.settings.presenceMs)
           else s.fli.presenceDue }
       tsq := { transport := .idle, feedMode := none, fedBatch := none, holdReason := none, tray := s.tsq.tray
                storeLevel := .normal, diverter := .main, diverterConfirmed := false, tagCounter := 0, track := []
                handshake := none }
       dfm := { s.dfm with learn := none }
       bct := { batches := [], terminalNext := 0, directory := [], fill := none }
       pgs := { recs := [], recPool := List.range 512, freeRecs := 512, freeBlocks := 16384, mem := s.pgs.mem
                progress := List.replicate 8 {}, level := .normal, queues := [], fillQueue := []
                strayCapture := s.pgs.strayCapture, lossNoRecord := s.pgs.lossNoRecord
                lossOversize := s.pgs.lossOversize, lossNoBlock := s.pgs.lossNoBlock }
       txe := { s.txe with chanA := {}, chanB := {}, outstanding := [] }
       portLog := s.portLog ++ [.diverter .main] })) ∧
  ∀ (h : Hdr) (s : State), s.consoleOrder h → s.oru.role = .gateway → s.fli.inFlight = none →
    let slots := s.ict.slots.map fun sl => if sl.state = .storing then { sl with disowned := true } else {}
    exec (.restart h) s = .next (answer h .accepted []
      { s.orderCounted with
      fli := { s.fli with
        txQueue := [], rxQueue := []
        presenceDue := if s.fli.line = .joined then some (s.now + s.oru.settings.presenceMs)
          else s.fli.presenceDue }
      ict := { s.ict with
        slots, storeQueue := [], commits := [], commitNext := 0
        freeBlocks := 16384 - (slots.flatMap fun sl => ((sl.hold.map (·.blocks)).getD [])).length } })

/-! ## Keys, tray, edges, windows, the diverter -/

/-- START, STOP, tray-ready and tray-empty; in FILL mode STOP is told to the Batch Controller first (log entry 12).
CLEAR is ignored outside HELD, refused with HOLE_LIMIT when the fed batch's hole list could not take the positions,
and otherwise empties the track: every position of the fed batch becomes a hole. What CLEAR does with an entry of each
binding, a position given or not (a sheet of an abandoned batch has none), and what it leaves in each feed mode: the
ENDED test in BATCH, the feed-stop notice in FILL, nothing more in LEARN.
The one offer test after CLEAR's discards, before the ENDED test, is the model's (log entry 11). That a pulled fill
sheet reserves nothing from its pull on is read from R38 and R161 (log entry 31). -/
def Obligations.KeysAndTrayMoveTheTransport : Prop :=
  ((∀ s : State, s.scans →
      let feed (m : FeedMode) (b : Option Nat) : State :=
        { s with
            tsq := { s.tsq with transport := .armed, feedMode := some m, fedBatch := b }
            portLog := s.portLog ++ [.trayLift] }
      let moves (t : Transport) : State := { s with tsq := { s.tsq with transport := t } }
      let stopped : State := { s with tsq := { s.tsq with transport := .idle, feedMode := none, fedBatch := none } }
      let fillable := ∃ j, s.bct.fill = some j ∧ ∃ g ∈ j.granted, g.state = .unused
      (s.tsq.transport ≠ .idle → exec .startKey s = .next s) ∧
      (s.tsq.transport = .idle →
        (s.dfm.learn ≠ none → exec .startKey s = .next (feed .learn none)) ∧
        (s.dfm.learn = none → fillable → exec .startKey s = .next (feed .fill none)) ∧
        (s.dfm.learn = none → ¬ fillable → (∀ r ∈ s.bct.batches, r.state ≠ .active) → exec .startKey s = .next s) ∧
        (s.dfm.learn = none → ¬ fillable → ∀ r ∈ s.bct.batches, r.state = .active →
          (∀ x ∈ s.bct.batches, x.state = .active → x = r) →
          exec .startKey s = .next (feed .batch (some r.number)))) ∧
      (s.tsq.transport = .idle ∨ s.tsq.transport = .draining ∨ s.tsq.transport = .held →
        exec .stopKey s = .next s) ∧
      (s.tsq.feedMode ≠ some .fill →
        (s.tsq.transport = .armed → exec .stopKey s = .next stopped) ∧
        (s.tsq.transport = .feeding ∨ s.tsq.transport = .paused →
          exec .stopKey s = .next (if s.tsq.track = [] then stopped else moves .draining))) ∧
      (s.tsq.feedMode = some .fill → s.tsq.transport = .armed ∨ s.tsq.transport = .feeding ∨ s.tsq.transport = .paused →
        exec .stopKey s = .next (drainTest (feedStops (fillEnd .stopKey none s)))) ∧
      (s.tsq.transport ≠ .armed → exec .trayReady s = .next { s with tsq := { s.tsq with tray := .loaded } }) ∧
      (s.tsq.transport = .armed →
        (s.tsq.storeLevel = .normal → exec .trayReady s =
          .next (pickTest { s with tsq := { s.tsq with tray := .loaded, transport := .feeding } })) ∧
        (s.tsq.storeLevel = .pause → exec .trayReady s =
          .next { s with tsq := { s.tsq with tray := .loaded, transport := .paused } })) ∧
      exec .trayEmpty s = .next { s with tsq := { s.tsq with tray := .empty } }) ∧
   ∀ s : State, s.scans →
     (s.tsq.transport ≠ .held → exec .clearKey s = .next s) ∧
     ∀ (b : Nat) (r : BatchRec), s.tsq.transport = .held → s.tsq.feedMode = some .batch → s.tsq.fedBatch = some b →
       s.findBatch b = some r →
       let placed := s.tsq.track.countP fun e => e.boundTo b && e.position.isSome
       (32 < r.holes.length + placed → exec .clearKey s = .next (raise .holeLimit s)) ∧
       (r.holes.length + placed ≤ 32 → (∀ e ∈ s.tsq.track, e.binding = .batch b ∧ e.abandoned = false) →
         ∃ t u, exec .clearKey s = .next t ∧ t.findBatch b = some u ∧
           t.tsq.track = [] ∧ t.tsq.transport = .idle ∧ t.tsq.feedMode = none ∧ t.tsq.fedBatch = none ∧
           t.tsq.holdReason = none ∧ t.tsq.handshake = none ∧ t.tsq.diverter = .main ∧
           t.tsq.diverterConfirmed = false ∧ t.tsq.tray = s.tsq.tray ∧ t.tsq.tagCounter = s.tsq.tagCounter ∧
           t.portLog = s.portLog ++ [.diverter .main] ∧ u.scanned = r.scanned ∧ u.accepted = r.accepted ∧
           u.holes.length = r.holes.length + placed ∧ (∀ x ∈ r.holes, x ∈ u.holes) ∧
           ∀ e ∈ s.tsq.track, ∀ p, e.position = some p →
             { position := p, reason := if e.storeLost then .store else .pulled, state := .vacant, snap := e.snap }
               ∈ u.holes)) ∧
  (∀ (e : TrackEntry) (s : State),
    (∀ b p, e.binding = .batch b → e.position = some p →
      pullEntry e s = addHole b p (if e.storeLost then .store else .pulled) e.snap s) ∧
    (∀ b, e.binding = .batch b → e.position = none → pullEntry e s = s) ∧
    (let released := s.updEntry e.tag fun e => { e with binding := match e.binding with
        | .fill _ => .fill none
        | x => x }
      ∀ k, e.binding = .fill k →
        (∀ p, e.position = some p → pullEntry e s = fillRefused p released) ∧
        (e.position = none → pullEntry e s = fillChanged released)) ∧
    (e.binding = .learn →
      (∀ l, s.dfm.learn = some l → l.phase = .picked →
        pullEntry e s = raise .learnFailed { s with dfm := { s.dfm with learn := none } }) ∧
      ((∀ l, s.dfm.learn = some l → l.phase = .waiting) → pullEntry e s = s))) ∧
  ∀ s : State, s.scans → s.tsq.transport = .held →
    let pulled := s.tsq.track.foldl (fun t e => pullEntry e t) s
    let t := discardAll (pulled.tsq.track.flatMap (·.pages)) pulled
    let idle : State := { t with
      tsq := { t.tsq with
        track := [], holdReason := none, handshake := none, diverter := .main, diverterConfirmed := false
        transport := .idle, feedMode := none, fedBatch := none }
      portLog := t.portLog ++ [.diverter .main] }
    (∀ b r, s.tsq.feedMode = some .batch → s.tsq.fedBatch = some b → s.findBatch b = some r →
      r.holes.length + (s.tsq.track.countP fun e => e.boundTo b && e.position.isSome) ≤ 32 →
      exec .clearKey s = .next (endedTest b idle)) ∧
    (s.tsq.feedMode = some .fill → t.tsq.tray = .empty →
      exec .clearKey s = .next (fillEnd .trayEmpty none idle)) ∧
    (s.tsq.feedMode = some .fill → t.tsq.tray = .loaded →
      exec .clearKey s = .next (fillTest 4 false idle)) ∧
    (s.tsq.feedMode = some .learn → exec .clearKey s = .next idle)

/-- An edge is ignored in IDLE and HELD; a tag not in the track, an edge not awaited or an overlap holds; any other
is recorded. A leading edge has the tests at GATE and at EXIT; a trailing edge is the verdict point at ENTRY, lets the
next sheet's handshake begin at GATE, and settles the sheet at EXIT when its report has been taken.
That a trailing edge waits for the one before it is read from R40 (log entry 13). -/
def Obligations.EdgesJudged : Prop :=
  (∀ (tag : Nat) (sn : Sensor) (pocket : Pocket) (s : State), s.scans →
     let run := exec (.leadingEdge tag sn pocket) s
     let still := s.tsq.transport = .idle ∨ s.tsq.transport = .held
     (still → run = .next s) ∧
     (¬ still → (∀ x ∈ s.tsq.track, x.tag ≠ tag) → run = .next (hold .captureMismatch s)) ∧
     ∀ (older younger : List TrackEntry) (e : TrackEntry), ¬ still → s.tsq.track = older ++ e :: younger →
       e.tag = tag → (∀ x ∈ older, x.tag ≠ tag) →
       let awaited := (e.edges.times sn).lead = none ∧ ∀ p, sensorBefore sn = some p → (e.edges.times p).lead ≠ none
       let overlap := ∃ x ∈ older, (x.edges.times sn).trail = none
       let seen := { e with edges := e.edges.upd sn fun t => { t with lead := some s.now } }
       let t := { s with tsq := { s.tsq with track := older ++ seen :: younger } }
       (¬ awaited ∨ overlap → run = .next (hold .jam s)) ∧
       (awaited → ¬ overlap →
         (sn = .entry ∨ sn = .capture → run = .next t) ∧
         (sn = .gate → run = .next (if e.routeSettled then t
           else if e.route = none then hold .lateDecision t else hold .diverterLate t)) ∧
         (sn = .exit → run = .next (if e.route = some pocket then t else hold .diverter t)))) ∧
  ∀ (tag : Nat) (sn : Sensor) (pocket : Pocket) (measure : Option Nat) (s : State), s.scans →
    let run := exec (.trailingEdge tag sn pocket measure) s
    let still := s.tsq.transport = .idle ∨ s.tsq.transport = .held
    (still → run = .next s) ∧
    (¬ still → (∀ x ∈ s.tsq.track, x.tag ≠ tag) → run = .next (hold .captureMismatch s)) ∧
    ∀ (older younger : List TrackEntry) (e : TrackEntry), ¬ still → s.tsq.track = older ++ e :: younger →
      e.tag = tag → (∀ x ∈ older, x.tag ≠ tag) →
      let awaited := (e.edges.times sn).lead ≠ none ∧ (e.edges.times sn).trail = none ∧
        ∀ p, sensorBefore sn = some p → (e.edges.times p).trail ≠ none
      let seen := { e with edges := e.edges.upd sn fun t => { t with trail := some s.now } }
      let t := { s with tsq := { s.tsq with track := older ++ seen :: younger } }
      (¬ awaited → run = .next (hold .jam s)) ∧
      (awaited →
        (sn = .entry → run = .next (pickTest (verdictPoint tag measure t))) ∧
        (sn = .capture → run = .next t) ∧
        (sn = .gate → run = .next (handshakeTest t)) ∧
        (sn = .exit → run = .next (if e.report = none then hold .captureMismatch t else settle e t)))

/-- The verdict point of a sheet bound to a batch: the length, the verdict and the index enter the entry, the match
and the verdict are counted, and the policy acts on a suspect verdict; the mark is set in every record that the entry
lists and in no other. That of a fill sheet and of a sheet of an abandoned batch: the same, with the verdict counted
in no batch. That of a learn sheet: a pending learn that is PICKED is completed with the sheet's profile as pattern,
LEARN_DONE is raised, and no policy acts.
Both causes are raised where two stand (log entry 32). -/
def Obligations.VerdictPointActsByPolicy : Prop :=
  (∀ (tag b : Nat) (measure : Option Nat) (older younger : List TrackEntry) (e : TrackEntry) (s : State),
     s.tsq.track = older ++ e :: younger → e.tag = tag → (∀ x ∈ older, x.tag ≠ tag) →
     e.binding = .batch b → e.abandoned = false →
     let measured := { e with length := measure }
     let v := (judge s measured).1
     let k := (judge s measured).2
     let t : State := { s with
       tsq := { s.tsq with track := older ++ { measured with verdict := some v, exemption := k } :: younger }
       dfm := { s.dfm with exemptions := match k with
         | none => s.dfm.exemptions
         | some k => s.dfm.exemptions.modify (6 * e.snap.bank + k) fun x =>
             { x with matched := min 65535 (x.matched + 1) } }
       bct := { s.bct with
         batches := updFirst (·.number == b) (fun r => { r with verdicts := r.verdicts.count v }) s.bct.batches } }
     let run := verdictPoint tag measure s
     (v.suspect = false → run = routeTest tag t) ∧
     (v.suspect = true → e.patched = false →
       (e.snap.policy = .divert ∨ e.overrun = true → run = routeTest tag t) ∧
       (e.snap.policy = .mark → e.overrun = false → run = routeTest tag (markPages e.pages t)) ∧
       (e.snap.policy = .stop → e.overrun = false → run = hold .doubleFeedStop t)) ∧
     (v.suspect = true → e.patched = true →
       (e.snap.policy = .divert ∨ e.overrun = true → run = hold .patchSuspect t) ∧
       (e.snap.policy = .mark → e.overrun = false → run = hold .patchSuspect (markPages e.pages t)) ∧
       (e.snap.policy = .stop → e.overrun = false → run = hold .patchSuspect (hold .doubleFeedStop t)))) ∧
  (∀ (tag : Nat) (measure : Option Nat) (older younger : List TrackEntry) (e : TrackEntry) (s : State),
     s.tsq.track = older ++ e :: younger → e.tag = tag → (∀ x ∈ older, x.tag ≠ tag) →
     (∃ k, e.binding = .fill k) ∨ (∃ b, e.binding = .batch b ∧ e.abandoned = true) →
     let measured := { e with length := measure }
     let v := (judge s measured).1
     let k := (judge s measured).2
     let t : State := { s with
       tsq := { s.tsq with track := older ++ { measured with verdict := some v, exemption := k } :: younger }
       dfm := { s.dfm with exemptions := match k with
         | none => s.dfm.exemptions
         | some k => s.dfm.exemptions.modify (6 * e.snap.bank + k) fun x =>
             { x with matched := min 65535 (x.matched + 1) } } }
     let run := verdictPoint tag measure s
     let marked := if e.snap.policy = .mark ∧ e.overrun = false then markPages e.pages t else t
     let stops := e.snap.policy = .stop ∧ e.overrun = false
     (v.suspect = false → run = routeTest tag t) ∧
     (v.suspect = true → e.patched = false →
       (¬ stops → run = routeTest tag marked) ∧ (stops → run = hold .doubleFeedStop t)) ∧
     (v.suspect = true → e.patched = true →
       (¬ stops → run = hold .patchSuspect marked) ∧ (stops → run = hold .patchSuspect (hold .doubleFeedStop t)))) ∧
  (∀ (tag : Nat) (measure : Option Nat) (older younger : List TrackEntry) (e : TrackEntry) (s : State),
    s.tsq.track = older ++ e :: younger → e.tag = tag → (∀ x ∈ older, x.tag ≠ tag) → e.binding = .learn →
    let measured := { e with length := measure }
    let k := (judge s measured).2
    verdictPoint tag measure s = completeLearn e.profile { s with
      tsq := { s.tsq with
        track := older ++ { measured with verdict := some (judge s measured).1, exemption := k } :: younger }
      dfm := { s.dfm with exemptions := match k with
        | none => s.dfm.exemptions
        | some k => s.dfm.exemptions.modify (6 * e.snap.bank + k) fun x =>
            { x with matched := min 65535 (x.matched + 1) } } }) ∧
  (∀ (ids : List Nat) (s : State), (s.pgs.recs.map (·.id)).Nodup → markPages ids s = { s with pgs := { s.pgs with
    recs := s.pgs.recs.map fun r => if r.id ∈ ids then { r with mark := true } else r } }) ∧
  ∀ (profile : List Bool) (s : State),
    (∀ l, s.dfm.learn = some l → l.phase = .picked → completeLearn profile s = raise .learnDone { s with
      dfm := { s.dfm with
        learn := none
        exemptions := s.dfm.exemptions.set (6 * l.bank + l.entry)
          { valid := true, mask := l.mask, pattern := zoneSet profile, mode := l.mode, matched := 0 } } }) ∧
    ((∀ l, s.dfm.learn = some l → l.phase = .waiting) → completeLearn profile s = s)

/-- Length suspicion. -/
def Obligations.LengthSuspicionByNominal : Prop :=
  ∀ (snap : AttrSet) (length : Option Nat),
    lengthSuspicion snap length = true ↔
      ∃ n, snap.nominal = some n ∧ (length = none ∨ ∃ l, length = some l ∧ n + snap.tolerance < l)

/-- Layer suspicion, the match of an exemption entry, the search of the bank and the verdict table. -/
def Obligations.VerdictByBothTests : Prop :=
  (∀ (threshold : Nat) (profile : List Bool), 1 ≤ threshold →
    (hasRun threshold 0 profile = true ↔
      ∃ before after, profile = before ++ List.replicate threshold true ++ after)) ∧
  (∀ (profile : List Bool) (k : Nat), k < 64 → (zoneSet profile).getLsbD (63 - k) = profile.getD k false) ∧
  (∀ (x : Exemption) (profile : List Bool), x.fits profile = true ↔ x.valid = true ∧ x.mask ≠ 0 ∧
    ((List.range 64).countP fun k =>
      x.mask.getLsbD k && ((zoneSet profile).getLsbD k != x.pattern.getLsbD k)) ≤
        (match x.mode with | .strict => 0 | .loose => 2)) ∧
  (∀ (d : Dfm) (bank k : Nat) (profile : List Bool), searchBank d bank profile = some k ↔ k < 6 ∧
    (d.exemptions.getD (6 * bank + k) {}).fits profile = true ∧
    ∀ j < k, (d.exemptions.getD (6 * bank + j) {}).fits profile = false) ∧
  ∀ (s : State) (e : TrackEntry),
    let long := lengthSuspicion e.snap e.length
    let layered := hasRun s.oru.settings.runThreshold 0 e.profile
    let found := searchBank s.dfm e.snap.bank e.profile
    (long = false → layered = false → judge s e = (.clean, none)) ∧
    (long = true → layered = false → judge s e = (.length, none)) ∧
    (long = false → layered = true → found ≠ none → judge s e = (.exempt, found)) ∧
    (long = true → layered = true → found ≠ none → judge s e = (.length, found)) ∧
    (long = false → layered = true → found = none → judge s e = (.layer, none)) ∧
    (long = true → layered = true → found = none → judge s e = (.both, none))

/-- A route is decided for an entry with every earlier report taken: by the overrun mark, the policy and the
verdict; a REJECT that its batch's hole list could not take holds the transport. The hole list can take it when its
holes and the other REJECT sheets of the batch that may yet take a position stay below 32; a patched, an overrun and an
abandoned sheet are not counted and not tested. -/
def Obligations.RouteFollowsPolicyAndVerdict : Prop :=
  (∀ (tag : Nat) (older younger : List TrackEntry) (e : TrackEntry) (s : State),
     s.tsq.track = older ++ e :: younger → e.tag = tag → (∀ x ∈ older, x.tag ≠ tag) →
     let decided (p : Pocket) : State :=
       handshakeTest { s with tsq := { s.tsq with track := older ++ { e with route := some p } :: younger } }
     let reject := e.overrun = true ∨ (e.snap.policy = .divert ∧ ∃ v, e.verdict = some v ∧ v.suspect = true)
     let main := e.overrun = false ∧ (e.snap.policy = .mark ∨ ∃ v, e.verdict = some v ∧ v.suspect = false)
     (s.tsq.transport = .held ∨ e.route ≠ none ∨ (∃ x ∈ older, x.report = none) → routeTest tag s = s) ∧
     (s.tsq.transport ≠ .held → e.route = none → (∀ x ∈ older, x.report ≠ none) →
       (main → routeTest tag s = decided .main) ∧
       (reject → s.holeFits e = true → routeTest tag s = decided .reject) ∧
       (reject → s.holeFits e = false → routeTest tag s = hold .holeLimit s) ∧
       (¬ main → ¬ reject → routeTest tag s = s))) ∧
  ∀ (e : TrackEntry) (s : State),
    let may (b : Nat) (x : TrackEntry) : Bool :=
      x.binding == .batch b && !x.abandoned && !x.overrun && (x.report.isNone || x.position.isSome)
    ((∀ b, e.binding ≠ .batch b) → s.holeFits e = true) ∧
    ∀ b, e.binding = .batch b →
      (may b e = false → s.holeFits e = true) ∧
      ∀ r, s.findBatch b = some r → may b e = true →
        (s.holeFits e = true ↔ r.holes.length +
          (s.tsq.track.countP fun x => x.tag != e.tag && x.route == some .reject && may b x) < 32)

/-- A sheet settles: BCT is told first, then the Page Store, then the ENDED test, the DRAINING test and the pick test;
of a sheet of an abandoned batch BCT is told nothing and its pages are discarded. The eligible notice: the complete
records of the required sides enter READY with the pages of the sheet, the others are discarded, and a fill position
without a required side is told to BCT. What a settled fill sheet changes in the granted list.
The order of the notices is the model's where R53 leaves it (log entries 11, 28). -/
def Obligations.SheetSettles : Prop :=
  (∀ (e : TrackEntry) (s : State),
     let t : State := { s with tsq := { s.tsq with track := s.tsq.track.eraseP (·.tag == e.tag) } }
     (∀ b, e.binding = .batch b → e.abandoned = false →
       (∀ p, e.position = some p → e.route = some .main →
         settle e s = pickTest (drainTest (endedTest b (pagesEligible e
           (t.updBatch b fun r => { r with accepted := r.accepted + 1 }))))) ∧
       (∀ p, e.position = some p → e.route ≠ some .main →
         settle e s = pickTest (drainTest (endedTest b (discardAll e.pages
           (t.updBatch b fun r => { r with
             holes := insertHole { position := p, reason := .doubleFeed, state := .vacant, snap := e.snap } r.holes
           }))))) ∧
       (e.position = none → settle e s = pickTest (drainTest (endedTest b (discardAll e.pages t))))) ∧
     (∀ b, e.binding = .batch b → e.abandoned = true → e.position = none →
       settle e s = pickTest (drainTest (discardAll e.pages t))) ∧
     (∀ k, e.binding = .fill k →
       (∀ p, e.position = some p → e.route = some .main →
         settle e s = pickTest (drainTest (pagesEligible e (fillScanned p t)))) ∧
       (∀ p, e.position = some p → e.route ≠ some .main →
         settle e s = pickTest (drainTest (discardAll e.pages (fillRefused p t)))) ∧
       (e.position = none → settle e s = pickTest (drainTest (discardAll e.pages (fillChanged t))))) ∧
     (e.binding = .learn → settle e s = pickTest (drainTest (discardAll e.pages t)))) ∧
  (∀ (e : TrackEntry) (s : State),
    let recs := e.pages.filterMap s.findRec
    let good (r : PageRec) : Bool :=
      r.state == .heldForSheet && (r.side == .front || e.snap.duplex == .duplex)
    let kept := recs.filter good
    let entered := kept.foldl (fun s r => enterReady r.id (s.updRec r.id fun x => { x with
      pagesOfSheet := some (if e.snap.duplex = .duplex then 2 else 1) })) s
    let t := (recs.filter fun r => !good r).foldl (fun s r => discardRec r.id s) entered
    let missing := (∀ r ∈ kept, r.side ≠ .front) ∨ (e.snap.duplex = .duplex ∧ ∀ r ∈ kept, r.side ≠ .back)
    ((∀ k, e.binding ≠ .fill k) ∨ ¬ missing → pagesEligible e s = offerTest t) ∧
    (∀ k p, e.binding = .fill k → e.position = some p → missing → pagesEligible e s = offerTest (fillFailed p t))) ∧
  ∀ (p : Nat) (s : State),
    ((∀ j, s.bct.fill = some j → ∀ g ∈ j.granted, g.position ≠ p) →
      fillScanned p s = fillChanged s ∧ fillRefused p s = fillChanged s) ∧
    (∀ j before g after, s.bct.fill = some j → j.granted = before ++ g :: after → g.position = p →
      (∀ x ∈ before, x.position ≠ p) →
      let entry (g : Grant) : State :=
        { s with bct := { s.bct with fill := some { j with granted := before ++ g :: after } } }
      fillScanned p s = fillChanged (entry { g with state := .scanned, stored := 0 }) ∧
      fillRefused p s = fillChanged (entry { g with state := .refused })) ∧
    fillChanged s = endingTest (fillTest 4 false s)

/-- A pick window that expires: JAM with a LOADED tray, a misfeed with an EMPTY one, of a bare entry and then of any,
with its pages and its handshake given up, and with a hole for a position that it holds, for which HOLE_LIMIT holds
where R49 finds no room. Another edge's window that expires holds with JAM, and each window has its start and its
length. The diverter handshake: its start for the sheet that owns the gate, the settle time, a ready sample and the
ready window.
An expiry brings the clock to its deadline (log entry 3); what becomes of a misfed entry's pages, its handshake and
its position, and the one offer test after its discards, are the model's (log entries 11, 15). -/
def Obligations.WindowsAndDiverterHandshake : Prop :=
  (∀ (tag : Nat) (older younger : List TrackEntry) (e : TrackEntry) (s : State), s.scans →
     s.tsq.track = older ++ e :: younger → e.tag = tag → (∀ x ∈ older, x.tag ≠ tag) →
     s.tsq.transport ≠ .idle → s.tsq.transport ≠ .held →
     let late (n : Nat) : State := { s with now := max s.now n }
     let lead (sn : Sensor) := (e.edges.times sn).lead
     let pick := exec (.pickWindowExpiry tag) s
     (e.edges.entry.lead ≠ none → pick = .next s) ∧
     (e.edges.entry.lead = none → s.tsq.tray = .loaded → pick = .next (hold .jam (late (e.pickedAt + 300)))) ∧
     (e.edges.entry.lead = none → s.tsq.tray = .empty → e.pages = [] →
       (∀ h, s.tsq.handshake = some h → h.tag ≠ tag) →
       let gone : State := { late (e.pickedAt + 300) with tsq := { s.tsq with
         track := older ++ younger
         transport := if s.tsq.transport = .feeding ∨ s.tsq.transport = .paused then .draining
           else s.tsq.transport } }
       (∀ b, e.binding = .batch b → e.abandoned = false → e.position = none →
         pick = .next (drainTest (endedTest b gone))) ∧
       (∀ k, e.binding = .fill k → pick = .next (drainTest (fillChanged gone))) ∧
       (e.binding = .learn → pick = .next (drainTest { gone with dfm := { s.dfm with
         learn := s.dfm.learn.map fun l => { l with phase := .waiting } } }))) ∧
     (e.edges.entry.lead = none → s.tsq.tray = .empty →
       let gone : State := { late (e.pickedAt + 300) with tsq := { s.tsq with
         track := older ++ younger
         handshake := if ∃ h, s.tsq.handshake = some h ∧ h.tag = tag then none else s.tsq.handshake
         transport := if s.tsq.transport = .feeding ∨ s.tsq.transport = .paused then .draining
           else s.tsq.transport } }
       let bare := discardAll e.pages gone
       (∀ b, e.binding = .batch b → e.abandoned = false → e.position = none →
         pick = .next (drainTest (endedTest b bare))) ∧
       (∀ b p, e.binding = .batch b → e.abandoned = false → e.position = some p →
         (s.holeFits e = true → pick = .next (drainTest (endedTest b
           (addHole b p (if e.storeLost then .store else .pulled) e.snap bare)))) ∧
         (s.holeFits e = false → pick = .next (hold .holeLimit (late (e.pickedAt + 300))))) ∧
       (∀ b, e.binding = .batch b → e.abandoned = true → e.position = none → pick = .next (drainTest bare)) ∧
       (∀ k, e.binding = .fill k → pick = .next (drainTest (fillChanged bare))) ∧
       (e.binding = .learn → pick = .next (drainTest { bare with dfm := { bare.dfm with
         learn := bare.dfm.learn.map fun l => { l with phase := .waiting } } }))) ∧
     (∀ sn, ∀ due, lead sn = none → sn ≠ .entry →
       (∃ p, sensorBefore sn = some p ∧ ∃ t, lead p = some t ∧ due = t + 250) →
       exec (.edgeWindowExpiry tag sn .leading) s = .next (hold .jam (late due))) ∧
     (∀ t, lead .entry = some t → e.edges.entry.trail = none →
       exec (.edgeWindowExpiry tag .entry .trailing) s = .next (hold .jam (late (t + 4000)))) ∧
     (∀ sn t a b, sn ≠ .entry → lead sn = some t → (e.edges.times sn).trail = none → lead .entry = some a →
       e.edges.entry.trail = some b →
       exec (.edgeWindowExpiry tag sn .trailing) s = .next (hold .jam (late (t + (b - a) + 250)))) ∧
     (∀ sn, lead sn = none ∨ (e.edges.times sn).trail ≠ none →
       exec (.edgeWindowExpiry tag sn .trailing) s = .next s) ∧
     ∀ sn, lead sn ≠ none → exec (.edgeWindowExpiry tag sn .leading) s = .next s) ∧
  (∀ (older younger : List TrackEntry) (e : TrackEntry) (r : Pocket) (s : State),
    s.tsq.track = older ++ e :: younger → (∀ x ∈ older, x.edges.gate.trail ≠ none ∧ x.tag ≠ e.tag) →
    e.edges.gate.trail = none → e.route = some r → e.routeSettled = false → s.tsq.handshake = none →
    s.tsq.transport ≠ .held →
    (s.tsq.diverter = r → s.tsq.diverterConfirmed = true → handshakeTest s =
      { s with tsq := { s.tsq with track := older ++ { e with routeSettled := true } :: younger } }) ∧
    (s.tsq.diverter ≠ r ∨ s.tsq.diverterConfirmed = false → handshakeTest s =
      { s with
          tsq := { s.tsq with diverter := r, diverterConfirmed := false, handshake := some ⟨e.tag, false, s.now⟩ }
          portLog := s.portLog ++ [.diverter r] })) ∧
  ∀ s : State, s.scans →
    (s.tsq.handshake = none → exec .diverterSettleTime s = .next s ∧ exec .readyWindowExpiry s = .next s ∧
      ∀ ready, exec (.readySample ready) s = .next s) ∧
    ∀ h, s.tsq.handshake = some h →
      (exec .diverterSettleTime s = .next (if h.sampling then s else
        { s with
            now := max s.now (h.commandedAt + 10)
            tsq := { s.tsq with handshake := some { h with sampling := true } } })) ∧
      (h.sampling = true → exec (.readySample true) s = .next { s with tsq := { s.tsq with
        diverterConfirmed := true, handshake := none
        track := updFirst (·.tag == h.tag) (fun e => { e with routeSettled := true }) s.tsq.track } }) ∧
      (h.sampling = false → exec (.readySample true) s = .next s) ∧
      exec (.readySample false) s = .next s ∧
      exec .readyWindowExpiry s = .next (hold .diverter { s with now := max s.now (h.commandedAt + 40) })

/-! ## Detection and capture -/

/-- A zone reading joins the youngest sheet's profile until its ENTRY trailing edge, to 64 readings; any other
reading of a moving transport is stray. -/
def Obligations.ZoneReadingJoinsTheProfile : Prop :=
  ∀ (tag : Nat) (layered : Bool) (s : State), s.scans →
    let run := exec (.zoneReading tag layered) s
    let still := s.tsq.transport = .idle ∨ s.tsq.transport = .held
    let stray : State := { s with dfm := { s.dfm with strayReadings := min 65535 (s.dfm.strayReadings + 1) } }
    (still → run = .next s) ∧ (¬ still → s.tsq.track = [] → run = .next stray) ∧
    ∀ (older : List TrackEntry) (e : TrackEntry), ¬ still → s.tsq.track = older ++ [e] →
      (∀ x ∈ older, x.tag ≠ e.tag) →
      (e.tag ≠ tag ∨ e.edges.entry.trail ≠ none → run = .next stray) ∧
      (e.tag = tag → e.edges.entry.trail = none → 64 ≤ e.profile.length → run = .next s) ∧
      (e.tag = tag → e.edges.entry.trail = none → e.profile.length < 64 → run = .next { s with
        tsq := { s.tsq with track := older ++ [{ e with profile := e.profile ++ [layered] }] } })

/-- Side-begin, data and side-end for a sheet of the track: a record is allocated, data are appended in new
blocks, and the side is held for its sheet; a sheet with no record, no block or too large a page suffers a store
loss, which frees every record that its entry lists and holds the transport; events of no use are stray.
Which record and which blocks are taken, and the batch of a record begun for a fill sheet when no fill runs, are the
model's (log entries 6, 7, 40). -/
def Obligations.CaptureFillsARecord : Prop :=
  (∀ (c : LossCause) (e : TrackEntry) (s : State), s.findEntry e.tag = some e → e.pages = [] →
      storeLoss c e s = hold .storeExhausted { s with
        tsq := { s.tsq with
          track := updFirst (·.tag == e.tag) (fun e => { e with pages := [], storeLost := true }) s.tsq.track }
        pgs := { s.pgs with
          progress := s.pgs.progress.modify e.tag fun p => { p with mode := .drop }
          lossNoRecord := if c = .noRecord then min 65535 (s.pgs.lossNoRecord + 1) else s.pgs.lossNoRecord
          lossOversize := if c = .oversize then min 65535 (s.pgs.lossOversize + 1) else s.pgs.lossOversize
          lossNoBlock := if c = .noBlock then min 65535 (s.pgs.lossNoBlock + 1) else s.pgs.lossNoBlock } }) ∧
  (∀ (c : LossCause) (e : TrackEntry) (s : State), s.findEntry e.tag = some e →
    let bare : State := { s with tsq := { s.tsq with
      track := updFirst (·.tag == e.tag) (fun e => { e with pages := [] }) s.tsq.track } }
    let t := e.pages.foldl (fun u id => freeRec id u) bare
    storeLoss c e s = hold .storeExhausted { t with
      tsq := { t.tsq with
        track := updFirst (·.tag == e.tag) (fun e => { e with storeLost := true }) t.tsq.track }
      pgs := { t.pgs with
        progress := t.pgs.progress.modify e.tag fun p => { p with mode := .drop }
        lossNoRecord := if c = .noRecord then min 65535 (t.pgs.lossNoRecord + 1) else t.pgs.lossNoRecord
        lossOversize := if c = .oversize then min 65535 (t.pgs.lossOversize + 1) else t.pgs.lossOversize
        lossNoBlock := if c = .noBlock then min 65535 (t.pgs.lossNoBlock + 1) else t.pgs.lossNoBlock } } ∧
    ((s.pgs.recs.map (·.id)).Nodup →
      (storeLoss c e s).pgs.recs = s.pgs.recs.filter fun r => !e.pages.contains r.id)) ∧
  ∀ (tag : Nat) (side : Side) (bytes : List Byte) (s : State), s.scans →
    let begins := exec (.sideBegin tag side) s
    let comes := exec (.dataEvent tag side bytes) s
    let ends := exec (.sideEnd tag side) s
    let stray : State := { s with pgs := { s.pgs with strayCapture := min 65535 (s.pgs.strayCapture + 1) } }
    let marked (f : Progress → Progress) (s : State) : State :=
      { s with pgs := { s.pgs with progress := s.pgs.progress.modify tag f } }
    let begun (p : Progress) : Progress := match side with
      | .front => { p with frontBegun := true } | .back => { p with backBegun := true }
    let ended (p : Progress) : Progress := match side with
      | .front => { p with frontEnded := true } | .back => { p with backEnded := true }
    (s.findEntry tag = none → begins = .next stray ∧ comes = .next stray ∧ ends = .next stray) ∧
    ∀ e, s.findEntry tag = some e →
      ((s.progressOf tag).mode = .drop →
        begins = .next (marked begun s) ∧ comes = .next s ∧ ends = .next (marked ended s)) ∧
      ((s.progressOf tag).mode = .keep → s.sideRec e side = none →
        (s.pgs.freeRecs = 0 → begins = .next (storeLoss .noRecord e s)) ∧
        (∀ id pool, s.pgs.freeRecs ≠ 0 → s.pgs.recPool = id :: pool →
          let record : PageRec := { id, side, tag, position := e.position, mark := e.marked
                                    batch := (s.sheetBatch e).1, fillFlag := (s.sheetBatch e).2 }
          begins = .next (marked
            (fun p => match side with
              | .front => { p with frontBegun := true, frontEnded := false }
              | .back => { p with backBegun := true, backEnded := false })
            (levelTest { s with
              pgs := { s.pgs with recs := s.pgs.recs ++ [record], recPool := pool, freeRecs := s.pgs.freeRecs - 1 }
              tsq := { s.tsq with
                track := updFirst (·.tag == tag) (fun e => { e with pages := e.pages ++ [id] }) s.tsq.track } }))) ∧
        comes = .next stray ∧ ends = .next stray) ∧
      ∀ r, (s.progressOf tag).mode = .keep → s.sideRec e side = some r →
        (begins = if (freeSheetRec e r.id s).pgs.freeRecs = 0 then
            .next (storeLoss .noRecord e (freeSheetRec e r.id s))
          else .next (marked
            (fun p => match side with
              | .front => { p with frontBegun := true, frontEnded := false }
              | .back => { p with backBegun := true, backEnded := false })
            (allocRec e side (freeSheetRec e r.id s)))) ∧
        (r.state ≠ .filling → comes = .next stray ∧ ends = .next stray) ∧
        (r.state = .filling →
          let size := r.size + bytes.length
          let n := (size + 16383) / 16384 - r.blocks.length
          let blocks := r.blocks ++ freshBlocks s.pgs.listed n
          let t : State := { s with pgs := { s.pgs with
            mem := Memory.writeRun s.pgs.mem blocks r.size bytes
            freeBlocks := s.pgs.freeBlocks - (freshBlocks s.pgs.listed n).length
            recs := updFirst (·.id == r.id) (fun r => { r with blocks, size := r.size + bytes.length }) s.pgs.recs } }
          (16776704 < size → comes = .next (storeLoss .oversize e s)) ∧
          (size ≤ 16776704 → s.pgs.freeBlocks < n → comes = .next (storeLoss .noBlock e s)) ∧
          (size ≤ 16776704 → n ≤ s.pgs.freeBlocks → comes = .next (if n = 0 then t else levelTest t)) ∧
          (r.size = 0 → ends = .next (freeSheetRec e r.id s)) ∧
          (r.size ≠ 0 → ends = .next (marked ended { s with pgs := { s.pgs with
            recs := updFirst (·.id == r.id) (fun r => { r with state := .heldForSheet }) s.pgs.recs } })))

/-- Bytes written at successive offsets of a block list read back from there, and every other address of the
memory reads as before. -/
def Obligations.BytesStoredReadBack : Prop :=
  ∀ (m : Memory) (blocks : List Nat) (off : Nat) (vs : List Byte), blocks.Nodup → m.wf →
    off + vs.length ≤ 16384 * blocks.length →
    Memory.readRun (Memory.writeRun m blocks off vs) blocks off vs.length = vs ∧
    ∀ a, (∀ k < vs.length, a ≠ blockAddr blocks (off + k)) →
      Memory.read (Memory.writeRun m blocks off vs) a = Memory.read m a

/-- A capture report: the oldest sheet without one must be its sheet, and its sides must have ended. A sheet of a
batch takes the next position, written in every record that its entry lists; position 4095 ends the batch; an overrun
sheet takes none; HEADER and SECTION set the attributes; STOP ends the batch: from ACTIVE to ENDED and no other state,
and the feed from FEEDING or PAUSED to DRAINING.
That OVERRUN is raised where every later sheet was marked already is read from R46 (log entry 35). -/
def Obligations.CaptureReportTaken : Prop :=
  (∀ (tag : Nat) (front back : Bool) (patch : Patch) (s : State), s.scans →
    let run := exec (.captureReport tag front back patch) s
    (s.tsq.transport = .idle → run = .next s) ∧
    (s.tsq.transport ≠ .idle → (∀ x ∈ s.tsq.track, x.report ≠ none) → run = .next (hold .captureMismatch s)) ∧
    ∀ (older younger : List TrackEntry) (e : TrackEntry), s.tsq.transport ≠ .idle →
      s.tsq.track = older ++ e :: younger → (∀ x ∈ older, x.report ≠ none ∧ x.tag ≠ e.tag) → e.report = none →
      let sides := (front = true → (s.progressOf tag).ended .front = true) ∧
        (back = true → (s.progressOf tag).ended .back = true)
      (e.tag ≠ tag ∨ ¬ sides → run = .next (hold .captureMismatch s)) ∧
      ∀ (b : Nat) (r : BatchRec), e.tag = tag → sides → e.binding = .batch b → e.abandoned = false →
        s.findBatch b = some r →
        let reported := { e with report := some ⟨front, back, patch⟩ }
        let t : State := { s with tsq := { s.tsq with track := older ++ reported :: younger } }
        let followed (t : State) : State := pickTest (routesLater tag t)
        let takes := r.state = .active ∨ r.state = .ended ∨ r.state = .halted
        let missing := front = false ∨ (e.snap.duplex = .duplex ∧ back = false)
        let placed : State :=
          let t := placePages e.pages (r.scanned + 1) { s with
            tsq := { s.tsq with track := older ++ { reported with position := some (r.scanned + 1) } :: younger }
            bct := { s.bct with
              batches := updFirst (·.number == b) (fun x => { x with scanned := r.scanned + 1 }) s.bct.batches } }
          if missing then hold .captureMismatch t else t
        (patch = .none → e.overrun = true ∨ ¬ takes ∨ 4095 ≤ r.scanned → run = .next (followed t)) ∧
        (patch = .none → e.overrun = false → takes → r.scanned < 4094 → run = .next (followed placed)) ∧
        (patch = .none → e.overrun = false → takes → r.scanned = 4094 →
          run = .next (followed (markOverrun e (drainFeed (endActive b placed))))) ∧
        (∀ a, patch = .header a ∨ patch = .sectionSheet a → e.suspect = false →
          a.resolve s.oru.settings.toleranceDefault = none →
          run = .next (followed (t.updBatch b fun r => { r with rejectedPatch := min 255 (r.rejectedPatch + 1) }))) ∧
        (∀ a attrs, patch = .header a ∨ patch = .sectionSheet a → e.suspect = false → younger = [] →
          a.resolve s.oru.settings.toleranceDefault = some attrs →
          run = .next (followed (t.updBatch b fun r => { r with attrs }))) ∧
        (patch = .stop → e.suspect = false →
          run = .next (followed (endedTest b (markOverrun e (drainFeed (endActive b t))))))) ∧
  (∀ (ids : List Nat) (p : Nat) (s : State), (s.pgs.recs.map (·.id)).Nodup →
    placePages ids p s = { s with pgs := { s.pgs with
      recs := s.pgs.recs.map fun r => if r.id ∈ ids then { r with position := some p } else r } }) ∧
  (∀ (b : Nat) (s : State),
    ((∀ r ∈ s.bct.batches, r.number ≠ b) → endActive b s = s) ∧
    ∀ before r after, s.bct.batches = before ++ r :: after → r.number = b → (∀ x ∈ before, x.number ≠ b) →
      (r.state = .active → endActive b s = { s with bct := { s.bct with
        batches := before ++ { r with state := .ended } :: after } }) ∧
      (r.state ≠ .active → endActive b s = s)) ∧
  ∀ s : State,
    (s.tsq.transport = .feeding ∨ s.tsq.transport = .paused →
      drainFeed s = { s with tsq := { s.tsq with transport := .draining } }) ∧
    (s.tsq.transport ≠ .feeding → s.tsq.transport ≠ .paused → drainFeed s = s)

/-- What a report does to the sheets behind its own, and in the bindings that CaptureReportTaken leaves. Behind a STOP
sheet or position 4095 the later sheets of the same binding are overrun, with one OVERRUN for them. An accepted HEADER
or SECTION re-binds every later sheet of the batch, oldest first: whole before its verdict, and after it by duplex and
policy, with what the policy now calls for. A report of a FILL sheet, of a LEARN sheet and of a sheet of an abandoned
batch. A patch code on a suspect sheet holds with PATCH_SUSPECT, after the later routes have been tested.
That OVERRUN is raised where every later sheet was marked already, and that R47 holds for a LEARN sheet, an overrun
sheet and a sheet of an abandoned batch too, is read from R46 and R47 (log entries 34, 35). -/
def Obligations.LaterSheetsOverrunOrRebound : Prop :=
  (∀ (older younger : List TrackEntry) (e : TrackEntry) (s : State),
      s.tsq.track = older ++ e :: younger → ((older ++ e :: younger).map (·.tag)).Nodup →
      (∀ b, e.binding = .batch b →
        (younger.all (fun x => !x.boundTo b) = true → markOverrun e s = s) ∧
        (younger.any (·.boundTo b) = true → markOverrun e s = raise .overrun { s with tsq := { s.tsq with
          track := older ++ e :: younger.map fun x => if x.boundTo b then { x with overrun := true } else x } })) ∧
      (∀ k, e.binding = .fill k →
        ((∀ x ∈ younger, ∀ i, x.binding ≠ .fill i) → markOverrun e s = s) ∧
        ((∃ x ∈ younger, ∃ i, x.binding = .fill i) → markOverrun e s = raise .overrun { s with tsq := { s.tsq with
          track := older ++ e :: younger.map fun x => match x.binding with
            | .fill _ => { x with overrun := true, binding := .fill none }
            | _ => x } }))) ∧
  (∀ (tag : Nat) (attrs : AttrSet) (older younger : List TrackEntry) (e : TrackEntry) (s : State),
    s.tsq.track = older ++ e :: younger → e.tag = tag → (∀ x ∈ older, x.tag ≠ tag) →
    let set (snap : AttrSet) : State := { s with tsq := { s.tsq with track := older ++ { e with snap } :: younger } }
    let t := set { e.snap with duplex := attrs.duplex, policy := attrs.policy }
    (e.verdict = none → rebindOne attrs tag s = set attrs) ∧
    (∀ v, e.verdict = some v → v.suspect = false ∨ e.overrun = true ∨ attrs.policy = .divert →
      rebindOne attrs tag s = t) ∧
    (∀ v, e.verdict = some v → v.suspect = true → e.overrun = false →
      (attrs.policy = .mark → rebindOne attrs tag s = markPages e.pages t) ∧
      (attrs.policy = .stop → rebindOne attrs tag s = hold .doubleFeedStop t)) ∧
    routesLater tag s = (younger.map (·.tag)).foldl (fun u x => routeTest x u) s) ∧
  ∀ (tag : Nat) (front back : Bool) (patch : Patch) (older younger : List TrackEntry) (e : TrackEntry) (s : State),
    s.scans → s.tsq.transport ≠ .idle → s.tsq.track = older ++ e :: younger →
    (∀ x ∈ older, x.report ≠ none ∧ x.tag ≠ tag) → e.report = none → e.tag = tag →
    (front = true → (s.progressOf tag).ended .front = true) → (back = true → (s.progressOf tag).ended .back = true) →
    let reported := { e with report := some ⟨front, back, patch⟩ }
    let track (e : TrackEntry) (s : State) : State := { s with tsq := { s.tsq with track := older ++ e :: younger } }
    let t := track reported s
    let does (effect : State) : Prop :=
      let u := routesLater tag effect
      exec (.captureReport tag front back patch) s =
        .next (pickTest (if patch ≠ .none ∧ e.suspect = true then hold .patchSuspect u else u))
    let changes (a : AttrArg) : Prop := patch = .header a ∨ patch = .sectionSheet a
    (∀ b, e.binding = .batch b → e.abandoned = true → does t) ∧
    (∀ b, e.binding = .batch b → e.abandoned = false →
      (∀ a attrs, changes a → a.resolve s.oru.settings.toleranceDefault = some attrs →
        does (((younger.filter (·.boundTo b)).map (·.tag)).foldl (fun u x => rebindOne attrs x u)
          (t.updBatch b fun r => { r with attrs }))) ∧
      (∀ a, changes a → a.resolve s.oru.settings.toleranceDefault = none →
        does (t.updBatch b fun r => { r with rejectedPatch := min 255 (r.rejectedPatch + 1) })) ∧
      (patch = .stop → does (endedTest b (markOverrun e (drainFeed (endActive b t)))))) ∧
    (∀ k, e.binding = .fill k →
      let released := track { reported with binding := .fill none } s
      (∀ p, patch = .none → k = some p → e.overrun = false →
        let u := placePages e.pages p (track { reported with position := some p } s)
        does (fillChanged
          (if front = false ∨ (e.snap.duplex = .duplex ∧ back = false) then hold .captureMismatch u else u))) ∧
      (patch = .none → k = none ∨ e.overrun = true → does (fillChanged t)) ∧
      (∀ a, changes a → does (fillChanged released)) ∧
      (patch = .stop → does (fillChanged (markOverrun e (fillEnd .stopPatch none (drainFeed released)))))) ∧
    (e.binding = .learn → does t)

/-! ## The line -/

/-- A burst's length and frame; the station's own turn, which comes round from the turn holder once that is known: the
head of the control queue, else a channel's burst, in turn; and what leaves with a frame that has been sent. When a
channel has a burst ready; how a descriptor empties and a granted page is promoted. A frame sent with a give-up
waiting: the page returns, restarts, fails or is freed. A RESTART that waits for the frame is finished after its
effects.
The order of the offer tests, that TURN_INTERVAL is an interval of the station's own, what an emptied descriptor
keeps, the two marks of a page in transmission and the wait of a RESTART are the model's (log entries 11, 18, 21, 24,
25), and so is a discard that follows a PAGE STORED (log entry 41). -/
def Obligations.OwnTurnSendsAndSentFrameLeaves : Prop :=
  ((∀ next remaining : Nat, 0 < remaining →
     let n := burstLength next remaining
     0 < n ∧ n ≤ remaining ∧ n ≤ 4096 ∧ next % 4096 + n ≤ 4096 ∧
       (n = remaining ∨ (next + n) % 4096 = 0)) ∧
   (∀ (c : ChanId) (id g k : Nat) (r : PageRec) (s : State),
     (s.chan c).active.page = some id → (s.chan c).active.gateway = some g → (s.chan c).active.slot = some k →
     s.findRec id = some r →
     let d := (s.chan c).active
     s.burstFrame c = ⟨⟨g, s.oru.address, 0⟩, .pageData k d.next
       (Memory.readRun s.pgs.mem r.blocks (d.next - d.start) (burstLength d.next d.remaining))⟩) ∧
   ∀ s : State, s.power = .running →
     let begins (f : Frame) (o : Origin) : State := { s with
       fli := { s.fli with inFlight := some ⟨f, o⟩, turnHolder := some s.oru.address }
       portLog := s.portLog ++ [.line f.bytes] }
     let done (l : Fli) : Fli := { l with
       inFlight := none, framesSent := min 4294967295 (l.framesSent + 1)
       presenceDue := some (s.now + s.oru.settings.presenceMs) }
     (let turn := exec .turnInterval s
       let mine := ∃ t, s.fli.turnHolder = some t ∧ ∃ quiet < 16, (t + quiet + 1) % 16 = s.oru.address
       (s.oru.address ≤ 15 → s.fli.turnHolder ≠ none → mine) ∧
       (s.fli.line ≠ .joined ∨ s.fli.inFlight ≠ none ∨ ¬ mine → turn = .next s) ∧
       (s.fli.line = .joined → s.fli.inFlight = none → mine →
         (∀ f q, s.fli.txQueue = f :: q → turn = .next (begins f .control)) ∧
         (s.fli.txQueue = [] →
           (∀ c, s.burstReady c = true → (∀ d, d ≠ c → s.burstReady d = false) ∨ s.fli.lastData ≠ c →
             turn = .next (begins (s.burstFrame c) (.data c))) ∧
           ((∀ c, s.burstReady c = false) → turn = .next s)))) ∧
     (s.fli.inFlight = none → exec .frameSent s = .next s) ∧
     (s.oru.restartDue = none →
       (∀ f, s.fli.inFlight = some ⟨f, .control⟩ →
         exec .frameSent s = .next { s with fli := { done s.fli with txQueue := s.fli.txQueue.drop 1 } }) ∧
       (∀ f c, s.fli.inFlight = some ⟨f, .data c⟩ → (s.chan c).active.giveUp = .none →
         let n := f.payload.dataLength
         let t : State := { s with fli := { done s.fli with lastData := c } }.updChan c fun ch => { ch with
           active := { ch.active with
             next := ch.active.next + n, remaining := ch.active.remaining - n, lastBurst := some n } }
         (n < (s.chan c).active.remaining → exec .frameSent s = .next t) ∧
         ((s.chan c).active.remaining = n → ∀ id g k, (s.chan c).active.page = some id →
           (s.chan c).active.gateway = some g → (s.chan c).active.slot = some k →
           exec .frameSent s = .next (offerTest (emptyActive c { t with
             pgs := { s.pgs with recs := updFirst (·.id == id) (fun r => { r with state := .sent }) s.pgs.recs }
             txe := { t.txe with outstanding := s.txe.outstanding ++
               [⟨id, g, k, s.now + 1000 * s.oru.settings.storeSeconds⟩] } })))))) ∧
  (∀ (c : ChanId) (s : State),
    let ch := s.chan c
    let emptied (d : Desc) : Desc :=
      { start := d.start, next := d.next, remaining := d.remaining, lastBurst := d.lastBurst }
    (s.burstReady c = true ↔ ch.active.phase = .streaming ∧ 0 < ch.active.remaining ∧ ch.active.giveUp = .none ∧
      ∀ f, s.fli.inFlight ≠ some ⟨f, .data c⟩) ∧
    emptyStaged c s = s.updChan c (fun ch => { ch with staged := emptied ch.staged }) ∧
    (ch.staged.phase ≠ .granted →
      emptyActive c s = s.updChan c fun ch => { ch with active := emptied ch.active }) ∧
    (ch.staged.phase = .granted → emptyActive c s = s.updChan c fun ch => { ch with
      active := { ch.staged with phase := .streaming, lastBurst := none, giveUp := .none }
      staged := emptied ch.staged })) ∧
  ∀ (f : Frame) (s : State), s.power = .running →
    let run := exec .frameSent s
    let done : Fli := { s.fli with
      inFlight := none, framesSent := min 4294967295 (s.fli.framesSent + 1)
      presenceDue := some (s.now + s.oru.settings.presenceMs) }
    let finished (u : State) : State := match u.oru.restartDue with
      | none => u
      | some h => answer h .accepted [] { u with
          oru := { u.oru with restartDue := none }
          fli := { u.fli with
            txQueue := [], rxQueue := []
            presenceDue := if u.fli.line = .joined then some (u.now + u.oru.settings.presenceMs)
              else u.fli.presenceDue } }
    (s.fli.inFlight = some ⟨f, .control⟩ →
      run = .next (finished { s with fli := { done with txQueue := s.fli.txQueue.drop 1 } })) ∧
    (∀ c, s.fli.inFlight = some ⟨f, .orphan c⟩ → run = .next (finished { s with fli := { done with lastData := c } })) ∧
    ∀ c id, s.fli.inFlight = some ⟨f, .data c⟩ → (s.chan c).active.page = some id →
      let d := (s.chan c).active
      let t : State := emptyActive c { s with fli := { done with lastData := c } }
      (d.giveUp = .ret ∨ (d.giveUp = .restart ∧ d.fatal = false) → run = .next (finished (offerTest (toReady id t)))) ∧
      (d.giveUp = .restart → d.fatal = true → run = .next (finished (offerTest (pageFailed id none t)))) ∧
      (d.giveUp = .discard → d.stored = false → run = .next (finished (offerTest (freeRec id t)))) ∧
      (d.giveUp = .discard → d.stored = true → run = .next (finished (offerTest (finishStored id t))))

/-- A frame heard: the check, the header, the station's own address, the peer table, and delivery. The turn after
a frame, the role that a PRESENCE carries, and the peer entry after a frame of its address, with the report of a return
to PRESENT. What is heard is the frame command of its kind, run on the state in which the peer table has taken it.
The offer test at step 4, the turn, the role and the deafness of a sender are the model's (log entries 11, 18, 19, 26). -/
def Obligations.FrameHeardJudged : Prop :=
  (∀ (quiet : Nat) (bytes : List Byte) (s : State), s.power = .running →
     let run := exec (.frameHeard quiet bytes) s
     let turn (src : Option Nat) := turnAfter s.fli quiet src
     (s.fli.inFlight ≠ none ∨ s.fli.line = .unaddressed → run = .next s) ∧
     (s.fli.inFlight = none → s.fli.line ≠ .unaddressed →
       (RawFrame.ofBytes bytes = none → run = .next { s with fli := { s.fli with
         turnHolder := turn none, checkFailures := min 65535 (s.fli.checkFailures + 1) } }) ∧
       ∀ f, RawFrame.ofBytes bytes = some f →
         let t : State := { s with fli := { s.fli with turnHolder := turn (some f.hdr.src), heardAny := true } }
         let headed := f.hdr.src ≤ 15 ∧ (f.hdr.dst ≤ 15 ∨ f.hdr.dst = 255) ∧
           f.payload.length ≤ (if f.kind = 27 then 4101 else 128)
         let here := f.hdr.dst = s.oru.address ∨ f.hdr.dst = 255
         let peers := peerUpdate f.hdr.src (presenceRoleOf f) t
         (¬ headed → run = .next { t with fli := { t.fli with malformed := min 65535 (s.fli.malformed + 1) } }) ∧
         (headed → f.hdr.src = s.oru.address → run = .next (conflict t)) ∧
         (headed → f.hdr.src ≠ s.oru.address →
           (¬ here → run = .next peers) ∧
           (here → Payload.ofBytes f.kind f.payload = none →
             run = .next { peers with fli := { peers.fli with malformed := min 65535 (peers.fli.malformed + 1) } }) ∧
           (∀ p, here → Payload.ofBytes f.kind f.payload = some p →
             run = .next (accept ⟨f.hdr, p⟩ peers) ∧
             ∀ c, commandFrame c = some ⟨f.hdr, p⟩ → run = exec c peers) ∧
           ∀ r, Payload.ofBytes f.kind f.payload = some (.presence r) → run = exec (.presence f.hdr r) t))) ∧
  (∀ (l : Fli) (quiet : Nat) (src : Option Nat),
    (∀ a, l.heardAny = false → src = some a → turnAfter l quiet src = some a) ∧
    (l.heardAny = true ∨ src = none → turnAfter l quiet src = l.turnHolder.map fun t => (t + quiet + 1) % 16)) ∧
  (∀ f : RawFrame,
    (∀ r, Payload.ofBytes f.kind f.payload = some (.presence r) → presenceRoleOf f = some r) ∧
    ((∀ r, Payload.ofBytes f.kind f.payload ≠ some (.presence r)) → presenceRoleOf f = none)) ∧
  ∀ (src : Nat) (role : Option PresenceRole) (s : State), src < s.fli.peers.length →
    let held := s.peer src
    let r : PeerRole := if src = 0 then .console else match role with
      | some .scanner => .scanner | some .gateway => .gateway | some .console => .console | none => held.role
    let now : Peer := { state := .present, role := r, heardAt := some s.now
                        changed := held.changed || held.state != .present || r != held.role }
    let t : State := { s with fli := { s.fli with peers := s.fli.peers.set src now } }
    (s.oru.role = .gateway ∨ held.state = .present → peerUpdate src role s = t) ∧
    (s.oru.role = .scanner → held.state ≠ .present → peerUpdate src role s = offerTest t)

/-- The station's own address heard as a source is a CONFLICT; a frame accepted is delivered by line state, range,
role and room. A frame for this station, of another, is what the frame command of its kind does; an order that no
command spells is answered by the checks of the Order Unit, or is that of a query without the batch that its subject
has none of.
The counts and fields that R195 allows, kind by kind, and the owner that R101 gives each kind.
Where a frame command enters R99 and the handing of the receive queue are the model's (log entries 4, 5). -/
def Obligations.FramesByAddressLineAndRole : Prop :=
  ((∀ s : State,
       (s.fli.line = .listening ∨ s.fli.line = .joined → conflict s = raise .lineConflict { s with fli := { s.fli with
         line := .conflict, txQueue := [], unsent := min 65535 (s.fli.unsent + s.fli.txQueue.length)
         presenceDue := none, joinDue := none } }) ∧
       (s.fli.line = .unaddressed ∨ s.fli.line = .conflict → conflict s = s) ∧
       ∀ (c : Instr) (h : Hdr) (o : Order), commandOrder c = some (h, o) → s.power = .running →
         h.src = s.oru.address → exec c s = .next (conflict s)) ∧
   ∀ (f : Frame) (s : State),
     let owned := f.payload.owned s.oru.role = true
     let fits := f.payload.inRange f.hdr.src = true
     let directory := s.oru.role = .scanner ∧ directoryFrame f.payload = true
     let delivers := (s.fli.line = .joined ∨ s.fli.line = .conflict) ∨ (s.fli.line = .listening ∧ directory)
     let presence := ∃ r, f.payload = .presence r
     let data := ∃ n off bytes, f.payload = .pageData n off bytes
     let able := (∀ o, f.payload ≠ .order o) ∨ s.oru.restartDue = none
     let effect := ∀ c, commandFrame c = some f → s.power = .running → s.reached f.hdr →
       exec c s = .next (accept f s)
     (s.fli.line = .unaddressed → accept f s = s) ∧
     (s.fli.line ≠ .unaddressed → ¬ fits →
       accept f s = { s with fli := { s.fli with malformed := min 65535 (s.fli.malformed + 1) } }) ∧
     (s.fli.line = .listening → fits → ¬ directory →
       accept f s = { s with fli := { s.fli with listeningDiscards := min 65535 (s.fli.listeningDiscards + 1) } }) ∧
     (delivers → fits → ¬ owned →
       accept f s = { s with fli := { s.fli with roleDiscards := min 65535 (s.fli.roleDiscards + 1) } }) ∧
     (delivers → fits → presence → accept f s = s) ∧
     (delivers → fits → owned → ¬ presence → ¬ data → 16 ≤ s.fli.rxQueue.length →
       accept f s = { s with fli := { s.fli with rxOverflows := min 65535 (s.fli.rxOverflows + 1) } }) ∧
     (delivers → fits → owned → ¬ presence → ¬ data → s.fli.rxQueue.length < 16 → s.fli.rxQueue ≠ [] ∨ ¬ able →
       accept f s = { s with fli := { s.fli with rxQueue := s.fli.rxQueue ++ [f] } }) ∧
     (delivers → fits → owned → ¬ presence → ¬ data → s.fli.rxQueue = [] → able → accept f s = take f s ∧ effect) ∧
     (delivers → fits → owned → data → accept f s = take f s ∧ effect) ∧
     effect ∧
     ((∃ c, commandFrame c = some f) ↔ match f.payload with
       | .orderAnswer _ _ | .attention _ | .presence _ | .order .undecodable => False
       | .order (.query q b _) => q = .batch ∨ q = .holes ∨ q = .commit ∨ b = 0
       | _ => True)) ∧
  (∀ (h : Hdr) (s : State),
    (s.listens → s.oru.restartDue = none → h.dst = 255 → accept ⟨h, .order .undecodable⟩ s =
      { s with oru := { s.oru with broadcastOrders := min 65535 (s.oru.broadcastOrders + 1) } }) ∧
    (s.takesOrder h → h.src ≠ 0 → accept ⟨h, .order .undecodable⟩ s = answer h .notConsole []
      { s with oru := { s.oru with
          ordersTaken := min 65535 (s.oru.ordersTaken + 1), refusedSource := min 65535 (s.oru.refusedSource + 1) } }) ∧
    (s.consoleOrder h → accept ⟨h, .order .undecodable⟩ s = answer h .badArgument [] s.orderCounted) ∧
    ∀ q b i, s.listens → s.oru.restartDue = none → q ≠ .batch → q ≠ .holes → q ≠ .commit →
      accept ⟨h, .order (.query q b i)⟩ s = accept ⟨h, .order (.query q 0 i)⟩ s) ∧
  (∀ (src : Nat) (p : Payload),
    let batch (b : Nat) : Prop := 1 ≤ b ∧ b ≤ 16777215
    let place (p : Nat) : Prop := 1 ≤ p ∧ p ≤ 4095
    p.inRange src = true ↔ match p with
      | .order _ | .orderAnswer _ _ | .attention _ | .slotGrant _ _ | .slotWait | .pageRefuse _ | .pageFault _ _ => True
      | .presence r => r = .console → src = 0
      | .batchOpen b g => batch b ∧ 1 ≤ g ∧ g ≤ 15
      | .openAccept b | .openRefuse b _ | .batchGone b | .abandon b | .committed b | .unknown b | .holeNone b
      | .holeRefuse b _ => batch b
      | .close b n ps => batch b ∧ n ≤ 4095 ∧ ps.length ≤ 32 ∧ ∀ p ∈ ps, place p
      | .incomplete b t e ps => batch b ∧ t ≤ 4095 ∧ e ≤ 4095 ∧ ps.length ≤ 8 ∧ ∀ p ∈ ps, place p
      | .holeClaim b w ps => batch b ∧ w + ps.length ≤ 8 ∧ ∀ p ∈ ps, place p
      | .holeGrant b g gs => batch b ∧ (1 ≤ g ∧ g ≤ 15) ∧ 1 ≤ gs.length ∧ gs.length ≤ 8 ∧
          ∀ x ∈ gs, place x.1 ∧ (∀ l, x.2.nominal = some l → l ≤ 2000) ∧ x.2.tolerance ≤ 50
      | .filled b p => batch b ∧ place p
      | .release b _ ps => batch b ∧ ps.length ≤ 8 ∧ ∀ p ∈ ps, place p
      | .pageOffer p k size _ => batch p.batch ∧ place p.position ∧ (k = 1 ∨ k = 2) ∧ 1 ≤ size
      | .pageStored p _ | .pageFail p _ => batch p.batch
      | .pageData _ _ bytes => 1 ≤ bytes.length ∧ bytes.length ≤ 4096) ∧
  ∀ (role : Role) (p : Payload), p.owned role = true ↔ match p with
    | .order _ | .presence _ | .batchOpen _ _ => True
    | .orderAnswer _ _ | .attention _ => False
    | .abandon _ | .close _ _ _ | .pageOffer _ _ _ _ | .pageData _ _ _ => role = .gateway
    | _ => role = .scanner

/-- A PRESENCE heard marks its source PRESENT with its role; one that step 6 refuses counts as malformed after that,
and another heard in LISTENING as a listening discard; a peer's silence limit marks it SILENT and is told to the
blocks that use it. What they do: each channel's page for a silent gateway goes back or is given up, a batch in
OPENING at it is refused, the holes a silent station claimed reopen, and a silent sender's slots that are GRANTED or
RECEIVING are freed.
Where PRESENCE enters R99, the clock at an expiry, the role taken at step 4, the offer test once and last, and the
idle age that a freed slot keeps are the model's (log entries 3, 4, 11, 19, 43). -/
def Obligations.PresenceAndSilence : Prop :=
  ((∀ (h : Hdr) (role : PresenceRole) (s : State), s.power = .running →
     s.fli.line ≠ .unaddressed → h.src ≠ s.oru.address → h.src < s.fli.peers.length →
     let held := s.peer h.src
     let r := if h.src = 0 then PeerRole.console else match role with
       | .scanner => .scanner | .gateway => .gateway | .console => .console
     let now : Peer := { state := .present, role := r, heardAt := some s.now
                         changed := held.changed || held.state != .present || r != held.role }
     let t : State := { s with fli := { s.fli with peers := s.fli.peers.set h.src now } }
     let u : State := if held.state ≠ .present ∧ s.oru.role = .scanner then offerTest t else t
     let here := h.dst = s.oru.address ∨ h.dst = 255
     let bad := role = .console ∧ h.src ≠ 0
     let run := exec (.presence h role) s
     (¬ here → run = .next u) ∧
     (here → bad → run = .next { u with fli := { u.fli with malformed := min 65535 (u.fli.malformed + 1) } }) ∧
     (here → ¬ bad → s.fli.line ≠ .listening → run = .next u) ∧
     (here → ¬ bad → s.fli.line = .listening →
       run = .next { u with fli := { u.fli with
         listeningDiscards := min 65535 (u.fli.listeningDiscards + 1) } })) ∧
   ∀ (a heard : Nat) (s : State), s.power = .running → s.fli.line ≠ .unaddressed → a < s.fli.peers.length →
     (s.peer a).state = .present → (s.peer a).heardAt = some heard →
     let t : State := raise .peerSilent { s with
       now := max s.now (heard + s.oru.settings.silenceMultiple * s.oru.settings.presenceMs)
       fli := { s.fli with peers := s.fli.peers.set a { s.peer a with state := .silent, changed := true } } }
     (s.oru.role = .scanner → exec (.silenceLimitExpiry a) s = .next (txeSilence a (bctSilence a t))) ∧
     (s.oru.role = .gateway → exec (.silenceLimitExpiry a) s = .next (ictSilence a t))) ∧
  (∀ (g : Nat) (c : ChanId) (s : State),
    let st := (s.chan c).staged
    let t := if st.phase ≠ .empty ∧ st.gateway = some g then toReady (st.page.getD 0) (emptyStaged c s) else s
    let d := (t.chan c).active
    let lost := d.phase = .streaming ∧ d.gateway = some g
    txeSilence g s = offerTest (silenceChan g .b (silenceChan g .a s)) ∧
    (¬ lost → silenceChan g c s = t) ∧
    (lost → t.bursting c = false → silenceChan g c s = toReady (d.page.getD 0) (emptyActive c t)) ∧
    (lost → t.bursting c = true → silenceChan g c s = t.updChan c fun ch =>
      { ch with active := { ch.active with giveUp := if ch.active.giveUp = .none then .ret else ch.active.giveUp } })) ∧
  (∀ (a : Nat) (s : State),
    let opening := (s.bct.batches.filter fun r => r.state == .opening && r.gateway == a).map (·.number)
    let u := opening.foldl (fun s b => refuseBatch b .gatewaySilent true s) s
    bctSilence a s = { u with bct := { u.bct with batches := u.bct.batches.map fun r =>
      if r.state = .committed ∨ r.state = .refused ∨ r.state = .abandoned then r
      else { r with holes := r.holes.map fun x =>
        if x.state = .claimed ∧ x.claimant = some a then
          { x with state := .vacant, claimant := none, retries := min 255 (x.retries + 1) }
        else x } } }) ∧
  ∀ (a : Nat) (s : State),
    let lost (sl : Slot) : Bool :=
      (sl.state == .granted || sl.state == .receiving) && sl.hold.any fun x => x.sender == a
    ictSilence a s = { s with ict := { s.ict with
      slots := s.ict.slots.map fun sl => if lost sl then sl.freed s.now else sl
      freeBlocks := s.ict.freeBlocks + (s.ict.slots.map fun sl =>
        if lost sl then (sl.hold.map (·.blocks.length)).getD 0 else 0).sum
      storeQueue := s.ict.storeQueue.filter fun n => !(s.ict.slots[n]?).any lost } }

/-- The join listen ends in JOINED with a PRESENCE queued and its timer started; the presence timer queues a
PRESENCE unless one waits.
The clock at an expiry and the turn from 15 on a quiet line are the model's (log entries 3, 18). -/
def Obligations.JoinListenAndPresenceTimer : Prop :=
  ∀ s : State, s.power = .running →
    let present : Payload := .presence (match s.oru.role with | .scanner => .scanner | .gateway => .gateway)
    let timed (s : State) : State :=
      { s with fli := { s.fli with presenceDue := some (s.now + s.oru.settings.presenceMs) } }
    (s.fli.line ≠ .listening → exec .joinListenExpiry s = .next s) ∧
    (∀ due, s.fli.line = .listening → s.fli.joinDue = some due →
      exec .joinListenExpiry s = .next (timed (hand 255 0 present { s with
        now := max s.now due
        fli := { s.fli with
          line := .joined, joinDue := none
          turnHolder := if s.fli.heardAny then s.fli.turnHolder else some 15 } }))) ∧
    (s.fli.presenceDue = none → exec .presenceTimerExpiry s = .next s) ∧
    ∀ due, s.fli.presenceDue = some due →
      let t : State := { s with now := max s.now due }
      ((∃ f ∈ s.fli.txQueue, ∃ r, f.payload = .presence r) → exec .presenceTimerExpiry s = .next (timed t)) ∧
      ((∀ f ∈ s.fli.txQueue, ∀ r, f.payload ≠ .presence r) →
        exec .presenceTimerExpiry s = .next (timed (hand 255 0 present t)))

/-- The fields of an order fit their bytes. -/
def orderFits : Order → Prop
  | .openBatch b g a => b < 16777216 ∧ g < 256 ∧ a.wf = true
  | .endBatch b => b < 16777216
  | .abandonBatch b => b < 16777216
  | .waiveHoles b ps => b < 16777216 ∧ ps.length < 256 ∧ ∀ p ∈ ps, p < 65536
  | .closeAgain b => b < 16777216
  | .fill b => b < 16777216
  | .loadExemption k e v m _ _ => k < 256 ∧ e < 256 ∧ v < 256 ∧ m < 256
  | .learnExemption k e m _ => k < 256 ∧ e < 256 ∧ m < 256
  | .query _ b i => b < 16777216 ∧ i < 65536
  | _ => True

/-- The fields of a payload that R195 does not bound fit their bytes. -/
def payloadFits : Payload → Prop
  | .order o => orderFits o
  | .orderAnswer code _ => code < 256
  | .holeGrant _ _ gs => ∀ g ∈ gs, g.2.wf = true
  | .pageOffer _ _ size _ => size < 4294967296
  | .slotGrant slot start => slot < 256 ∧ start < 65536
  | .pageStored p slot => p.wf = true ∧ slot < 256
  | .pageFail p slot => p.wf = true ∧ slot < 256
  | .pageFault p slot => p.wf = true ∧ slot < 256
  | .pageData slot off _ => slot < 256 ∧ off < 4294967296
  | _ => True

/-- Decode of encode: a payload's bytes are read as that payload, for every kind and every value that R195 and
the fields admit; and a frame's bytes pass the check and give back header, kind and payload. -/
def Obligations.FramesReadBack : Prop :=
  (∀ (src : Nat) (p : Payload), p.inRange src = true → payloadFits p → Payload.ofBytes p.kind p.bytes = some p) ∧
  ∀ f : Frame, f.hdr.dst < 256 → f.hdr.src < 256 → f.hdr.tag < 256 → f.payload.bytes.length < 65536 →
    RawFrame.ofBytes f.bytes = some ⟨f.hdr, f.payload.kind, f.payload.bytes⟩

/-! ## Batches, holes and fills between stations -/

/-- The room batch directory follows BATCH OPEN and BATCH GONE, in LISTENING too; a BATCH OPEN of a lower address
withdraws the same number in OPENING; the owner's BATCH GONE ends a fill of it.
The order of entries heard in one step and a BATCH OPEN of source 0 are the model's (log entries 23, 39). -/
def Obligations.DirectoryFollowsBatchFrames : Prop :=
  ∀ (h : Hdr) (b g : Nat) (s : State), s.scans →
    s.listens ∨ (s.power = .running ∧ s.fli.line = .listening ∧ s.fli.rxQueue = []) →
    s.reached h → 1 ≤ b → b ≤ 16777215 → 1 ≤ g → g ≤ 15 →
    let opens := exec (.batchOpenHeard h b g) s
    let rest := s.bct.directory.filter fun d => d.batch != b
    let entered : State := { s with bct := { s.bct with directory := rest ++ [⟨b, h.src, g, s.now⟩] } }
    let withdrawn := ∃ r, s.findBatch b = some r ∧ r.state = .opening ∧ h.src < s.oru.address
    let own (s : State) := ∃ d, s.findDir b = some d ∧ d.owner = s.oru.address
    (¬ withdrawn → own s → opens = .next s) ∧
    (¬ withdrawn → ¬ own s → rest.length < 64 → opens = .next entered) ∧
    (¬ withdrawn → ¬ own s → ∀ before after d, rest = before ++ d :: after → 64 ≤ rest.length →
      d.owner ≠ s.oru.address → (∀ x ∈ before, x.owner = s.oru.address) →
      opens = .next { s with bct := { s.bct with directory := before ++ after ++ [⟨b, h.src, g, s.now⟩] } }) ∧
    (withdrawn → ¬ own (refuseBatch b .duplicate true s) →
      opens = .next (setDir ⟨b, h.src, g, s.now⟩ (refuseBatch b .duplicate true s))) ∧
    let gone : State := { s with bct := { s.bct with
      directory := s.bct.directory.filter fun d => !(d.batch == b && d.owner == h.src) } }
    (∀ j, s.bct.fill = some j → j.batch = b → j.owner = h.src →
      exec (.batchGone h b) s = .next (fillEnd .ownerGone none gone)) ∧
    ((∀ j, s.bct.fill = some j → j.batch ≠ b ∨ j.owner ≠ h.src) → exec (.batchGone h b) s = .next gone)

/-- A batch in OPENING refused: its record, its ABANDON where the gateway is told, BATCH GONE, its directory entry and
BATCH_REFUSED, where no local fill of it runs. OPEN ACCEPT, OPEN REFUSE and the answer timeout act on the record in
OPENING that waits for them: its tag, its gateway, its number.
The clock at an expiry is the model's (log entry 3). -/
def Obligations.OpeningAnswered : Prop :=
  (∀ (b : Nat) (cause : RefusalCause) (abandon : Bool) (r : BatchRec) (s : State), s.findBatch b = some r →
     (∀ j, s.bct.fill = some j → ¬ (j.atHome = true ∧ j.batch = b)) →
     let t : State := { s with
       bct := { s.bct with
         terminalNext := s.bct.terminalNext + 1
         batches := updFirst (·.number == b) (fun r => { r with
           state := .refused, terminalOrder := some s.bct.terminalNext, refusalCause := some cause
           openAsk := none }) s.bct.batches }
       pgs := { s.pgs with queues := s.pgs.queues.filter (·.batch != b) } }
     refuseBatch b cause abandon s = raise .batchRefused (removeDir b s.oru.address (Machine.tell 255 (.batchGone b)
       (if abandon then Machine.tell r.gateway (.abandon b) t else t)))) ∧
  ∀ (h : Hdr) (b : Nat) (reason : OpenRefusal) (s : State), s.scans → 1 ≤ b → b ≤ 16777215 →
    let waits (r : BatchRec) := r.state = .opening ∧ r.openAsk = some h.tag ∧ r.gateway = h.src
    let accepts := exec (.openAccept h b) s
    let refuses := exec (.openRefuse h b reason) s
    let expires := exec (.openAnswerTimeout b) s
    (s.findBatch b = none → expires = .next s) ∧
    (∀ r, s.findBatch b = some r →
      (r.state ≠ .opening ∨ r.openAsk = none → expires = .next s) ∧
      (r.state = .opening → r.openAsk ≠ none →
        expires = .next (refuseBatch b .noAnswer true { s with now := max s.now r.openDue }))) ∧
    (s.listens → s.reached h →
      ((∀ r, s.findBatch b = some r → ¬ waits r) → accepts = .next s ∧ refuses = .next s) ∧
      ∀ r, s.findBatch b = some r → waits r →
        accepts = .next { s with bct := { s.bct with
          batches := updFirst (·.number == b) (fun r => { r with state := .active, openAsk := none }) s.bct.batches } } ∧
        refuses = .next (refuseBatch b
          (match reason with | .duplicate => .duplicate | .tableFull => .tableFull) false s))

/-- An answer to CLOSE acts on the record in CLOSING that waits for it; COMMITTED ends the batch, and with it a
local fill of the batch, with OWNER_GONE; an INCOMPLETE and the timeout make it DISPUTED with their causes.
The clock at an expiry is the model's (log entry 3). -/
def Obligations.ClosingAnswered : Prop :=
  ∀ (h : Hdr) (b total excess : Nat) (missing : List Nat) (s : State), s.scans → 1 ≤ b → b ≤ 16777215 →
    total ≤ 4095 → excess ≤ 4095 → missing.length ≤ 8 → (∀ p ∈ missing, 1 ≤ p ∧ p ≤ 4095) →
    let waits (r : BatchRec) := r.state = .closing ∧ r.closeAsk = some h.tag ∧ r.gateway = h.src
    let disputed (cause : DisputeCause) (result : Option CloseResult) (s : State) : State :=
      raise .batchDisputed { s with bct := { s.bct with
        batches := updFirst (·.number == b) (fun r => { r with
          state := .disputed, closeAsk := none, disputeCause := some cause, lastClose := result }) s.bct.batches } }
    (∀ r, s.findBatch b = some r →
      (r.state ≠ .closing ∨ r.closeAsk = none → exec (.closeAnswerTimeout b) s = .next s) ∧
      (r.state = .closing → r.closeAsk ≠ none → exec (.closeAnswerTimeout b) s =
        .next (disputed .noAnswer none { s with now := max s.now r.closeDue }))) ∧
    (s.listens → s.reached h →
      ((∀ r, s.findBatch b = some r → ¬ waits r) →
        exec (.committed h b) s = .next s ∧ exec (.incomplete h b total excess missing) s = .next s) ∧
      ∀ r, s.findBatch b = some r → waits r →
        exec (.incomplete h b total excess missing) s =
          .next (disputed .incomplete (some ⟨missing, total, excess⟩) s) ∧
        let ended : State := removeDir b s.oru.address (Machine.tell 255 (.batchGone b) { s with
          bct := { s.bct with
            terminalNext := s.bct.terminalNext + 1
            batches := updFirst (·.number == b) (fun r => { r with
              state := .committed, terminalOrder := some s.bct.terminalNext, closeAsk := none
              disputeCause := none, lastClose := none }) s.bct.batches }
          pgs := { s.pgs with queues := s.pgs.queues.filter (·.batch != b) } })
        ((∀ j, s.bct.fill = some j → ¬ (j.atHome = true ∧ j.batch = b)) →
          exec (.committed h b) s = .next ended) ∧
        ∀ j, s.bct.fill = some j → j.atHome = true → j.batch = b →
          exec (.committed h b) s = .next (fillEnd .ownerGone none ended))

/-- An UNKNOWN answer to the record in CLOSING that waits for it: DISPUTED with cause UNKNOWN, the last close
result absent, BATCH_DISPUTED raised. -/
def Obligations.UnknownDisputesTheBatch : Prop :=
  ∀ (h : Hdr) (b : Nat) (s : State), s.scans → s.listens → s.reached h → 1 ≤ b → b ≤ 16777215 →
    let waits (r : BatchRec) := r.state = .closing ∧ r.closeAsk = some h.tag ∧ r.gateway = h.src
    ((∀ r, s.findBatch b = some r → ¬ waits r) → exec (.unknown h b) s = .next s) ∧
    ∀ r, s.findBatch b = some r → waits r → exec (.unknown h b) s =
      .next (raise .batchDisputed { s with bct := { s.bct with
        batches := updFirst (·.number == b) (fun r => { r with
          state := .disputed, closeAsk := none, disputeCause := some .unknown, lastClose := none }) s.bct.batches } })

/-- A HOLE CLAIM at the owner: refused for a batch unknown or in a state that grants nothing; else the claim's held
list is taken as what the filler holds, and the lowest OPEN holes are granted.
That a claim of source 0 is taken as one of a station is the model's (log entry 39). -/
def Obligations.OwnerGrantsTheLowestHoles : Prop :=
  ∀ (h : Hdr) (b wanted : Nat) (heldList : List Nat) (s : State), s.scans → s.listens → s.reached h →
    1 ≤ b → b ≤ 16777215 → wanted + heldList.length ≤ 8 → (∀ p ∈ heldList, 1 ≤ p ∧ p ≤ 4095) →
    let run := exec (.holeClaim h b wanted heldList) s
    let answers (p : Payload) (s : State) := run = .next (hand h.src h.tag p s)
    (s.findBatch b = none → answers (.holeRefuse b .unknownBatch) s) ∧
    ∀ r, s.findBatch b = some r →
      (r.state ∈ [.committed, .refused, .abandoned] → answers (.holeRefuse b .unknownBatch) s) ∧
      (r.state ∈ [.opening, .closing, .disputed] → answers (.holeRefuse b .badState) s) ∧
      (r.state ∈ [.active, .ended, .reconciling, .halted] → (r.holes.map (·.position)).Nodup →
        let mine (x : Hole) := x.state = .claimed ∧ x.claimant = some h.src
        let agreed := r.holes.map fun x =>
          if mine x ∧ x.position ∉ heldList then
            { x with state := .vacant, claimant := none, retries := min 255 (x.retries + 1) }
          else if x.state = .vacant ∧ x.position ∈ heldList then { x with state := .claimed, claimant := some h.src }
          else x
        let granted := (agreed.filter fun x => x.state == .vacant).take wanted
        let t : State := { s with bct := { s.bct with batches := updFirst (·.number == b) (fun r => { r with
          holes := agreed.map fun x =>
            if x ∈ granted then { x with state := .claimed, claimant := some h.src } else x }) s.bct.batches } }
        (granted = [] → answers (.holeNone b) t) ∧
        (granted ≠ [] → answers (.holeGrant b r.gateway (granted.map fun x => (x.position, x.snap))) t))

/-- FILLED, whatever its source. -/
def Obligations.FilledMarksTheHole : Prop :=
  ∀ (h : Hdr) (b p : Nat) (s : State), s.scans → s.listens → s.reached h →
    1 ≤ b → b ≤ 16777215 → 1 ≤ p → p ≤ 4095 →
    let run := exec (.filled h b p) s
    (s.findBatch b = none → run = .next s) ∧
    ∀ r, s.findBatch b = some r →
      (r.state = .committed ∨ r.state = .refused ∨ r.state = .abandoned → run = .next s) ∧
      ((∀ x ∈ r.holes, x.position = p → x.state = .filled ∨ x.state = .waived) → run = .next s) ∧
      (r.state ≠ .committed → r.state ≠ .refused → r.state ≠ .abandoned → ∀ before after x,
        r.holes = before ++ x :: after → x.position = p → x.state = .vacant ∨ x.state = .claimed →
        (∀ y ∈ before, y.position ≠ p) →
        run = .next (closeTest b (s.updBatch b fun r => { r with
          holes := before ++ { x with state := .filled, claimant := none } :: after })))

/-- RELEASE: the carried positions, and under a final RELEASE every hole, CLAIMED by its source return to OPEN. -/
def Obligations.ReleaseReopensTheHoles : Prop :=
  ∀ (h : Hdr) (b : Nat) (final : Bool) (ps : List Nat) (s : State), s.scans → s.listens → s.reached h →
    1 ≤ b → b ≤ 16777215 → ps.length ≤ 8 → (∀ p ∈ ps, 1 ≤ p ∧ p ≤ 4095) →
    let run := exec (.release h b final ps) s
    (s.findBatch b = none → run = .next s) ∧
    ∀ r, s.findBatch b = some r →
      (r.state = .committed ∨ r.state = .refused ∨ r.state = .abandoned → run = .next s) ∧
      (r.state ≠ .committed → r.state ≠ .refused → r.state ≠ .abandoned →
        run = .next (s.updBatch b fun r => { r with
          holes := r.holes.map fun x => if x.state = .claimed ∧ x.claimant = some h.src ∧ (final = true ∨ x.position ∈ ps) then
              { x with state := .vacant, claimant := none, retries := min 255 (x.retries + 1) }
            else x }))

/-- The filler takes the answer to its pending claim: granted positions join the list, none ends the fill, a
refusal ends it; other answers are discarded. The third timeout in a row ends the fill. When a claim is made and what it
carries; a local claim, FILLED and RELEASE act as the owner's taking of the frame; the test's act on the feed.
The clock at an expiry and the bound of 4 local claims are the model's (log entries 3, 30). -/
def Obligations.FillerTakesClaimAnswers : Prop :=
  (∀ (h : Hdr) (b g : Nat) (gs : List (Nat × AttrSet)) (reason : HoleRefusal) (s : State), s.scans →
     1 ≤ b → b ≤ 16777215 → 1 ≤ g → g ≤ 15 → 1 ≤ gs.length → gs.length ≤ 8 →
     (∀ x ∈ gs, 1 ≤ x.1 ∧ x.1 ≤ 4095 ∧ (∀ l, x.2.nominal = some l → l ≤ 2000) ∧ x.2.tolerance ≤ 50) →
     let grants := exec (.holeGrant h b g gs) s
     let nothing := exec (.holeNone h b) s
     let refuses := exec (.holeRefuse h b reason) s
     let waits (j : FillJob) := j.claimTag = some h.tag ∧ j.owner = h.src ∧ j.batch = b
     let job (j : FillJob) : State := { s with bct := { s.bct with fill := some j } }
     (s.listens → s.reached h →
       ((∀ j, s.bct.fill = some j → ¬ waits j) → grants = .next s ∧ nothing = .next s ∧ refuses = .next s) ∧
       ∀ j, s.bct.fill = some j → waits j →
         let t := job { j with claimTag := none, timeouts := 0 }
         (j.granted.length + gs.length ≤ 8 → (gs.map (·.1)).Nodup →
           (∀ x ∈ gs, ∀ y ∈ j.granted, y.position ≠ x.1) →
           grants = .next (fillTest 4 false (pickTest (job { j with
             claimTag := none, timeouts := 0, gateway := g
             granted := j.granted ++ gs.map fun x => { position := x.1, snap := x.2, state := .unused, stored := 0
                                                       required := if x.2.duplex = .duplex then 2 else 1 } })))) ∧
         (j.claims = 1 ∨ s.tsq.tray = .empty → nothing = .next (fillEnd .noHoles none t)) ∧
         (j.claims ≠ 1 → s.tsq.tray = .loaded → nothing = .next (raise .fillSurplus (fillEnd .noHoles none t))) ∧
         refuses = .next (fillEnd .refused (some reason) t)) ∧
     (s.bct.fill = none → exec .claimTimeout s = .next s) ∧
     ∀ j, s.bct.fill = some j →
       (j.claimTag = none → exec .claimTimeout s = .next s) ∧
       (j.claimTag ≠ none →
         let t (n : Nat) : State := { job { j with claimTag := none, timeouts := n } with now := max s.now j.claimDue }
         (j.timeouts < 2 → exec .claimTimeout s = .next (fillTest 4 false (t (j.timeouts + 1)))) ∧
         (2 ≤ j.timeouts → exec .claimTimeout s = .next (fillEnd .noAnswer none (t 3))))) ∧
  (∀ (h : Hdr) (b wanted p : Nat) (final : Bool) (ps : List Nat) (s : State), s.scans → s.listens → s.reached h →
    1 ≤ b → b ≤ 16777215 → wanted + ps.length ≤ 8 → (∀ p ∈ ps, 1 ≤ p ∧ p ≤ 4095) → 1 ≤ p → p ≤ 4095 →
    exec (.holeClaim h b wanted ps) s =
      .next (hand h.src h.tag (ownerClaim h.src b wanted ps s).1 (ownerClaim h.src b wanted ps s).2) ∧
    exec (.filled h b p) s = .next (ownerFilled b p s) ∧
    exec (.release h b final ps) s = .next (ownerRelease h.src b final ps s)) ∧
  ∀ (again : State → State) (j : FillJob) (s : State), s.bct.fill = some j →
    let job (j : FillJob) : State := { s with bct := { s.bct with fill := some j } }
    let held := j.granted.filter fun g => g.state == .unused || g.state == .scanned
    let claimed : FillJob := { j with granted := held, claims := min 255 (j.claims + 1) }
    let answered : FillJob := { j with claimTag := none, timeouts := 0 }
    (j.atHome = false → makeClaim again j s = ask j.owner (.holeClaim j.batch (8 - held.length) (held.map (·.position)))
      (job { claimed with claimTag := some s.fli.askTag, claimDue := s.now + s.oru.settings.answerMs })) ∧
    (j.atHome = true →
      let a := ownerClaim s.oru.address j.batch (8 - held.length) (held.map (·.position)) (job claimed)
      makeClaim again j s = takeLocal again a.1 a.2) ∧
    (∀ (b g : Nat) (gs : List (Nat × AttrSet)), j.granted.length + gs.length ≤ 8 → (gs.map (·.1)).Nodup →
      (∀ x ∈ gs, ∀ y ∈ j.granted, y.position ≠ x.1) →
      takeLocal again (.holeGrant b g gs) s = again (pickTest (job { answered with
        gateway := g
        granted := j.granted ++ gs.map fun x => { position := x.1, snap := x.2, state := .unused, stored := 0
                                                  required := if x.2.duplex = .duplex then 2 else 1 } }))) ∧
    (∀ b, takeLocal again (.holeNone b) s = if j.claims ≠ 1 ∧ s.tsq.tray = .loaded then
        raise .fillSurplus (fillEnd .noHoles none (job answered)) else fillEnd .noHoles none (job answered)) ∧
    (∀ b reason, takeLocal again (.holeRefuse b reason) s = fillEnd .refused (some reason) (job answered)) ∧
    let reserved (p : Nat) : Prop := ∃ e ∈ s.tsq.track, e.binding = .fill (some p)
    let spent := j.phase = .feeding ∧ ∀ g ∈ j.granted, g.state = .unused → reserved g.position
    (∀ (n : Nat) (first : Bool),
      let due := spent ∧ j.claimTag = none ∧ held.length < 8 ∧ (s.tsq.tray = .loaded ∨ first = true)
      fillTest 0 first s = s ∧
      (due → fillTest (n + 1) first s = feedTest (makeClaim (fillTest n false) j s)) ∧
      (¬ due → fillTest (n + 1) first s = feedTest s)) ∧
    let stops := spent ∧ s.tsq.tray = .empty ∧ s.tsq.feedMode = some .fill
    let idle (s : State) : State := { s with tsq := { s.tsq with transport := .idle, feedMode := none, fedBatch := none } }
    let drains : State := { s with tsq := { s.tsq with transport := .draining } }
    (¬ stops → feedTest s = s) ∧
    (stops → s.tsq.transport = .armed → feedTest s = idle s) ∧
    (stops → s.tsq.transport = .feeding ∨ s.tsq.transport = .paused →
      feedTest s = if s.tsq.track = [] then idle (fillEnd .trayEmpty none drains) else drains) ∧
    (s.tsq.transport = .draining ∨ s.tsq.transport = .held ∨ s.tsq.transport = .idle → feedTest s = s)

/-! ## Pages between stations -/

/-- PAGE OFFER at a gateway: the six cases in their order, and the slot that is granted.
Which blocks a slot takes, that the page header is held as the slot's fields and writes no byte, and that an offer of
source 0 is taken as one of a station are the model's (log entries 7, 9, 39). -/
def Obligations.OfferAnsweredByTheGateway : Prop :=
  ∀ (h : Hdr) (p : PageId) (k size : Nat) (mark : Bool) (s : State), s.archives → s.listens → s.reached h →
    1 ≤ p.batch → p.batch ≤ 16777215 → 1 ≤ p.position → p.position ≤ 4095 → (k = 1 ∨ k = 2) → 1 ≤ size →
    let run := exec (.pageOffer h p k size mark) s
    let up (n : Nat) := min 65535 (n + 1)
    let refuses (r : PageRefusal) := run = .next (hand h.src h.tag (.pageRefuse r)
      { s with ict := { s.ict with offersRefused := up s.ict.offersRefused } })
    let waits := run = .next (hand h.src h.tag .slotWait
      { s with ict := { s.ict with offersWaited := up s.ict.offersWaited } })
    (s.findCommit p.batch = none → refuses .unknownBatch) ∧
    ∀ r, s.findCommit p.batch = some r →
      let held := ∃ sl ∈ s.ict.slots, sl.state ≠ .free ∧ ∃ x, sl.hold = some x ∧ x.page = p
      let four := 4 ≤ s.ict.slots.countP fun sl => sl.state != .free && sl.hold.any fun x => x.sender == h.src
      let blocks := (512 + size + 16383) / 16384
      (r.stored p = true → run = .next (hand h.src h.tag (.pageStored p 255)
        { s with ict := { s.ict with offersStored := up s.ict.offersStored } })) ∧
      (r.stored p = false → r.state = .committed → refuses .batchClosed) ∧
      (r.stored p = false → r.state = .opened → 16776704 < size → refuses .tooLarge) ∧
      (r.stored p = false → r.state = .opened → size ≤ 16776704 →
        (held ∨ four ∨ (∀ sl ∈ s.ict.slots, sl.state ≠ .free) ∨ s.ict.freeBlocks < blocks → waits) ∧
        (¬ held → ¬ four → blocks ≤ s.ict.freeBlocks → ∀ before sl after, s.ict.slots = before ++ sl :: after →
          sl.state = .free → (∀ x ∈ before, x.state ≠ .free) →
          let fresh := freshBlocks s.ict.reserved blocks
          let granted : Slot :=
            { state := .granted, idleSince := s.now, idleStop := none
              hold := some { sender := h.src, page := p, pagesOfSheet := k, mark, size, expected := 512
                             blocks := fresh } }
          run = .next (hand h.src h.tag (.slotGrant before.length 512) { s with ict := { s.ict with
            slots := before ++ granted :: after, freeBlocks := s.ict.freeBlocks - fresh.length
            offersGranted := up s.ict.offersGranted } })))

/-- PAGE DATA at a gateway: a burst that follows on is written into its slot, and the last one completes the page for
the store port; any other burst is a fault, which frees the sender's slot, unless it is being written.
The position and side of a fault that names no page are free values (log entry 33); the idle age that a freed slot
keeps is the model's (log entry 43). -/
def Obligations.BurstTakenOrFaulted : Prop :=
  ∀ (h : Hdr) (n off : Nat) (bytes : List Byte) (s : State), s.archives → s.listens → s.reached h →
    1 ≤ bytes.length → bytes.length ≤ 4096 →
    let run := exec (.pageData h n off bytes) s
    let faults (p : PageId) (s : State) := run = .next (Machine.tell h.src (.pageFault p n)
      { s with ict := { s.ict with faultsSent := min 65535 (s.ict.faultsSent + 1) } })
    let free : PageId := ⟨0, (Config.freePosition s.freeNext).toNat,
      if Config.freeBit s.freeNext then .back else .front⟩
    let unnamed := faults free { s with freeNext := s.freeNext + 1 }
    (s.ict.slots.length ≤ n → unnamed) ∧
    ∀ before sl after, s.ict.slots = before ++ sl :: after → before.length = n →
      (sl.hold = none → sl.former = none → unnamed) ∧
      (∀ p, sl.state = .free → sl.hold = none → sl.former = some (h.src, p) → faults p s) ∧
      (∀ a p, sl.state = .free → sl.hold = none → sl.former = some (a, p) → a ≠ h.src → unnamed) ∧
      ∀ x, sl.hold = some x →
        let fits := (sl.state = .granted ∨ sl.state = .receiving) ∧ x.sender = h.src ∧ off = x.expected ∧
          off % 4096 + bytes.length ≤ 4096 ∧ off + bytes.length ≤ 512 + x.size
        let taken (st : SlotState) (stop : Option Nat) : State := { s with ict := { s.ict with
          mem := Memory.writeRun s.ict.mem x.blocks off bytes
          burstsTaken := min 65535 (s.ict.burstsTaken + 1)
          slots := before ++ { sl with
            state := st, idleSince := s.now, idleStop := stop
            hold := some { x with expected := off + bytes.length } } :: after } }
        (fits → off + bytes.length < 512 + x.size → run = .next (taken .receiving none)) ∧
        (fits → off + bytes.length = 512 + x.size →
          let t := taken .complete (some 0)
          run = .next (storeTest { t with ict := { t.ict with storeQueue := s.ict.storeQueue ++ [n] } })) ∧
        (¬ fits → sl.state ≠ .free →
          (x.sender ≠ h.src → unnamed) ∧
          (x.sender = h.src → sl.state = .storing → faults x.page s) ∧
          (x.sender = h.src → sl.state ≠ .storing → faults x.page { s with ict := { s.ict with
            slots := before ++ { state := .free, idleSince := sl.idleSince, former := some (x.sender, x.page)
                                 idleStop := some (min 2000 (sl.idleStop.getD (s.now - sl.idleSince))) } :: after
            freeBlocks := s.ict.freeBlocks + x.blocks.length
            storeQueue := s.ict.storeQueue.filter (· != n) } }))

/-- SLOT GRANT, SLOT WAIT, PAGE REFUSE, the offer's timeout and the retry wait, at the channel whose offer waits:
its tag and its gateway. Any other answer is stale.
The clock at an expiry and the offer test once and last are the model's (log entries 3, 11); an emptied descriptor keeps
what log entry 21 says. -/
def Obligations.OfferAnswersTaken : Prop :=
  ∀ (h : Hdr) (slot start : Nat) (reason : PageRefusal) (c : ChanId) (s : State), s.scans →
    let grants := exec (.slotGrant h slot start) s
    let waits := exec (.slotWait h) s
    let refuses := exec (.pageRefuse h reason) s
    let up (n : Nat) := min 65535 (n + 1)
    let asked (d : Desc) := d.phase = .offered ∧ d.askTag = some h.tag ∧ d.gateway = some h.src
    let stale : State := { s with txe := { s.txe with staleAnswers := up s.txe.staleAnswers } }
    let retry (s : State) : State :=
      s.updChan c fun ch => { ch with retryDue := some (s.now + s.oru.settings.retryMs) }
    (s.listens → s.reached h → ¬ asked s.txe.chanA.staged → ¬ asked s.txe.chanB.staged →
      grants = .next stale ∧ waits = .next stale ∧ refuses = .next stale) ∧
    (∀ id r, s.listens → s.reached h → asked (s.chan c).staged → (c = .b → ¬ asked s.txe.chanA.staged) →
      (s.chan c).staged.page = some id → s.findRec id = some r →
      let back := toReady id (emptyStaged c s)
      (slot < 48 → start % 16 = 0 → start ≤ 4080 →
        let t : State := { s with txe := { s.txe with grants := up s.txe.grants } }
        let d : Desc := { (s.chan c).staged with
          phase := .granted, askTag := none, slot := some slot, start, next := start, remaining := r.size }
        ((s.chan c).active.phase = .empty → grants = .next (offerTest (t.updChan c fun ch => { ch with
          active := { d with phase := .streaming, lastBurst := none, giveUp := .none }, staged := emptyDesc d }))) ∧
        ((s.chan c).active.phase ≠ .empty → grants = .next (t.updChan c fun ch => { ch with staged := d }))) ∧
      (48 ≤ slot ∨ start % 16 ≠ 0 ∨ 4080 < start → grants = .next (offerTest (retry
        { back with txe := { back.txe with staleAnswers := up back.txe.staleAnswers } }))) ∧
      (waits = .next (offerTest (retry { back with txe := { back.txe with waits := up back.txe.waits } }))) ∧
      let t := emptyStaged c s
      refuses = .next (offerTest (pageFailed id (some reason)
        { t with txe := { t.txe with refusals := up t.txe.refusals } }))) ∧
    ((s.chan c).staged.phase ≠ .offered → exec (.offerTimeout c) s = .next s) ∧
    (∀ id, (s.chan c).staged.phase = .offered → (s.chan c).staged.page = some id →
      let back := toReady id (emptyStaged c { s with now := max s.now (s.chan c).staged.askDue })
      exec (.offerTimeout c) s = .next (offerTest
        { back with txe := { back.txe with offerTimeouts := up back.txe.offerTimeouts } })) ∧
    ((s.chan c).retryDue = none → exec (.retryWaitExpiry c) s = .next s) ∧
    ∀ due, (s.chan c).retryDue = some due → exec (.retryWaitExpiry c) s =
      .next (offerOne c (State.updChan { s with now := max s.now due } c fun ch => { ch with retryDue := none }))

/-- A page fails: the class, the count, and the notice to the batch, which halts, or to the fill. What a stored and
a failed fill page change in the granted list: an entry in SCANNED alone.
The one offer test after the discards of a failed fill page, and the bounds at which the filled count and the failed
page count stop, are the model's (log entries 11, 46). -/
def Obligations.FailedPageHaltsItsBatch : Prop :=
  (∀ (id b : Nat) (reason : Option PageRefusal) (r : PageRec) (x : BatchRec) (s : State), s.findRec id = some r →
     (r.discardPending = true → pageFailed id reason s = freeRec id s) ∧
     (r.discardPending = false →
       let t : State := raise .transferFailed { s with
         pgs := { s.pgs with recs := updFirst (·.id == id) (fun r => { r with state := .failed }) s.pgs.recs } }
       let t : State := { t with txe := { t.txe with failedPages := min 65535 (t.txe.failedPages + 1) } }
       (∀ p, r.fillFlag = true → r.position = some p → pageFailed id reason s = fillFailed p t) ∧
       (r.fillFlag = false → r.batch = some b → s.findBatch b = some x →
         let told (st : BatchState) : State := t.updBatch b fun x => { x with
           state := st, failedPages := min 512 (x.failedPages + 1)
           gatewayRefusal := if x.gatewayRefusal = none then (match reason with
               | some .unknownBatch => some .unknownBatch
               | some .batchClosed => some .batchClosed
               | _ => none)
             else x.gatewayRefusal }
         (x.state = .active →
           pageFailed id reason s = withdrawBatch b (raise .batchHalted (told .halted))) ∧
         (x.state = .ended ∨ x.state = .reconciling → pageFailed id reason s = raise .batchHalted (told .halted)) ∧
         (x.state ≠ .active → x.state ≠ .ended → x.state ≠ .reconciling → pageFailed id reason s = told x.state)))) ∧
  ∀ (p : Nat) (s : State),
    ((∀ j, s.bct.fill = some j → ∀ g ∈ j.granted, g.position ≠ p) →
      fillStored p s = fillChanged s ∧ fillFailed p s = fillChanged s) ∧
    ∀ j before g after, s.bct.fill = some j → j.granted = before ++ g :: after → g.position = p →
      (∀ x ∈ before, x.position ≠ p) →
      let entry (g : Grant) (filled : Nat) : State := { s with bct := { s.bct with
        fill := some { j with granted := before ++ g :: after, filledCount := filled } } }
      let whole := entry { g with state := .stored, stored := g.stored + 1 } (min 4095 (j.filledCount + 1))
      (g.state ≠ .scanned → fillStored p s = fillChanged s ∧ fillFailed p s = fillChanged s) ∧
      (g.state = .scanned →
        (g.stored + 1 < g.required →
          fillStored p s = fillChanged (entry { g with stored := g.stored + 1 } j.filledCount)) ∧
        (g.required ≤ g.stored + 1 → fillStored p s = fillChanged (
          if j.atHome then ownerFilled j.batch p whole else Machine.tell j.owner (.filled j.batch p) whole)) ∧
        fillFailed p s = fillChanged (discardAll
          ((s.pgs.recs.filter fun r => r.fillFlag && r.position == some p).map (·.id))
          (entry { g with state := .refused } j.filledCount)))

/-- PAGE STORED, PAGE FAIL, PAGE FAULT and the store timer: first for a sole page that has been sent whole, then for a
page wherever it stands, READY, offered, granted, active or outstanding among others, an own page or a fill page; a
page that a discard has given up is found by none of them.
The clock at an expiry, the offer test last, the two marks of a page in transmission, the first of two records of one
page, the passing over of a discarded page in transmission and a discard that follows a PAGE STORED are the model's
(log entries 3, 11, 24, 29, 38, 41). -/
def Obligations.CompletionsOfSentPages : Prop :=
  (∀ (h : Hdr) (p : PageId) (slot : Nat) (r : PageRec) (o : Outstanding) (s : State), s.scans →
     1 ≤ p.batch → p.batch ≤ 16777215 → s.findRec o.page = some r → s.txe.outstanding = [o] →
     r.state = .sent → r.batch = some p.batch → r.position = some p.position → r.side = p.side →
     r.fillFlag = false → r.discardPending = false →
     (∀ q ∈ s.pgs.recs, q.batch = some p.batch → q.position = some p.position → q.side = p.side → q = r) →
     (∀ c, (s.chan c).active.page ≠ some o.page ∧ (s.chan c).staged.page ≠ some o.page ∧
       (s.chan c).active.page = none) →
     let up (n : Nat) := min 65535 (n + 1)
     let gone : State := { s with txe := { s.txe with outstanding := [] } }
     let named := h.src = o.gateway ∧ slot = o.slot
     let setback (e : Instr) (t : Txe) : Prop :=
       (¬ named → exec e s = .next { s with txe := { s.txe with staleCompletions := up s.txe.staleCompletions } }) ∧
       (named → r.restarts < 3 → exec e s = .next (offerTest (enterReady o.page { gone with
         txe := t
         pgs := { s.pgs with
           recs := updFirst (·.id == o.page) (fun r => { r with restarts := r.restarts + 1 }) s.pgs.recs } }))) ∧
       (named → r.restarts = 3 → exec e s = .next (offerTest (pageFailed o.page none { gone with txe := t })))
     (s.listens → s.reached h →
       (h.src = o.gateway → let t := freeRec o.page gone
         exec (.pageStored h p slot) s =
           .next (offerTest { t with txe := { t.txe with storedPages := up t.txe.storedPages } })) ∧
       (h.src ≠ o.gateway → exec (.pageStored h p slot) s =
         .next { s with txe := { s.txe with staleAnswers := up s.txe.staleAnswers } }) ∧
       setback (.pageFail h p slot) { gone.txe with failRestarts := up s.txe.failRestarts } ∧
       setback (.pageFault h p slot) { gone.txe with faultRestarts := up s.txe.faultRestarts }) ∧
     let t := enterReady o.page { gone with now := max s.now o.due }
     exec (.storeTimerExpiry p) s =
       .next (offerTest { t with txe := { t.txe with storeTimeouts := up t.txe.storeTimeouts } })) ∧
  (∀ (id : Nat) (r : PageRec) (s : State), s.findRec id = some r →
    let counted (s : State) : State := { s with txe := { s.txe with storedPages := min 65535 (s.txe.storedPages + 1) } }
    (r.fillFlag = false → finishStored id s = counted (freeRec id s)) ∧
    ∀ p, r.fillFlag = true → r.position = some p → finishStored id s = counted (freeRec id (fillStored p s))) ∧
  ∀ (h : Hdr) (p : PageId) (slot : Nat) (s : State), s.scans →
    let up (n : Nat) := min 65535 (n + 1)
    let named (r : PageRec) : Prop :=
      r.discardPending = false ∧ r.batch = some p.batch ∧ r.position = some p.position ∧ r.side = p.side
    let bare (id : Nat) (s : State) : State :=
      { s with txe := { s.txe with outstanding := s.txe.outstanding.filter (·.page != id) } }
    let holder (r : PageRec) (g : Nat) : Prop :=
      if s.txe.chanA.staged.page = some r.id then s.txe.chanA.staged.gateway = some g
      else if s.txe.chanB.staged.page = some r.id then s.txe.chanB.staged.gateway = some g
      else if s.txe.chanA.active.page = some r.id then s.txe.chanA.active.gateway = some g
      else if s.txe.chanB.active.page = some r.id then s.txe.chanB.active.gateway = some g
      else match s.txe.outstanding.find? (·.page == r.id) with
        | some o => o.gateway = g
        | none => (r.fillFlag = true ∧ ∃ j, s.bct.fill = some j ∧ j.gateway = g) ∨
            (r.fillFlag = false ∧ ∃ b x, r.batch = some b ∧ s.findBatch b = some x ∧ x.gateway = g)
    let hit (r : PageRec) : Prop :=
      named r ∧ (r.state = .ready ∨ r.state = .sending ∨ r.state = .sent) ∧ holder r h.src
    (s.listens → s.reached h → 1 ≤ p.batch → p.batch ≤ 16777215 →
      let run := exec (.pageStored h p slot) s
      ((∀ r ∈ s.pgs.recs, ¬ hit r) →
        run = .next { s with txe := { s.txe with staleAnswers := up s.txe.staleAnswers } }) ∧
      ∀ before r after, s.pgs.recs = before ++ r :: after → (∀ x ∈ before, ¬ hit x) → hit r →
        let staged (c : ChanId) := (s.chan c).staged.page = some r.id
        let active (c : ChanId) := (s.chan c).active.page = some r.id
        (∀ c, staged c → (c = .b → ¬ staged .a) → run = .next (offerTest (finishStored r.id (emptyStaged c s)))) ∧
        (∀ c, ¬ staged .a → ¬ staged .b → active c → (c = .b → ¬ active .a) →
          (s.bursting c = true → run = .next (s.updChan c fun ch =>
            { ch with active := { ch.active with giveUp := .discard, stored := true } })) ∧
          (s.bursting c = false → run = .next (offerTest (finishStored r.id (emptyActive c s))))) ∧
        (¬ staged .a → ¬ staged .b → ¬ active .a → ¬ active .b →
          run = .next (offerTest (finishStored r.id (bare r.id s))))) ∧
    (s.listens → s.reached h → 1 ≤ p.batch → p.batch ≤ 16777215 → ∀ fault : Bool,
      let run := if fault then exec (.pageFault h p slot) s else exec (.pageFail h p slot) s
      let counted (s : State) : State := { s with txe :=
        if fault then { s.txe with faultRestarts := up s.txe.faultRestarts }
        else { s.txe with failRestarts := up s.txe.failRestarts } }
      let raised (id : Nat) (s : State) : State := { s with pgs := { s.pgs with
        recs := updFirst (·.id == id) (fun r => { r with restarts := min 3 (r.restarts + 1) }) s.pgs.recs } }
      let again (id : Nat) (r : PageRec) (s : State) : State :=
        offerTest (if r.restarts < 3 then toReady id (raised id s) else pageFailed id none s)
      let active (c : ChanId) : Prop := ∃ id r, (s.chan c).active.page = some id ∧ s.findRec id = some r ∧ named r ∧
        (s.chan c).active.gateway = some h.src ∧ (s.chan c).active.slot = some slot
      let out (o : Outstanding) : Prop :=
        ∃ r, s.findRec o.page = some r ∧ named r ∧ o.gateway = h.src ∧ o.slot = slot
      (∀ c id r, active c → (c = .b → ¬ active .a) → (s.chan c).active.page = some id → s.findRec id = some r →
        (s.bursting c = true → run = .next ((raised id (counted s)).updChan c fun ch => { ch with
          active := { ch.active with
            giveUp := if ch.active.giveUp = .discard then .discard else .restart
            fatal := ch.active.fatal || 3 ≤ r.restarts } })) ∧
        (s.bursting c = false → run = .next (again id r (emptyActive c (counted s))))) ∧
      (∀ before o after r, ¬ active .a → ¬ active .b → s.txe.outstanding = before ++ o :: after →
        (∀ x ∈ before, ¬ out x) → out o → s.findRec o.page = some r →
        run = .next (again o.page r (bare o.page (counted s)))) ∧
      (¬ active .a → ¬ active .b → (∀ o ∈ s.txe.outstanding, ¬ out o) →
        run = .next { s with txe := { s.txe with staleCompletions := up s.txe.staleCompletions } })) ∧
    let ends (o : Outstanding) : Prop := ∃ r, s.findRec o.page = some r ∧ named r
    ((∀ o ∈ s.txe.outstanding, ¬ ends o) → exec (.storeTimerExpiry p) s = .next s) ∧
    ∀ before o after, s.txe.outstanding = before ++ o :: after → (∀ x ∈ before, ¬ ends x) → ends o →
      let t := toReady o.page (bare o.page { s with now := max s.now o.due })
      exec (.storeTimerExpiry p) s =
        .next (offerTest { t with txe := { t.txe with storeTimeouts := up t.txe.storeTimeouts } })

/-- STORE DONE and STORE ERROR for the slot being written: recorded or failed while its batch is OPEN here, else
judged late; with nothing being written, a stray completion. The port is then tested. A slot's grant lifetime
frees it.
The clock at an expiry and the idle age that a freed slot keeps are the model's (log entries 3, 43). -/
def Obligations.StorePortAndGrantLifetime : Prop :=
  ∀ s : State, s.archives →
    let up (n : Nat) := min 65535 (n + 1)
    let idle : State := { s with ict := { s.ict with portBusy := false } }
    ((∀ sl ∈ s.ict.slots, sl.state ≠ .storing) →
      let t := storeTest { idle with ict := { idle.ict with strayCompletions := up s.ict.strayCompletions } }
      exec .storeDone s = .next t ∧ exec .storeError s = .next t) ∧
    (∀ before sl after x, s.ict.slots = before ++ sl :: after → (∀ y ∈ before, y.state ≠ .storing) →
      sl.state = .storing → sl.hold = some x →
      let n := before.length
      let counted (f : Ict → Ict) (s : State) : State := { s with ict := f s.ict }
      (∀ r, sl.disowned = false → s.findCommit x.page.batch = some r → r.state = .opened →
        exec .storeDone s = .next (storeTest (counted (fun i => { i with storedPages := up i.storedPages })
          (freeSlot n (Machine.tell x.sender (.pageStored x.page n)
            (idle.updCommit x.page.batch fun r => r.record x))))) ∧
        exec .storeError s = .next (storeTest (raise .storePortError
          (counted (fun i => { i with storeErrors := up i.storeErrors })
            (freeSlot n (Machine.tell x.sender (.pageFail x.page n) idle)))))) ∧
      (∀ r, sl.disowned = false → s.findCommit x.page.batch = some r → r.state = .committed →
        let t := if r.stored x.page = true then freeSlot n (Machine.tell x.sender (.pageStored x.page n) idle)
          else freeSlot n (Machine.tell x.sender (.pageFault x.page n)
            (counted (fun i => { i with faultsSent := up i.faultsSent }) idle))
        exec .storeDone s = .next (storeTest t) ∧ exec .storeError s = .next (storeTest t)) ∧
      (sl.disowned = true ∨ s.findCommit x.page.batch = none →
        let t := counted (fun i => { i with disownedCompletions := up i.disownedCompletions }) (freeSlot n idle)
        exec .storeDone s = .next (storeTest t) ∧ exec .storeError s = .next (storeTest t))) ∧
    ∀ before sl after, s.ict.slots = before ++ sl :: after →
      let run := exec (.grantLifetimeExpiry before.length) s
      (sl.state ≠ .granted → sl.state ≠ .receiving → run = .next s) ∧
      ∀ x, (sl.state = .granted ∨ sl.state = .receiving) → sl.hold = some x →
        let late := max s.now (sl.idleSince + 2000)
        let freed : Slot := { state := .free, idleSince := sl.idleSince, former := some (x.sender, x.page)
                              idleStop := some (min 2000 (sl.idleStop.getD (late - sl.idleSince))) }
        run = .next { s with
          now := late
          ict := { s.ict with
            slots := before ++ freed :: after, freeBlocks := s.ict.freeBlocks + x.blocks.length
            storeQueue := s.ict.storeQueue.filter (· != before.length)
            expiredSlots := up s.ict.expiredSlots } }

/-- What a stored page does to its batch's record: its side, the pages of its sheet, the mark, and the count of the
positions that are present. The store port takes the head of the queue when it is idle and the queue is not empty: the
slot is STORING, the port BUSY, and the header and the data leave.
That the write shows the slot's fields in place of a page header is the model's (log entry 9). -/
def Obligations.StoredSidesAndTheStorePort : Prop :=
  (∀ (r : CommitRec) (x : SlotHold), (r.positions.map (·.position)).Pairwise (· < ·) →
     let old := r.positionRec x.page.position
     let new := (r.record x).positionRec x.page.position
     (new.front = true ↔ old.front = true ∨ x.page.side = .front) ∧
     (new.back = true ↔ old.back = true ∨ x.page.side = .back) ∧
     (new.mark = true ↔ old.mark = true ∨ x.mark = true) ∧
     (old.front = false → old.back = false → new.pagesOfSheet = some x.pagesOfSheet) ∧
     (old.front = true ∨ old.back = true → new.pagesOfSheet = old.pagesOfSheet) ∧
     (r.record x).present = r.present + (if old.isPresent = false ∧ new.isPresent = true then 1 else 0) ∧
     ((r.record x).positions.map (·.position)).Pairwise (· < ·) ∧
     ∀ p, p ≠ x.page.position → (r.record x).positionRec p = r.positionRec p) ∧
  ∀ s : State,
    (s.ict.portBusy = true ∨ s.ict.storeQueue = [] → storeTest s = s) ∧
    ∀ before sl after x rest, s.ict.portBusy = false → s.ict.storeQueue = before.length :: rest →
      s.ict.slots = before ++ sl :: after → sl.hold = some x →
      storeTest s = { s with
        ict := { s.ict with
          storeQueue := rest, portBusy := true, slots := before ++ { sl with state := .storing } :: after }
        portLog := s.portLog ++
          [.storeWrite before.length x (Memory.readRun s.ict.mem x.blocks 512 x.size)] }

/-- BATCH OPEN at a gateway: the entry that it makes, keeps or takes over, and the answer.
CLOSE at a gateway: UNKNOWN without an entry of that owner, INCOMPLETE with what is missing and what lies above
the count, else COMMITTED, at which an OPEN entry takes the next committed order and its slots are freed: those GRANTED,
RECEIVING or COMPLETE, with their blocks and their places in the store queue, and not one that is STORING.
That frames of source 0 are taken as those of a station, and the idle age that a freed slot keeps, are the model's (log
entries 39, 43). -/
def Obligations.GatewayEntryAndClose : Prop :=
  (∀ (h : Hdr) (b g : Nat) (s : State), s.archives → s.listens → s.reached h → 1 ≤ b → b ≤ 16777215 →
     1 ≤ g → g ≤ 15 →
     let run := exec (.batchOpen h b g) s
     let made (s : State) : State :=
       { s with ict := { s.ict with commits := s.ict.commits ++ [{ batch := b, owner := h.src }] } }
     let accepts (s : State) := run = .next (hand h.src h.tag (.openAccept b) s)
     let refuses (r : OpenRefusal) := run = .next (hand h.src h.tag (.openRefuse b r) s)
     (g ≠ s.oru.address → run = .next s) ∧
     (g = s.oru.address →
       (∀ r, s.findCommit b = some r →
         (r.state = .committed → accepts (made (abandonEntry b s))) ∧
         (r.state = .opened → r.owner = h.src → accepts s) ∧
         (r.state = .opened → r.owner ≠ h.src → refuses .duplicate)) ∧
       (s.findCommit b = none →
         (s.ict.commits.length < 32 → accepts (made s)) ∧
         (32 ≤ s.ict.commits.length → (∀ r ∈ s.ict.commits, r.state = .opened) → refuses .tableFull) ∧
         ∀ r ∈ s.ict.commits, 32 ≤ s.ict.commits.length → r.state = .committed →
           (∀ x ∈ s.ict.commits, x ≠ r → x.state = .committed → r.order.getD 0 < x.order.getD 0) →
           accepts (made (abandonEntry r.batch s))))) ∧
  (∀ (h : Hdr) (b count : Nat) (waived : List Nat) (s : State), s.archives → s.listens → s.reached h →
    1 ≤ b → b ≤ 16777215 → count ≤ 4095 → waived.length ≤ 32 → (∀ p ∈ waived, 1 ≤ p ∧ p ≤ 4095) →
    let run := exec (.close h b count waived) s
    let answers (p : Payload) (s : State) := run = .next (hand h.src h.tag p s)
    ((∀ r, s.findCommit b = some r → r.owner ≠ h.src) → answers (.unknown b) s) ∧
    ∀ r, s.findCommit b = some r → r.owner = h.src →
      let present (p : Nat) := ∃ x ∈ r.positions, x.position = p ∧ x.isPresent = true
      let missing := r.missing count waived
      let excess := r.excess count
      (∀ p, p ∈ missing ↔ 1 ≤ p ∧ p ≤ count ∧ p ∉ waived ∧ ¬ present p) ∧ missing.Pairwise (· < ·) ∧
      excess = (r.positions.filter fun x => x.isPresent && decide (count < x.position)).length ∧
      (excess = 0 ↔ ∀ p, present p → p ≤ count) ∧
      (missing ≠ [] ∨ excess ≠ 0 → answers (.incomplete b missing.length excess (missing.take 8)) s) ∧
      (missing = [] → excess = 0 → r.state = .committed → answers (.committed b) s) ∧
      (missing = [] → excess = 0 → r.state = .opened →
        let t := hand h.src h.tag (.committed b) s
        run = .next (freeBatchSlots b { t with ict := { t.ict with
          commitNext := s.ict.commitNext + 1
          commits := updFirst (·.batch == b)
            (fun r => { r with state := .committed, order := some s.ict.commitNext }) s.ict.commits } }))) ∧
  ∀ (b : Nat) (s : State),
    let frees (sl : Slot) : Bool := (sl.state == .granted || sl.state == .receiving || sl.state == .complete) &&
      sl.hold.any fun x => x.page.batch == b
    let freed (sl : Slot) : Slot :=
      { state := .free, idleSince := sl.idleSince, former := sl.hold.map fun x => (x.sender, x.page)
        idleStop := some (min 2000 (sl.idleStop.getD (s.now - sl.idleSince))) }
    freeBatchSlots b s = { s with ict := { s.ict with
      slots := s.ict.slots.map fun sl => if frees sl then freed sl else sl
      freeBlocks := s.ict.freeBlocks + (s.ict.slots.map fun sl =>
        if frees sl then (sl.hold.map (·.blocks.length)).getD 0 else 0).sum
      storeQueue := s.ict.storeQueue.filter fun n => !(s.ict.slots[n]?).any frees } }

/-! ## Picks, offers, page records freed, ready and discarded -/

/-- The pick test: no pick outside FEEDING, with a full track, or before the youngest sheet's trailing edge at ENTRY;
else the sheet that the feed mode gives: for the fed batch with its attributes in force, for the first granted position
that is UNUSED and not reserved, or the one learn sheet, after which the transport drains. The DRAINING test.
A pick that decides no route and the bound of 4 local claims are the model's (log entries 14, 30). -/
def Obligations.PicksFollowTheFeed : Prop :=
  ∀ s : State,
    let room := s.tsq.track.length < 3 ∧
      (s.tsq.track = [] ∨ ∃ e, s.tsq.track.getLast? = some e ∧ e.edges.entry.trail ≠ none)
    let picked (binding : Binding) (snap : AttrSet) : State := { s with
      tsq := { s.tsq with
        tagCounter := if s.tsq.tagCounter = 7 then 0 else s.tsq.tagCounter + 1
        track := s.tsq.track ++ [{ tag := s.tsq.tagCounter, binding, snap, pickedAt := s.now }] }
      pgs := { s.pgs with progress := s.pgs.progress.modify s.tsq.tagCounter fun _ => {} }
      portLog := s.portLog ++ [.pick s.tsq.tagCounter] }
    let stopped (s : State) : State :=
      { s with tsq := { s.tsq with transport := .idle, feedMode := none, fedBatch := none } }
    (s.tsq.transport ≠ .feeding ∨ ¬ room → pickTest s = s) ∧
    (s.tsq.transport = .feeding → room → s.tsq.tagCounter ≤ 7 →
      (∀ b r, s.tsq.feedMode = some .batch → s.tsq.fedBatch = some b → s.findBatch b = some r → r.state = .active →
        pickTest s = picked (.batch b) r.attrs) ∧
      (∀ j before g after, s.tsq.feedMode = some .fill → s.bct.fill = some j → j.granted = before ++ g :: after →
        g.state = .unused → s.reserves g.position = false →
        (∀ x ∈ before, x.state = .unused → s.reserves x.position = true) →
        pickTest s = picked (.fill (some g.position)) g.snap) ∧
      (∀ j, s.tsq.feedMode = some .fill → s.bct.fill = some j →
        (∀ x ∈ j.granted, x.state = .unused → s.reserves x.position = true) → pickTest s = s) ∧
      ∀ l, s.tsq.feedMode = some .learn → s.dfm.learn = some l →
        let t := picked .learn ⟨.duplex, .divert, l.bank, none, s.oru.settings.toleranceDefault⟩
        pickTest s = decideRoute s.tsq.tagCounter .reject { t with
          tsq := { t.tsq with transport := .draining }
          dfm := { s.dfm with learn := some { l with phase := .picked } } }) ∧
    (s.tsq.transport ≠ .draining ∨ s.tsq.track ≠ [] → drainTest s = s) ∧
    (s.tsq.transport = .draining → s.tsq.track = [] →
      (s.tsq.feedMode ≠ some .fill → drainTest s = stopped s) ∧
      (s.tsq.feedMode = some .fill → s.tsq.tray = .empty → drainTest s = stopped (fillEnd .trayEmpty none s)) ∧
      (s.tsq.feedMode = some .fill → s.tsq.tray = .loaded → drainTest s = stopped (fillTest 4 false s)))

/-- The offer test of a channel: no offer while its staged descriptor holds a page or its retry wait runs; else the
head of the first batch queue whose head may be offered, its gateway PRESENT, and for channel B the head of the fill
queue before them. The page leaves its queue and is SENDING, and PAGE OFFER is asked of its gateway.
That channel A is tested before B is the model's (log entry 11). -/
def Obligations.OffersFollowTheQueues : Prop :=
  ∀ (c : ChanId) (s : State),
    let gatewayOf (r : PageRec) (g : Nat) : Prop :=
      (r.fillFlag = true ∧ ∃ j, s.bct.fill = some j ∧ j.gateway = g) ∨
      (r.fillFlag = false ∧ ∃ b x, r.batch = some b ∧ s.findBatch b = some x ∧ x.gateway = g)
    let mayOffer (queue : List Nat) (r : PageRec) (g : Nat) : Prop :=
      ∃ id rest, queue = id :: rest ∧ s.findRec id = some r ∧ gatewayOf r g ∧ (s.peer g).state = .present
    let blocked (queue : List Nat) : Prop := ∀ r g, ¬ mayOffer queue r g
    let offered (r : PageRec) (g : Nat) : State :=
      ask g (.pageOffer ⟨r.batch.getD 0, r.position.getD 0, r.side⟩ (r.pagesOfSheet.getD 0) r.size r.mark)
        (State.updChan { s with
          pgs := { s.pgs with
            recs := updFirst (·.id == r.id) (fun x => { x with state := .sending }) s.pgs.recs
            queues := s.pgs.queues.map fun q => { q with pages := q.pages.filter (· != r.id) }
            fillQueue := s.pgs.fillQueue.filter (· != r.id) }
          txe := { s.txe with offers := min 65535 (s.txe.offers + 1) } } c
          fun ch => { ch with staged := { ch.staged with
            phase := .offered, page := some r.id, gateway := some g, askTag := some s.fli.askTag
            askDue := s.now + s.oru.settings.answerMs } })
    offerTest s = offerOne .b (offerOne .a s) ∧
    ((s.chan c).staged.phase ≠ .empty ∨ (s.chan c).retryDue ≠ none → offerOne c s = s) ∧
    ((s.chan c).staged.phase = .empty → (s.chan c).retryDue = none →
      (∀ r g, c = .b → mayOffer s.pgs.fillQueue r g → offerOne c s = offered r g) ∧
      (∀ before q after r g, (c = .a ∨ blocked s.pgs.fillQueue) → s.pgs.queues = before ++ q :: after →
        (∀ x ∈ before, blocked x.pages) → mayOffer q.pages r g → offerOne c s = offered r g) ∧
      ((c = .a ∨ blocked s.pgs.fillQueue) → (∀ x ∈ s.pgs.queues, blocked x.pages) → offerOne c s = s))

/-- A page record freed: its blocks and itself return to the pools, it leaves any queue, and the level is tested. A
FAILED own page lowers its batch's count, and at 0 a HALTED batch moves to ENDED; the batch's last record freed lets
the close condition be tested.
That a freed identifier joins the end of the pool is the model's (log entry 6). -/
def Obligations.FreedRecordReturnsItsBlocks : Prop :=
  ∀ (id : Nat) (r : PageRec) (s : State), s.findRec id = some r →
    let t := levelTest { s with pgs := { s.pgs with
      recs := s.pgs.recs.eraseP (·.id == id)
      recPool := s.pgs.recPool ++ [id]
      freeRecs := s.pgs.freeRecs + 1
      freeBlocks := s.pgs.freeBlocks + r.blocks.length
      queues := s.pgs.queues.map fun q => { q with pages := q.pages.filter (· != id) }
      fillQueue := s.pgs.fillQueue.filter (· != id) } }
    let told (b : Nat) (u : State) : State := if u.pgs.recs.countP (·.batch == some b) = 0 then closeTest b u else u
    (r.batch = none → freeRec id s = t) ∧
    (∀ b, r.batch = some b → (r.state ≠ .failed ∨ r.fillFlag = true) → freeRec id s = told b t) ∧
    ∀ b, r.batch = some b → r.state = .failed → r.fillFlag = false →
      let u := t.updBatch b fun x => { x with failedPages := x.failedPages - 1 }
      (∀ x, u.findBatch b = some x → x.state = .halted → x.failedPages = 0 →
        freeRec id s = told b (endedTest b (u.updBatch b fun x => { x with state := .ended }))) ∧
      ((∀ x, u.findBatch b = some x → x.state ≠ .halted ∨ x.failedPages ≠ 0) → freeRec id s = told b u)

/-- A page that enters READY stands in its queue in position order, FRONT before BACK, or in fill order, the order of
its position in the granted list; a page with discard pending is freed instead. A discard by the state of the record,
which leaves the track entry that lists it, whose sheet's progress becomes DROP: freed at once, or, while its burst
is in transmission, given up after it; a discard of several is followed by the offer test.
That the offer test comes once and last is the model's (log entry 11). -/
def Obligations.ReadyAndDiscardedPages : Prop :=
  (∀ (key : Nat → Nat × Nat) (id : Nat) (queue : List Nat),
     let sorted (q : List Nat) : Prop := q.Pairwise fun a b =>
       (key a).1 < (key b).1 ∨ ((key a).1 = (key b).1 ∧ (key a).2 ≤ (key b).2)
     (insertBy key id queue).Perm (id :: queue) ∧ (sorted queue → sorted (insertBy key id queue))) ∧
  (∀ (id : Nat) (r : PageRec) (s : State), s.findRec id = some r →
    let side := match r.side with | .front => 0 | .back => 1
    (∀ p, r.position = some p → s.pageKey id = (p, side)) ∧
    ∀ j before g after, s.bct.fill = some j → j.granted = before ++ g :: after → r.position = some g.position →
      (∀ x ∈ before, x.position ≠ g.position) → s.fillKey id = (before.length, side)) ∧
  ∀ (id : Nat) (r : PageRec) (s : State), s.findRec id = some r →
    let t := s.updRec id fun r => { r with state := .ready }
    (r.discardPending = true → toReady id s = freeRec id s) ∧
    (r.discardPending = false → toReady id s = enterReady id s) ∧
    (r.fillFlag = true → enterReady id s =
      { t with pgs := { t.pgs with fillQueue := insertBy t.fillKey id t.pgs.fillQueue } }) ∧
    (r.fillFlag = false →
      let join (q : BatchQueue) : BatchQueue := { q with pages := insertBy t.pageKey id q.pages }
      enterReady id s =
        { t with pgs := { t.pgs with queues := updFirst (fun q => some q.batch == r.batch) join t.pgs.queues } }) ∧
    (∀ ids, ids ≠ [] → discardAll ids s = offerTest (ids.foldl (fun s id => discardRec id s) s)) ∧
    ∀ u : State,
      ((∀ e ∈ s.tsq.track, id ∉ e.pages) ∧ u = s ∨
        ∃ older e younger, s.tsq.track = older ++ e :: younger ∧ id ∈ e.pages ∧
          (∀ x ∈ older, id ∉ x.pages ∧ x.tag ≠ e.tag) ∧ u = { s with
            tsq := { s.tsq with track := older ++ { e with pages := e.pages.filter (· != id) } :: younger }
            pgs := { s.pgs with progress := s.pgs.progress.modify e.tag fun p => { p with mode := .drop } } }) →
      let pending := u.updRec id fun r => { r with discardPending := true }
      (r.state = .filling ∨ r.state = .heldForSheet ∨ r.state = .ready ∨ r.state = .failed →
        discardRec id s = freeRec id u) ∧
      (r.state = .sent → discardRec id s = freeRec id { u with
        txe := { u.txe with outstanding := u.txe.outstanding.filter (·.page != id) } }) ∧
      (r.state = .sending → r.discardPending = true → discardRec id s = u) ∧
      ∀ c, r.state = .sending → r.discardPending = false → (c = .b → s.txe.chanA.staged.page ≠ some id) →
        ((s.chan c).staged.page = some id → discardRec id s = freeRec id (emptyStaged c pending)) ∧
        (s.txe.chanA.staged.page ≠ some id → s.txe.chanB.staged.page ≠ some id →
          (c = .b → s.txe.chanA.active.page ≠ some id) → (s.chan c).active.page = some id →
          (s.bursting c = true → discardRec id s = pending.updChan c fun ch =>
            { ch with active := { ch.active with giveUp := .discard } }) ∧
          (s.bursting c = false → discardRec id s = freeRec id (emptyActive c pending)))
end

