-- ==== Sys2Proof/Laws/Blocks.lean ====
section
/-! SUPPORT. The blocks that an allocation takes: free ones, each once, and as many as asked for when the pool
holds them (R77, R133). -/

namespace Sys2Proof.Machine

theorem mem_takeFree (used : List Nat) (fuel k n x : Nat) (h : x ∈ takeFree used fuel k n) :
    k ≤ x ∧ x < k + fuel ∧ x ∉ used := by
  induction fuel generalizing k n with
  | zero => simp [takeFree] at h
  | succ fuel ih =>
    cases n with
    | zero => simp [takeFree] at h
    | succ n =>
      simp only [takeFree] at h
      split at h
      · obtain ⟨h1, h2, h3⟩ := ih _ _ h
        exact ⟨by omega, by omega, h3⟩
      · rename_i hk
        rcases List.mem_cons.mp h with rfl | h
        · exact ⟨le_refl _, by omega, by simpa using hk⟩
        · obtain ⟨h1, h2, h3⟩ := ih _ _ h
          exact ⟨by omega, by omega, h3⟩

theorem takeFree_nodup (used : List Nat) (fuel k n : Nat) : (takeFree used fuel k n).Nodup := by
  induction fuel generalizing k n with
  | zero => simp [takeFree]
  | succ fuel ih =>
    cases n with
    | zero => simp [takeFree]
    | succ n =>
      simp only [takeFree]
      split
      · exact ih _ _
      · refine List.nodup_cons.mpr ⟨fun h => ?_, ih _ _⟩
        have := mem_takeFree _ _ _ _ _ h; omega

theorem length_takeFree (used : List Nat) (fuel k n : Nat)
    (h : n ≤ (List.range' k fuel).countP fun x => !used.contains x) : (takeFree used fuel k n).length = n := by
  induction fuel generalizing k n with
  | zero => simp at h; simp [takeFree, h]
  | succ fuel ih =>
    cases n with
    | zero => simp [takeFree]
    | succ n =>
      rw [List.range'_succ, List.countP_cons] at h
      simp only [takeFree]
      split
      · rename_i hk; rw [hk] at h; exact ih _ _ (by simpa using h)
      · rename_i hk
        have : used.contains k = false := by simpa using hk
        rw [this] at h
        simp only [List.length_cons, ih _ _ (by simpa using h)]

/-- The free numbers below a bound are those that a list of distinct numbers below it leaves. -/
theorem count_free (used : List Nat) (m : Nat) (hn : used.Nodup) (hb : ∀ k ∈ used, k < m) :
    (List.range m).countP (fun x => !used.contains x) + used.length = m := by
  have h1 : (List.range m).countP (fun x => used.contains x) = used.length := by
    rw [List.countP_eq_length_filter]
    have : ((List.range m).filter fun x => used.contains x).Perm used := by
      refine (List.perm_ext_iff_of_nodup (List.nodup_range.filter _) hn).mpr fun x => ?_
      simp only [List.mem_filter, List.mem_range, List.contains_iff_mem]
      exact ⟨fun h => h.2, fun h => ⟨hb x h, h⟩⟩
    exact this.length_eq
  have h2 := List.length_eq_countP_add_countP (l := List.range m) (fun x => used.contains x)
  rw [List.length_range, h1] at h2
  have h3 : (List.range m).countP (fun x => !used.contains x) =
      (List.range m).countP (fun a => decide (¬ used.contains a = true)) := by
    congr 1; funext x; simp
  omega

theorem mem_freshBlocks (used : List Nat) (n x : Nat) (h : x ∈ freshBlocks used n) :
    x < Config.blocks ∧ x ∉ used := by
  have := mem_takeFree _ _ _ _ _ h
  simpa using this.2

theorem freshBlocks_nodup (used : List Nat) (n : Nat) : (freshBlocks used n).Nodup := takeFree_nodup ..

theorem length_freshBlocks (used : List Nat) (n free : Nat) (hn : used.Nodup) (hb : ∀ k ∈ used, k < Config.blocks)
    (hf : free + used.length = Config.blocks) (h : n ≤ free) : (freshBlocks used n).length = n := by
  apply length_takeFree
  have := count_free used Config.blocks hn hb
  rw [← List.range_eq_range']
  omega

end Sys2Proof.Machine
end

