-- ==== Sys2Proof/Laws/State.lean ====
section
/-! SUPPORT. One lemma per field and update of the state: what each update changes and what it leaves. -/

namespace Sys2Proof.Machine

@[simp] theorem modOru_power (s : State) (f : Oru → Oru) : (s.modOru f).power = s.power := rfl
@[simp] theorem modOru_now (s : State) (f : Oru → Oru) : (s.modOru f).now = s.now := rfl
@[simp] theorem modOru_oru (s : State) (f : Oru → Oru) : (s.modOru f).oru = f s.oru := rfl
@[simp] theorem modOru_fli (s : State) (f : Oru → Oru) : (s.modOru f).fli = s.fli := rfl
@[simp] theorem modOru_tsq (s : State) (f : Oru → Oru) : (s.modOru f).tsq = s.tsq := rfl
@[simp] theorem modOru_dfm (s : State) (f : Oru → Oru) : (s.modOru f).dfm = s.dfm := rfl
@[simp] theorem modOru_bct (s : State) (f : Oru → Oru) : (s.modOru f).bct = s.bct := rfl
@[simp] theorem modOru_pgs (s : State) (f : Oru → Oru) : (s.modOru f).pgs = s.pgs := rfl
@[simp] theorem modOru_txe (s : State) (f : Oru → Oru) : (s.modOru f).txe = s.txe := rfl
@[simp] theorem modOru_ict (s : State) (f : Oru → Oru) : (s.modOru f).ict = s.ict := rfl
@[simp] theorem modOru_freeNext (s : State) (f : Oru → Oru) : (s.modOru f).freeNext = s.freeNext := rfl
@[simp] theorem modOru_portLog (s : State) (f : Oru → Oru) : (s.modOru f).portLog = s.portLog := rfl
@[simp] theorem modOru_pending (s : State) (f : Oru → Oru) : (s.modOru f).pending = s.pending := rfl

@[simp] theorem modFli_power (s : State) (f : Fli → Fli) : (s.modFli f).power = s.power := rfl
@[simp] theorem modFli_now (s : State) (f : Fli → Fli) : (s.modFli f).now = s.now := rfl
@[simp] theorem modFli_oru (s : State) (f : Fli → Fli) : (s.modFli f).oru = s.oru := rfl
@[simp] theorem modFli_fli (s : State) (f : Fli → Fli) : (s.modFli f).fli = f s.fli := rfl
@[simp] theorem modFli_tsq (s : State) (f : Fli → Fli) : (s.modFli f).tsq = s.tsq := rfl
@[simp] theorem modFli_dfm (s : State) (f : Fli → Fli) : (s.modFli f).dfm = s.dfm := rfl
@[simp] theorem modFli_bct (s : State) (f : Fli → Fli) : (s.modFli f).bct = s.bct := rfl
@[simp] theorem modFli_pgs (s : State) (f : Fli → Fli) : (s.modFli f).pgs = s.pgs := rfl
@[simp] theorem modFli_txe (s : State) (f : Fli → Fli) : (s.modFli f).txe = s.txe := rfl
@[simp] theorem modFli_ict (s : State) (f : Fli → Fli) : (s.modFli f).ict = s.ict := rfl
@[simp] theorem modFli_freeNext (s : State) (f : Fli → Fli) : (s.modFli f).freeNext = s.freeNext := rfl
@[simp] theorem modFli_portLog (s : State) (f : Fli → Fli) : (s.modFli f).portLog = s.portLog := rfl
@[simp] theorem modFli_pending (s : State) (f : Fli → Fli) : (s.modFli f).pending = s.pending := rfl

@[simp] theorem modTsq_power (s : State) (f : Tsq → Tsq) : (s.modTsq f).power = s.power := rfl
@[simp] theorem modTsq_now (s : State) (f : Tsq → Tsq) : (s.modTsq f).now = s.now := rfl
@[simp] theorem modTsq_oru (s : State) (f : Tsq → Tsq) : (s.modTsq f).oru = s.oru := rfl
@[simp] theorem modTsq_fli (s : State) (f : Tsq → Tsq) : (s.modTsq f).fli = s.fli := rfl
@[simp] theorem modTsq_tsq (s : State) (f : Tsq → Tsq) : (s.modTsq f).tsq = f s.tsq := rfl
@[simp] theorem modTsq_dfm (s : State) (f : Tsq → Tsq) : (s.modTsq f).dfm = s.dfm := rfl
@[simp] theorem modTsq_bct (s : State) (f : Tsq → Tsq) : (s.modTsq f).bct = s.bct := rfl
@[simp] theorem modTsq_pgs (s : State) (f : Tsq → Tsq) : (s.modTsq f).pgs = s.pgs := rfl
@[simp] theorem modTsq_txe (s : State) (f : Tsq → Tsq) : (s.modTsq f).txe = s.txe := rfl
@[simp] theorem modTsq_ict (s : State) (f : Tsq → Tsq) : (s.modTsq f).ict = s.ict := rfl
@[simp] theorem modTsq_freeNext (s : State) (f : Tsq → Tsq) : (s.modTsq f).freeNext = s.freeNext := rfl
@[simp] theorem modTsq_portLog (s : State) (f : Tsq → Tsq) : (s.modTsq f).portLog = s.portLog := rfl
@[simp] theorem modTsq_pending (s : State) (f : Tsq → Tsq) : (s.modTsq f).pending = s.pending := rfl

@[simp] theorem modDfm_power (s : State) (f : Dfm → Dfm) : (s.modDfm f).power = s.power := rfl
@[simp] theorem modDfm_now (s : State) (f : Dfm → Dfm) : (s.modDfm f).now = s.now := rfl
@[simp] theorem modDfm_oru (s : State) (f : Dfm → Dfm) : (s.modDfm f).oru = s.oru := rfl
@[simp] theorem modDfm_fli (s : State) (f : Dfm → Dfm) : (s.modDfm f).fli = s.fli := rfl
@[simp] theorem modDfm_tsq (s : State) (f : Dfm → Dfm) : (s.modDfm f).tsq = s.tsq := rfl
@[simp] theorem modDfm_dfm (s : State) (f : Dfm → Dfm) : (s.modDfm f).dfm = f s.dfm := rfl
@[simp] theorem modDfm_bct (s : State) (f : Dfm → Dfm) : (s.modDfm f).bct = s.bct := rfl
@[simp] theorem modDfm_pgs (s : State) (f : Dfm → Dfm) : (s.modDfm f).pgs = s.pgs := rfl
@[simp] theorem modDfm_txe (s : State) (f : Dfm → Dfm) : (s.modDfm f).txe = s.txe := rfl
@[simp] theorem modDfm_ict (s : State) (f : Dfm → Dfm) : (s.modDfm f).ict = s.ict := rfl
@[simp] theorem modDfm_freeNext (s : State) (f : Dfm → Dfm) : (s.modDfm f).freeNext = s.freeNext := rfl
@[simp] theorem modDfm_portLog (s : State) (f : Dfm → Dfm) : (s.modDfm f).portLog = s.portLog := rfl
@[simp] theorem modDfm_pending (s : State) (f : Dfm → Dfm) : (s.modDfm f).pending = s.pending := rfl

@[simp] theorem modBct_power (s : State) (f : Bct → Bct) : (s.modBct f).power = s.power := rfl
@[simp] theorem modBct_now (s : State) (f : Bct → Bct) : (s.modBct f).now = s.now := rfl
@[simp] theorem modBct_oru (s : State) (f : Bct → Bct) : (s.modBct f).oru = s.oru := rfl
@[simp] theorem modBct_fli (s : State) (f : Bct → Bct) : (s.modBct f).fli = s.fli := rfl
@[simp] theorem modBct_tsq (s : State) (f : Bct → Bct) : (s.modBct f).tsq = s.tsq := rfl
@[simp] theorem modBct_dfm (s : State) (f : Bct → Bct) : (s.modBct f).dfm = s.dfm := rfl
@[simp] theorem modBct_bct (s : State) (f : Bct → Bct) : (s.modBct f).bct = f s.bct := rfl
@[simp] theorem modBct_pgs (s : State) (f : Bct → Bct) : (s.modBct f).pgs = s.pgs := rfl
@[simp] theorem modBct_txe (s : State) (f : Bct → Bct) : (s.modBct f).txe = s.txe := rfl
@[simp] theorem modBct_ict (s : State) (f : Bct → Bct) : (s.modBct f).ict = s.ict := rfl
@[simp] theorem modBct_freeNext (s : State) (f : Bct → Bct) : (s.modBct f).freeNext = s.freeNext := rfl
@[simp] theorem modBct_portLog (s : State) (f : Bct → Bct) : (s.modBct f).portLog = s.portLog := rfl
@[simp] theorem modBct_pending (s : State) (f : Bct → Bct) : (s.modBct f).pending = s.pending := rfl

@[simp] theorem modPgs_power (s : State) (f : Pgs → Pgs) : (s.modPgs f).power = s.power := rfl
@[simp] theorem modPgs_now (s : State) (f : Pgs → Pgs) : (s.modPgs f).now = s.now := rfl
@[simp] theorem modPgs_oru (s : State) (f : Pgs → Pgs) : (s.modPgs f).oru = s.oru := rfl
@[simp] theorem modPgs_fli (s : State) (f : Pgs → Pgs) : (s.modPgs f).fli = s.fli := rfl
@[simp] theorem modPgs_tsq (s : State) (f : Pgs → Pgs) : (s.modPgs f).tsq = s.tsq := rfl
@[simp] theorem modPgs_dfm (s : State) (f : Pgs → Pgs) : (s.modPgs f).dfm = s.dfm := rfl
@[simp] theorem modPgs_bct (s : State) (f : Pgs → Pgs) : (s.modPgs f).bct = s.bct := rfl
@[simp] theorem modPgs_pgs (s : State) (f : Pgs → Pgs) : (s.modPgs f).pgs = f s.pgs := rfl
@[simp] theorem modPgs_txe (s : State) (f : Pgs → Pgs) : (s.modPgs f).txe = s.txe := rfl
@[simp] theorem modPgs_ict (s : State) (f : Pgs → Pgs) : (s.modPgs f).ict = s.ict := rfl
@[simp] theorem modPgs_freeNext (s : State) (f : Pgs → Pgs) : (s.modPgs f).freeNext = s.freeNext := rfl
@[simp] theorem modPgs_portLog (s : State) (f : Pgs → Pgs) : (s.modPgs f).portLog = s.portLog := rfl
@[simp] theorem modPgs_pending (s : State) (f : Pgs → Pgs) : (s.modPgs f).pending = s.pending := rfl

@[simp] theorem modTxe_power (s : State) (f : Txe → Txe) : (s.modTxe f).power = s.power := rfl
@[simp] theorem modTxe_now (s : State) (f : Txe → Txe) : (s.modTxe f).now = s.now := rfl
@[simp] theorem modTxe_oru (s : State) (f : Txe → Txe) : (s.modTxe f).oru = s.oru := rfl
@[simp] theorem modTxe_fli (s : State) (f : Txe → Txe) : (s.modTxe f).fli = s.fli := rfl
@[simp] theorem modTxe_tsq (s : State) (f : Txe → Txe) : (s.modTxe f).tsq = s.tsq := rfl
@[simp] theorem modTxe_dfm (s : State) (f : Txe → Txe) : (s.modTxe f).dfm = s.dfm := rfl
@[simp] theorem modTxe_bct (s : State) (f : Txe → Txe) : (s.modTxe f).bct = s.bct := rfl
@[simp] theorem modTxe_pgs (s : State) (f : Txe → Txe) : (s.modTxe f).pgs = s.pgs := rfl
@[simp] theorem modTxe_txe (s : State) (f : Txe → Txe) : (s.modTxe f).txe = f s.txe := rfl
@[simp] theorem modTxe_ict (s : State) (f : Txe → Txe) : (s.modTxe f).ict = s.ict := rfl
@[simp] theorem modTxe_freeNext (s : State) (f : Txe → Txe) : (s.modTxe f).freeNext = s.freeNext := rfl
@[simp] theorem modTxe_portLog (s : State) (f : Txe → Txe) : (s.modTxe f).portLog = s.portLog := rfl
@[simp] theorem modTxe_pending (s : State) (f : Txe → Txe) : (s.modTxe f).pending = s.pending := rfl

@[simp] theorem modIct_power (s : State) (f : Ict → Ict) : (s.modIct f).power = s.power := rfl
@[simp] theorem modIct_now (s : State) (f : Ict → Ict) : (s.modIct f).now = s.now := rfl
@[simp] theorem modIct_oru (s : State) (f : Ict → Ict) : (s.modIct f).oru = s.oru := rfl
@[simp] theorem modIct_fli (s : State) (f : Ict → Ict) : (s.modIct f).fli = s.fli := rfl
@[simp] theorem modIct_tsq (s : State) (f : Ict → Ict) : (s.modIct f).tsq = s.tsq := rfl
@[simp] theorem modIct_dfm (s : State) (f : Ict → Ict) : (s.modIct f).dfm = s.dfm := rfl
@[simp] theorem modIct_bct (s : State) (f : Ict → Ict) : (s.modIct f).bct = s.bct := rfl
@[simp] theorem modIct_pgs (s : State) (f : Ict → Ict) : (s.modIct f).pgs = s.pgs := rfl
@[simp] theorem modIct_txe (s : State) (f : Ict → Ict) : (s.modIct f).txe = s.txe := rfl
@[simp] theorem modIct_ict (s : State) (f : Ict → Ict) : (s.modIct f).ict = f s.ict := rfl
@[simp] theorem modIct_freeNext (s : State) (f : Ict → Ict) : (s.modIct f).freeNext = s.freeNext := rfl
@[simp] theorem modIct_portLog (s : State) (f : Ict → Ict) : (s.modIct f).portLog = s.portLog := rfl
@[simp] theorem modIct_pending (s : State) (f : Ict → Ict) : (s.modIct f).pending = s.pending := rfl

@[simp] theorem drive_power (s : State) (o : PortOut) : (s.drive o).power = s.power := rfl
@[simp] theorem drive_now (s : State) (o : PortOut) : (s.drive o).now = s.now := rfl
@[simp] theorem drive_oru (s : State) (o : PortOut) : (s.drive o).oru = s.oru := rfl
@[simp] theorem drive_fli (s : State) (o : PortOut) : (s.drive o).fli = s.fli := rfl
@[simp] theorem drive_tsq (s : State) (o : PortOut) : (s.drive o).tsq = s.tsq := rfl
@[simp] theorem drive_dfm (s : State) (o : PortOut) : (s.drive o).dfm = s.dfm := rfl
@[simp] theorem drive_bct (s : State) (o : PortOut) : (s.drive o).bct = s.bct := rfl
@[simp] theorem drive_pgs (s : State) (o : PortOut) : (s.drive o).pgs = s.pgs := rfl
@[simp] theorem drive_txe (s : State) (o : PortOut) : (s.drive o).txe = s.txe := rfl
@[simp] theorem drive_ict (s : State) (o : PortOut) : (s.drive o).ict = s.ict := rfl
@[simp] theorem drive_freeNext (s : State) (o : PortOut) : (s.drive o).freeNext = s.freeNext := rfl
@[simp] theorem drive_portLog (s : State) (o : PortOut) : (s.drive o).portLog = s.portLog ++ [o] := rfl
@[simp] theorem drive_pending (s : State) (o : PortOut) : (s.drive o).pending = s.pending := rfl

@[simp] theorem advanceTo_power (s : State) (t : Nat) : (s.advanceTo t).power = s.power := rfl
@[simp] theorem advanceTo_now (s : State) (t : Nat) : (s.advanceTo t).now = max s.now t := rfl
@[simp] theorem advanceTo_oru (s : State) (t : Nat) : (s.advanceTo t).oru = s.oru := rfl
@[simp] theorem advanceTo_fli (s : State) (t : Nat) : (s.advanceTo t).fli = s.fli := rfl
@[simp] theorem advanceTo_tsq (s : State) (t : Nat) : (s.advanceTo t).tsq = s.tsq := rfl
@[simp] theorem advanceTo_dfm (s : State) (t : Nat) : (s.advanceTo t).dfm = s.dfm := rfl
@[simp] theorem advanceTo_bct (s : State) (t : Nat) : (s.advanceTo t).bct = s.bct := rfl
@[simp] theorem advanceTo_pgs (s : State) (t : Nat) : (s.advanceTo t).pgs = s.pgs := rfl
@[simp] theorem advanceTo_txe (s : State) (t : Nat) : (s.advanceTo t).txe = s.txe := rfl
@[simp] theorem advanceTo_ict (s : State) (t : Nat) : (s.advanceTo t).ict = s.ict := rfl
@[simp] theorem advanceTo_freeNext (s : State) (t : Nat) : (s.advanceTo t).freeNext = s.freeNext := rfl
@[simp] theorem advanceTo_portLog (s : State) (t : Nat) : (s.advanceTo t).portLog = s.portLog := rfl
@[simp] theorem advanceTo_pending (s : State) (t : Nat) : (s.advanceTo t).pending = s.pending := rfl

@[simp] theorem updBatch_power (s : State) (n : Nat) (f : BatchRec → BatchRec) :
    (s.updBatch n f).power = s.power := rfl
@[simp] theorem updBatch_now (s : State) (n : Nat) (f : BatchRec → BatchRec) :
    (s.updBatch n f).now = s.now := rfl
@[simp] theorem updBatch_oru (s : State) (n : Nat) (f : BatchRec → BatchRec) :
    (s.updBatch n f).oru = s.oru := rfl
@[simp] theorem updBatch_fli (s : State) (n : Nat) (f : BatchRec → BatchRec) :
    (s.updBatch n f).fli = s.fli := rfl
@[simp] theorem updBatch_tsq (s : State) (n : Nat) (f : BatchRec → BatchRec) :
    (s.updBatch n f).tsq = s.tsq := rfl
@[simp] theorem updBatch_dfm (s : State) (n : Nat) (f : BatchRec → BatchRec) :
    (s.updBatch n f).dfm = s.dfm := rfl
@[simp] theorem updBatch_bct (s : State) (n : Nat) (f : BatchRec → BatchRec) :
    (s.updBatch n f).bct = { s.bct with batches := updFirst (·.number == n) f s.bct.batches } := rfl
@[simp] theorem updBatch_pgs (s : State) (n : Nat) (f : BatchRec → BatchRec) :
    (s.updBatch n f).pgs = s.pgs := rfl
@[simp] theorem updBatch_txe (s : State) (n : Nat) (f : BatchRec → BatchRec) :
    (s.updBatch n f).txe = s.txe := rfl
@[simp] theorem updBatch_ict (s : State) (n : Nat) (f : BatchRec → BatchRec) :
    (s.updBatch n f).ict = s.ict := rfl
@[simp] theorem updBatch_freeNext (s : State) (n : Nat) (f : BatchRec → BatchRec) :
    (s.updBatch n f).freeNext = s.freeNext := rfl
@[simp] theorem updBatch_portLog (s : State) (n : Nat) (f : BatchRec → BatchRec) :
    (s.updBatch n f).portLog = s.portLog := rfl
@[simp] theorem updBatch_pending (s : State) (n : Nat) (f : BatchRec → BatchRec) :
    (s.updBatch n f).pending = s.pending := rfl

@[simp] theorem updRec_power (s : State) (n : Nat) (f : PageRec → PageRec) :
    (s.updRec n f).power = s.power := rfl
@[simp] theorem updRec_now (s : State) (n : Nat) (f : PageRec → PageRec) :
    (s.updRec n f).now = s.now := rfl
@[simp] theorem updRec_oru (s : State) (n : Nat) (f : PageRec → PageRec) :
    (s.updRec n f).oru = s.oru := rfl
@[simp] theorem updRec_fli (s : State) (n : Nat) (f : PageRec → PageRec) :
    (s.updRec n f).fli = s.fli := rfl
@[simp] theorem updRec_tsq (s : State) (n : Nat) (f : PageRec → PageRec) :
    (s.updRec n f).tsq = s.tsq := rfl
@[simp] theorem updRec_dfm (s : State) (n : Nat) (f : PageRec → PageRec) :
    (s.updRec n f).dfm = s.dfm := rfl
@[simp] theorem updRec_bct (s : State) (n : Nat) (f : PageRec → PageRec) :
    (s.updRec n f).bct = s.bct := rfl
@[simp] theorem updRec_pgs (s : State) (n : Nat) (f : PageRec → PageRec) :
    (s.updRec n f).pgs = { s.pgs with recs := updFirst (·.id == n) f s.pgs.recs } := rfl
@[simp] theorem updRec_txe (s : State) (n : Nat) (f : PageRec → PageRec) :
    (s.updRec n f).txe = s.txe := rfl
@[simp] theorem updRec_ict (s : State) (n : Nat) (f : PageRec → PageRec) :
    (s.updRec n f).ict = s.ict := rfl
@[simp] theorem updRec_freeNext (s : State) (n : Nat) (f : PageRec → PageRec) :
    (s.updRec n f).freeNext = s.freeNext := rfl
@[simp] theorem updRec_portLog (s : State) (n : Nat) (f : PageRec → PageRec) :
    (s.updRec n f).portLog = s.portLog := rfl
@[simp] theorem updRec_pending (s : State) (n : Nat) (f : PageRec → PageRec) :
    (s.updRec n f).pending = s.pending := rfl

@[simp] theorem updEntry_power (s : State) (n : Nat) (f : TrackEntry → TrackEntry) :
    (s.updEntry n f).power = s.power := rfl
@[simp] theorem updEntry_now (s : State) (n : Nat) (f : TrackEntry → TrackEntry) :
    (s.updEntry n f).now = s.now := rfl
@[simp] theorem updEntry_oru (s : State) (n : Nat) (f : TrackEntry → TrackEntry) :
    (s.updEntry n f).oru = s.oru := rfl
@[simp] theorem updEntry_fli (s : State) (n : Nat) (f : TrackEntry → TrackEntry) :
    (s.updEntry n f).fli = s.fli := rfl
@[simp] theorem updEntry_tsq (s : State) (n : Nat) (f : TrackEntry → TrackEntry) :
    (s.updEntry n f).tsq = { s.tsq with track := updFirst (·.tag == n) f s.tsq.track } := rfl
@[simp] theorem updEntry_dfm (s : State) (n : Nat) (f : TrackEntry → TrackEntry) :
    (s.updEntry n f).dfm = s.dfm := rfl
@[simp] theorem updEntry_bct (s : State) (n : Nat) (f : TrackEntry → TrackEntry) :
    (s.updEntry n f).bct = s.bct := rfl
@[simp] theorem updEntry_pgs (s : State) (n : Nat) (f : TrackEntry → TrackEntry) :
    (s.updEntry n f).pgs = s.pgs := rfl
@[simp] theorem updEntry_txe (s : State) (n : Nat) (f : TrackEntry → TrackEntry) :
    (s.updEntry n f).txe = s.txe := rfl
@[simp] theorem updEntry_ict (s : State) (n : Nat) (f : TrackEntry → TrackEntry) :
    (s.updEntry n f).ict = s.ict := rfl
@[simp] theorem updEntry_freeNext (s : State) (n : Nat) (f : TrackEntry → TrackEntry) :
    (s.updEntry n f).freeNext = s.freeNext := rfl
@[simp] theorem updEntry_portLog (s : State) (n : Nat) (f : TrackEntry → TrackEntry) :
    (s.updEntry n f).portLog = s.portLog := rfl
@[simp] theorem updEntry_pending (s : State) (n : Nat) (f : TrackEntry → TrackEntry) :
    (s.updEntry n f).pending = s.pending := rfl

@[simp] theorem updProgress_power (s : State) (n : Nat) (f : Progress → Progress) :
    (s.updProgress n f).power = s.power := rfl
@[simp] theorem updProgress_now (s : State) (n : Nat) (f : Progress → Progress) :
    (s.updProgress n f).now = s.now := rfl
@[simp] theorem updProgress_oru (s : State) (n : Nat) (f : Progress → Progress) :
    (s.updProgress n f).oru = s.oru := rfl
@[simp] theorem updProgress_fli (s : State) (n : Nat) (f : Progress → Progress) :
    (s.updProgress n f).fli = s.fli := rfl
@[simp] theorem updProgress_tsq (s : State) (n : Nat) (f : Progress → Progress) :
    (s.updProgress n f).tsq = s.tsq := rfl
@[simp] theorem updProgress_dfm (s : State) (n : Nat) (f : Progress → Progress) :
    (s.updProgress n f).dfm = s.dfm := rfl
@[simp] theorem updProgress_bct (s : State) (n : Nat) (f : Progress → Progress) :
    (s.updProgress n f).bct = s.bct := rfl
@[simp] theorem updProgress_pgs (s : State) (n : Nat) (f : Progress → Progress) :
    (s.updProgress n f).pgs = { s.pgs with progress := s.pgs.progress.modify n f } := rfl
@[simp] theorem updProgress_txe (s : State) (n : Nat) (f : Progress → Progress) :
    (s.updProgress n f).txe = s.txe := rfl
@[simp] theorem updProgress_ict (s : State) (n : Nat) (f : Progress → Progress) :
    (s.updProgress n f).ict = s.ict := rfl
@[simp] theorem updProgress_freeNext (s : State) (n : Nat) (f : Progress → Progress) :
    (s.updProgress n f).freeNext = s.freeNext := rfl
@[simp] theorem updProgress_portLog (s : State) (n : Nat) (f : Progress → Progress) :
    (s.updProgress n f).portLog = s.portLog := rfl
@[simp] theorem updProgress_pending (s : State) (n : Nat) (f : Progress → Progress) :
    (s.updProgress n f).pending = s.pending := rfl

@[simp] theorem updSlot_power (s : State) (n : Nat) (f : Slot → Slot) :
    (s.updSlot n f).power = s.power := rfl
@[simp] theorem updSlot_now (s : State) (n : Nat) (f : Slot → Slot) :
    (s.updSlot n f).now = s.now := rfl
@[simp] theorem updSlot_oru (s : State) (n : Nat) (f : Slot → Slot) :
    (s.updSlot n f).oru = s.oru := rfl
@[simp] theorem updSlot_fli (s : State) (n : Nat) (f : Slot → Slot) :
    (s.updSlot n f).fli = s.fli := rfl
@[simp] theorem updSlot_tsq (s : State) (n : Nat) (f : Slot → Slot) :
    (s.updSlot n f).tsq = s.tsq := rfl
@[simp] theorem updSlot_dfm (s : State) (n : Nat) (f : Slot → Slot) :
    (s.updSlot n f).dfm = s.dfm := rfl
@[simp] theorem updSlot_bct (s : State) (n : Nat) (f : Slot → Slot) :
    (s.updSlot n f).bct = s.bct := rfl
@[simp] theorem updSlot_pgs (s : State) (n : Nat) (f : Slot → Slot) :
    (s.updSlot n f).pgs = s.pgs := rfl
@[simp] theorem updSlot_txe (s : State) (n : Nat) (f : Slot → Slot) :
    (s.updSlot n f).txe = s.txe := rfl
@[simp] theorem updSlot_ict (s : State) (n : Nat) (f : Slot → Slot) :
    (s.updSlot n f).ict = { s.ict with slots := s.ict.slots.modify n f } := rfl
@[simp] theorem updSlot_freeNext (s : State) (n : Nat) (f : Slot → Slot) :
    (s.updSlot n f).freeNext = s.freeNext := rfl
@[simp] theorem updSlot_portLog (s : State) (n : Nat) (f : Slot → Slot) :
    (s.updSlot n f).portLog = s.portLog := rfl
@[simp] theorem updSlot_pending (s : State) (n : Nat) (f : Slot → Slot) :
    (s.updSlot n f).pending = s.pending := rfl

@[simp] theorem updCommit_power (s : State) (n : Nat) (f : CommitRec → CommitRec) :
    (s.updCommit n f).power = s.power := rfl
@[simp] theorem updCommit_now (s : State) (n : Nat) (f : CommitRec → CommitRec) :
    (s.updCommit n f).now = s.now := rfl
@[simp] theorem updCommit_oru (s : State) (n : Nat) (f : CommitRec → CommitRec) :
    (s.updCommit n f).oru = s.oru := rfl
@[simp] theorem updCommit_fli (s : State) (n : Nat) (f : CommitRec → CommitRec) :
    (s.updCommit n f).fli = s.fli := rfl
@[simp] theorem updCommit_tsq (s : State) (n : Nat) (f : CommitRec → CommitRec) :
    (s.updCommit n f).tsq = s.tsq := rfl
@[simp] theorem updCommit_dfm (s : State) (n : Nat) (f : CommitRec → CommitRec) :
    (s.updCommit n f).dfm = s.dfm := rfl
@[simp] theorem updCommit_bct (s : State) (n : Nat) (f : CommitRec → CommitRec) :
    (s.updCommit n f).bct = s.bct := rfl
@[simp] theorem updCommit_pgs (s : State) (n : Nat) (f : CommitRec → CommitRec) :
    (s.updCommit n f).pgs = s.pgs := rfl
@[simp] theorem updCommit_txe (s : State) (n : Nat) (f : CommitRec → CommitRec) :
    (s.updCommit n f).txe = s.txe := rfl
@[simp] theorem updCommit_ict (s : State) (n : Nat) (f : CommitRec → CommitRec) :
    (s.updCommit n f).ict = { s.ict with commits := updFirst (·.batch == n) f s.ict.commits } := rfl
@[simp] theorem updCommit_freeNext (s : State) (n : Nat) (f : CommitRec → CommitRec) :
    (s.updCommit n f).freeNext = s.freeNext := rfl
@[simp] theorem updCommit_portLog (s : State) (n : Nat) (f : CommitRec → CommitRec) :
    (s.updCommit n f).portLog = s.portLog := rfl
@[simp] theorem updCommit_pending (s : State) (n : Nat) (f : CommitRec → CommitRec) :
    (s.updCommit n f).pending = s.pending := rfl

@[simp] theorem updJob_power (s : State) (f : FillJob → FillJob) :
    (s.updJob f).power = s.power := rfl
@[simp] theorem updJob_now (s : State) (f : FillJob → FillJob) :
    (s.updJob f).now = s.now := rfl
@[simp] theorem updJob_oru (s : State) (f : FillJob → FillJob) :
    (s.updJob f).oru = s.oru := rfl
@[simp] theorem updJob_fli (s : State) (f : FillJob → FillJob) :
    (s.updJob f).fli = s.fli := rfl
@[simp] theorem updJob_tsq (s : State) (f : FillJob → FillJob) :
    (s.updJob f).tsq = s.tsq := rfl
@[simp] theorem updJob_dfm (s : State) (f : FillJob → FillJob) :
    (s.updJob f).dfm = s.dfm := rfl
@[simp] theorem updJob_bct (s : State) (f : FillJob → FillJob) :
    (s.updJob f).bct = { s.bct with fill := s.bct.fill.map f } := rfl
@[simp] theorem updJob_pgs (s : State) (f : FillJob → FillJob) :
    (s.updJob f).pgs = s.pgs := rfl
@[simp] theorem updJob_txe (s : State) (f : FillJob → FillJob) :
    (s.updJob f).txe = s.txe := rfl
@[simp] theorem updJob_ict (s : State) (f : FillJob → FillJob) :
    (s.updJob f).ict = s.ict := rfl
@[simp] theorem updJob_freeNext (s : State) (f : FillJob → FillJob) :
    (s.updJob f).freeNext = s.freeNext := rfl
@[simp] theorem updJob_portLog (s : State) (f : FillJob → FillJob) :
    (s.updJob f).portLog = s.portLog := rfl
@[simp] theorem updJob_pending (s : State) (f : FillJob → FillJob) :
    (s.updJob f).pending = s.pending := rfl

@[simp] theorem updChan_power (s : State) (c : ChanId) (f : Channel → Channel) :
    (s.updChan c f).power = s.power := by cases c <;> rfl
@[simp] theorem updChan_now (s : State) (c : ChanId) (f : Channel → Channel) :
    (s.updChan c f).now = s.now := by cases c <;> rfl
@[simp] theorem updChan_oru (s : State) (c : ChanId) (f : Channel → Channel) :
    (s.updChan c f).oru = s.oru := by cases c <;> rfl
@[simp] theorem updChan_fli (s : State) (c : ChanId) (f : Channel → Channel) :
    (s.updChan c f).fli = s.fli := by cases c <;> rfl
@[simp] theorem updChan_tsq (s : State) (c : ChanId) (f : Channel → Channel) :
    (s.updChan c f).tsq = s.tsq := by cases c <;> rfl
@[simp] theorem updChan_dfm (s : State) (c : ChanId) (f : Channel → Channel) :
    (s.updChan c f).dfm = s.dfm := by cases c <;> rfl
@[simp] theorem updChan_bct (s : State) (c : ChanId) (f : Channel → Channel) :
    (s.updChan c f).bct = s.bct := by cases c <;> rfl
@[simp] theorem updChan_pgs (s : State) (c : ChanId) (f : Channel → Channel) :
    (s.updChan c f).pgs = s.pgs := by cases c <;> rfl
@[simp] theorem updChan_ict (s : State) (c : ChanId) (f : Channel → Channel) :
    (s.updChan c f).ict = s.ict := by cases c <;> rfl
@[simp] theorem updChan_freeNext (s : State) (c : ChanId) (f : Channel → Channel) :
    (s.updChan c f).freeNext = s.freeNext := by cases c <;> rfl
@[simp] theorem updChan_portLog (s : State) (c : ChanId) (f : Channel → Channel) :
    (s.updChan c f).portLog = s.portLog := by cases c <;> rfl
@[simp] theorem updChan_pending (s : State) (c : ChanId) (f : Channel → Channel) :
    (s.updChan c f).pending = s.pending := by cases c <;> rfl
@[simp] theorem updChan_a_txe (s : State) (f : Channel → Channel) :
    (s.updChan .a f).txe = { s.txe with chanA := f s.txe.chanA } := rfl
@[simp] theorem updChan_b_txe (s : State) (f : Channel → Channel) :
    (s.updChan .b f).txe = { s.txe with chanB := f s.txe.chanB } := rfl
@[simp] theorem updChan_chan (s : State) (c : ChanId) (f : Channel → Channel) :
    (s.updChan c f).chan c = f (s.chan c) := by cases c <;> rfl

/-! ## A keyed update of a table -/

@[simp] theorem updFirst_nil {α : Type} (p : α → Bool) (f : α → α) : updFirst p f [] = [] := rfl

@[simp] theorem updFirst_length {α : Type} (p : α → Bool) (f : α → α) (xs : List α) :
    (updFirst p f xs).length = xs.length := by
  induction xs with
  | nil => rfl
  | cons x xs ih => unfold updFirst; split <;> simp [ih]

/-- An update that keeps a projection leaves the list of its values. -/
theorem updFirst_map {α β : Type} (p : α → Bool) (f : α → α) (g : α → β) (h : ∀ x, p x → g (f x) = g x)
    (xs : List α) : (updFirst p f xs).map g = xs.map g := by
  induction xs with
  | nil => rfl
  | cons x xs ih =>
    unfold updFirst
    split
    · rename_i hp; simp [h x hp]
    · simp [ih]

/-- What an update leaves is an old element or a changed one. -/
theorem mem_updFirst {α : Type} (p : α → Bool) (f : α → α) (xs : List α) (y : α) (h : y ∈ updFirst p f xs) :
    y ∈ xs ∨ ∃ x ∈ xs, p x ∧ y = f x := by
  induction xs with
  | nil => simp at h
  | cons x xs ih =>
    unfold updFirst at h
    split at h
    · rename_i hp
      rcases List.mem_cons.mp h with h | h
      · exact Or.inr ⟨x, List.mem_cons_self .., hp, h⟩
      · exact Or.inl (List.mem_cons_of_mem _ h)
    · rcases List.mem_cons.mp h with h | h
      · exact Or.inl (h ▸ List.mem_cons_self ..)
      · rcases ih h with h | ⟨z, hz, hp, e⟩
        · exact Or.inl (List.mem_cons_of_mem _ h)
        · exact Or.inr ⟨z, List.mem_cons_of_mem _ hz, hp, e⟩

/-- The first element that meets the test, after an update that keeps the test. -/
theorem find?_updFirst {α : Type} (p : α → Bool) (f : α → α) (h : ∀ x, p x → p (f x)) (xs : List α) :
    (updFirst p f xs).find? p = (xs.find? p).map f := by
  induction xs with
  | nil => rfl
  | cons x xs ih =>
    unfold updFirst
    by_cases hp : p x = true
    · simp [hp, h x hp]
    · simp [hp, ih]

end Sys2Proof.Machine
end

