-- ==== Sys2Proof/Laws/Frees.lean ====
section
/-! SUPPORT. Which page records a free leaves: the tests that follow it change no record. -/

namespace Sys2Proof.Machine

set_option Elab.async false

variable (s : State)

theorem hand_pgs (d t : Nat) (p : Payload) : (hand d t p s).pgs = s.pgs := by
  unfold hand; repeat' split
  all_goals rfl

theorem ask_pgs (d : Nat) (p : Payload) : (ask d p s).pgs = s.pgs := hand_pgs _ _ _ _

theorem raise_pgs (c : Attn) : (raise c s).pgs = s.pgs := by
  unfold raise; repeat' split
  all_goals first
    | rfl
    | exact hand_pgs _ _ _ _

theorem hold_pgs (r : HoldReason) : (hold r s).pgs = s.pgs := by
  unfold hold; repeat' split
  all_goals exact raise_pgs _ _

theorem handshakeTest_pgs : (handshakeTest s).pgs = s.pgs := by
  unfold handshakeTest startHandshake; repeat' split
  all_goals rfl

theorem pickTest_recs : (pickTest s).pgs.recs = s.pgs.recs := by
  unfold pickTest; repeat' split
  all_goals first
    | rfl
    | (unfold pickLearn decideRoute; rw [handshakeTest_pgs]; rfl)

theorem levelTest_recs : (levelTest s).pgs.recs = s.pgs.recs := by
  unfold levelTest; repeat' split
  all_goals first
    | rfl
    | (unfold resumeSignal; rw [pickTest_recs]; rfl)

theorem closeTest_pgs (b : Nat) : (closeTest b s).pgs = s.pgs := by
  unfold closeTest; repeat' split
  all_goals first
    | rfl
    | (unfold sendClose; rw [ask_pgs]; rfl)

theorem endedTest_pgs (b : Nat) : (endedTest b s).pgs = s.pgs := by
  unfold endedTest; repeat' split
  all_goals first
    | rfl
    | (rw [closeTest_pgs]; rfl)

theorem haltEndTest_pgs (b : Nat) : (haltEndTest b s).pgs = s.pgs := by
  unfold haltEndTest; repeat' split
  all_goals first
    | rfl
    | (rw [endedTest_pgs]; rfl)

/-- A free takes its record out and leaves every other as it is. -/
theorem freeRec_recs (id : Nat) : (freeRec id s).pgs.recs = s.pgs.recs.eraseP (·.id == id) := by
  unfold freeRec
  split
  · rename_i h
    refine (List.eraseP_of_forall_not fun r hr => ?_).symm
    exact List.find?_eq_none.mp h r hr
  · rename_i r h
    dsimp only
    have hl := levelTest_recs (s.modPgs fun g => unqueue id { g with
      recs := g.recs.eraseP (·.id == id)
      recPool := g.recPool ++ [id]
      freeRecs := g.freeRecs + 1
      freeBlocks := g.freeBlocks + r.blocks.length })
    repeat' split
    all_goals first
      | exact hl
      | (rw [closeTest_pgs]; first | exact hl | (rw [haltEndTest_pgs]; exact hl))
      | (rw [haltEndTest_pgs]; exact hl)

/-- Frees of several records, of a store without two records of one identifier. -/
theorem freeAll_recs (ids : List Nat) (s : State) (hn : (s.pgs.recs.map (·.id)).Nodup) :
    (ids.foldl (fun u id => freeRec id u) s).pgs.recs = s.pgs.recs.filter fun r => !ids.contains r.id := by
  induction ids generalizing s with
  | nil => simp
  | cons id ids ih =>
    have he : s.pgs.recs.eraseP (·.id == id) = s.pgs.recs.filter fun r => !(r.id == id) := by
      generalize s.pgs.recs = l at hn
      induction l with
      | nil => rfl
      | cons r l ih =>
        obtain ⟨h1, h2⟩ := List.nodup_cons.mp hn
        by_cases h : r.id = id
        · subst h
          have : l.filter (fun x => !(x.id == r.id)) = l := List.filter_eq_self.mpr fun x hx => by
            simpa using fun hc => h1 (List.mem_map.mpr ⟨x, hx, hc⟩)
          simp [this]
        · simp [h, ih h2]
    rw [List.foldl_cons, ih, freeRec_recs, he, List.filter_filter]
    · congr 1; funext r
      by_cases h : r.id = id <;> simp [h]
    · rw [freeRec_recs, he]
      exact hn.sublist (List.filter_sublist.map _)

end Sys2Proof.Machine
end

