-- ==== Sys2Proof/Laws/Memory.lean ====
section
/-! SUPPORT. The laws of a byte memory: what a write leaves to be read, and that it keeps the canonical form. -/

namespace Sys2Proof.Machine

theorem read_unlisted (m : Memory) (a : Nat) (h : ∀ c ∈ m, c.1 ≠ a) : Memory.read m a = Config.unwritten := by
  induction m with
  | nil => rfl
  | cons c m ih =>
    obtain ⟨b, v⟩ := c
    have hb : a ≠ b := fun e => h (b, v) (List.mem_cons_self ..) e.symm
    simp only [Memory.read, hb, if_false]
    exact ih fun c hc => h c (List.mem_cons_of_mem _ hc)

/-- A write changes no other byte, whatever the memory's form. -/
theorem read_write_other (m : Memory) (a b : Nat) (v : Byte) (hne : b ≠ a) :
    (Memory.write m a v).read b = Memory.read m b := by
  induction m with
  | nil =>
    by_cases hv : v = Config.unwritten
    · simp [Memory.write, hv]
    · simp [Memory.write, hv, Memory.read, hne]
  | cons c m ih =>
    obtain ⟨x, w⟩ := c
    by_cases h1 : a < x
    · by_cases hv : v = Config.unwritten
      · simp [Memory.write, h1, hv]
      · simp [Memory.write, h1, hv, Memory.read, hne]
    · by_cases h2 : a = x
      · subst h2
        by_cases hv : v = Config.unwritten
        · simp [Memory.write, hv, Memory.read, hne]
        · simp [Memory.write, hv, Memory.read, hne]
      · simp only [Memory.write, h1, if_false, h2, Memory.read, ih]

/-- In canonical form, a byte written is read. -/
theorem read_write_same (m : Memory) (hm : m.wf) (a : Nat) (v : Byte) : (Memory.write m a v).read a = v := by
  induction m with
  | nil =>
    by_cases hv : v = Config.unwritten
    · simp [Memory.write, hv, Memory.read]
    · simp [Memory.write, hv, Memory.read]
  | cons c m ih =>
    obtain ⟨x, w⟩ := c
    obtain ⟨hp, hu⟩ := hm
    have hx := List.pairwise_cons.mp hp
    by_cases h1 : a < x
    · by_cases hv : v = Config.unwritten
      · subst hv
        simp only [Memory.write, h1, if_true]
        apply read_unlisted
        intro c hc
        rcases List.mem_cons.mp hc with rfl | hc
        · exact Nat.ne_of_gt h1
        · exact Nat.ne_of_gt (Nat.lt_trans h1 (hx.1 c hc))
      · simp [Memory.write, h1, hv, Memory.read]
    · by_cases h2 : a = x
      · subst h2
        by_cases hv : v = Config.unwritten
        · subst hv
          simp only [Memory.write, lt_irrefl, if_false, if_true]
          exact read_unlisted _ _ fun c hc => Nat.ne_of_gt (hx.1 c hc)
        · simp [Memory.write, hv, Memory.read]
      · simp only [Memory.write, h1, if_false, h2, Memory.read]
        exact ih ⟨hx.2, fun c hc => hu c (List.mem_cons_of_mem _ hc)⟩

/-- The addresses after a write are the old ones and the address written. -/
theorem mem_write (m : Memory) (a : Nat) (v : Byte) (c : Host.Cell) (h : c ∈ Memory.write m a v) :
    c ∈ m ∨ (c = (a, v) ∧ v ≠ Config.unwritten) := by
  induction m with
  | nil =>
    by_cases hv : v = Config.unwritten
    · simp [Memory.write, hv] at h
    · simp [Memory.write, hv] at h; exact Or.inr ⟨h, hv⟩
  | cons d m ih =>
    obtain ⟨x, w⟩ := d
    simp only [Memory.write] at h
    split at h
    · split at h
      · exact Or.inl h
      · rename_i hv
        rcases List.mem_cons.mp h with h | h
        · exact Or.inr ⟨h, hv⟩
        · exact Or.inl h
    · split at h
      · split at h
        · exact Or.inl (List.mem_cons_of_mem _ h)
        · rename_i hv
          rcases List.mem_cons.mp h with h | h
          · exact Or.inr ⟨h, hv⟩
          · exact Or.inl (List.mem_cons_of_mem _ h)
      · rcases List.mem_cons.mp h with h | h
        · exact Or.inl (h ▸ List.mem_cons_self ..)
        · rcases ih h with h | h
          · exact Or.inl (List.mem_cons_of_mem _ h)
          · exact Or.inr h

/-- A write keeps the canonical form. -/
theorem write_wf (m : Memory) (hm : m.wf) (a : Nat) (v : Byte) : (Memory.write m a v).wf := by
  refine ⟨?_, fun c hc => ?_⟩
  · induction m with
    | nil => by_cases hv : v = Config.unwritten <;> simp [Memory.write, hv]
    | cons d m ih =>
      obtain ⟨x, w⟩ := d
      obtain ⟨hp, hu⟩ := hm
      have hx := List.pairwise_cons.mp hp
      have ih := ih ⟨hx.2, fun c hc => hu c (List.mem_cons_of_mem _ hc)⟩
      simp only [Memory.write]
      split
      · rename_i h1
        split
        · exact hp
        · refine List.pairwise_cons.mpr ⟨fun c hc => ?_, hp⟩
          rcases List.mem_cons.mp hc with rfl | hc
          · exact h1
          · exact Nat.lt_trans h1 (hx.1 c hc)
      · rename_i h1
        split
        · rename_i h2
          split
          · exact hx.2
          · exact List.pairwise_cons.mpr ⟨fun c hc => h2 ▸ hx.1 c hc, hx.2⟩
        · rename_i h2
          refine List.pairwise_cons.mpr ⟨fun c hc => ?_, ih⟩
          rcases mem_write m a v c hc with hc | hc
          · exact hx.1 c hc
          · rw [hc.1]; show x < a; omega
  · rcases mem_write m a v c hc with hc | hc
    · exact hm.2 c hc
    · rw [hc.1]; exact hc.2

theorem writeRun_wf (bytes : List Byte) (m : Memory) (blocks : List Nat) (off : Nat) (hm : m.wf) :
    (Memory.writeRun m blocks off bytes).wf := by
  induction bytes generalizing m off with
  | nil => exact hm
  | cons v vs ih => exact ih _ _ (write_wf m hm _ v)

/-- A run of writes changes no byte outside its addresses. -/
theorem read_writeRun_other (bytes : List Byte) (m : Memory) (blocks : List Nat) (off b : Nat)
    (h : ∀ k < bytes.length, b ≠ blockAddr blocks (off + k)) :
    (Memory.writeRun m blocks off bytes).read b = Memory.read m b := by
  induction bytes generalizing m off with
  | nil => rfl
  | cons v vs ih =>
    have h0 : b ≠ blockAddr blocks off := h 0 (Nat.succ_pos _)
    rw [Memory.writeRun, ih _ _ fun k hk => ?_, read_write_other m _ b v h0]
    have := h (k + 1) (Nat.succ_lt_succ hk)
    rwa [Nat.add_right_comm, Nat.add_assoc]

end Sys2Proof.Machine
end

