-- ==== Sys2Proof/Laws/Keeps.lean ====
section
/-! SUPPORT. What every operation of the part keeps, said once per operation: `Keeps s t` holds when `t` has the
fixed fields of `s` (role, address, settings, power, the waiting commands), a clock not earlier, and every
bound and account of Safety that `s` has. Each lemma adds one operation behind a state already reached. -/

namespace Sys2Proof.Machine

set_option Elab.async false

/-- The fixed fields stay and every bound and account that held still holds. -/
structure Keeps (s t : State) : Prop where
  power    : t.power = s.power
  pending  : t.pending = s.pending
  address  : t.oru.address = s.oru.address
  role     : t.oru.role = s.oru.role
  settings : t.oru.settings = s.oru.settings
  clock    : s.now ≤ t.now
  queues   : s.fli.queuesBounded → t.fli.queuesBounded
  track    : s.tsq.trackBounded → t.tsq.trackBounded
  pages    : s.pgs.accounted → t.pgs.accounted
  intake   : s.ict.accounted → t.ict.accounted
  commits  : s.ict.committing → t.ict.committing
  tables   : s.bct.bounded → t.bct.bounded
  sized    : s.sized → t.sized
  own      : ∀ but, s.ownListed but → t.ownListed but
  mems     : s.memoriesWf → t.memoriesWf

theorem Keeps.refl (s : State) : Keeps s s :=
  ⟨rfl, rfl, rfl, rfl, rfl, le_refl _, id, id, id, id, id, id, id, fun _ => id, id⟩

theorem Keeps.trans {s t u : State} (h : Keeps s t) (k : Keeps t u) : Keeps s u :=
  ⟨k.power.trans h.power, k.pending.trans h.pending, k.address.trans h.address, k.role.trans h.role,
    k.settings.trans h.settings, le_trans h.clock k.clock, k.queues ∘ h.queues, k.track ∘ h.track,
    k.pages ∘ h.pages, k.intake ∘ h.intake, k.commits ∘ h.commits, k.tables ∘ h.tables, k.sized ∘ h.sized, fun b => k.own b ∘ h.own b, k.mems ∘ h.mems⟩

/-- The invariant goes with it. -/
theorem Keeps.inv {s t : State} (h : Keeps s t) (i : s.Inv) : t.Inv :=
  ⟨h.queues i.queues, h.track i.track, h.pages i.pages, h.intake i.intake, h.commits i.commits,
    h.tables i.tables, h.sized i.sized, h.own [] i.own,
    h.mems i.mems⟩

variable {s u : State}

theorem keeps_foldl {α : Type} (f : State → α → State) (hf : ∀ u a, Keeps u (f u a)) (l : List α)
    (h : Keeps s u) : Keeps s (l.foldl f u) := by
  induction l generalizing u with
  | nil => exact h
  | cons a l ih => exact ih (h.trans (hf u a))

theorem keeps_ite {c : Prop} [Decidable c] {a b : State} (ha : Keeps s a) (hb : Keeps s b) :
    Keeps s (if c then a else b) := by split <;> assumption

/-! ## One block changed -/

theorem keeps_modOru (f : Oru → Oru)
    (hf : ∀ o, (f o).address = o.address ∧ (f o).role = o.role ∧ (f o).settings = o.settings)
    (h : Keeps s u) : Keeps s (u.modOru f) :=
  h.trans ⟨rfl, rfl, (hf _).1, (hf _).2.1, (hf _).2.2, le_refl _, id, id, id, id, id, id, fun z => ⟨z.1, z.2, z.3⟩,
    fun _ k d hd ho => k d hd (ho.trans (hf _).1), id⟩

theorem keeps_modFli (f : Fli → Fli) (hf : u.fli.queuesBounded → (f u.fli).queuesBounded) (h : Keeps s u)
    (hp : (f u.fli).peers.length = u.fli.peers.length := by first | rfl | simp) :
    Keeps s (u.modFli f) :=
  h.trans ⟨rfl, rfl, rfl, rfl, rfl, le_refl _, hf, id, id, id, id, id, fun z => ⟨hp.trans z.1, z.2, z.3⟩,
    fun _ => id, id⟩

theorem keeps_modTsq (f : Tsq → Tsq) (hf : u.tsq.trackBounded → (f u.tsq).trackBounded) (h : Keeps s u) :
    Keeps s (u.modTsq f) :=
  h.trans ⟨rfl, rfl, rfl, rfl, rfl, le_refl _, id, hf, id, id, id, id, fun z => ⟨z.1, z.2, z.3⟩, fun _ => id, id⟩

theorem keeps_modDfm (f : Dfm → Dfm) (h : Keeps s u)
    (hp : (f u.dfm).exemptions.length = u.dfm.exemptions.length := by first | rfl | simp) : Keeps s (u.modDfm f) :=
  h.trans ⟨rfl, rfl, rfl, rfl, rfl, le_refl _, id, id, id, id, id, id, fun z => ⟨z.1, hp.trans z.2, z.3⟩,
    fun _ => id, id⟩

theorem keeps_modTxe (f : Txe → Txe) (h : Keeps s u) : Keeps s (u.modTxe f) :=
  h.trans ⟨rfl, rfl, rfl, rfl, rfl, le_refl _, id, id, id, id, id, id, fun z => ⟨z.1, z.2, z.3⟩, fun _ => id, id⟩

theorem keeps_modPgs (f : Pgs → Pgs) (hf : u.pgs.accounted → (f u.pgs).accounted)
    (hm : u.pgs.mem.wf → (f u.pgs).mem.wf) (h : Keeps s u)
    (hp : u.pgs.progress.length = 8 → (f u.pgs).progress.length = 8 := by first | exact fun z => z | exact fun z => (List.length_modify ..).trans z) :
    Keeps s (u.modPgs f) :=
  h.trans ⟨rfl, rfl, rfl, rfl, rfl, le_refl _, id, id, hf, id, id, id, fun z => ⟨z.1, z.2, hp z.3⟩, fun _ => id,
    fun m => ⟨hm m.1, m.2⟩⟩

theorem keeps_modIct (f : Ict → Ict) (hf : u.ict.accounted → (f u.ict).accounted)
    (hm : u.ict.mem.wf → (f u.ict).mem.wf) (h : Keeps s u)
    (hc : u.ict.committing → (f u.ict).committing := by exact fun c => ⟨c.1, c.2⟩) : Keeps s (u.modIct f) :=
  h.trans ⟨rfl, rfl, rfl, rfl, rfl, le_refl _, id, id, id, hf, hc, id, fun z => ⟨z.1, z.2, z.3⟩, fun _ => id,
    fun m => ⟨m.1, hm m.2⟩⟩

theorem keeps_modBct (f : Bct → Bct) (hf : u.bct.bounded → (f u.bct).bounded)
    (ho : ∀ but, u.ownListed but → (u.modBct f).ownListed but) (h : Keeps s u) : Keeps s (u.modBct f) :=
  h.trans ⟨rfl, rfl, rfl, rfl, rfl, le_refl _, id, id, id, id, id, hf, fun z => ⟨z.1, z.2, z.3⟩, ho, id⟩

theorem keeps_drive (o : PortOut) (h : Keeps s u) : Keeps s (u.drive o) :=
  h.trans ⟨rfl, rfl, rfl, rfl, rfl, le_refl _, id, id, id, id, id, id, fun z => ⟨z.1, z.2, z.3⟩, fun _ => id, id⟩

theorem keeps_advanceTo (t : Nat) (h : Keeps s u) : Keeps s (u.advanceTo t) :=
  h.trans ⟨rfl, rfl, rfl, rfl, rfl, le_max_left _ _, id, id, id, id, id, id, fun z => ⟨z.1, z.2, z.3⟩,
    fun _ => id, id⟩

theorem keeps_freeNext (n : Nat) (h : Keeps s u) : Keeps s { u with freeNext := n } :=
  h.trans ⟨rfl, rfl, rfl, rfl, rfl, le_refl _, id, id, id, id, id, id, fun z => ⟨z.1, z.2, z.3⟩, fun _ => id, id⟩

theorem keeps_updChan (c : ChanId) (f : Channel → Channel) (h : Keeps s u) : Keeps s (u.updChan c f) := by
  cases c
  · exact keeps_modTxe (fun t => { t with chanA := f t.chanA }) h
  · exact keeps_modTxe (fun t => { t with chanB := f t.chanB }) h

theorem keeps_updEntry (tag : Nat) (f : TrackEntry → TrackEntry) (h : Keeps s u) : Keeps s (u.updEntry tag f) :=
  keeps_modTsq _ (fun k => by simpa [Tsq.trackBounded] using k) h

/-! ## Frames handed (R103, R104) -/

/-- A frame joins the transmit control queue only while that has room, and nothing else of the state is
touched. -/
theorem keeps_hand (dst tag : Nat) (p : Payload) (h : Keeps s u) : Keeps s (hand dst tag p u) := by
  unfold hand
  split <;> first
    | exact keeps_modFli _ (fun h => h) h
    | (split
       · rename_i hl
         exact keeps_modFli _ (fun k => ⟨by simpa using hl, k.2⟩) h
       · exact keeps_modFli _ (fun h => h) h)

theorem keeps_tell (dst : Nat) (p : Payload) (h : Keeps s u) : Keeps s (tell dst p u) := keeps_hand _ _ _ h

theorem keeps_ask (dst : Nat) (p : Payload) (h : Keeps s u) : Keeps s (ask dst p u) :=
  keeps_hand _ _ _ (keeps_modFli _ (fun h => h) h)

/-! ## Attention (R187) -/

theorem keeps_raise (c : Attn) (h : Keeps s u) : Keeps s (raise c u) := by
  unfold raise
  split
  · exact keeps_tell _ _ (keeps_modOru _ (fun _ => ⟨rfl, rfl, rfl⟩) h)
  · exact keeps_modOru _ (fun _ => ⟨rfl, rfl, rfl⟩) h

/-! ## Batch records and the fill job -/

/-- A change of a batch record that keeps its number, makes nothing live and nothing terminal, and keeps the
order of its holes. -/
structure RecOk (f : BatchRec → BatchRec) : Prop where
  number   : ∀ r, (f r).number = r.number
  live     : ∀ r, (f r).live = true → r.live = true
  terminal : ∀ r, r.state.terminal = false → (f r).state.terminal = false
  holes    : ∀ r, holesRising r.holes → holesRising (f r).holes

theorem numbers_updFirst (n : Nat) (f : BatchRec → BatchRec) (hf : ∀ r, r.number = n → (f r).number = r.number)
    (l : List BatchRec) : (updFirst (·.number == n) f l).map (·.number) = l.map (·.number) :=
  updFirst_map _ _ _ (fun r hr => hf r (by simpa using hr)) l

theorem live_updFirst (n : Nat) (f : BatchRec → BatchRec) (hf : ∀ r, r.number = n → (f r).live = true → r.live = true)
    (l : List BatchRec) : (updFirst (·.number == n) f l).countP (·.live) ≤ l.countP (·.live) := by
  induction l with
  | nil => simp
  | cons r l ih =>
    unfold updFirst
    split
    · rename_i hr
      simp only [List.countP_cons]
      have := hf r (by simpa using hr)
      by_cases h1 : (f r).live = true
      · simp [h1, this h1]
      · simp [h1]
    · simp only [List.countP_cons]; omega

/-- A record that meets a test stays listed, under its number, when the change keeps the test. -/
theorem listed_updFirst (n b : Nat) (f : BatchRec → BatchRec) (hn : ∀ r, r.number = n → (f r).number = r.number)
    (ht : ∀ r, r.number = n → n = b → r.state.terminal = false → (f r).state.terminal = false) (l : List BatchRec)
    (h : ∃ r ∈ l, r.number = b ∧ r.state.terminal = false) :
    ∃ r ∈ updFirst (·.number == n) f l, r.number = b ∧ r.state.terminal = false := by
  induction l with
  | nil => simp at h
  | cons x l ih =>
    obtain ⟨r, hr, hb, hs⟩ := h
    unfold updFirst
    by_cases hx : x.number = n
    · simp only [hx, beq_self_eq_true, if_true]
      rcases List.mem_cons.mp hr with rfl | hr
      · exact ⟨f r, List.mem_cons_self .., by rw [hn _ hx]; exact hb, ht _ hx (hx ▸ hb) hs⟩
      · exact ⟨r, List.mem_cons_of_mem _ hr, hb, hs⟩
    · have hx' : (x.number == n) = false := by simpa using hx
      simp only [hx']
      rcases List.mem_cons.mp hr with rfl | hr
      · exact ⟨r, List.mem_cons_self .., hb, hs⟩
      · obtain ⟨y, hy, h⟩ := ih ⟨r, hr, hb, hs⟩
        exact ⟨y, List.mem_cons_of_mem _ hy, h⟩

/-- The holes of every record stay in order when the changed record's do. -/
theorem holes_updFirst (n : Nat) (f : BatchRec → BatchRec) (l : List BatchRec)
    (hf : ∀ r ∈ l, r.number = n → holesRising r.holes → holesRising (f r).holes)
    (h : ∀ r ∈ l, holesRising r.holes) : ∀ r ∈ updFirst (·.number == n) f l, holesRising r.holes := by
  intro r hr
  rcases mem_updFirst _ _ _ _ hr with hr | ⟨x, hx, hn, rfl⟩
  · exact h r hr
  · exact hf x hx (by simpa using hn) (h x hx)

/-- The table after a change of one record. -/
theorem bounded_updFirst {b : Bct} (n : Nat) (f : BatchRec → BatchRec)
    (hn : ∀ r, r.number = n → (f r).number = r.number)
    (hl : ∀ r, r.number = n → (f r).live = true → r.live = true)
    (hh : ∀ r ∈ b.batches, r.number = n → holesRising r.holes → holesRising (f r).holes)
    (h : b.bounded) : ({ b with batches := updFirst (·.number == n) f b.batches } : Bct).bounded :=
  ⟨by simpa using h.table, by rw [numbers_updFirst n f hn]; exact h.numbers,
    le_trans (live_updFirst n f hl _) h.oneLive, holes_updFirst n f _ hh h.holes, h.room, h.known, h.granted,
    h.distinct⟩

theorem keeps_updBatch (n : Nat) (f : BatchRec → BatchRec) (hf : RecOk f) (h : Keeps s u) :
    Keeps s (u.updBatch n f) :=
  keeps_modBct _ (bounded_updFirst n f (fun r _ => hf.number r) (fun r _ => hf.live r) (fun r _ _ => hf.holes r))
    (fun _ k d hd ho hb => listed_updFirst n d.batch f (fun r _ => hf.number r) (fun r _ _ => hf.terminal r) _
      (k d hd ho hb)) h

/-- A change of the fill job that keeps its granted list bounded and without a position twice. -/
def JobOk (f : FillJob → FillJob) : Prop :=
  ∀ j, j.granted.length ≤ Config.grantEntries ∧ (j.granted.map (·.position)).Nodup →
    (f j).granted.length ≤ Config.grantEntries ∧ ((f j).granted.map (·.position)).Nodup

theorem keeps_updJob (f : FillJob → FillJob) (hf : JobOk f) (h : Keeps s u) : Keeps s (u.updJob f) := by
  refine keeps_modBct _ (fun k => ⟨k.table, k.numbers, k.oneLive, k.holes, k.room, k.known, ?_, ?_⟩) (fun _ => id) h
  all_goals
    intro j hj
    obtain ⟨i, hi, rfl⟩ := Option.map_eq_some_iff.mp hj
  · exact (hf i ⟨k.granted i hi, k.distinct i hi⟩).1
  · exact (hf i ⟨k.granted i hi, k.distinct i hi⟩).2

theorem keeps_setFill (f : Bct → Bct)
    (hf : ∀ b, (f b).batches = b.batches ∧ (f b).directory = b.directory ∧
      ((f b).fill = none ∨ ∃ j, (f b).fill = some j ∧ j.granted = []))
    (h : Keeps s u) : Keeps s (u.modBct f) := by
  refine keeps_modBct _ (fun k => ?_) (fun _ k d hd => ?_) h
  · obtain ⟨h1, h2, h3⟩ := hf u.bct
    refine ⟨h1 ▸ k.table, h1 ▸ k.numbers, h1 ▸ k.oneLive, h1 ▸ k.holes, h2 ▸ k.room, h2 ▸ k.known, ?_, ?_⟩
    all_goals
      intro j hj
      rcases h3 with h3 | ⟨i, h3, hi⟩
      · rw [h3] at hj; exact absurd hj (by simp)
      · rw [h3] at hj; cases hj; simp [hi]
  · obtain ⟨h1, h2, _⟩ := hf u.bct
    simp only [modBct_bct, modBct_oru, h1, h2] at hd ⊢
    exact k d hd

end Sys2Proof.Machine
end

