-- ==== Sys2Proof/Laws/Discards.lean ====
section
/-! SUPPORT. What freeing and discarding page records does to the rest of the machine: which records stay, which
descriptors stay, and what becomes of the failed page count and the state of their batch (R22, R90, R131). -/

namespace Sys2Proof.Machine

set_option Elab.async false

/-! ## What a level test leaves (R92) -/

/-- A level test and the pick it may give leave every block but TSQ, DFM and PGS, and bind no sheet to a batch that is
not ACTIVE. -/
structure Levelled (s t : State) : Prop where
  bct : t.bct = s.bct
  txe : t.txe = s.txe
  fli : t.fli = s.fli
  bound : ∀ b, (∀ x, s.findBatch b = some x → x.state ≠ .active) →
    t.tsq.track.any (·.boundTo b) = s.tsq.track.any (·.boundTo b)

theorem Levelled.refl (s : State) : Levelled s s := ⟨rfl, rfl, rfl, fun _ _ => rfl⟩

theorem updFirst_any {α : Type} (p q : α → Bool) (f : α → α) (hf : ∀ x, q (f x) = q x) (l : List α) :
    (updFirst p f l).any q = l.any q := by
  induction l with
  | nil => rfl
  | cons x l ih => simp only [updFirst]; split <;> simp [hf, ih]

theorem Levelled.trans {s t u : State} (h : Levelled s t) (k : Levelled t u) : Levelled s u :=
  ⟨k.bct.trans h.bct, k.txe.trans h.txe, k.fli.trans h.fli, fun b hb => (k.bound b fun x hx => hb x (by
    unfold State.findBatch at hx ⊢; rw [← h.bct]; exact hx)).trans (h.bound b hb)⟩

theorem updEntry_levelled (tag : Nat) (f : TrackEntry → TrackEntry) (hf : ∀ b e, (f e).boundTo b = e.boundTo b)
    (s : State) : Levelled s (s.updEntry tag f) :=
  ⟨rfl, rfl, rfl, fun b _ =>
    updFirst_any (fun e : TrackEntry => e.tag == tag) (fun e => e.boundTo b) f (hf b) s.tsq.track⟩

theorem handshakeTest_levelled (s : State) : Levelled s (handshakeTest s) := by
  unfold handshakeTest startHandshake
  repeat' split
  all_goals first
    | exact Levelled.refl s
    | exact updEntry_levelled _ (fun e => { e with routeSettled := true }) (fun _ _ => rfl) s
    | exact ⟨rfl, rfl, rfl, fun _ _ => rfl⟩

theorem pickSheet_levelled (k : Binding) (snap : AttrSet) (s : State)
    (hk : ∀ b, (∀ x, s.findBatch b = some x → x.state ≠ .active) → k ≠ .batch b) :
    Levelled s (pickSheet k snap s) := by
  refine ⟨rfl, rfl, rfl, fun b hb => ?_⟩
  show (s.tsq.track ++ [_]).any (fun e => e.boundTo b) = s.tsq.track.any fun e => e.boundTo b
  rw [List.any_append]
  have := hk b hb
  simp [TrackEntry.boundTo, this]

theorem pickLearn_levelled (l : Learn) (s : State) : Levelled s (pickLearn l s) := by
  unfold pickLearn decideRoute
  dsimp only
  have h := pickSheet_levelled .learn (learnSnap l.bank s.oru.settings.toleranceDefault) s fun _ _ => by simp
  have h2 := h.trans (t := pickSheet .learn (learnSnap l.bank s.oru.settings.toleranceDefault) s)
    (u := ((pickSheet .learn (learnSnap l.bank s.oru.settings.toleranceDefault) s).modDfm fun d => { d with
      learn := some { l with phase := .picked } }).modTsq fun t => { t with transport := .draining })
    ⟨rfl, rfl, rfl, fun _ _ => rfl⟩
  exact (h2.trans (updEntry_levelled s.tsq.tagCounter (fun e => { e with route := some .reject })
    (fun _ _ => rfl) _)).trans (handshakeTest_levelled _)

theorem pickTest_levelled (s : State) : Levelled s (pickTest s) := by
  unfold pickTest
  repeat' split
  all_goals first
    | exact Levelled.refl s
    | exact pickLearn_levelled _ s
    | exact pickSheet_levelled (.fill _) _ s fun _ _ => by simp
    | skip
  rename_i x hx ha
  refine pickSheet_levelled _ _ s fun b hb hc => ?_
  obtain ⟨k, _, hk⟩ := Option.bind_eq_some_iff.mp hx
  have hn : x.number = k := by simpa using List.find?_some hk
  injection hc with hc
  exact hb x (by rw [← hc, hn]; exact hk) ha

theorem levelTest_levelled (s : State) : Levelled s (levelTest s) := by
  unfold levelTest
  repeat' split
  all_goals first
    | exact Levelled.refl s
    | exact ⟨rfl, rfl, rfl, fun _ _ => rfl⟩
    | (have h := pickTest_levelled ((s.modPgs fun g => { g with level := .normal }).modTsq fun t => { t with
          storeLevel := .normal, transport := if t.transport = .paused then .feeding else t.transport })
       exact ⟨h.bct, h.txe, h.fli, h.bound⟩)

/-! ## What a close test leaves (R170) -/

/-- The close test and the tests before it leave every block but BCT and FLI, and the frame in transmission. -/
structure Tested (s t : State) : Prop where
  tsq : t.tsq = s.tsq
  pgs : t.pgs = s.pgs
  txe : t.txe = s.txe
  flight : t.fli.inFlight = s.fli.inFlight

theorem Tested.refl (s : State) : Tested s s := ⟨rfl, rfl, rfl, rfl⟩

theorem Tested.trans {s t u : State} (h : Tested s t) (k : Tested t u) : Tested s u :=
  ⟨k.tsq.trans h.tsq, k.pgs.trans h.pgs, k.txe.trans h.txe, k.flight.trans h.flight⟩

variable {s u : State}

theorem tested_hand (d t : Nat) (p : Payload) (h : Tested s u) : Tested s (hand d t p u) := by
  unfold hand; repeat' split
  all_goals exact h.trans ⟨rfl, rfl, rfl, rfl⟩

theorem tested_updBatch (b : Nat) (f : BatchRec → BatchRec) (h : Tested s u) : Tested s (u.updBatch b f) :=
  h.trans ⟨rfl, rfl, rfl, rfl⟩

theorem tested_closeTest (b : Nat) (h : Tested s u) : Tested s (closeTest b u) := by
  unfold closeTest; repeat' split
  all_goals first
    | exact h
    | exact tested_hand _ _ _ (h.trans ⟨rfl, rfl, rfl, rfl⟩)

theorem tested_endedTest (b : Nat) (h : Tested s u) : Tested s (endedTest b u) := by
  unfold endedTest; repeat' split
  all_goals first
    | exact h
    | exact tested_closeTest _ (tested_updBatch _ _ h)

theorem tested_haltEndTest (b : Nat) (h : Tested s u) : Tested s (haltEndTest b u) := by
  unfold haltEndTest; repeat' split
  all_goals first
    | exact h
    | exact tested_endedTest _ (tested_updBatch _ _ h)

/-- A free leaves the channels and the frame in transmission. -/
theorem freeRec_channels (id : Nat) (s : State) :
    (freeRec id s).txe = s.txe ∧ (freeRec id s).fli.inFlight = s.fli.inFlight := by
  unfold freeRec
  split
  · exact ⟨rfl, rfl⟩
  · rename_i r _
    dsimp only
    have hl := levelTest_levelled (s.modPgs fun g => unqueue id { g with
      recs := g.recs.eraseP (·.id == id)
      recPool := g.recPool ++ [id]
      freeRecs := g.freeRecs + 1
      freeBlocks := g.freeBlocks + r.blocks.length })
    have done : ∀ {u v : State}, Tested u v → u.txe = s.txe ∧ u.fli.inFlight = s.fli.inFlight →
        v.txe = s.txe ∧ v.fli.inFlight = s.fli.inFlight := fun h k => ⟨h.txe.trans k.1, h.flight.trans k.2⟩
    have h0 := And.intro hl.txe (congrArg Fli.inFlight hl.fli)
    repeat' split
    all_goals first
      | exact h0
      | exact done (tested_closeTest _ (tested_haltEndTest _ (tested_updBatch _ _ (Tested.refl _)))) h0
      | exact done (tested_haltEndTest _ (tested_updBatch _ _ (Tested.refl _))) h0
      | exact done (tested_closeTest _ (Tested.refl _)) h0

/-! ## Which records stay (R90) -/

theorem find_updFirst_self {α : Type} (p : α → Bool) (f : α → α) (l : List α) (x : α) (h : l.find? p = some x)
    (hx : f x = x) : updFirst p f l = l := by
  induction l with
  | nil => rfl
  | cons y l ih =>
    by_cases hy : p y = true
    · simp only [List.find?_cons, hy, Option.some.injEq] at h
      subst h; simp [updFirst, hy, hx]
    · simp only [List.find?_cons, hy] at h
      simp [updFirst, hy, ih h]

theorem detachRec_recs (id : Nat) (s : State) : (detachRec id s).pgs.recs = s.pgs.recs := by
  unfold detachRec; split <;> rfl

theorem eraseP_updFirst (id : Nat) (f : PageRec → PageRec) (hf : ∀ r, (f r).id = r.id) (l : List PageRec) :
    (updFirst (·.id == id) f l).eraseP (·.id == id) = l.eraseP (·.id == id) := by
  induction l with
  | nil => rfl
  | cons x l ih =>
    by_cases h : x.id = id
    · simp [updFirst, h, hf]
    · simp [updFirst, h, ih]

/-- A SENDING page that a discard does not free at once: its burst is in transmission, or no channel holds it. -/
def State.lingers (s : State) (id : Nat) : Prop :=
  (∃ c, s.bursting c = true ∧ (s.chan c).active.page = some id) ∨
    ∀ c, (s.chan c).staged.page ≠ some id ∧ (s.chan c).active.page ≠ some id

theorem chan_of_stagedChan {id : Nat} {c : ChanId} (h : u.stagedChan id = some c) :
    (u.chan c).staged.page = some id := by
  unfold State.stagedChan at h
  split at h
  · injection h with h; subst h; assumption
  · split at h
    · injection h with h; subst h; assumption
    · simp at h

theorem chan_of_activeChan {id : Nat} {c : ChanId} (h : u.activeChan id = some c) :
    (u.chan c).active.page = some id := by
  unfold State.activeChan at h
  split at h
  · injection h with h; subst h; assumption
  · split at h
    · injection h with h; subst h; assumption
    · simp at h

theorem no_stagedChan {id : Nat} (h : u.stagedChan id = none) (c : ChanId) : (u.chan c).staged.page ≠ some id := by
  unfold State.stagedChan at h
  split at h
  · simp at h
  · split at h
    · simp at h
    · cases c <;> assumption

theorem no_activeChan {id : Nat} (h : u.activeChan id = none) (c : ChanId) : (u.chan c).active.page ≠ some id := by
  unfold State.activeChan at h
  split at h
  · simp at h
  · split at h
    · simp at h
    · cases c <;> assumption

/-- A page that TXE gives up leaves the records but for the freed one. -/
theorem txeDiscard_recs (id : Nat) (s : State) :
    (txeDiscard id s).pgs.recs = s.pgs.recs.eraseP (·.id == id) ∨
      ((txeDiscard id s).pgs.recs = s.pgs.recs ∧ s.lingers id) := by
  unfold txeDiscard
  split
  · left; rw [freeRec_recs]; rename_i c _; cases c <;> rfl
  · rename_i hs
    split
    · rename_i c ha
      split
      · rename_i hb
        exact Or.inr ⟨by cases c <;> rfl, Or.inl ⟨c, hb, chan_of_activeChan ha⟩⟩
      · left; rw [freeRec_recs]; cases c <;> rfl
    · rename_i ha
      exact Or.inr ⟨rfl, Or.inr fun c => ⟨no_stagedChan hs c, no_activeChan ha c⟩⟩

/-- A discard frees the record, or leaves it SENDING with discard pending. -/
theorem discardRec_recs (id : Nat) (s : State) :
    (discardRec id s).pgs.recs = s.pgs.recs.eraseP (·.id == id) ∨
      ∃ q, s.findRec id = some q ∧ q.state = .sending ∧ (q.discardPending = true ∨ s.lingers id) ∧
        (discardRec id s).pgs.recs = updFirst (·.id == id) (fun r => { r with discardPending := true }) s.pgs.recs := by
  unfold discardRec
  split
  · rename_i h
    exact Or.inl (List.eraseP_of_forall_not fun r hr => List.find?_eq_none.mp h r hr).symm
  · rename_i q hq
    dsimp only
    split
    iterate 4 exact Or.inl (by rw [freeRec_recs, detachRec_recs])
    · exact Or.inl (by rw [freeRec_recs]; exact congrArg _ (detachRec_recs id s))
    · rename_i hs
      split
      · rename_i hp
        refine Or.inr ⟨q, hq, hs, Or.inl hp, ?_⟩
        rw [detachRec_recs, find_updFirst_self _ _ _ q hq]
        cases q; simp only at hp; subst hp; rfl
      · rcases txeDiscard_recs id ((detachRec id s).updRec id fun r => { r with discardPending := true }) with h | ⟨h, k⟩
        · left
          rw [h]
          show (updFirst _ _ (detachRec id s).pgs.recs).eraseP _ = _
          rw [eraseP_updFirst id (fun r => { r with discardPending := true }) (fun _ => rfl), detachRec_recs]
        · refine Or.inr ⟨q, hq, hs, Or.inr ?_, ?_⟩
          · unfold detachRec at k; split at k <;> exact k
          · rw [h]
            show updFirst _ _ (detachRec id s).pgs.recs = _
            rw [detachRec_recs]

/-! ## Which descriptors stay (R131) -/

/-- A channel holds the page. -/
def State.inChannel (s : State) (id : Nat) : Prop :=
  ∃ c, (s.chan c).staged.page = some id ∨ (s.chan c).active.page = some id

/-- The frame in transmission stays, and so do the active descriptor whose burst it is and, but for the page `id`, every
page in a channel. -/
structure Holding (id : Nat) (s t : State) : Prop where
  flight : t.fli.inFlight = s.fli.inFlight
  burst : ∀ c, s.bursting c = true → (t.chan c).active.page = (s.chan c).active.page
  held : ∀ k, k ≠ id → s.inChannel k → t.inChannel k

theorem Holding.of_eq {id : Nat} {t : State} (hx : t.txe = s.txe) (hf : t.fli.inFlight = s.fli.inFlight) :
    Holding id s t := by
  have hc : ∀ c, t.chan c = s.chan c := fun c => by unfold State.chan; rw [hx]
  exact ⟨hf, fun c _ => by rw [hc], fun k _ ⟨c, h⟩ => ⟨c, by rw [hc]; exact h⟩⟩

theorem holding_freeRec {id : Nat} (k : Nat) (h : Holding id s u) : Holding id s (freeRec k u) := by
  have hf := freeRec_channels k u
  have hc : ∀ c, (freeRec k u).chan c = u.chan c := fun c => by unfold State.chan; rw [hf.1]
  exact ⟨hf.2.trans h.flight, fun c hb => by rw [hc]; exact h.burst c hb,
    fun k hk hs => by obtain ⟨c, h'⟩ := h.held k hk hs; exact ⟨c, by rw [hc]; exact h'⟩⟩

theorem chan_updChan (c d : ChanId) (f : Channel → Channel) :
    ((s.updChan c f).chan d) = if d = c then f (s.chan c) else s.chan d := by
  cases c <;> cases d <;> rfl

theorem holding_emptyStaged {id : Nat} {c : ChanId} (h : (s.chan c).staged.page = some id) :
    Holding id s (emptyStaged c s) := by
  have hx : ∀ d, ((emptyStaged c s).chan d).active = (s.chan d).active := fun d => by
    unfold emptyStaged; rw [chan_updChan]; split
    · rename_i hd; rw [hd]
    · rfl
  refine ⟨by cases c <;> rfl, fun d _ => by rw [hx], fun k hk ⟨d, hd⟩ => ⟨d, ?_⟩⟩
  rcases hd with hd | hd
  · left
    unfold emptyStaged; rw [chan_updChan, if_neg]
    · exact hd
    · rintro rfl; rw [h] at hd; exact hk (Option.some.inj hd).symm
  · right; rw [hx]; exact hd

theorem holding_emptyActive {id : Nat} {c : ChanId} (h : (s.chan c).active.page = some id)
    (hb : s.bursting c = false) : Holding id s (emptyActive c s) := by
  refine ⟨by cases c <;> rfl, fun d hd => ?_, fun k hk ⟨d, hd⟩ => ⟨d, ?_⟩⟩
  · have : d ≠ c := by rintro rfl; rw [hb] at hd; exact Bool.false_ne_true hd
    unfold emptyActive; rw [chan_updChan, if_neg this]
  · by_cases hdc : d = c
    · subst hdc
      have hs : (s.chan d).staged.page = some k := by
        rcases hd with hd | hd
        · exact hd
        · rw [h] at hd; exact absurd (Option.some.inj hd).symm hk
      unfold emptyActive; rw [chan_updChan, if_pos rfl]
      unfold promoteChan
      split
      · exact Or.inr hs
      · exact Or.inl hs
    · unfold emptyActive; rw [chan_updChan, if_neg hdc]; exact hd

theorem txeDiscard_holding (id : Nat) (s : State) : Holding id s (txeDiscard id s) := by
  unfold txeDiscard
  split
  · rename_i c hc
    exact holding_freeRec _ (holding_emptyStaged (chan_of_stagedChan hc))
  · split
    · rename_i c hc
      split
      · refine ⟨by cases c <;> rfl, fun d _ => ?_, fun k _ ⟨d, hd⟩ => ⟨d, ?_⟩⟩
        · rw [chan_updChan]; split
          · rename_i h; rw [h]
          · rfl
        · rw [chan_updChan]; split
          · rename_i h; rw [← h]; exact hd
          · exact hd
      · rename_i hb
        exact holding_freeRec _ (holding_emptyActive (chan_of_activeChan hc) (by simpa using hb))
    · exact Holding.of_eq rfl rfl

theorem detachRec_channels (id : Nat) (s : State) :
    (detachRec id s).txe = s.txe ∧ (detachRec id s).fli = s.fli := by
  unfold detachRec; split <;> exact ⟨rfl, rfl⟩

theorem discardRec_holding (id : Nat) (s : State) : Holding id s (discardRec id s) := by
  have hd := detachRec_channels id s
  have h0 : Holding id s (detachRec id s) := Holding.of_eq hd.1 (by rw [hd.2])
  unfold discardRec
  split
  · exact Holding.of_eq rfl rfl
  · dsimp only
    split
    iterate 4 exact holding_freeRec _ h0
    · refine holding_freeRec _ ⟨h0.flight, fun c hb => ?_, fun k hk hs => ?_⟩
      · rw [← h0.burst c hb]; cases c <;> rfl
      · obtain ⟨c, h⟩ := h0.held k hk hs
        exact ⟨c, by cases c <;> exact h⟩
    · split
      · exact h0
      · have h1 := txeDiscard_holding id ((detachRec id s).updRec id fun r => { r with discardPending := true })
        have hx : ∀ c, (((detachRec id s).updRec id fun r => { r with discardPending := true }).chan c) = s.chan c := by
          intro c
          show (detachRec id s).chan c = _
          unfold State.chan; rw [hd.1]
        have hb : ∀ c, (((detachRec id s).updRec id fun r => { r with discardPending := true }).bursting c) =
            s.bursting c := by
          intro c
          show (detachRec id s).bursting c = _
          unfold State.bursting; rw [hd.2]
        refine ⟨h1.flight.trans (congrArg Fli.inFlight hd.2), fun c h => ?_, fun k hk ⟨c, h⟩ => ?_⟩
        · rw [h1.burst c ((hb c).trans h), hx]
        · exact h1.held k hk ⟨c, by rw [hx]; exact h⟩

theorem lingers_back {id k : Nat} {t : State} (h : Holding id s t) (hk : k ≠ id) (hl : t.lingers k) : s.lingers k := by
  rcases hl with ⟨c, hb, ha⟩ | hn
  · have hb' : s.bursting c = true := by
      unfold State.bursting at hb ⊢; rw [← h.flight]; exact hb
    exact Or.inl ⟨c, hb', (h.burst c hb').symm.trans ha⟩
  · refine Or.inr fun c => ⟨fun hc => ?_, fun hc => ?_⟩
    · obtain ⟨d, hd | hd⟩ := h.held k hk ⟨c, Or.inl hc⟩
      · exact (hn d).1 hd
      · exact (hn d).2 hd
    · obtain ⟨d, hd | hd⟩ := h.held k hk ⟨c, Or.inr hc⟩
      · exact (hn d).1 hd
      · exact (hn d).2 hd

/-! ## A run of discards -/

theorem eraseP_filter (id : Nat) (l : List PageRec) (hn : (l.map (·.id)).Nodup) :
    l.eraseP (·.id == id) = l.filter fun r => !(r.id == id) := by
  induction l with
  | nil => rfl
  | cons r l ih =>
    obtain ⟨h1, h2⟩ := List.nodup_cons.mp hn
    by_cases h : r.id = id
    · subst h
      have : l.filter (fun x => !(x.id == r.id)) = l := List.filter_eq_self.mpr fun x hx => by
        simpa using fun hc => h1 (List.mem_map.mpr ⟨x, hx, hc⟩)
      simp [this]
    · simp [h, ih h2]

theorem eq_of_id {l : List PageRec} (hn : (l.map (·.id)).Nodup) {a b : PageRec} (ha : a ∈ l) (hb : b ∈ l)
    (h : a.id = b.id) : a = b := List.inj_on_of_nodup_map hn ha hb h

/-- What a run of discards leaves, of a store without two records of one identifier: a record of the run stays only
where it was SENDING, now with discard pending, and where that was pending before, its burst is in transmission or no
channel holds it; every other record stays as it is. -/
structure Discarded (ids : List Nat) (s t : State) : Prop where
  nodup : (t.pgs.recs.map (·.id)).Nodup
  kept : ∀ q ∈ s.pgs.recs, q.id ∉ ids → q ∈ t.pgs.recs
  left : ∀ q ∈ t.pgs.recs, q.id ∉ ids → q ∈ s.pgs.recs
  sent : ∀ q ∈ t.pgs.recs, q.id ∈ ids → q.discardPending = true ∧ ∃ p ∈ s.pgs.recs, p.state = .sending ∧
    (p.discardPending = true ∨ s.lingers q.id) ∧ q = { p with discardPending := true }

theorem discardRec_discarded (id : Nat) (s : State) (hn : (s.pgs.recs.map (·.id)).Nodup) :
    Discarded [id] s (discardRec id s) := by
  rcases discardRec_recs id s with h | ⟨p, hp, hs, hl', h⟩
  · rw [eraseP_filter id _ hn] at h
    refine ⟨?_, fun q hq hi => ?_, fun q hq hi => ?_, fun q hq hi => ?_⟩
    · rw [h]; exact hn.sublist (List.filter_sublist.map _)
    · rw [h]; exact List.mem_filter.mpr ⟨hq, by simpa using hi⟩
    · rw [h] at hq; exact (List.mem_filter.mp hq).1
    · rw [h] at hq
      have := (List.mem_filter.mp hq).2
      simp at hi this; exact absurd hi this
  · obtain ⟨hpp, l₁, l₂, hl, hb⟩ := List.find?_eq_some_iff_append.mp hp
    have hpi : p.id = id := by simpa using hpp
    have hu : updFirst (·.id == id) (fun r : PageRec => { r with discardPending := true }) s.pgs.recs =
        l₁ ++ { p with discardPending := true } :: l₂ := by
      rw [hl]
      clear hl h hp hn
      induction l₁ with
      | nil => simp [updFirst, hpi]
      | cons x l ih =>
        have hx : ¬ x.id = id := by simpa using hb x (by simp)
        simp only [List.cons_append, updFirst, beq_iff_eq, hx, if_false]
        rw [ih fun a ha => hb a (by simp [ha])]
    rw [hu] at h
    rw [hl] at hn
    have hni : ∀ q ∈ l₁ ++ l₂, q.id ≠ id := by
      intro q hq hqi
      have hn' : (p :: (l₁ ++ l₂)).map (·.id) |>.Nodup := by
        refine (List.Perm.nodup_iff ?_).mp hn
        exact (List.perm_middle).map _
      exact (List.nodup_cons.mp hn').1 (List.mem_map.mpr ⟨q, hq, hqi.trans hpi.symm⟩)
    refine ⟨?_, fun q hq hi => ?_, fun q hq hi => ?_, fun q hq hi => ?_⟩
    · rw [h]; simpa using hn
    · rw [hl] at hq; rw [h]
      rcases List.mem_append.mp hq with hq | hq
      · exact List.mem_append_left _ hq
      · rcases List.mem_cons.mp hq with rfl | hq
        · exact absurd hpi (by simpa using hi)
        · exact List.mem_append_right _ (List.mem_cons_of_mem _ hq)
    · rw [h] at hq; rw [hl]
      rcases List.mem_append.mp hq with hq | hq
      · exact List.mem_append_left _ hq
      · rcases List.mem_cons.mp hq with rfl | hq
        · exact absurd hpi (by simpa using hi)
        · exact List.mem_append_right _ (List.mem_cons_of_mem _ hq)
    · rw [h] at hq
      have hqi : q.id = id := by simpa using hi
      rcases List.mem_append.mp hq with hq | hq
      · exact absurd hqi (hni q (List.mem_append_left _ hq))
      · rcases List.mem_cons.mp hq with rfl | hq
        · exact ⟨rfl, p, by rw [hl]; simp, hs, hl'.imp (fun x => x) (fun x => hqi ▸ x), rfl⟩
        · exact absurd hqi (hni q (List.mem_append_right _ hq))

theorem discardRun_discarded (ids : List Nat) (s : State) (hn : (s.pgs.recs.map (·.id)).Nodup) :
    Discarded ids s (ids.foldl (fun s id => discardRec id s) s) := by
  induction ids generalizing s with
  | nil => exact ⟨hn, fun _ h _ => h, fun _ h _ => h, fun _ _ h => absurd h (by simp)⟩
  | cons id ids ih =>
    have h1 := discardRec_discarded id s hn
    have h2 := ih (discardRec id s) h1.nodup
    refine ⟨h2.nodup, fun q hq hi => ?_, fun q hq hi => ?_, fun q hq hi => ?_⟩
    · simp only [List.mem_cons, not_or] at hi
      exact h2.kept q (h1.kept q hq (by simpa using hi.1)) hi.2
    · simp only [List.mem_cons, not_or] at hi
      exact h1.left q (h2.left q hq hi.2) (by simpa using hi.1)
    · by_cases hi2 : q.id ∈ ids
      · obtain ⟨hd, p, hp, hs, hl, he⟩ := h2.sent q hq hi2
        have hpq : p.id = q.id := by rw [he]
        by_cases hpi : p.id = id
        · obtain ⟨_, p', hp', hs', hl', he'⟩ := h1.sent p hp (by simpa using hpi)
          exact ⟨hd, p', hp', hs', hl'.imp (fun x => x) (fun x => hpq ▸ x), by rw [he, he']⟩
        · exact ⟨hd, p, h1.left p hp (by simpa using hpi), hs,
            hl.imp (fun x => x) (lingers_back (discardRec_holding id s) (hpq ▸ hpi)), he⟩
      · exact h1.sent q (h2.left q hq hi2) (by
          rcases List.mem_cons.mp hi with h | h
          · simp [h]
          · exact absurd h hi2)

/-- The offer test changes no record but for the state of the pages that it offers. -/
theorem offerTest_recs (s : State) : ∀ q ∈ (offerTest s).pgs.recs, ∃ p ∈ s.pgs.recs,
    q = p ∨ q = { p with state := .sending } := by
  have one : ∀ (c : ChanId) (s : State), ∀ q ∈ (offerOne c s).pgs.recs, ∃ p ∈ s.pgs.recs,
      q = p ∨ q = { p with state := .sending } := by
    intro c s q hq
    unfold offerOne at hq
    split at hq
    · split at hq
      · rename_i r g _
        have : q ∈ updFirst (·.id == r.id) (fun r : PageRec => { r with state := .sending }) s.pgs.recs := by
          unfold offerPage at hq
          dsimp only at hq
          rw [ask_pgs] at hq
          cases c <;> exact hq
        rcases mem_updFirst _ _ _ _ this with h | ⟨p, hp, _, rfl⟩
        · exact ⟨q, h, Or.inl rfl⟩
        · exact ⟨p, hp, Or.inr rfl⟩
      · exact ⟨q, hq, Or.inl rfl⟩
    · exact ⟨q, hq, Or.inl rfl⟩
  intro q hq
  obtain ⟨p, hp, h⟩ := one .b _ q hq
  obtain ⟨r, hr, k⟩ := one .a s p hp
  refine ⟨r, hr, ?_⟩
  rcases h with rfl | rfl
  · exact k
  · rcases k with rfl | rfl
    · exact Or.inr rfl
    · exact Or.inr rfl

/-- Of the records of a discard, those alone stay that were SENDING, with discard pending. -/
theorem discardAll_recs (ids : List Nat) (s : State) (hn : (s.pgs.recs.map (·.id)).Nodup) :
    ∀ q ∈ (discardAll ids s).pgs.recs, q.id ∈ ids → q.discardPending = true ∧ ∃ p ∈ s.pgs.recs,
      p.state = .sending ∧ (p.discardPending = true ∨ s.lingers q.id) ∧ q = { p with discardPending := true } := by
  intro q hq hi
  unfold discardAll at hq
  split at hq
  · rename_i h; rw [h] at hi; exact absurd hi (by simp)
  · obtain ⟨p, hp, h⟩ := offerTest_recs _ q hq
    have hpq : p.id = q.id := by rcases h with rfl | rfl <;> rfl
    obtain ⟨hd, r, hr, hs, hl, he⟩ := (discardRun_discarded ids s hn).sent p hp (hpq ▸ hi)
    rcases h with rfl | rfl
    · exact ⟨hd, r, hr, hs, hl, he⟩
    · refine ⟨hd, r, hr, hs, hl, ?_⟩
      rw [he]; cases r; simp only at hs; subst hs; rfl

/-- Every record that the discard does not name was there before, in its batch and position. -/
theorem discardAll_others (ids : List Nat) (s : State) (hn : (s.pgs.recs.map (·.id)).Nodup) :
    ∀ q ∈ (discardAll ids s).pgs.recs, q.id ∉ ids → ∃ p ∈ s.pgs.recs, q = p ∨ q = { p with state := .sending } := by
  intro q hq hi
  unfold discardAll at hq
  split at hq
  · exact ⟨q, hq, Or.inl rfl⟩
  · obtain ⟨p, hp, h⟩ := offerTest_recs _ q hq
    have hpq : p.id = q.id := by rcases h with rfl | rfl <;> rfl
    exact ⟨p, (discardRun_discarded ids s hn).left p hp (hpq ▸ hi), h⟩

/-! ## The batch of freed pages (R22) -/

/-- The state of a batch after `n` of its FAILED own pages, of `failed`, are freed: a HALTED batch whose count reaches 0
is ENDED while a sheet is bound to it, and RECONCILING or CLOSING without one; a close test may follow any free. -/
def afterFrees (bound : Bool) (failed n : Nat) : BatchState → BatchState → Prop
  | .halted, t => if n = 0 ∨ n < failed then t = .halted else if bound then t = .ended
      else t = .reconciling ∨ t = .closing
  | .reconciling, t => t = .reconciling ∨ t = .closing
  | st, t => t = st

/-- A sheet in the track is bound to the batch. -/
def State.anyBound (s : State) (b : Nat) : Bool := s.tsq.track.any (·.boundTo b)

/-- The record of a batch after `n` of its FAILED own pages are freed: its count, its state and its close exchange
alone may change, and of a batch that is neither HALTED nor RECONCILING its count alone. -/
structure LoweredRec (n : Nat) (x y : BatchRec) : Prop where
  same : y = { x with
    failedPages := x.failedPages - n, state := y.state, closeAsk := y.closeAsk, closeDue := y.closeDue
    closeAttempts := y.closeAttempts }
  still : x.state ≠ .halted → x.state ≠ .reconciling → y = { x with failedPages := x.failedPages - n }

/-- `n` FAILED own pages of the batch are freed. -/
def Lowered (b n : Nat) (s t : State) : Prop :=
  ∀ x, s.findBatch b = some x → ∃ y, t.findBatch b = some y ∧ LoweredRec n x y ∧
    afterFrees (s.anyBound b) x.failedPages n x.state y.state ∧ (x.state ≠ .active → t.anyBound b = s.anyBound b)

theorem LoweredRec.refl (x : BatchRec) : LoweredRec 0 x x := ⟨by simp, fun _ _ => by simp⟩

theorem LoweredRec.trans {n m : Nat} {x y z : BatchRec} (h : LoweredRec n x y) (k : LoweredRec m y z) :
    LoweredRec (n + m) x z := by
  refine ⟨?_, fun h1 h2 => ?_⟩
  · conv_lhs => rw [k.same, h.same]
    simp [Nat.sub_sub]
  · have hy := h.still h1 h2
    have hys : y.state = x.state := by rw [hy]
    rw [k.still (hys ▸ h1) (hys ▸ h2), hy]
    simp [Nat.sub_sub]

theorem afterFrees_none (k : Bool) (f : Nat) (st : BatchState) : afterFrees k f 0 st st := by
  unfold afterFrees; cases st <;> simp

theorem Lowered.trans {b n m : Nat} {t : State} (h : Lowered b n s t) (k : Lowered b m t u) :
    Lowered b (n + m) s u := by
  intro x hx
  obtain ⟨y, hy, h1, h5, h6⟩ := h x hx
  obtain ⟨z, hz, k1, k5, k6⟩ := k y hy
  have h4 : y.failedPages = x.failedPages - n := by rw [h1.same]
  refine ⟨z, hz, h1.trans k1, ?_, fun ha => ?_⟩
  · by_cases ha : x.state = .active
    · rw [ha] at h5 ⊢
      have h5 : y.state = .active := h5
      rw [h5] at k5
      exact k5
    · rw [h6 ha] at k5
      generalize s.anyBound b = bd at h5 k5 ⊢
      rw [h4] at k5
      clear h1 h6 k1 k6 h4
      generalize x.failedPages = f at h5 k5 ⊢
      cases hx : x.state <;> rw [hx] at h5 <;> simp only [afterFrees] at h5 ⊢
      case halted =>
        by_cases hn : n = 0 ∨ n < f
        · rw [if_pos hn] at h5
          rw [h5] at k5
          simp only [afterFrees] at k5
          have : (m = 0 ∨ m < f - n) ↔ (n + m = 0 ∨ n + m < f) := by omega
          simpa only [this] using k5
        · rw [if_neg hn] at h5
          rw [if_neg (by omega)]
          cases bd
          · simp only [Bool.false_eq_true, if_false] at h5 ⊢
            rcases h5 with h5 | h5 <;> rw [h5] at k5
            · exact k5
            · exact Or.inr k5
          · simp only [if_true] at h5 ⊢
            rw [h5] at k5; exact k5
      case reconciling =>
        rcases h5 with h5 | h5 <;> rw [h5] at k5
        · exact k5
        · exact Or.inr k5
      all_goals (rw [h5] at k5; exact k5)
  · have hy' : y.state ≠ .active := by
      intro hc
      rw [hc] at h5
      cases hx : x.state <;> rw [hx] at h5 <;> simp only [afterFrees] at h5
      case active => exact ha hx
      case halted => split at h5 <;> simp at h5
      all_goals simp at h5
    exact (k6 hy').trans (h6 ha)

theorem findBatch_upd (b : Nat) (f : BatchRec → BatchRec) (hf : ∀ r, (f r).number = r.number) {x : BatchRec}
    (h : s.findBatch b = some x) : (s.updBatch b f).findBatch b = some (f x) := by
  unfold State.updBatch State.findBatch State.modBct at *
  dsimp only at *
  generalize s.bct.batches = l at h
  induction l with
  | nil => simp at h
  | cons y l ih =>
    by_cases hy : y.number = b
    · simp only [List.find?_cons, hy, beq_self_eq_true, Option.some.injEq] at h
      subst h; simp [updFirst, hy, hf]
    · have hy' : (y.number == b) = false := by simpa using hy
      simp only [List.find?_cons, hy'] at h
      simp [updFirst, hy', ih h]

theorem ask_same (d : Nat) (p : Payload) (s : State) : (ask d p s).bct = s.bct ∧ (ask d p s).tsq = s.tsq := by
  unfold ask hand
  repeat' split
  all_goals exact ⟨rfl, rfl⟩

theorem closeTest_lowered (b : Nat) (s : State) : Lowered b 0 s (closeTest b s) := by
  intro x hx
  have hb : (closeTest b s).anyBound b = s.anyBound b := by
    unfold State.anyBound; rw [(tested_closeTest b (Tested.refl s)).tsq]
  unfold closeTest at hb ⊢
  rw [hx] at hb ⊢
  dsimp only at hb ⊢
  split
  · rename_i h
    refine ⟨{ x with
      state := .closing, closeAsk := some s.fli.askTag, closeDue := s.answerDue
      closeAttempts := bump8 x.closeAttempts }, ?_, ⟨by simp, fun _ hr => absurd h.1 hr⟩, ?_, fun _ => by
        rw [if_pos h] at hb; exact hb⟩
    · have hn : x.number = b := by simpa using List.find?_some hx
      have hu := findBatch_upd (s := s) b (fun r => { r with
        state := .closing, closeAsk := some s.fli.askTag, closeDue := s.answerDue
        closeAttempts := bump8 r.closeAttempts }) (fun _ => rfl) hx
      unfold sendClose
      dsimp only
      subst hn
      refine Eq.trans ?_ hu
      unfold State.findBatch
      rw [(ask_same _ _ _).1]
    · rw [h.1]; exact Or.inr rfl
  · exact ⟨x, hx, LoweredRec.refl x, afterFrees_none _ _ _, fun _ => rfl⟩

/-- A level test frees no FAILED page. -/
theorem Levelled.lowered {b : Nat} {t : State} (h : Levelled s t) : Lowered b 0 s t := by
  intro x hx
  refine ⟨x, ?_, LoweredRec.refl x, afterFrees_none _ _ _, fun ha => h.bound b fun y hy => ?_⟩
  · unfold State.findBatch at hx ⊢; rw [h.bct]; exact hx
  · rw [hx] at hy; exact Option.some.inj hy ▸ ha

theorem anyBound_iff (b : Nat) : s.boundCount b = 0 ↔ s.anyBound b = false := by
  unfold State.boundCount State.anyBound
  rw [List.countP_eq_zero, List.any_eq_false]

/-- One FAILED own page freed: the count falls by one, and at 0 a HALTED batch goes on. -/
theorem lowerFailed_lowered (b : Nat) (s : State) : Lowered b 1 s (haltEndTest b (lowerFailed b s)) := by
  intro x hx
  have hl := findBatch_upd (s := s) b (fun r => { r with failedPages := r.failedPages - 1 }) (fun _ => rfl) hx
  have hbd : (haltEndTest b (lowerFailed b s)).anyBound b = s.anyBound b := by
    unfold State.anyBound
    have ht : Tested s (haltEndTest b (lowerFailed b s)) :=
      tested_haltEndTest b (tested_updBatch b (fun r => { r with failedPages := r.failedPages - 1 }) (Tested.refl s))
    rw [ht.tsq]
  unfold haltEndTest at hbd ⊢
  unfold lowerFailed at hbd ⊢
  rw [hl] at hbd ⊢
  dsimp only at hbd ⊢
  split
  · rename_i h
    rw [if_pos h] at hbd
    have hu := findBatch_upd b (fun r => { r with state := .ended }) (fun _ => rfl) hl
    unfold endedTest
    rw [hu]
    dsimp only
    have hstep : (1 = 0 ∨ 1 < x.failedPages) = False := by
      have := h.2; simp only [eq_iff_iff, iff_false]; omega
    split
    · rename_i hb
      have hb' : s.anyBound b = false := (anyBound_iff b).mp hb.2
      have hv := findBatch_upd b (fun r => { r with state := .reconciling }) (fun _ => rfl) hu
      obtain ⟨y, hy, h1, h5, h6⟩ := closeTest_lowered b _ _ hv
      refine ⟨y, hy, ⟨h1.same.trans (by simp), fun hh => absurd h.1 hh⟩, ?_, fun _ => ?_⟩
      · rw [h.1]; simp only [afterFrees, hstep, if_false, hb', Bool.false_eq_true]
        exact h5
      · exact (h6 (by simp)).trans rfl
    · rename_i hb
      have hb' : s.anyBound b = true := by
        by_contra hc
        have hc : s.anyBound b = false := by simpa using hc
        exact hb ⟨rfl, (anyBound_iff b).mpr hc⟩
      refine ⟨_, hu, ⟨rfl, fun hh => absurd h.1 hh⟩, ?_, fun _ => rfl⟩
      show afterFrees _ _ _ x.state _
      rw [show x.state = .halted from h.1]
      simp only [afterFrees]
      rw [if_neg (by rw [hstep]; exact id), if_pos hb']
      trivial
  · rename_i h
    refine ⟨_, hl, ⟨rfl, fun _ _ => rfl⟩, ?_, fun _ => rfl⟩
    show afterFrees _ _ _ x.state x.state
    cases hs : x.state <;> simp only [afterFrees]
    case halted =>
      have : x.failedPages - 1 ≠ 0 := fun hc => h ⟨hs, hc⟩
      rw [if_pos (Or.inr (by omega))]
      trivial
    case reconciling => exact Or.inl trivial

/-- A record of the batch freed lowers its count by one where it is a FAILED own page. -/
theorem freeRec_lowered {b id : Nat} {q : PageRec} (hq : s.findRec id = some q) (hb : q.batch = some b) :
    Lowered b (if q.state = .failed ∧ ¬ q.fillFlag then 1 else 0) s (freeRec id s) := by
  unfold freeRec
  rw [hq]
  dsimp only
  rw [hb]
  dsimp only
  have h0 : Lowered b 0 s (levelTest (s.modPgs fun g => unqueue id { g with
      recs := g.recs.eraseP (·.id == id)
      recPool := g.recPool ++ [id]
      freeRecs := g.freeRecs + 1
      freeBlocks := g.freeBlocks + q.blocks.length })) :=
    Levelled.lowered (Levelled.trans (t := s.modPgs fun g => unqueue id { g with
      recs := g.recs.eraseP (·.id == id)
      recPool := g.recPool ++ [id]
      freeRecs := g.freeRecs + 1
      freeBlocks := g.freeBlocks + q.blocks.length }) ⟨rfl, rfl, rfl, fun _ _ => rfl⟩ (levelTest_levelled _))
  by_cases hf : q.state = .failed ∧ ¬ q.fillFlag
  · rw [if_pos hf, if_pos hf]
    have h1 := h0.trans (lowerFailed_lowered b _)
    split
    · exact h1.trans (closeTest_lowered b _)
    · exact h1
  · rw [if_neg hf, if_neg hf]
    split
    · exact h0.trans (closeTest_lowered b _)
    · exact h0

theorem Lowered.of_same {b : Nat} {t : State} (hb : t.bct = s.bct) (ht : t.anyBound b = s.anyBound b) :
    Lowered b 0 s t := by
  intro x hx
  refine ⟨x, ?_, LoweredRec.refl x, afterFrees_none _ _ _, fun _ => ht⟩
  unfold State.findBatch at hx ⊢; rw [hb]; exact hx

theorem detachRec_lowered (b id : Nat) (s : State) : Lowered b 0 s (detachRec id s) := by
  unfold detachRec
  split
  · exact Levelled.lowered ((updEntry_levelled _ (fun e => { e with pages := e.pages.filter (· != id) })
      (fun _ _ => rfl) s).trans ⟨rfl, rfl, rfl, fun _ _ => rfl⟩)
  · exact Lowered.of_same rfl rfl

theorem findRec_upd (id : Nat) (f : PageRec → PageRec) (hf : ∀ r, (f r).id = r.id) {q : PageRec}
    (h : s.findRec id = some q) : (s.updRec id f).findRec id = some (f q) := by
  unfold State.updRec State.findRec State.modPgs at *
  dsimp only at *
  generalize s.pgs.recs = l at h
  induction l with
  | nil => simp at h
  | cons y l ih =>
    by_cases hy : y.id = id
    · simp only [List.find?_cons, hy, beq_self_eq_true, Option.some.injEq] at h
      subst h; simp [updFirst, hy, hf]
    · have hy' : (y.id == id) = false := by simpa using hy
      simp only [List.find?_cons, hy'] at h
      simp [updFirst, hy', ih h]

theorem updChan_same (c : ChanId) (f : Channel → Channel) (s : State) : (s.updChan c f).bct = s.bct ∧
    (s.updChan c f).tsq = s.tsq ∧ (s.updChan c f).pgs = s.pgs := by cases c <;> exact ⟨rfl, rfl, rfl⟩

/-- A record of the batch discarded. -/
theorem discardRec_lowered {b id : Nat} {q : PageRec} (hq : s.findRec id = some q) (hb : q.batch = some b) :
    Lowered b (if q.state = .failed ∧ ¬ q.fillFlag then 1 else 0) s (discardRec id s) := by
  have hd : (detachRec id s).findRec id = some q := by unfold State.findRec; rw [detachRec_recs]; exact hq
  have h0 := detachRec_lowered b id s
  have fr : ∀ {u : State} {p : PageRec}, Lowered b 0 s u → u.findRec id = some p → p.batch = some b →
      p.state = q.state → p.fillFlag = q.fillFlag →
      Lowered b (if q.state = .failed ∧ ¬ q.fillFlag then 1 else 0) s (freeRec id u) := by
    intro u p hu hp hpb hps hpf
    have := hu.trans (freeRec_lowered hp hpb)
    rwa [hps, hpf, Nat.zero_add] at this
  unfold discardRec
  rw [hq]
  dsimp only
  have hc : ∀ st, q.state = st → Lowered b (if q.state = .failed ∧ ¬ q.fillFlag then 1 else 0) s
      (freeRec id (detachRec id s)) := fun _ _ => fr h0 hd hb rfl rfl
  generalize hn : (if q.state = .failed ∧ ¬ q.fillFlag then 1 else 0) = n at fr hc ⊢
  split
  iterate 4 exact hc _ rfl
  · exact fr (h0.trans (Lowered.of_same rfl rfl)) hd hb rfl rfl
  · rename_i hs
    have hz : n = 0 := by rw [← hn, if_neg (by simp [hs])]
    split
    · rw [hz]; exact h0
    · have h1 : Lowered b 0 s ((detachRec id s).updRec id fun r => { r with discardPending := true }) :=
        h0.trans (Lowered.of_same rfl rfl)
      have hp := findRec_upd id (fun r => { r with discardPending := true }) (fun _ => rfl) hd
      have same : ∀ {v : State}, v.bct = _ ∧ v.tsq = _ ∧ v.pgs = _ → Lowered b 0 s v ∧
          v.findRec id = some { q with discardPending := true } := fun {v} hx =>
        ⟨h1.trans (Lowered.of_same hx.1 (by unfold State.anyBound; rw [hx.2.1])),
          by unfold State.findRec at hp ⊢; rw [hx.2.2]; exact hp⟩
      unfold txeDiscard
      split
      · rename_i c _
        have h2 := same (v := emptyStaged c _) (updChan_same c (fun ch => { ch with staged := emptyDesc ch.staged }) _)
        exact fr h2.1 h2.2 hb rfl rfl
      · split
        · split
          · rw [hz]; exact (same (updChan_same _ _ _)).1
          · rename_i c _ _
            have h2 := same (v := emptyActive c _)
              (updChan_same c (fun ch => promoteChan { ch with active := emptyDesc ch.active }) _)
            exact fr h2.1 h2.2 hb rfl rfl
        · rw [hz]; exact h1

/-- A FAILED own page. -/
def PageRec.ownFailed (q : PageRec) : Bool := q.state == .failed && !q.fillFlag

theorem findRec_of_mem (hn : (s.pgs.recs.map (·.id)).Nodup) {q : PageRec} (hq : q ∈ s.pgs.recs) :
    s.findRec q.id = some q := by
  unfold State.findRec
  cases h : s.pgs.recs.find? (·.id == q.id) with
  | none => exact absurd (List.find?_eq_none.mp h q hq) (by simp)
  | some p =>
    have hp : p.id = q.id := by simpa using List.find?_some h
    rw [eq_of_id hn (List.mem_of_find?_eq_some h) hq hp]

/-- A run of discards of records of one batch lowers its count by the FAILED own pages among them. -/
theorem discardRun_lowered {b : Nat} (qs : List PageRec) (s : State) (hn : (s.pgs.recs.map (·.id)).Nodup)
    (hd : (qs.map (·.id)).Nodup) (hm : ∀ q ∈ qs, q ∈ s.pgs.recs ∧ q.batch = some b) :
    Lowered b (qs.countP (·.ownFailed)) s ((qs.map (·.id)).foldl (fun s id => discardRec id s) s) := by
  induction qs generalizing s with
  | nil => exact Lowered.of_same rfl rfl
  | cons q qs ih =>
    obtain ⟨h1, h2⟩ := List.nodup_cons.mp hd
    have hq := hm q (by simp)
    have hdis := discardRec_discarded q.id s hn
    have hlow := discardRec_lowered (findRec_of_mem hn hq.1) hq.2
    have := hlow.trans (ih (discardRec q.id s) hdis.nodup h2 fun r hr =>
      ⟨hdis.kept r (hm r (by simp [hr])).1 (by
        simp only [List.mem_singleton]; rintro hc; exact h1 (List.mem_map.mpr ⟨r, hr, hc⟩)), (hm r (by simp [hr])).2⟩)
    rw [List.countP_cons, Nat.add_comm]
    have he : (if q.ownFailed = true then 1 else 0) = if q.state = .failed ∧ ¬ q.fillFlag then 1 else 0 := by
      unfold PageRec.ownFailed
      by_cases hs : q.state = .failed <;> cases hf : q.fillFlag <;> simp [hs]
    rw [he]
    exact this

theorem offerOne_same (c : ChanId) (s : State) : (offerOne c s).bct = s.bct ∧ (offerOne c s).tsq = s.tsq := by
  unfold offerOne
  repeat' split
  · have ha := ask_same
    unfold offerPage
    dsimp only
    exact ⟨(ha _ _ _).1.trans (by cases c <;> rfl), (ha _ _ _).2.trans (by cases c <;> rfl)⟩
  all_goals exact ⟨rfl, rfl⟩

theorem offerTest_same (s : State) : (offerTest s).bct = s.bct ∧ (offerTest s).tsq = s.tsq :=
  ⟨(offerOne_same .b _).1.trans (offerOne_same .a s).1, (offerOne_same .b _).2.trans (offerOne_same .a s).2⟩

/-- A discard of records of one batch. -/
theorem discardAll_lowered {b : Nat} (qs : List PageRec) (s : State) (hn : (s.pgs.recs.map (·.id)).Nodup)
    (hd : (qs.map (·.id)).Nodup) (hm : ∀ q ∈ qs, q ∈ s.pgs.recs ∧ q.batch = some b) :
    Lowered b (qs.countP (·.ownFailed)) s (discardAll (qs.map (·.id)) s) := by
  have h := discardRun_lowered qs s hn hd hm
  unfold discardAll
  split
  · rename_i he
    rw [List.map_eq_nil_iff.mp he]; exact Lowered.of_same rfl rfl
  · have ho := offerTest_same ((qs.map (·.id)).foldl (fun s id => discardRec id s) s)
    exact h.trans (m := 0) (Lowered.of_same ho.1 (by unfold State.anyBound; rw [ho.2]))

end Sys2Proof.Machine
end

