-- ==== Sys2Proof/Laws/KeepsStore.lean ====
section
/-! SUPPORT. `Keeps` for the operations of the Transport Sequencer, of reconciliation, of the Page Store and of
the channels (chapters 2, 4, 6, 9). -/

namespace Sys2Proof.Machine

set_option Elab.async false

variable {s u : State}

/-! ## Transport -/

theorem keeps_hold (r : HoldReason) (h : Keeps s u) : Keeps s (hold r u) := by
  unfold hold
  split
  · exact keeps_raise _ h
  · exact keeps_raise _ (keeps_modTsq _ (fun k => k) h)

theorem keeps_startHandshake (tag : Nat) (r : Pocket) (h : Keeps s u) : Keeps s (startHandshake tag r u) := by
  unfold startHandshake
  split
  · exact keeps_updEntry _ _ h
  · exact keeps_drive _ (keeps_modTsq _ (fun k => k) h)

theorem keeps_handshakeTest (h : Keeps s u) : Keeps s (handshakeTest u) := by
  unfold handshakeTest
  repeat' split
  all_goals first | exact h | exact keeps_startHandshake _ _ h

theorem keeps_decideRoute (tag : Nat) (r : Pocket) (h : Keeps s u) : Keeps s (decideRoute tag r u) :=
  keeps_handshakeTest (keeps_updEntry _ _ h)

theorem keeps_routeTest (tag : Nat) (h : Keeps s u) : Keeps s (routeTest tag u) := by
  unfold routeTest
  repeat' split
  all_goals first | exact h | exact keeps_decideRoute _ _ h | exact keeps_hold _ h

theorem keeps_routesLater (tag : Nat) (h : Keeps s u) : Keeps s (routesLater tag u) :=
  keeps_foldl _ (fun _ _ => keeps_routeTest _ (Keeps.refl _)) _ h

theorem keeps_updProgress (tag : Nat) (f : Progress → Progress) (h : Keeps s u) : Keeps s (u.updProgress tag f) :=
  keeps_modPgs _ (fun k => ⟨k.blocks, k.records, k.pool, k.once, k.exist, k.sized, k.ids⟩) (fun m => m) h

/-- A pick needs a place in the track (R36, R37). -/
theorem keeps_pickSheet (b : Binding) (a : AttrSet) (hl : u.tsq.track.length < Config.trackEntries)
    (h : Keeps s u) : Keeps s (pickSheet b a u) := by
  refine keeps_drive _ (keeps_updProgress _ _ (keeps_modTsq _ (fun _ => ?_) h))
  simpa [Tsq.trackBounded] using hl

theorem keeps_pickLearn (l : Learn) (hl : u.tsq.track.length < Config.trackEntries) (h : Keeps s u) :
    Keeps s (pickLearn l u) :=
  keeps_decideRoute _ _ (keeps_modTsq _ (fun k => k) (keeps_modDfm _ (keeps_pickSheet _ _ hl h)))

theorem keeps_pickTest (h : Keeps s u) : Keeps s (pickTest u) := by
  unfold pickTest
  split
  · rename_i hp
    repeat' split
    all_goals first
      | exact h
      | exact keeps_pickSheet _ _ hp.2.1 h
      | exact keeps_pickLearn _ hp.2.1 h
  · exact h

theorem keeps_pauseSignal (h : Keeps s u) : Keeps s (pauseSignal u) := keeps_modTsq _ (fun k => k) h

theorem keeps_resumeSignal (h : Keeps s u) : Keeps s (resumeSignal u) :=
  keeps_pickTest (keeps_modTsq _ (fun k => k) h)

theorem keeps_toIdle (h : Keeps s u) : Keeps s (toIdle u) := keeps_modTsq _ (fun k => k) h

theorem keeps_feedStops (h : Keeps s u) : Keeps s (feedStops u) := by
  unfold feedStops
  split
  all_goals first | exact h | exact keeps_modTsq _ (fun k => k) h

theorem keeps_withdrawBatch (b : Nat) (h : Keeps s u) : Keeps s (withdrawBatch b u) := by
  unfold withdrawBatch
  split
  · exact keeps_ite (keeps_toIdle (keeps_feedStops h)) (keeps_feedStops h)
  · exact h

theorem keeps_withdrawFill (h : Keeps s u) : Keeps s (withdrawFill u) := by
  unfold withdrawFill
  exact keeps_ite (keeps_feedStops h) h

/-! ## Reconciliation -/

theorem keeps_sendClose (r : BatchRec) (h : Keeps s u) : Keeps s (sendClose r u) :=
  keeps_ask _ _ (keeps_updBatch _ _ ⟨fun _ => rfl, fun _ => by simp [BatchRec.live], fun _ _ => rfl, fun _ => id⟩ h)

theorem keeps_closeTest (b : Nat) (h : Keeps s u) : Keeps s (closeTest b u) := by
  unfold closeTest
  repeat' split
  all_goals first | exact h | exact keeps_sendClose _ h

theorem keeps_endedTest (b : Nat) (h : Keeps s u) : Keeps s (endedTest b u) := by
  unfold endedTest
  repeat' split
  all_goals first
    | exact h
    | exact keeps_closeTest _ (keeps_updBatch _ _ ⟨fun _ => rfl, fun _ => by simp [BatchRec.live], fun _ _ => rfl, fun _ => id⟩ h)

theorem keeps_haltEndTest (b : Nat) (h : Keeps s u) : Keeps s (haltEndTest b u) := by
  unfold haltEndTest
  repeat' split
  all_goals first
    | exact h
    | exact keeps_endedTest _ (keeps_updBatch _ _ ⟨fun _ => rfl, fun _ => by simp [BatchRec.live], fun _ _ => rfl, fun _ => id⟩ h)

theorem recOk_same (f : BatchRec → BatchRec) (hn : ∀ r, (f r).number = r.number) (hs : ∀ r, (f r).state = r.state)
    (hh : ∀ r, holesRising r.holes → holesRising (f r).holes := by exact fun _ z => z) :
    RecOk f := ⟨hn, fun r => by simp [BatchRec.live, hs], fun r => by simp [hs], hh⟩

theorem mem_insertHole (h : Hole) (l : List Hole) (x : Hole) : x ∈ insertHole h l ↔ x = h ∨ x ∈ l := by
  induction l with
  | nil => simp [insertHole]
  | cons y l ih =>
    unfold insertHole
    split
    · simp
    · simp only [List.mem_cons, ih]; tauto

/-- A hole takes its place in position order (R153). -/
theorem holesRising_insertHole (h : Hole) (l : List Hole) (k : holesRising l) : holesRising (insertHole h l) := by
  induction l with
  | nil => simp [insertHole, holesRising]
  | cons y l ih =>
    have k' := List.pairwise_cons.mp k
    unfold insertHole
    split
    · rename_i hy
      refine List.pairwise_cons.mpr ⟨fun x hx => ?_, k⟩
      rcases List.mem_cons.mp hx with rfl | hx
      · exact le_of_lt hy
      · exact le_trans (le_of_lt hy) (k'.1 x hx)
    · rename_i hy
      refine List.pairwise_cons.mpr ⟨fun x hx => ?_, ih k'.2⟩
      rcases (mem_insertHole h l x).mp hx with rfl | hx
      · exact Nat.le_of_not_lt hy
      · exact k'.1 x hx

/-- Holes changed in place keep their order. -/
theorem holesRising_map (f : Hole → Hole) (hf : ∀ h, (f h).position = h.position) (l : List Hole)
    (k : holesRising l) : holesRising (l.map f) := by
  unfold holesRising at *
  rw [List.pairwise_map]
  simpa [hf] using k

theorem holesRising_updFirst (p : Hole → Bool) (f : Hole → Hole) (hf : ∀ h, (f h).position = h.position)
    (l : List Hole) (k : holesRising l) : holesRising (updFirst p f l) := by
  have hp : (updFirst p f l).map (·.position) = l.map (·.position) := updFirst_map _ _ _ (fun h _ => hf h) l
  have k' : (l.map (·.position)).Pairwise (· ≤ ·) := List.pairwise_map.mpr k
  exact List.pairwise_map.mp (hp ▸ k')

theorem keeps_lowerFailed (b : Nat) (h : Keeps s u) : Keeps s (lowerFailed b u) :=
  keeps_updBatch _ _ (recOk_same _ (fun _ => rfl) (fun _ => rfl)) h

theorem keeps_addHole (b p : Nat) (r : HoleReason) (a : AttrSet) (h : Keeps s u) : Keeps s (addHole b p r a u) :=
  keeps_updBatch _ _ (recOk_same _ (fun _ => rfl) (fun _ => rfl) (fun _ => holesRising_insertHole _ _)) h

theorem keeps_acceptPosition (b : Nat) (h : Keeps s u) : Keeps s (acceptPosition b u) :=
  keeps_updBatch _ _ (recOk_same _ (fun _ => rfl) (fun _ => rfl)) h

/-! ## Page Store -/

theorem keeps_levelTest (h : Keeps s u) : Keeps s (levelTest u) := by
  unfold levelTest
  repeat' split
  all_goals first
    | exact h
    | exact keeps_pauseSignal (keeps_modPgs _
        (fun k => ⟨k.blocks, k.records, k.pool, k.once, k.exist, k.sized, k.ids⟩) (fun m => m) h)
    | exact keeps_resumeSignal (keeps_modPgs _
        (fun k => ⟨k.blocks, k.records, k.pool, k.once, k.exist, k.sized, k.ids⟩) (fun m => m) h)

theorem accounted_unqueue {g : Pgs} (id : Nat) (k : g.accounted) : (unqueue id g).accounted :=
  ⟨k.blocks, k.records, k.pool, k.once, k.exist, k.sized, k.ids⟩

/-- The account when one record is taken out and its blocks and itself go back to the pools (R91). -/
theorem accounted_remove {g : Pgs} (id : Nat) (r : PageRec) (hr : g.recs.find? (·.id == id) = some r)
    (k : g.accounted) :
    ({ g with recs := g.recs.eraseP (·.id == id), recPool := g.recPool ++ [id], freeRecs := g.freeRecs + 1,
              freeBlocks := g.freeBlocks + r.blocks.length } : Pgs).accounted := by
  obtain ⟨hp, l₁, l₂, hl, hn⟩ := List.find?_eq_some_iff_append.mp hr
  have he : g.recs.eraseP (·.id == id) = l₁ ++ l₂ := by
    rw [hl, List.eraseP_append_right _ (fun b hb => by simpa using hn b hb)]
    simp only [List.eraseP_cons, hp, cond_true]
  have hlist : g.listed = l₁.flatMap (·.blocks) ++ (r.blocks ++ l₂.flatMap (·.blocks)) := by
    simp [Pgs.listed, hl]
  have hnew : (l₁ ++ l₂).flatMap (·.blocks) = l₁.flatMap (·.blocks) ++ l₂.flatMap (·.blocks) := by simp
  have hsub : List.Sublist (l₁.flatMap (·.blocks) ++ l₂.flatMap (·.blocks)) g.listed := by
    rw [hlist]; exact List.Sublist.append_left (List.sublist_append_right _ _) _
  have hb := k.blocks
  have hrec := k.records
  refine ⟨?_, ?_, ?_, ?_, ?_, ?_, ?_⟩
  · simp only [Pgs.listed, he, hnew]
    rw [hlist] at hb; simp only [List.length_append] at hb ⊢; omega
  · simp only [he]
    rw [hl] at hrec; simp only [List.length_append, List.length_cons] at hrec ⊢; omega
  · have := k.pool; simp [this]
  · simp only [Pgs.listed, he, hnew]; exact k.once.sublist hsub
  · simp only [Pgs.listed, he, hnew]; exact fun x hx => k.exist x (hsub.subset hx)
  · intro x hx
    have hx' : x ∈ l₁ ++ l₂ := he ▸ hx
    refine k.sized x ?_
    rw [hl]; rcases List.mem_append.mp hx' with hx | hx <;> simp [hx]
  · have hid : r.id = id := by simpa using hp
    have hk := k.ids
    rw [hl] at hk
    show ((g.recs.eraseP (·.id == id)).map (·.id) ++ (g.recPool ++ [id])).Nodup
    rw [he]
    refine (List.Perm.nodup_iff (List.perm_iff_count.mpr fun x => ?_)).mpr hk
    simp only [List.map_append, List.map_cons, List.count_append, List.count_cons, List.count_nil, hid]
    omega

theorem keeps_freeRec (id : Nat) (h : Keeps s u) : Keeps s (freeRec id u) := by
  unfold freeRec
  split
  · exact h
  · rename_i r hr
    have h1 := keeps_levelTest (keeps_modPgs (s := s) (u := u) (fun g => unqueue id { g with
      recs := g.recs.eraseP (·.id == id)
      recPool := g.recPool ++ [id]
      freeRecs := g.freeRecs + 1
      freeBlocks := g.freeBlocks + r.blocks.length })
      (fun k => accounted_unqueue id (accounted_remove id r hr k)) (fun m => m) h)
    split
    · exact h1
    · rename_i b _
      have h2 := keeps_ite (c := r.state = .failed ∧ ¬ r.fillFlag)
        (keeps_haltEndTest b (keeps_lowerFailed b h1)) h1
      exact keeps_ite (keeps_closeTest _ h2) h2

theorem keeps_freeRecs (ids : List Nat) (h : Keeps s u) : Keeps s (ids.foldl (fun s id => freeRec id s) u) :=
  keeps_foldl _ (fun _ _ => keeps_freeRec _ (Keeps.refl _)) _ h

/-- The account when one record changes without a change of its size or its blocks. -/
theorem accounted_updFirst {g : Pgs} (p : PageRec → Bool) (f : PageRec → PageRec)
    (hf : ∀ r, (f r).blocks = r.blocks ∧ (f r).size = r.size ∧ (f r).id = r.id) (k : g.accounted) :
    ({ g with recs := updFirst p f g.recs } : Pgs).accounted := by
  have hl : (updFirst p f g.recs).flatMap (·.blocks) = g.recs.flatMap (·.blocks) := by
    rw [List.flatMap_def, List.flatMap_def, updFirst_map _ _ _ (fun r _ => (hf r).1)]
  refine ⟨?_, by simpa using k.records, k.pool, ?_, ?_, fun r hr => ?_, ?_⟩
  · simp only [Pgs.listed, hl]; exact k.blocks
  · simp only [Pgs.listed, hl]; exact k.once
  · simp only [Pgs.listed, hl]; exact k.exist
  · rcases mem_updFirst _ _ _ _ hr with hr | ⟨x, hx, _, rfl⟩
    · exact k.sized r hr
    · rw [(hf x).1, (hf x).2.1]; exact k.sized x hx
  · show ((updFirst p f g.recs).map (·.id) ++ g.recPool).Nodup
    rw [updFirst_map _ _ _ (fun r _ => (hf r).2.2)]; exact k.ids

theorem keeps_updRec (id : Nat) (f : PageRec → PageRec)
    (hf : ∀ r, (f r).blocks = r.blocks ∧ (f r).size = r.size ∧ (f r).id = r.id) (h : Keeps s u) : Keeps s (u.updRec id f) :=
  keeps_modPgs _ (accounted_updFirst _ f hf) (fun m => m) h

theorem keeps_enterReady (id : Nat) (h : Keeps s u) : Keeps s (enterReady id u) := by
  unfold enterReady
  split
  · exact h
  · have h1 := keeps_updRec (s := s) (u := u) id (fun r => { r with state := .ready }) (fun _ => ⟨rfl, rfl, rfl⟩) h
    split
    · exact keeps_modPgs _ (fun k => ⟨k.blocks, k.records, k.pool, k.once, k.exist, k.sized, k.ids⟩) (fun m => m) h1
    · exact keeps_modPgs _ (fun k => ⟨k.blocks, k.records, k.pool, k.once, k.exist, k.sized, k.ids⟩) (fun m => m) h1

theorem keeps_addQueue (b : Nat) (h : Keeps s u) : Keeps s (addQueue b u) :=
  keeps_modPgs _ (fun k => ⟨k.blocks, k.records, k.pool, k.once, k.exist, k.sized, k.ids⟩) (fun m => m) h

theorem keeps_dropQueue (b : Nat) (h : Keeps s u) : Keeps s (dropQueue b u) :=
  keeps_modPgs _ (fun k => ⟨k.blocks, k.records, k.pool, k.once, k.exist, k.sized, k.ids⟩) (fun m => m) h

theorem keeps_allocRec (e : TrackEntry) (side : Side) (h : Keeps s u) : Keeps s (allocRec e side u) := by
  unfold allocRec
  split
  · exact h
  · rename_i id pool hp
    refine keeps_levelTest (keeps_updEntry _ _ (keeps_modPgs _ (fun k => ?_) (fun m => m) h))
    have hpool := k.pool
    have hrec := k.records
    rw [hp] at hpool
    simp only [List.length_cons] at hpool
    refine ⟨?_, ?_, ?_, ?_, ?_, fun r hr => ?_, ?_⟩
    · simpa [Pgs.listed] using k.blocks
    · simp only [List.length_append, List.length_cons, List.length_nil]; omega
    · show pool.length = _ - 1; omega
    · simpa [Pgs.listed] using k.once
    · simpa [Pgs.listed] using k.exist
    · rcases List.mem_append.mp hr with hr | hr
      · exact k.sized r hr
      · rw [List.mem_singleton.mp hr]; simp [blocksFor, Config.blockBytes]
    · have hids := k.ids
      rw [hp] at hids
      simpa using hids

theorem blocksFor_mono {a b : Nat} (h : a ≤ b) : blocksFor a ≤ blocksFor b := by
  unfold blocksFor; exact Nat.div_le_div_right (by omega)

/-- Data taken into the record that the identifier finds, for as many new blocks as its size then needs and
the pool holds (R82). -/
theorem keeps_appendData (r : PageRec) (bytes : List Byte) (n : Nat) (hr : u.findRec r.id = some r)
    (hn : n = blocksFor (r.size + bytes.length) - r.blocks.length) (hf : n ≤ u.pgs.freeBlocks) (h : Keeps s u) :
    Keeps s (appendData r bytes n u) := by
  have key : Keeps u (((u.modPgs fun g => { g with
      mem := Memory.writeRun g.mem (r.blocks ++ freshBlocks u.pgs.listed n) r.size bytes
      freeBlocks := g.freeBlocks - (freshBlocks u.pgs.listed n).length }).updRec r.id fun x => { x with
        blocks := r.blocks ++ freshBlocks u.pgs.listed n, size := x.size + bytes.length })) := by
    refine ⟨rfl, rfl, rfl, rfl, rfl, le_refl _, id, id, fun k => ?_, id, id, id, fun z => ⟨z.1, z.2, z.3⟩,
      fun _ => id, fun m => ⟨writeRun_wf _ _ _ _ m.1, m.2⟩⟩
    obtain ⟨hp, l₁, l₂, hl, hnn⟩ := List.find?_eq_some_iff_append.mp hr
    have hlen := length_freshBlocks u.pgs.listed n u.pgs.freeBlocks k.once k.exist k.blocks hf
    have hd := freshBlocks_nodup u.pgs.listed n
    have hm := mem_freshBlocks u.pgs.listed n
    have hu : ∀ f : PageRec → PageRec, updFirst (·.id == r.id) f u.pgs.recs = l₁ ++ f r :: l₂ := by
      intro f
      rw [hl]
      clear hl hr hlen hd hm
      induction l₁ with
      | nil => simp [updFirst]
      | cons x l₁ ih =>
        have hx := hnn x (List.mem_cons_self ..)
        have hx' : (x.id == r.id) = false := by simpa using hx
        simp only [List.cons_append, updFirst, hx', Bool.false_eq_true, if_false]
        rw [ih (fun y hy => hnn y (List.mem_cons_of_mem _ hy))]
    have hold : u.pgs.listed = l₁.flatMap (·.blocks) ++ (r.blocks ++ l₂.flatMap (·.blocks)) := by
      simp [Pgs.listed, hl]
    have hnew : ∀ fr : List Nat, (l₁ ++ { r with blocks := r.blocks ++ fr, size := r.size + bytes.length } :: l₂).flatMap
        (·.blocks) = l₁.flatMap (·.blocks) ++ (r.blocks ++ fr ++ l₂.flatMap (·.blocks)) := by
      intro fr; simp
    have hperm : (l₁.flatMap (·.blocks) ++ (r.blocks ++ freshBlocks u.pgs.listed n ++ l₂.flatMap (·.blocks))).Perm
        (freshBlocks u.pgs.listed n ++ u.pgs.listed) := by
      rw [List.perm_iff_count]
      intro x
      simp only [List.count_append]
      conv_rhs => rw [show List.count x u.pgs.listed = _ from congrArg (List.count x) hold]
      simp only [List.count_append]; omega
    have hb := k.blocks
    have hrecs := k.records
    have hL := (congrArg (List.flatMap (·.blocks)) (hu fun x => { x with
      blocks := r.blocks ++ freshBlocks u.pgs.listed n, size := x.size + bytes.length })).trans
        (hnew (freshBlocks u.pgs.listed n))
    refine ⟨?_, ?_, k.pool, ?_, ?_, fun x hx => ?_, ?_⟩
    · refine (congrArg (fun L => u.pgs.freeBlocks - (freshBlocks u.pgs.listed n).length + List.length L) hL).trans ?_
      rw [hperm.length_eq, List.length_append, hlen]; omega
    · simp only [State.updRec, State.modPgs, hu]
      rw [hl] at hrecs; simpa using hrecs
    · refine (congrArg List.Nodup hL).mpr (hperm.nodup_iff.mpr (List.nodup_append.mpr ⟨hd, k.once, fun a ha b hbm => ?_⟩))
      rintro rfl; exact (hm a ha).2 hbm
    · intro x hx
      rcases List.mem_append.mp (hperm.subset ((congrArg (x ∈ ·) hL).mp hx)) with hx | hx
      · exact (hm x hx).1
      · exact k.exist x hx
    · simp only [State.updRec, State.modPgs, hu] at hx
      rcases List.mem_append.mp hx with hx | hx
      · exact k.sized x (by rw [hl]; simp [hx])
      · rcases List.mem_cons.mp hx with rfl | hx
        · have hs := k.sized r (by rw [hl]; simp)
          have := blocksFor_mono (show r.size ≤ r.size + bytes.length by omega)
          simp only [List.length_append, hlen]; omega
        · exact k.sized x (by rw [hl]; simp [hx])
    · have hk := k.ids
      rw [hl] at hk
      simp only [State.updRec, State.modPgs, hu]
      simpa using hk
  unfold appendData
  exact keeps_ite (h.trans key) (keeps_levelTest (h.trans key))

theorem keeps_markPages (ids : List Nat) (h : Keeps s u) : Keeps s (markPages ids u) :=
  keeps_foldl (fun s id => s.updRec id fun r => { r with mark := true })
    (fun v _ => keeps_updRec _ _ (fun _ => ⟨rfl, rfl, rfl⟩) (Keeps.refl v)) _ h

theorem keeps_placePages (ids : List Nat) (p : Nat) (h : Keeps s u) : Keeps s (placePages ids p u) :=
  keeps_foldl (fun s id => s.updRec id fun r => { r with position := some p })
    (fun v _ => keeps_updRec _ _ (fun _ => ⟨rfl, rfl, rfl⟩) (Keeps.refl v)) _ h

theorem keeps_detachRec (id : Nat) (h : Keeps s u) : Keeps s (detachRec id u) := by
  unfold detachRec
  split
  · exact keeps_updProgress _ _ (keeps_updEntry _ _ h)
  · exact h

/-! ## Channels -/

theorem keeps_emptyStaged (c : ChanId) (h : Keeps s u) : Keeps s (emptyStaged c u) := keeps_updChan _ _ h

theorem keeps_emptyActive (c : ChanId) (h : Keeps s u) : Keeps s (emptyActive c u) := keeps_updChan _ _ h

theorem keeps_offerPage (c : ChanId) (r : PageRec) (g : Nat) (h : Keeps s u) : Keeps s (offerPage c r g u) :=
  keeps_ask _ _ (keeps_modTxe _ (keeps_updChan _ _ (keeps_updRec _ _ (fun _ => ⟨rfl, rfl, rfl⟩)
    (keeps_modPgs _ (accounted_unqueue _) (fun m => m) h))))

theorem keeps_offerOne (c : ChanId) (h : Keeps s u) : Keeps s (offerOne c u) := by
  unfold offerOne
  repeat' split
  all_goals first | exact h | exact keeps_offerPage _ _ _ h

theorem keeps_offerTest (h : Keeps s u) : Keeps s (offerTest u) := keeps_offerOne _ (keeps_offerOne _ h)

theorem keeps_toReady (id : Nat) (h : Keeps s u) : Keeps s (toReady id u) := by
  unfold toReady
  split
  · exact keeps_ite (keeps_freeRec _ h) (keeps_enterReady _ h)
  · exact h

theorem keeps_dropOutstanding (id : Nat) (h : Keeps s u) : Keeps s (dropOutstanding id u) := keeps_modTxe _ h

theorem keeps_txeDiscard (id : Nat) (h : Keeps s u) : Keeps s (txeDiscard id u) := by
  unfold txeDiscard
  repeat' split
  all_goals first
    | exact h
    | exact keeps_freeRec _ (keeps_emptyStaged _ h)
    | exact keeps_freeRec _ (keeps_emptyActive _ h)
    | exact keeps_updChan _ _ h

theorem keeps_discardRec (id : Nat) (h : Keeps s u) : Keeps s (discardRec id u) := by
  unfold discardRec
  split
  · exact h
  · have h1 := keeps_detachRec (s := s) id h
    dsimp only
    split
    all_goals first
      | exact keeps_freeRec _ h1
      | exact keeps_freeRec _ (keeps_dropOutstanding _ h1)
      | exact keeps_ite h1 (keeps_txeDiscard _ (keeps_updRec _ _ (fun _ => ⟨rfl, rfl, rfl⟩) h1))

theorem keeps_discardAll (ids : List Nat) (h : Keeps s u) : Keeps s (discardAll ids u) := by
  unfold discardAll
  exact keeps_ite h (keeps_offerTest (keeps_foldl _ (fun _ _ => keeps_discardRec _ (Keeps.refl _)) _ h))

end Sys2Proof.Machine
end

