-- ==== Sys2Proof/Laws/KeepsFill.lean ====
section
/-! SUPPORT. `Keeps` for the fill job, the transfer and the answers to them (chapters 6 and 8). -/

namespace Sys2Proof.Machine

set_option Elab.async false

variable {s u : State}

/-! ## At the owner -/

theorem reconcileHeld_position (a : Nat) (held : List Nat) (h : Hole) :
    (reconcileHeld a held h).position = h.position := by
  unfold reconcileHeld
  split
  · rfl
  · split <;> rfl

theorem claimLowest_positions (a n : Nat) (hs : List Hole) :
    (claimLowest a n hs).map (·.position) = hs.map (·.position) := by
  induction hs generalizing n with
  | nil => simp [claimLowest]
  | cons h hs ih =>
    cases n with
    | zero => simp [claimLowest]
    | succ n => unfold claimLowest; split <;> simp [ih, Hole.claimFor]

theorem holesRising_claimLowest (a n : Nat) (hs : List Hole) (k : holesRising hs) :
    holesRising (claimLowest a n hs) := by
  have k' : (hs.map (·.position)).Pairwise (· ≤ ·) := List.pairwise_map.mpr k
  exact List.pairwise_map.mp (claimLowest_positions a n hs ▸ k')

theorem released_position (a : Nat) (final : Bool) (ps : List Nat) (h : Hole) :
    (h.released a final ps).position = h.position := by unfold Hole.released; split <;> rfl

/-- What a claim leaves of the list it was made from. -/
theorem keeps_claimHoles (b : Nat) (f : List Hole → List Hole) (hf : ∀ l, holesRising l → holesRising (f l))
    (r : BatchRec) (hr : u.findBatch b = some r) (h : Keeps s u) :
    Keeps s (u.updBatch b fun x => { x with holes := f r.holes }) := by
  have hm : r ∈ u.bct.batches := List.mem_of_find?_eq_some hr
  refine keeps_modBct _ (fun k => bounded_updFirst b (fun x => { x with holes := f r.holes }) (fun _ _ => rfl)
    (fun _ _ => id) (fun _ _ _ _ => hf _ (k.holes r hm)) k)
    (fun _ k d hd ho hb => listed_updFirst b d.batch (fun x => { x with holes := f r.holes }) (fun _ _ => rfl)
      (fun _ _ _ => id) _ (k d hd ho hb)) h

theorem keeps_ownerClaim (a b w : Nat) (ps : List Nat) (h : Keeps s u) : Keeps s (ownerClaim a b w ps u).2 := by
  unfold ownerClaim
  split
  · exact h
  · rename_i r hr
    split
    · exact h
    · split
      · exact keeps_claimHoles b (fun l => claimLowest a w (l.map (reconcileHeld a ps)))
          (fun l k => holesRising_claimLowest _ _ _ (holesRising_map _ (reconcileHeld_position a ps) l k)) r hr h
      · exact h

theorem keeps_ownerFilled (b p : Nat) (h : Keeps s u) : Keeps s (ownerFilled b p u) := by
  unfold ownerFilled
  split
  · exact h
  · exact keeps_ite (keeps_closeTest _ (keeps_updBatch _ _ (recOk_same _ (fun _ => rfl) (fun _ => rfl)
      (fun r k => holesRising_updFirst _ (fun x => { x with state := .filled, claimant := none }) (fun _ => rfl)
        r.holes k)) h)) h

theorem keeps_ownerRelease (a b : Nat) (final : Bool) (ps : List Nat) (h : Keeps s u) :
    Keeps s (ownerRelease a b final ps u) := by
  unfold ownerRelease
  repeat' split
  all_goals first
    | exact h
    | exact keeps_updBatch _ _ (recOk_same _ (fun _ => rfl) (fun _ => rfl)
        (fun _ k => holesRising_map _ (released_position a final ps) _ k)) h

theorem keeps_mapBatches (f : BatchRec → BatchRec) (hn : ∀ r, (f r).number = r.number)
    (hs : ∀ r, (f r).state = r.state) (hh : ∀ r, holesRising r.holes → holesRising (f r).holes) (h : Keeps s u) :
    Keeps s (u.modBct fun t => { t with batches := t.batches.map f }) := by
  refine keeps_modBct _ (fun k => ⟨by simpa using k.table, ?_, ?_, ?_, k.room, k.known, k.granted, k.distinct⟩)
    (fun _ k d hd ho hb => ?_) h
  · have : (u.bct.batches.map f).map (·.number) = u.bct.batches.map (·.number) := by simp [hn]
    exact this ▸ k.numbers
  · have : (u.bct.batches.map f).countP (·.live) = u.bct.batches.countP (·.live) := by
      rw [List.countP_map]; congr 1; funext r; simp [BatchRec.live, hs]
    exact this ▸ k.oneLive
  · intro r hr
    obtain ⟨x, hx, rfl⟩ := List.mem_map.mp hr
    exact hh x (k.holes x hx)
  · obtain ⟨r, hr, h1, h2⟩ := k d hd ho hb
    exact ⟨f r, List.mem_map_of_mem hr, by rw [hn]; exact h1, by rw [hs]; exact h2⟩

theorem keeps_ownerSilent (a : Nat) (h : Keeps s u) : Keeps s (ownerSilent a u) :=
  keeps_mapBatches _ (fun r => by split <;> rfl) (fun r => by split <;> rfl)
    (fun r k => by split; exacts [k, holesRising_map _ (released_position a true []) _ k]) h

/-! ## The fill job -/

theorem jobOk_same (f : FillJob → FillJob) (hg : ∀ j, (f j).granted = j.granted) : JobOk f := by
  intro j k; rw [hg]; exact k

theorem jobOk_filter (f : FillJob → FillJob) (p : FillJob → Grant → Bool)
    (hg : ∀ j, (f j).granted = j.granted.filter (p j)) : JobOk f := by
  intro j k
  rw [hg]
  exact ⟨le_trans (List.length_filter_le _ _) k.1, k.2.sublist (List.Sublist.map _ List.filter_sublist)⟩

theorem keeps_sendRelease (j : FillJob) (final : Bool) (h : Keeps s u) : Keeps s (sendRelease j final u) :=
  keeps_ite (keeps_ownerRelease _ _ _ _ h) (keeps_tell _ _ h)

theorem keeps_sendFilled (j : FillJob) (p : Nat) (h : Keeps s u) : Keeps s (sendFilled j p u) :=
  keeps_ite (keeps_ownerFilled _ _ h) (keeps_tell _ _ h)

theorem keeps_collectReleases (h : Keeps s u) : Keeps s (collectReleases u) :=
  keeps_updJob _ (jobOk_filter _ (fun _ g => !u.givesUp g) (fun _ => rfl)) h

theorem keeps_removeJob (j : FillJob) (h : Keeps s u) : Keeps s (removeJob j u) :=
  keeps_raise _ (keeps_setFill _ (fun _ => ⟨rfl, rfl, Or.inl rfl⟩) (keeps_sendRelease _ _ h))

theorem keeps_endingTest (h : Keeps s u) : Keeps s (endingTest u) := by
  unfold endingTest
  split
  · split
    · have h1 := keeps_collectReleases h
      dsimp only
      split
      · exact keeps_ite h1 (keeps_removeJob _ h1)
      · exact h1
    · exact h
  · exact h

theorem keeps_withdrawEnding (h : Keeps s u) : Keeps s (withdrawEnding u) :=
  keeps_ite (keeps_toIdle (keeps_withdrawFill h)) (keeps_withdrawFill h)

theorem keeps_fillEnd (c : EndCause) (r : Option HoleRefusal) (h : Keeps s u) : Keeps s (fillEnd c r u) := by
  unfold fillEnd
  split
  · split
    · have h1 := keeps_collectReleases (keeps_withdrawEnding (keeps_updJob (s := s) (u := u)
        (fun j => { j with phase := .ending, endCause := some c, refusal := r, claimTag := none })
        (jobOk_same _ fun _ => rfl) h))
      dsimp only
      split
      · rename_i j _
        have h2 := keeps_updJob (fun j => { j with releaseSet := [] }) (jobOk_same _ fun _ => rfl)
          (keeps_sendRelease j false h1)
        exact keeps_ite (keeps_ite h1 h2) (keeps_removeJob _ h1)
      · exact h1
    · exact h
  · exact h

theorem keeps_ownerGone (b : Nat) (h : Keeps s u) : Keeps s (ownerGone b u) := by
  unfold ownerGone
  split
  · exact keeps_ite (keeps_fillEnd _ _ h) h
  · exact h

/-! ## Claims -/

theorem keeps_claimAnswered (h : Keeps s u) : Keeps s (claimAnswered u) :=
  keeps_updJob _ (jobOk_same _ fun _ => rfl) h

theorem joinGrant_ok (l : List Grant) (g : Nat × AttrSet)
    (h : l.length ≤ Config.grantEntries ∧ (l.map (·.position)).Nodup) :
    (joinGrant l g).length ≤ Config.grantEntries ∧ ((joinGrant l g).map (·.position)).Nodup := by
  unfold joinGrant
  split
  · rename_i hc
    refine ⟨by have := hc.1; simp; omega, ?_⟩
    rw [List.map_append, List.nodup_append]
    refine ⟨h.2, by simp, ?_⟩
    rintro a ha b hb rfl
    obtain ⟨x, hx, rfl⟩ := List.mem_map.mp ha
    refine hc.2 (List.any_eq_true.mpr ⟨x, hx, ?_⟩)
    have : x.position = g.1 := by simpa using hb
    simpa using this
  · exact h

theorem jobOk_join (gw : Nat) (gs : List (Nat × AttrSet)) :
    JobOk (fun j => { j with gateway := gw, granted := gs.foldl joinGrant j.granted }) := by
  intro j hj
  show (gs.foldl joinGrant j.granted).length ≤ _ ∧ ((gs.foldl joinGrant j.granted).map (·.position)).Nodup
  generalize j.granted = l at hj ⊢
  induction gs generalizing l with
  | nil => exact hj
  | cons g gs ih => exact ih _ (joinGrant_ok l g hj)

theorem keeps_takeGrant (again : State → State) (ha : ∀ v, Keeps v (again v)) (gw : Nat)
    (gs : List (Nat × AttrSet)) (h : Keeps s u) : Keeps s (takeGrant again gw gs u) :=
  (keeps_pickTest (keeps_updJob _ (jobOk_join gw gs) (keeps_claimAnswered h))).trans (ha _)

theorem keeps_takeNone (h : Keeps s u) : Keeps s (takeNone u) :=
  keeps_ite (keeps_raise _ (keeps_fillEnd _ _ (keeps_claimAnswered h))) (keeps_fillEnd _ _ (keeps_claimAnswered h))

theorem keeps_takeHoleRefuse (r : HoleRefusal) (h : Keeps s u) : Keeps s (takeHoleRefuse r u) :=
  keeps_fillEnd _ _ (keeps_claimAnswered h)

theorem keeps_takeLocal (again : State → State) (ha : ∀ v, Keeps v (again v)) (p : Payload) (h : Keeps s u) :
    Keeps s (takeLocal again p u) := by
  unfold takeLocal
  split
  · exact keeps_takeGrant _ ha _ _ h
  · exact keeps_takeNone h
  · exact keeps_takeHoleRefuse _ h
  · exact h

/-- A claim leaves held entries of the job's list alone. -/
theorem keeps_makeClaim (again : State → State) (ha : ∀ v, Keeps v (again v)) (j : FillJob)
    (hj : u.bct.fill = some j) (h : Keeps s u) : Keeps s (makeClaim again j u) := by
  have h1 : Keeps s (u.updJob fun i => { i with granted := j.granted.filter (·.held), claims := bump8 i.claims }) := by
    refine h.trans (keeps_modBct _ (fun k => ⟨k.table, k.numbers, k.oneLive, k.holes, k.room, k.known, ?_, ?_⟩)
      (fun _ => id) (Keeps.refl _))
    all_goals
      intro i hi
      obtain ⟨x, _, rfl⟩ := Option.map_eq_some_iff.mp hi
    · exact le_trans (List.length_filter_le _ _) (k.granted j hj)
    · exact (k.distinct j hj).sublist (List.Sublist.map _ List.filter_sublist)
  unfold makeClaim
  dsimp only
  split
  · exact keeps_takeLocal _ ha _ (keeps_ownerClaim _ _ _ _ h1)
  · exact keeps_ask _ _ (keeps_updJob _ (jobOk_same _ fun _ => rfl) h1)

theorem keeps_feedTest (h : Keeps s u) : Keeps s (feedTest u) := by
  unfold feedTest
  split
  · split
    · exact keeps_ite (keeps_toIdle (keeps_fillEnd _ _ (keeps_withdrawFill h))) (keeps_withdrawFill h)
    · exact h
  · exact h

theorem keeps_fillTest (n : Nat) (first : Bool) (h : Keeps s u) : Keeps s (fillTest n first u) := by
  induction n generalizing s u first with
  | zero => exact h
  | succ n ih =>
    unfold fillTest
    refine keeps_feedTest ?_
    split
    · rename_i j hj
      exact keeps_ite (keeps_makeClaim _ (fun v => ih false (Keeps.refl v)) j hj h) h
    · exact h

theorem keeps_fillChanged (h : Keeps s u) : Keeps s (fillChanged u) := keeps_endingTest (keeps_fillTest _ _ h)

theorem keeps_feedStopped (h : Keeps s u) : Keeps s (feedStopped u) := by
  unfold feedStopped
  split
  · exact keeps_fillEnd _ _ h
  · exact keeps_fillTest _ _ h

theorem keeps_drainTest (h : Keeps s u) : Keeps s (drainTest u) :=
  keeps_ite (keeps_toIdle (keeps_ite (keeps_feedStopped h) h)) h

/-! ## Fill sheets and fill pages -/

theorem keeps_updGrant (p : Nat) (f : Grant → Grant) (hf : ∀ g, (f g).position = g.position) (h : Keeps s u) :
    Keeps s (updGrant p f u) :=
  keeps_updJob _ (fun j k => ⟨by simpa using k.1, by
    show ((updFirst _ f j.granted).map (·.position)).Nodup
    rw [updFirst_map _ _ _ (fun g _ => hf g)]; exact k.2⟩) h

theorem keeps_fillScanned (p : Nat) (h : Keeps s u) : Keeps s (fillScanned p u) :=
  keeps_fillChanged (keeps_updGrant _ _ (fun _ => rfl) h)

theorem keeps_fillRefused (p : Nat) (h : Keeps s u) : Keeps s (fillRefused p u) :=
  keeps_fillChanged (keeps_updGrant _ _ (fun _ => rfl) h)

theorem keeps_storeGrant (p : Nat) (h : Keeps s u) : Keeps s (storeGrant p u) := by
  unfold storeGrant
  repeat' split
  all_goals first
    | exact h
    | exact keeps_sendFilled _ _ (keeps_updJob _ (jobOk_same _ fun _ => rfl) (keeps_updGrant _ _ (fun _ => rfl) h))
    | exact keeps_updGrant _ _ (fun _ => rfl) h

theorem keeps_fillStored (p : Nat) (h : Keeps s u) : Keeps s (fillStored p u) :=
  keeps_fillChanged (keeps_storeGrant p h)

theorem keeps_refuseGrant (p : Nat) (h : Keeps s u) : Keeps s (refuseGrant p u) := by
  unfold refuseGrant
  repeat' split
  all_goals first
    | exact h
    | exact keeps_discardAll _ (keeps_updGrant _ _ (fun _ => rfl) h)

theorem keeps_fillFailed (p : Nat) (h : Keeps s u) : Keeps s (fillFailed p u) :=
  keeps_fillChanged (keeps_refuseGrant p h)

theorem keeps_releaseReservation (tag : Nat) (h : Keeps s u) : Keeps s (releaseReservation tag u) :=
  keeps_updEntry _ _ h

/-! ## Failure and answers -/

theorem keeps_haltBatch (b : Nat) (r : Option PageRefusal) (h : Keeps s u) : Keeps s (haltBatch b r u) := by
  have hok : RecOk (fun r => { r with state := .halted }) :=
    ⟨fun _ => rfl, fun _ => by simp [BatchRec.live], fun _ _ => rfl, fun _ => id⟩
  unfold haltBatch
  split
  · exact h
  · have h1 := keeps_updBatch (s := s) (u := u) b (fun x => { x with
      failedPages := bump 512 x.failedPages
      gatewayRefusal := x.gatewayRefusal.orElse fun _ => gatewayRefusalOf r })
      (recOk_same _ (fun _ => rfl) (fun _ => rfl)) h
    dsimp only
    split
    · exact keeps_withdrawBatch _ (keeps_raise _ (keeps_updBatch _ _ hok h1))
    · exact keeps_raise _ (keeps_updBatch _ _ hok h1)
    · exact keeps_raise _ (keeps_updBatch _ _ hok h1)
    · exact h1

theorem keeps_pageFailed (id : Nat) (r : Option PageRefusal) (h : Keeps s u) : Keeps s (pageFailed id r u) := by
  unfold pageFailed
  split
  · exact h
  · have h1 := keeps_modTxe (fun t => { t with failedPages := bump16 t.failedPages })
      (keeps_raise .transferFailed (keeps_updRec (s := s) (u := u) id (fun r => { r with state := .failed })
        (fun _ => ⟨rfl, rfl, rfl⟩) h))
    exact keeps_ite (keeps_freeRec _ h) (keeps_ite (keeps_fillFailed _ h1) (keeps_haltBatch _ _ h1))

theorem keeps_staleAnswer (h : Keeps s u) : Keeps s (staleAnswer u) := keeps_modTxe _ h

theorem keeps_startRetry (c : ChanId) (h : Keeps s u) : Keeps s (startRetry c u) := keeps_updChan _ _ h

theorem keeps_takeSlotGrant (x : Hdr) (n o : Nat) (h : Keeps s u) : Keeps s (takeSlotGrant x n o u) := by
  unfold takeSlotGrant
  split
  · exact keeps_staleAnswer h
  · rename_i c _
    have h1 := fun f => keeps_updChan c f (keeps_modTxe (s := s) (u := u)
      (fun t => { t with grants := bump16 t.grants }) h)
    exact keeps_ite (keeps_ite (keeps_offerTest (h1 _)) (h1 _))
      (keeps_offerTest (keeps_startRetry _ (keeps_staleAnswer (keeps_toReady _ (keeps_emptyStaged _ h)))))

theorem keeps_takeSlotWait (x : Hdr) (h : Keeps s u) : Keeps s (takeSlotWait x u) := by
  unfold takeSlotWait
  split
  · exact keeps_staleAnswer h
  · exact keeps_offerTest (keeps_startRetry _ (keeps_modTxe _ (keeps_toReady _ (keeps_emptyStaged _ h))))

theorem keeps_takePageRefuse (x : Hdr) (r : PageRefusal) (h : Keeps s u) : Keeps s (takePageRefuse x r u) := by
  unfold takePageRefuse
  split
  · exact keeps_staleAnswer h
  · exact keeps_offerTest (keeps_pageFailed _ _ (keeps_modTxe _ (keeps_emptyStaged _ h)))

theorem keeps_finishStored (id : Nat) (h : Keeps s u) : Keeps s (finishStored id u) := by
  unfold finishStored
  split
  · exact h
  · exact keeps_modTxe _ (keeps_freeRec _ (keeps_ite (keeps_fillStored _ h) h))

theorem keeps_takePageStored (x : Hdr) (p : PageId) (h : Keeps s u) : Keeps s (takePageStored x p u) := by
  unfold takePageStored
  repeat' split
  all_goals first
    | exact keeps_staleAnswer h
    | exact keeps_offerTest (keeps_finishStored _ (keeps_emptyStaged _ h))
    | exact keeps_updChan _ _ h
    | exact keeps_offerTest (keeps_finishStored _ (keeps_emptyActive _ h))
    | exact keeps_offerTest (keeps_finishStored _ (keeps_dropOutstanding _ h))

/-! ## Bursts, completions and timers -/

theorem keeps_pageSent (c : ChanId) (h : Keeps s u) : Keeps s (pageSent c u) :=
  keeps_offerTest (keeps_emptyActive _ (keeps_modTxe _ (keeps_updRec _ _ (fun _ => ⟨rfl, rfl, rfl⟩) h)))

theorem keeps_giveUpNow (c : ChanId) (d : Desc) (h : Keeps s u) : Keeps s (giveUpNow c d u) := by
  have h1 := keeps_emptyActive (s := s) c h
  unfold giveUpNow
  refine keeps_offerTest ?_
  split
  · exact h1
  · exact keeps_toReady _ h1
  · exact keeps_ite (keeps_pageFailed _ _ h1) (keeps_toReady _ h1)
  · exact keeps_ite (keeps_finishStored _ h1) (keeps_freeRec _ h1)

theorem keeps_burstSent (c : ChanId) (n : Nat) (h : Keeps s u) : Keeps s (burstSent c n u) := by
  unfold burstSent
  refine keeps_ite ?_ (keeps_giveUpNow _ _ h)
  exact keeps_ite (keeps_pageSent _ (keeps_updChan _ _ h)) (keeps_updChan _ _ h)

theorem keeps_raiseRestarts (id : Nat) (h : Keeps s u) : Keeps s (raiseRestarts id u) :=
  keeps_updRec _ _ (fun _ => ⟨rfl, rfl, rfl⟩) h

theorem keeps_restartPage (r : PageRec) (h : Keeps s u) : Keeps s (restartPage r u) :=
  keeps_ite (keeps_toReady _ (keeps_raiseRestarts _ h)) (keeps_pageFailed _ _ h)

theorem keeps_takeSetback (k : Setback) (x : Hdr) (p : PageId) (n : Nat) (h : Keeps s u) :
    Keeps s (takeSetback k x p n u) := by
  have h1 : Keeps s (countRestart k u) := keeps_modTxe _ h
  unfold takeSetback
  split
  · exact keeps_ite (keeps_updChan _ _ (keeps_raiseRestarts _ h1))
      (keeps_offerTest (keeps_restartPage _ (keeps_emptyActive _ h1)))
  · split
    · exact keeps_offerTest (keeps_restartPage _ (keeps_dropOutstanding _ h1))
    · exact keeps_modTxe _ h

theorem keeps_offerExpired (c : ChanId) (h : Keeps s u) : Keeps s (offerExpired c u) :=
  keeps_ite (keeps_offerTest (keeps_modTxe _ (keeps_toReady _ (keeps_emptyStaged _ (keeps_advanceTo _ h))))) h

theorem keeps_retryExpired (c : ChanId) (h : Keeps s u) : Keeps s (retryExpired c u) := by
  unfold retryExpired
  split
  · exact keeps_offerOne _ (keeps_updChan _ _ (keeps_advanceTo _ h))
  · exact h

theorem keeps_storeTimerExpired (p : PageId) (h : Keeps s u) : Keeps s (storeTimerExpired p u) := by
  unfold storeTimerExpired
  split
  · exact keeps_offerTest (keeps_modTxe _ (keeps_toReady _ (keeps_dropOutstanding _ (keeps_advanceTo _ h))))
  · exact h

theorem keeps_silenceChan (g : Nat) (c : ChanId) (h : Keeps s u) : Keeps s (silenceChan g c u) := by
  have h1 := keeps_ite (c := (u.chan c).staged.phase ≠ .empty ∧ (u.chan c).staged.gateway = some g)
    (keeps_toReady ((u.chan c).staged.page.getD 0) (keeps_emptyStaged c h)) h
  unfold silenceChan
  exact keeps_ite (keeps_ite (keeps_updChan _ _ h1) (keeps_toReady _ (keeps_emptyActive _ h1))) h1

theorem keeps_txeSilence (g : Nat) (h : Keeps s u) : Keeps s (txeSilence g u) :=
  keeps_offerTest (keeps_silenceChan _ _ (keeps_silenceChan _ _ h))

end Sys2Proof.Machine
end

