-- ==== Sys2Proof/Laws/KeepsBatches.lean ====
section
/-! SUPPORT. `Keeps` for the Batch Controller's orders, frames, timeouts and directory (chapters 1, 8, 9), where
a record that enters a terminal state also leaves the directory. -/

namespace Sys2Proof.Machine

set_option Elab.async false

variable {s u : State}

/-! ## The directory -/

theorem keeps_removeDir (b o : Nat) (h : Keeps s u) : Keeps s (removeDir b o u) := by
  refine keeps_modBct _ (fun k => ⟨k.table, k.numbers, k.oneLive, k.holes, ?_, ?_, k.granted, k.distinct⟩)
    (fun _ k d hd => k d (List.mem_of_mem_filter hd)) h
  · exact le_trans (List.length_filter_le _ _) k.room
  · exact k.known.sublist (List.Sublist.map _ List.filter_sublist)

/-- Where this station's entry of a batch is removed, the batch needs no live record any more. -/
theorem ownListed_removeDir (b : Nat) (but : List Nat) (k : u.ownListed (b :: but)) :
    (removeDir b u.oru.address u).ownListed but := by
  intro d hd ho hb
  have hd' := List.mem_filter.mp hd
  have ho' : d.owner = u.oru.address := ho
  refine k d hd'.1 ho' ?_
  have : ¬ d.batch = b := by
    intro e
    have := hd'.2
    simp [e, ho'] at this
  simp [this, hb]

theorem own_listed (own : Nat) (l : List DirEntry) (table : List BatchRec) (ht : table.length ≤ Config.batchEntries)
    (hk : (l.map (·.batch)).Nodup)
    (hl : ∀ d ∈ l, d.owner = own → ∃ r ∈ table, r.number = d.batch ∧ r.state.terminal = false) :
    (l.filter (·.owner == own)).length ≤ Config.batchEntries := by
  have hsub : (l.filter (·.owner == own)).map (·.batch) ⊆ table.map (·.number) := by
    intro x hx
    obtain ⟨d, hd, rfl⟩ := List.mem_map.mp hx
    obtain ⟨hd, ho⟩ := List.mem_filter.mp hd
    obtain ⟨r, hr, hn, _⟩ := hl d hd (by simpa using ho)
    exact List.mem_map.mpr ⟨r, hr, hn⟩
  have hnd : ((l.filter (·.owner == own)).map (·.batch)).Nodup := hk.sublist (List.Sublist.map _ List.filter_sublist)
  have := (List.subperm_of_subset hnd hsub).length_le
  simp only [List.length_map] at this
  exact le_trans this ht

theorem length_dropForeign (own : Nat) (l : List DirEntry) :
    (dropForeign own l).length ≤ l.length ∧
      ((∃ d ∈ l, d.owner ≠ own) → (dropForeign own l).length + 1 = l.length) := by
  induction l with
  | nil => simp [dropForeign]
  | cons e l ih =>
    unfold dropForeign
    split
    · exact ⟨by simp, fun _ => by simp⟩
    · rename_i he
      refine ⟨by simpa using ih.1, fun ⟨d, hd, hn⟩ => ?_⟩
      rcases List.mem_cons.mp hd with rfl | hd
      · exact absurd hn he
      · simpa using ih.2 ⟨d, hd, hn⟩

theorem dropForeign_sublist (own : Nat) (l : List DirEntry) : (dropForeign own l).Sublist l := by
  induction l with
  | nil => exact List.Sublist.slnil
  | cons e l ih =>
    unfold dropForeign
    split
    · exact List.sublist_cons_self _ _
    · exact ih.cons_cons _

/-- What an entry made or overwritten leaves: the directory stays bounded, because at most 8 entries have this
station as owner (R26). -/
theorem bounded_setDir (e : DirEntry) (hk : u.bct.bounded) (ho : u.ownListed []) : (setDir e u).bct.bounded := by
  have hrest : ∀ l : List DirEntry, l.Sublist u.bct.directory → e.batch ∉ l.map (·.batch) →
      l.length < Config.directoryEntries → (l ++ [e]).length ≤ Config.directoryEntries ∧
        ((l ++ [e]).map (·.batch)).Nodup := by
    intro l hl hb hn
    refine ⟨by simpa using hn, ?_⟩
    rw [List.map_append, List.nodup_append]
    refine ⟨hk.known.sublist (hl.map _), by simp, ?_⟩
    rintro a ha b hb' rfl
    have : a = e.batch := by simpa using hb'
    exact hb (this ▸ ha)
  have hf : e.batch ∉ (u.bct.directory.filter (·.batch != e.batch)).map (·.batch) := by
    intro hx
    obtain ⟨d, hd, he⟩ := List.mem_map.mp hx
    have := (List.mem_filter.mp hd).2
    simp [he] at this
  have hsub : (u.bct.directory.filter (·.batch != e.batch)).Sublist u.bct.directory := List.filter_sublist
  have key : (setDir e u).bct.directory.length ≤ Config.directoryEntries ∧
      ((setDir e u).bct.directory.map (·.batch)).Nodup := by
    unfold setDir
    simp only [modBct_bct]
    split
    · rename_i hl
      exact hrest _ hsub hf hl
    · rename_i hl
      have hds := dropForeign_sublist u.oru.address (u.bct.directory.filter (·.batch != e.batch))
      refine hrest _ (hds.trans hsub) (fun hx => hf ((hds.map _).subset hx)) ?_
      have hlen : (u.bct.directory.filter (·.batch != e.batch)).length ≤ Config.directoryEntries :=
        le_trans (List.length_filter_le _ _) hk.room
      have hown := own_listed u.oru.address u.bct.directory u.bct.batches hk.table hk.known
        (fun d hd h => ho d hd h (by simp))
      have hex : ∃ d ∈ u.bct.directory.filter (·.batch != e.batch), d.owner ≠ u.oru.address := by
        by_contra hc
        have hc' : ∀ d ∈ u.bct.directory.filter (·.batch != e.batch), d.owner = u.oru.address := by
          intro d hd
          by_contra hne
          exact hc ⟨d, hd, hne⟩
        have h1 : (u.bct.directory.filter (·.batch != e.batch)).Sublist
            (u.bct.directory.filter (·.owner == u.oru.address)) := by
          have h2 : (u.bct.directory.filter (·.batch != e.batch)).filter (·.owner == u.oru.address) =
              u.bct.directory.filter (·.batch != e.batch) :=
            List.filter_eq_self.mpr (fun d hd => by simpa using hc' d hd)
          rw [← h2]
          exact hsub.filter _
        have := h1.length_le
        simp only [Config.directoryEntries, Config.batchEntries] at *
        omega
      have := (length_dropForeign u.oru.address (u.bct.directory.filter (·.batch != e.batch))).2 hex
      simp only [Config.directoryEntries] at *
      omega
  exact ⟨hk.table, hk.numbers, hk.oneLive, hk.holes, key.1, key.2, hk.granted, hk.distinct⟩

theorem ownListed_setDir (e : DirEntry) (but : List Nat)
    (he : e.owner = u.oru.address → ∃ r ∈ u.bct.batches, r.number = e.batch ∧ r.state.terminal = false)
    (k : u.ownListed but) : (setDir e u).ownListed but := by
  intro d hd ho hb
  have hd' : d ∈ u.bct.directory ∨ d = e := by
    unfold setDir at hd
    simp only [modBct_bct] at hd
    split at hd
    · rcases List.mem_append.mp hd with hd | hd
      · exact Or.inl (List.mem_of_mem_filter hd)
      · exact Or.inr (List.mem_singleton.mp hd)
    · rcases List.mem_append.mp hd with hd | hd
      · exact Or.inl (List.mem_of_mem_filter ((dropForeign_sublist _ _).subset hd))
      · exact Or.inr (List.mem_singleton.mp hd)
  rcases hd' with hd | rfl
  · exact k d hd ho hb
  · exact he ho

/-- Operations after which the bounds hold when all of them held before. -/
def Safe (s t : State) : Prop :=
  t.power = s.power ∧ t.pending = s.pending ∧ t.oru.address = s.oru.address ∧ t.oru.role = s.oru.role ∧
    t.oru.settings = s.oru.settings ∧ s.now ≤ t.now ∧ (s.Inv → t.Inv)

theorem Keeps.safe {s t : State} (h : Keeps s t) : Safe s t :=
  ⟨h.power, h.pending, h.address, h.role, h.settings, h.clock, h.inv⟩

theorem Safe.trans {s t v : State} (h : Safe s t) (k : Safe t v) : Safe s v :=
  ⟨k.1.trans h.1, k.2.1.trans h.2.1, k.2.2.1.trans h.2.2.1, k.2.2.2.1.trans h.2.2.2.1,
    k.2.2.2.2.1.trans h.2.2.2.2.1, le_trans h.2.2.2.2.2.1 k.2.2.2.2.2.1, k.2.2.2.2.2.2 ∘ h.2.2.2.2.2.2⟩

theorem safe_setDir (e : DirEntry)
    (he : e.owner = u.oru.address → ∃ r ∈ u.bct.batches, r.number = e.batch ∧ r.state.terminal = false) :
    Safe u (setDir e u) :=
  ⟨rfl, rfl, rfl, rfl, rfl, le_refl _, fun i => ⟨i.queues, i.track, i.pages, i.intake, i.commits,
    bounded_setDir e i.tables i.own, ⟨i.sized.1, i.sized.2, i.sized.3⟩, ownListed_setDir e [] he i.own, i.mems⟩⟩

/-! ## Terminal states -/

/-- All that `Keeps` says but for the entry of one batch in the directory. -/
structure KeepsBut (b : Nat) (s t : State) : Prop where
  power    : t.power = s.power
  pending  : t.pending = s.pending
  address  : t.oru.address = s.oru.address
  role     : t.oru.role = s.oru.role
  settings : t.oru.settings = s.oru.settings
  clock    : s.now ≤ t.now
  queues   : s.fli.queuesBounded → t.fli.queuesBounded
  track    : s.tsq.trackBounded → t.tsq.trackBounded
  pages    : s.pgs.accounted → t.pgs.accounted
  intake   : s.ict.accounted → t.ict.accounted
  commits  : s.ict.committing → t.ict.committing
  tables   : s.bct.bounded → t.bct.bounded
  sized    : s.sized → t.sized
  own      : ∀ but, s.ownListed but → t.ownListed (b :: but)
  mems     : s.memoriesWf → t.memoriesWf

theorem Keeps.thenBut {b : Nat} {s t v : State} (h : Keeps s t) (k : KeepsBut b t v) : KeepsBut b s v :=
  ⟨k.power.trans h.power, k.pending.trans h.pending, k.address.trans h.address, k.role.trans h.role,
    k.settings.trans h.settings, le_trans h.clock k.clock, k.queues ∘ h.queues, k.track ∘ h.track,
    k.pages ∘ h.pages, k.intake ∘ h.intake, k.commits ∘ h.commits,
    k.tables ∘ h.tables, k.sized ∘ h.sized, fun x => k.own x ∘ h.own x, k.mems ∘ h.mems⟩

theorem KeepsBut.thenKeeps {b : Nat} {s t v : State} (h : KeepsBut b s t) (k : Keeps t v) : KeepsBut b s v :=
  ⟨k.power.trans h.power, k.pending.trans h.pending, k.address.trans h.address, k.role.trans h.role,
    k.settings.trans h.settings, le_trans h.clock k.clock, k.queues ∘ h.queues, k.track ∘ h.track,
    k.pages ∘ h.pages, k.intake ∘ h.intake, k.commits ∘ h.commits,
    k.tables ∘ h.tables, k.sized ∘ h.sized, fun x => k.own _ ∘ h.own x, k.mems ∘ h.mems⟩

/-- The removal of this station's directory entry restores what a terminal state had left open. -/
theorem KeepsBut.removed {b : Nat} {s t : State} (h : KeepsBut b s t) : Keeps s (removeDir b t.oru.address t) := by
  have k := keeps_removeDir b t.oru.address (Keeps.refl t)
  exact ⟨k.power.trans h.power, k.pending.trans h.pending, k.address.trans h.address, k.role.trans h.role,
    k.settings.trans h.settings, le_trans h.clock k.clock, k.queues ∘ h.queues, k.track ∘ h.track,
    k.pages ∘ h.pages, k.intake ∘ h.intake, k.commits ∘ h.commits, k.tables ∘ h.tables,
    k.sized ∘ h.sized,
    fun x i => ownListed_removeDir b x (h.own x i), k.mems ∘ h.mems⟩

theorem keepsBut_enterTerminal (b : Nat) (st : BatchState) (hst : st ≠ .opening ∧ st ≠ .active) :
    KeepsBut b u (enterTerminal b st u) := by
  let w := u.updBatch b fun r => { r with state := st, terminalOrder := some u.bct.terminalNext }
  have h1 : KeepsBut b u w := by
    refine ⟨rfl, rfl, rfl, rfl, rfl, le_refl _, id, id, id, id, id, ?_, fun z => ⟨z.1, z.2, z.3⟩, ?_, id⟩
    · refine bounded_updFirst b _ (fun _ _ => rfl) (fun r _ hl => ?_) (fun _ _ _ => id)
      simp [BatchRec.live, hst.1, hst.2] at hl
    · intro but k d hd ho hb
      have hne : ¬ d.batch = b := fun e => hb (e ▸ List.mem_cons_self ..)
      exact listed_updFirst b d.batch (fun r => { r with state := st, terminalOrder := some u.bct.terminalNext })
        (fun _ _ => rfl) (fun _ _ e => absurd e.symm hne) _
        (k d hd ho (fun hm => hb (List.mem_cons_of_mem _ hm)))
  refine h1.thenKeeps (keeps_dropQueue _ (keeps_modBct _ ?_ (fun _ => id) (Keeps.refl w)))
  exact fun k => ⟨k.table, k.numbers, k.oneLive, k.holes, k.room, k.known, k.granted, k.distinct⟩

theorem keeps_refuseBatch (b : Nat) (c : RefusalCause) (ab : Bool) (h : Keeps s u) :
    Keeps s (refuseBatch b c ab u) := by
  unfold refuseBatch
  split
  · exact h
  · rename_i r _
    have h1 := (keepsBut_enterTerminal (u := u) b .refused ⟨by simp, by simp⟩).thenKeeps
      (keeps_updBatch b (fun r => { r with refusalCause := some c, openAsk := none })
        (recOk_same _ (fun _ => rfl) (fun _ => rfl)) (Keeps.refl _))
    have h2 : KeepsBut b u (if ab then tell r.gateway (.abandon b)
        ((enterTerminal b .refused u).updBatch b fun r => { r with refusalCause := some c, openAsk := none })
        else ((enterTerminal b .refused u).updBatch b fun r => { r with refusalCause := some c, openAsk := none })) := by
      split
      · exact h1.thenKeeps (keeps_tell _ _ (Keeps.refl _))
      · exact h1
    have h3 := h2.thenKeeps (keeps_tell Config.everyStation (.batchGone b) (Keeps.refl _))
    have haddr : (if ab then tell r.gateway (.abandon b)
        ((enterTerminal b .refused u).updBatch b fun r => { r with refusalCause := some c, openAsk := none })
        else ((enterTerminal b .refused u).updBatch b fun r =>
          { r with refusalCause := some c, openAsk := none })).oru.address = _ :=
      h2.address.trans h3.address.symm
    refine keeps_ownerGone _ (keeps_raise _ ?_)
    rw [haddr]
    exact h.trans h3.removed

/-! ## Opening -/

theorem length_placeBatch (r : BatchRec) (t : List BatchRec) (h : t.length ≤ Config.batchEntries) :
    (placeBatch r t).length ≤ Config.batchEntries := by
  unfold placeBatch
  repeat' split
  · simpa using h
  · rename_i hl; simpa using hl
  · simpa using h
  · exact h

theorem oldestTerminal_mem (t : List BatchRec) (r : BatchRec) (h : oldestTerminal t = some r) :
    r ∈ t ∧ r.state.terminal = true := by
  induction t generalizing r with
  | nil => simp [oldestTerminal] at h
  | cons x t ih =>
    unfold oldestTerminal at h
    split at h
    · split at h
      · rename_i hx; simp only [Option.some.injEq] at h; exact h ▸ ⟨List.mem_cons_self .., hx⟩
      · simp at h
    · rename_i y hy
      split at h
      · rename_i hx
        simp only [Bool.and_eq_true, decide_eq_true_eq] at hx
        simp only [Option.some.injEq] at h
        exact h ▸ ⟨List.mem_cons_self .., hx.1⟩
      · simp only [Option.some.injEq] at h
        exact h ▸ ⟨List.mem_cons_of_mem _ (ih y hy).1, (ih y hy).2⟩

theorem oldestTerminal_some (t : List BatchRec) (h : ∃ r ∈ t, r.state.terminal = true) :
    ∃ r, oldestTerminal t = some r := by
  induction t with
  | nil => simp at h
  | cons x t ih =>
    unfold oldestTerminal
    split
    · rename_i hn
      obtain ⟨r, hr, ht⟩ := h
      rcases List.mem_cons.mp hr with rfl | hr
      · simp [ht]
      · obtain ⟨y, hy⟩ := ih ⟨r, hr, ht⟩
        rw [hy] at hn; simp at hn
    · split <;> simp

/-- The first record with a number, replaced. -/
theorem updFirst_split {α : Type} (p : α → Bool) (f : α → α) (l : List α) (h : l.any p = true) :
    ∃ l₁ x l₂, l = l₁ ++ x :: l₂ ∧ p x = true ∧ updFirst p f l = l₁ ++ f x :: l₂ := by
  induction l with
  | nil => simp at h
  | cons x l ih =>
    unfold updFirst
    by_cases hx : p x = true
    · exact ⟨[], x, l, rfl, hx, by simp [hx]⟩
    · obtain ⟨l₁, y, l₂, h1, h2, h3⟩ := ih (by simpa [hx] using h)
      exact ⟨x :: l₁, y, l₂, by simp [h1], h2, by simp [hx, h3]⟩

/-- What `placeBatch` makes of a table with room for the record: the record takes one place, and every record
that is not in a terminal state stays. -/
theorem placeBatch_shape (r : BatchRec) (t : List BatchRec)
    (hd : ∀ x ∈ t, x.number = r.number → x.state.terminal = true)
    (hr : Config.batchEntries ≤ t.length → ∃ x ∈ t, x.state.terminal = true) (hn : (t.map (·.number)).Nodup) :
    ∃ l₁ l₂ mid, t = l₁ ++ mid ++ l₂ ∧ placeBatch r t = l₁ ++ r :: l₂ ∧ (∀ x ∈ mid, x.state.terminal = true) ∧
      r.number ∉ (l₁ ++ l₂).map (·.number) := by
  unfold placeBatch
  split
  · rename_i h
    obtain ⟨l₁, x, l₂, h1, h2, h3⟩ := updFirst_split _ (fun _ => r) t h
    have hx : x.number = r.number := by simpa using h2
    refine ⟨l₁, l₂, [x], by simp [h1], h3, ?_, ?_⟩
    · intro y hy
      rw [List.mem_singleton.mp hy]
      exact hd x (by rw [h1]; simp) hx
    · rw [h1] at hn
      simp only [List.map_append, List.map_cons, List.nodup_append, List.nodup_cons, List.mem_cons] at hn
      simp only [List.map_append, List.mem_append, not_or]
      exact ⟨fun hm => hn.2.2 _ hm _ (Or.inl rfl) hx.symm, fun hm => hn.2.1.1 (hx ▸ hm)⟩
  · rename_i hne
    have hne' : r.number ∉ t.map (·.number) := by
      intro hm
      obtain ⟨x, hx, e⟩ := List.mem_map.mp hm
      exact hne (List.any_eq_true.mpr ⟨x, hx, by simpa using e⟩)
    split
    · exact ⟨t, [], [], by simp, by simp, by simp, by simpa using hne'⟩
    · rename_i hl
      obtain ⟨old, ho⟩ := oldestTerminal_some t (hr (Nat.le_of_not_lt hl))
      obtain ⟨hom, hot⟩ := oldestTerminal_mem t old ho
      rw [ho]
      obtain ⟨l₁, x, l₂, h1, h2, h3⟩ := updFirst_split (·.number == old.number) (fun _ => r) t
        (List.any_eq_true.mpr ⟨old, hom, by simp⟩)
      have hx : x = old := by
        have e : x.number = old.number := by simpa using h2
        exact List.inj_on_of_nodup_map hn (by rw [h1]; simp) hom e
      refine ⟨l₁, l₂, [x], by simp [h1], h3, ?_, ?_⟩
      · intro y hy
        rw [List.mem_singleton.mp hy, hx]; exact hot
      · intro hm
        refine hne' ?_
        rw [h1]
        simp only [List.map_append, List.map_cons, List.mem_append, List.mem_cons] at hm ⊢
        tauto

/-- A record of a table of distinct numbers is the one that its number finds. -/
theorem find?_number (t : List BatchRec) (hn : (t.map (·.number)).Nodup) (x : BatchRec) (hx : x ∈ t) :
    t.find? (·.number == x.number) = some x := by
  induction t with
  | nil => simp at hx
  | cons y t ih =>
    rw [List.map_cons, List.nodup_cons] at hn
    rcases List.mem_cons.mp hx with rfl | hx
    · simp
    · have hne : ¬ y.number = x.number := fun e => hn.1 (e ▸ List.mem_map_of_mem hx)
      rw [List.find?_cons_of_neg (by simpa using hne)]
      exact ih hn.2 hx

/-- The table and the directory after an accepted OPEN BATCH has placed its record and its entry (R1, R4). -/
theorem safe_placed (r : BatchRec) (gw : Nat) (hr : r.state = .opening)
    (hh : r.holes = []) (hlive : ∀ x ∈ u.bct.batches, x.live = false)
    (hf : ∀ x, u.findBatch r.number = some x → x.state.terminal = true)
    (hroom : Config.batchEntries ≤ u.bct.batches.length → ∃ x ∈ u.bct.batches, x.state.terminal = true) :
    Safe u (setDir ⟨r.number, u.oru.address, gw, u.now⟩
      (u.modBct fun t => { t with batches := placeBatch r t.batches })) := by
  refine ⟨rfl, rfl, rfl, rfl, rfl, le_refl _, fun i => ?_⟩
  have hd : ∀ x ∈ u.bct.batches, x.number = r.number → x.state.terminal = true :=
    fun x hx e => hf x (by rw [← e]; exact find?_number _ i.tables.numbers x hx)
  obtain ⟨l₁, l₂, mid, h1, h2, h3, h4⟩ := placeBatch_shape r u.bct.batches hd hroom i.tables.numbers
  have hv : (u.modBct fun t => { t with batches := placeBatch r t.batches }).Inv := by
    refine ⟨i.queues, i.track, i.pages, i.intake, i.commits,
      ⟨length_placeBatch r _ i.tables.table, ?_, ?_, ?_, i.tables.room, i.tables.known, i.tables.granted,
        i.tables.distinct⟩, ⟨i.sized.1, i.sized.2, i.sized.3⟩, ?_, i.mems⟩
    · show ((placeBatch r u.bct.batches).map (·.number)).Nodup
      have hn := i.tables.numbers
      rw [h1] at hn
      rw [h2]
      simp only [List.map_append, List.map_cons, List.append_assoc] at hn h4 ⊢
      rw [List.nodup_middle, List.nodup_cons]
      exact ⟨h4, hn.sublist (List.Sublist.append_left (List.sublist_append_right _ _) _)⟩
    · show (placeBatch r u.bct.batches).countP (·.live) ≤ 1
      have hz : ∀ l : List BatchRec, (∀ x ∈ l, x.live = false) → l.countP (·.live) = 0 :=
        fun l hl => List.countP_eq_zero.mpr (fun x hx => by simp [hl x hx])
      rw [h2, List.countP_append, List.countP_cons, hz l₁ (fun x hx => hlive x (by rw [h1]; simp [hx])),
        hz l₂ (fun x hx => hlive x (by rw [h1]; simp [hx]))]
      split <;> omega
    · intro x hx
      have hx' : x ∈ l₁ ++ r :: l₂ := h2 ▸ hx
      rcases List.mem_append.mp hx' with hx | hx
      · exact i.tables.holes x (by rw [h1]; simp [hx])
      · rcases List.mem_cons.mp hx with rfl | hx
        · rw [hh]; exact List.Pairwise.nil
        · exact i.tables.holes x (by rw [h1]; simp [hx])
    · intro d hd' ho hb
      obtain ⟨x, hx, hn, hs⟩ := i.own d hd' ho hb
      refine ⟨x, ?_, hn, hs⟩
      show x ∈ placeBatch r u.bct.batches
      rw [h2]
      rw [h1] at hx
      simp only [List.mem_append, List.mem_cons] at hx ⊢
      rcases hx with (hx | hx) | hx
      · exact Or.inl hx
      · rw [h3 x hx] at hs; simp at hs
      · exact Or.inr (Or.inr hx)
  refine (safe_setDir _ (fun _ => ⟨r, ?_, rfl, by rw [hr]; rfl⟩)).2.2.2.2.2.2 hv
  show r ∈ placeBatch r u.bct.batches
  rw [h2]; simp

theorem safe_openBatch (b gw : Nat) (a : AttrArg) : Safe u (openBatch b gw a u).2 := by
  have here : Safe u u := (Keeps.refl u).safe
  unfold openBatch
  split
  · exact here
  · rename_i attrs _
    repeat' split
    all_goals try exact here
    rename_i h1 h2 h3 h4
    have hplaced := safe_placed (u := u) (newBatch b gw attrs u.fli.askTag u.answerDue) gw rfl rfl
      (fun x hx => by
        have := h2
        simp only [List.any_eq_true, not_exists, not_and, Bool.not_eq_true] at this
        exact this x hx)
      (fun x hx => by
        have hx' : u.findBatch b = some x := hx
        have := fun e => h3 (Or.inr e)
        simpa [hx'] using this)
      (fun hl => by
        by_contra hc
        refine h4 ⟨hl, List.all_eq_true.mpr fun x hx => ?_⟩
        by_contra hx'
        exact hc ⟨x, hx, by simpa using hx'⟩)
    exact hplaced.trans (keeps_ask _ _ (keeps_addQueue _ (Keeps.refl _))).safe

/-! ## Ending, closing again, abandoning, waiving -/

theorem recOk_ended : RecOk fun r => { r with state := .ended } :=
  ⟨fun _ => rfl, fun _ => by simp [BatchRec.live], fun _ _ => rfl, fun _ => id⟩

theorem recOk_reconciling : RecOk fun r => { r with state := .reconciling } :=
  ⟨fun _ => rfl, fun _ => by simp [BatchRec.live], fun _ _ => rfl, fun _ => id⟩

theorem keeps_endBatch (b : Nat) (h : Keeps s u) : Keeps s (endBatch b u).2 := by
  unfold endBatch
  repeat' split
  all_goals first
    | exact h
    | exact keeps_endedTest _ (keeps_withdrawBatch _ (keeps_updBatch _ _ recOk_ended h))

theorem keeps_closeAgain (b : Nat) (h : Keeps s u) : Keeps s (closeAgain b u).2 := by
  unfold closeAgain
  repeat' split
  all_goals first
    | exact h
    | exact keeps_closeTest _ (keeps_updBatch _ _ recOk_reconciling h)

theorem keeps_markAbandoned (b : Nat) (h : Keeps s u) : Keeps s (markAbandoned b u) :=
  keeps_foldl _ (fun _ _ => keeps_updProgress _ (fun p => { p with mode := .drop }) (Keeps.refl _)) _
    (keeps_modTsq _ (fun k => by simpa [Tsq.trackBounded] using k) h)

theorem keeps_abandonBatch (b : Nat) (h : Keeps s u) : Keeps s (abandonBatch b u).2 := by
  unfold abandonBatch
  split
  · exact h
  · split
    · exact h
    · rename_i r _ _
      refine keeps_ownerGone _ (h.trans ?_)
      let v := (enterTerminal b .abandoned u).updBatch b fun r => { r with openAsk := none, closeAsk := none }
      have h1 := (keepsBut_enterTerminal (u := u) b .abandoned ⟨by simp, by simp⟩).thenKeeps (v := v)
        (keeps_updBatch b (fun r => { r with openAsk := none, closeAsk := none })
          (recOk_same _ (fun _ => rfl) (fun _ => rfl)) (Keeps.refl _))
      have h2 := h1.thenKeeps (keeps_markAbandoned b (keeps_withdrawBatch b (keeps_discardAll
        (v.recsWhere fun r => r.batch == some b && !r.fillFlag) (Keeps.refl _))))
      have h3 := h2.thenKeeps (keeps_tell r.gateway (.abandon b) (keeps_updBatch b (fun r => { r with holes := [] })
        (recOk_same _ (fun _ => rfl) (fun _ => rfl) (fun _ _ => List.Pairwise.nil)) (Keeps.refl _)))
      have h4 := h3.thenKeeps (keeps_tell Config.everyStation (.batchGone b) (Keeps.refl _))
      have := h4.removed
      rw [h4.address.trans h3.address.symm] at this
      exact this

theorem waiveOne_same (r : BatchRec) (ps : List Nat) :
    (ps.foldl BatchRec.waiveOne r).number = r.number ∧ (ps.foldl BatchRec.waiveOne r).state = r.state := by
  induction ps generalizing r with
  | nil => exact ⟨rfl, rfl⟩
  | cons p ps ih =>
    have h1 : (r.waiveOne p).number = r.number ∧ (r.waiveOne p).state = r.state := by
      unfold BatchRec.waiveOne; split <;> exact ⟨rfl, rfl⟩
    have := ih (r.waiveOne p)
    exact ⟨this.1.trans h1.1, this.2.trans h1.2⟩

theorem waiveOne_holes (r : BatchRec) (ps : List Nat) (k : holesRising r.holes) :
    holesRising (ps.foldl BatchRec.waiveOne r).holes := by
  induction ps generalizing r with
  | nil => exact k
  | cons p ps ih =>
    refine ih (r.waiveOne p) ?_
    unfold BatchRec.waiveOne
    split
    · exact holesRising_updFirst _ (fun h => { h with state := .waived }) (fun _ => rfl) r.holes k
    · exact holesRising_insertHole _ _ k

theorem keeps_ite2 {α : Type} (c : Prop) [Decidable c] {x y : α × State} (hx : Keeps s x.2) (hy : Keeps s y.2) :
    Keeps s (if c then x else y).2 := by split <;> assumption

theorem keeps_waiveHoles (b : Nat) (ps : List Nat) (h : Keeps s u) : Keeps s (waiveHoles b ps u).2 := by
  unfold waiveHoles
  split
  · exact h
  · dsimp only
    refine keeps_ite2 _ h (keeps_ite2 _ h (keeps_ite2 _ h (keeps_ite2 _ h ?_)))
    exact keeps_closeTest _ (keeps_discardAll _ (keeps_updBatch _ (fun r => (dedup ps).foldl BatchRec.waiveOne r)
          (recOk_same _ (fun r => (waiveOne_same r _).1) (fun r => (waiveOne_same r _).2)
            (fun r => waiveOne_holes r _)) h))

/-! ## Answers and frames -/

theorem keeps_takeOpenAccept (x : Hdr) (b : Nat) (h : Keeps s u) : Keeps s (takeOpenAccept x b u) := by
  unfold takeOpenAccept
  split
  · rename_i hx
    unfold State.openAnswered at hx
    cases hf : u.findBatch b with
    | none => rw [hf] at hx; simp at hx
    | some r =>
      rw [hf] at hx
      simp only [Option.any_some, Bool.and_eq_true, beq_iff_eq] at hx
      refine keeps_modBct _ (fun k => ?_) (fun _ k d hd ho hb => ?_) h
      · obtain ⟨hp, l₁, l₂, hl, hn⟩ := List.find?_eq_some_iff_append.mp hf
        have hu : updFirst (·.number == b) (fun r : BatchRec => { r with state := .active, openAsk := none })
            u.bct.batches = l₁ ++ { r with state := .active, openAsk := none } :: l₂ := by
          rw [hl]
          clear hl hf
          induction l₁ with
          | nil => simp [updFirst, hp]
          | cons y l₁ ih =>
            have hy : (y.number == b) = false := by simpa using hn y (List.mem_cons_self ..)
            simp only [List.cons_append, updFirst, hy, Bool.false_eq_true, if_false]
            rw [ih (fun z hz => hn z (List.mem_cons_of_mem _ hz))]
        refine ⟨by simpa using k.table, ?_, ?_, holes_updFirst b
          (fun r : BatchRec => { r with state := .active, openAsk := none }) _ (fun _ _ _ => id) k.holes, k.room, k.known, k.granted, k.distinct⟩
        · show ((updFirst _ _ u.bct.batches).map (·.number)).Nodup
          rw [numbers_updFirst b (fun r : BatchRec => { r with state := .active, openAsk := none }) (fun _ _ => rfl)]
          exact k.numbers
        · show (updFirst _ _ u.bct.batches).countP (·.live) ≤ 1
          rw [hu]
          have := k.oneLive
          rw [hl] at this
          simpa [List.countP_append, List.countP_cons, BatchRec.live, hx.1.1] using this
      · exact listed_updFirst b d.batch (fun r => { r with state := .active, openAsk := none }) (fun _ _ => rfl)
          (fun _ _ _ _ => rfl) _ (k d hd ho hb)
  · exact h

theorem keeps_takeOpenRefuse (x : Hdr) (b : Nat) (r : OpenRefusal) (h : Keeps s u) :
    Keeps s (takeOpenRefuse x b r u) := keeps_ite (keeps_refuseBatch _ _ _ h) h

theorem keeps_openExpired (b : Nat) (h : Keeps s u) : Keeps s (openExpired b u) := by
  unfold openExpired
  split
  · exact keeps_ite (keeps_refuseBatch _ _ _ (keeps_advanceTo _ h)) h
  · exact h

/-- A BATCH OPEN from another station: the directory takes an entry of that station. -/
theorem safe_takeBatchOpenHeard (x : Hdr) (b g : Nat) (hx : x.src ≠ u.oru.address) :
    Safe u (takeBatchOpenHeard x b g u) := by
  have h1 : Keeps u (if (u.findBatch b).any (·.state == .opening) ∧ x.src < u.oru.address then
      refuseBatch b .duplicate true u else u) :=
    keeps_ite (keeps_refuseBatch _ _ _ (Keeps.refl _)) (Keeps.refl _)
  unfold takeBatchOpenHeard
  dsimp only
  generalize (if (u.findBatch b).any (·.state == .opening) ∧ x.src < u.oru.address then
      refuseBatch b .duplicate true u else u) = v at h1 ⊢
  split
  · exact h1.safe
  · exact h1.safe.trans (safe_setDir _ (fun e => absurd (e.trans h1.address) hx))

theorem keeps_takeBatchGone (x : Hdr) (b : Nat) (h : Keeps s u) : Keeps s (takeBatchGone x b u) := by
  have h1 := keeps_removeDir b x.src h
  unfold takeBatchGone
  dsimp only
  split
  · exact keeps_ite (keeps_fillEnd _ _ h1) h1
  · exact h1

theorem keeps_dispute (b : Nat) (c : DisputeCause) (r : Option CloseResult) (h : Keeps s u) :
    Keeps s (dispute b c r u) :=
  keeps_raise _ (keeps_updBatch _ _ ⟨fun _ => rfl, fun _ => by simp [BatchRec.live], fun _ _ => rfl, fun _ => id⟩ h)

theorem keeps_takeCommitted (x : Hdr) (b : Nat) (h : Keeps s u) : Keeps s (takeCommitted x b u) := by
  unfold takeCommitted
  split
  · refine keeps_ownerGone _ (h.trans ?_)
    have h1 := (keepsBut_enterTerminal (u := u) b .committed ⟨by simp, by simp⟩).thenKeeps
      (keeps_updBatch b (fun r => { r with closeAsk := none, disputeCause := none, lastClose := none })
        (recOk_same _ (fun _ => rfl) (fun _ => rfl)) (Keeps.refl _))
    have h2 := h1.thenKeeps (keeps_tell Config.everyStation (.batchGone b) (Keeps.refl _))
    have := h2.removed
    rw [h2.address.trans h1.address.symm] at this
    exact this
  · exact h

theorem keeps_takeIncomplete (x : Hdr) (b t e : Nat) (ps : List Nat) (h : Keeps s u) :
    Keeps s (takeIncomplete x b t e ps u) := keeps_ite (keeps_dispute _ _ _ h) h

theorem keeps_takeUnknown (x : Hdr) (b : Nat) (h : Keeps s u) : Keeps s (takeUnknown x b u) :=
  keeps_ite (keeps_dispute _ _ _ h) h

theorem keeps_closeExpired (b : Nat) (h : Keeps s u) : Keeps s (closeExpired b u) := by
  unfold closeExpired
  split
  · exact keeps_ite (keeps_dispute _ _ _ (keeps_advanceTo _ h)) h
  · exact h

/-! ## Fills -/

theorem keeps_fillOrder (b : Nat) (h : Keeps s u) : Keeps s (fillOrder b u).2 := by
  unfold fillOrder
  split
  · exact h
  split
  · exact h
  split
  · exact h
  split
  · exact h
  · exact keeps_fillTest _ _ (keeps_setFill _ (fun _ => ⟨rfl, rfl, Or.inr ⟨_, rfl, rfl⟩⟩) h)

theorem keeps_fillCancel (h : Keeps s u) : Keeps s (fillCancel u).2 := by
  unfold fillCancel
  split
  · exact h
  · exact keeps_fillEnd _ _ h

theorem keeps_takeHoleClaim (x : Hdr) (b w : Nat) (ps : List Nat) (h : Keeps s u) :
    Keeps s (takeHoleClaim x b w ps u) := keeps_hand _ _ _ (keeps_ownerClaim _ _ _ _ h)

theorem keeps_takeHoleGrant (x : Hdr) (b g : Nat) (gs : List (Nat × AttrSet)) (h : Keeps s u) :
    Keeps s (takeHoleGrant x b g gs u) :=
  keeps_ite (keeps_takeGrant _ (fun v => keeps_fillTest _ _ (Keeps.refl v)) _ _ h) h

theorem keeps_takeHoleNone (x : Hdr) (b : Nat) (h : Keeps s u) : Keeps s (takeHoleNone x b u) :=
  keeps_ite (keeps_takeNone h) h

theorem keeps_takeHoleRefusal (x : Hdr) (b : Nat) (r : HoleRefusal) (h : Keeps s u) :
    Keeps s (takeHoleRefusal x b r u) := keeps_ite (keeps_takeHoleRefuse _ h) h

theorem keeps_claimExpired (h : Keeps s u) : Keeps s (claimExpired u) := by
  unfold claimExpired
  split
  · split
    · have h1 := keeps_updJob (fun j => { j with
        claimTag := none, timeouts := bump Config.claimTimeouts j.timeouts }) (jobOk_same _ fun _ => rfl)
        (keeps_advanceTo (FillJob.claimDue ‹_›) h)
      exact keeps_ite (keeps_fillEnd _ _ h1) (keeps_fillTest _ _ h1)
    · exact h
  · exact h

theorem keeps_bctSilence (a : Nat) (h : Keeps s u) : Keeps s (bctSilence a u) :=
  keeps_ownerSilent _ (keeps_foldl _ (fun _ _ => keeps_refuseBatch _ _ _ (Keeps.refl _)) _ h)

end Sys2Proof.Machine
end

