-- ==== Sys2Proof/Laws/KeepsSheet.lean ====
section
/-! SUPPORT. What the capture port, the Double-Feed Monitor and a sheet's passage keep. -/

namespace Sys2Proof.Machine

set_option Elab.async false

variable {s u : State}

/-! ## Capture port -/

theorem keeps_strayCapture (h : Keeps s u) : Keeps s (strayCapture u) :=
  keeps_modPgs _ (fun k => ⟨k.blocks, k.records, k.pool, k.once, k.exist, k.sized, k.ids⟩) (fun m => m) h

theorem keeps_countLoss (c : LossCause) (h : Keeps s u) : Keeps s (countLoss c u) := by
  cases c <;>
    exact keeps_modPgs _ (fun k => ⟨k.blocks, k.records, k.pool, k.once, k.exist, k.sized, k.ids⟩) (fun m => m) h

theorem keeps_storeLoss (c : LossCause) (e : TrackEntry) (h : Keeps s u) : Keeps s (storeLoss c e u) :=
  keeps_hold _ (keeps_updEntry _ _ (keeps_countLoss _ (keeps_updProgress _ _ (keeps_freeRecs _
    (keeps_updEntry _ _ h)))))

theorem keeps_freeSheetRec (e : TrackEntry) (id : Nat) (h : Keeps s u) : Keeps s (freeSheetRec e id u) :=
  keeps_freeRec _ (keeps_updEntry _ _ h)

theorem keeps_sideBegin (tag : Nat) (side : Side) (h : Keeps s u) : Keeps s (sideBegin tag side u) := by
  unfold sideBegin
  split
  · exact keeps_strayCapture h
  · split
    · exact keeps_updProgress _ _ h
    · rename_i e _ _ _
      dsimp only
      have h1 : Keeps s (match u.sideRec e side with
          | some r => freeSheetRec e r.id u
          | none => u) := by
        split
        · exact keeps_freeSheetRec _ _ h
        · exact h
      exact keeps_ite (keeps_storeLoss _ _ h1) (keeps_updProgress _ _ (keeps_allocRec _ _ h1))

/-- The record of a side is the one its identifier finds. -/
theorem findRec_of_fillingRec {e : TrackEntry} {side : Side} {r : PageRec} (hr : u.fillingRec e side = some r) :
    u.findRec r.id = some r := by
  unfold State.fillingRec at hr
  split at hr
  · rename_i x hx
    split at hr
    · obtain rfl : x = r := by simpa using hr
      have := List.mem_of_find?_eq_some hx
      obtain ⟨i, _, hi⟩ := List.mem_filterMap.mp this
      have hid : x.id = i := by simpa using List.find?_some hi
      rw [hid]; exact hi
    · simp at hr
  · simp at hr

theorem keeps_dataEvent (tag : Nat) (side : Side) (bytes : List Byte) (h : Keeps s u) :
    Keeps s (dataEvent tag side bytes u) := by
  unfold dataEvent
  split
  · exact keeps_strayCapture h
  · split
    · exact h
    · split
      · exact keeps_strayCapture h
      · rename_i r hr
        dsimp only
        split
        · exact keeps_storeLoss _ _ h
        · split
          · exact keeps_storeLoss _ _ h
          · rename_i hf
            exact keeps_appendData r bytes _ (findRec_of_fillingRec hr) rfl (by omega) h

theorem keeps_sideEnd (tag : Nat) (side : Side) (h : Keeps s u) : Keeps s (sideEnd tag side u) := by
  unfold sideEnd
  split
  · exact keeps_strayCapture h
  · split
    · exact keeps_updProgress _ _ h
    · split
      · exact keeps_strayCapture h
      · exact keeps_ite (keeps_freeSheetRec _ _ h)
          (keeps_updProgress _ _ (keeps_updRec _ (fun r => { r with state := .heldForSheet })
            (fun _ => ⟨rfl, rfl, rfl⟩) h))

/-! ## Double-Feed Monitor -/

theorem keeps_countMatch (b : Nat) (i : Option Nat) (h : Keeps s u) : Keeps s (countMatch b i u) := by
  unfold countMatch
  split
  · exact h
  · exact keeps_modDfm _ h

theorem keeps_writeExemption (b n : Nat) (x : Exemption) (h : Keeps s u) : Keeps s (writeExemption b n x u) :=
  keeps_modDfm _ h

theorem keeps_completeLearn (p : List Bool) (h : Keeps s u) : Keeps s (completeLearn p u) := by
  unfold completeLearn
  split
  · exact keeps_ite (keeps_raise _ (keeps_modDfm _ (keeps_writeExemption _ _ _ h))) h
  · exact h

theorem keeps_zoneReading (tag : Nat) (l : Bool) (h : Keeps s u) : Keeps s (zoneReading tag l u) := by
  unfold zoneReading
  refine keeps_ite ?_ h
  split
  · exact keeps_ite (keeps_ite (keeps_updEntry _ _ h) h) (keeps_modDfm _ h)
  · exact keeps_modDfm _ h

/-! ## Keys, tray, verdict -/

theorem keeps_armFeed (m : FeedMode) (b : Option Nat) (h : Keeps s u) : Keeps s (armFeed m b u) :=
  keeps_drive _ (keeps_modTsq _ (fun k => k) h)

theorem keeps_startPressed (h : Keeps s u) : Keeps s (startPressed u) := by
  unfold startPressed
  refine keeps_ite h (keeps_ite (keeps_armFeed _ _ h) (keeps_ite (keeps_armFeed _ _ h) ?_))
  split
  · exact keeps_armFeed _ _ h
  · exact h

theorem keeps_stopPressed (h : Keeps s u) : Keeps s (stopPressed u) := by
  unfold stopPressed
  split
  all_goals first
    | exact h
    | exact keeps_drainTest (keeps_feedStops (keeps_ite (keeps_fillEnd _ _ h) h))

theorem keeps_trayLoaded (h : Keeps s u) : Keeps s (trayLoaded u) := by
  have h1 : Keeps s (u.modTsq fun t => { t with tray := .loaded }) := keeps_modTsq _ (fun k => k) h
  exact keeps_ite (keeps_pickTest (keeps_modTsq _ (fun k => k) h1)) h1

theorem keeps_trayEmptied (h : Keeps s u) : Keeps s (trayEmptied u) := keeps_modTsq _ (fun k => k) h

theorem keeps_countVerdict (e : TrackEntry) (v : Verdict) (h : Keeps s u) : Keeps s (countVerdict e v u) := by
  unfold countVerdict
  split
  · exact keeps_ite h (keeps_updBatch _ _ (recOk_same _ (fun _ => rfl) (fun _ => rfl)) h)
  · exact h

theorem keeps_actOnVerdict (e : TrackEntry) (v : Verdict) (h : Keeps s u) : Keeps s (actOnVerdict e v u) := by
  have h1 := keeps_countVerdict e v h
  have h2 := keeps_ite (c := e.marked = true) (keeps_markPages e.pages h1) h1
  have h3 := keeps_ite (c := (e.suspect && e.snap.policy == .stop && !e.overrun) = true)
    (keeps_hold .doubleFeedStop h2) h2
  have h4 := keeps_ite (c := (e.suspect && e.patched) = true) (keeps_hold .patchSuspect h3) h3
  exact keeps_ite h4 (keeps_routeTest _ h4)

theorem keeps_verdictPoint (tag : Nat) (m : Option Nat) (h : Keeps s u) : Keeps s (verdictPoint tag m u) := by
  have h1 : Keeps s (u.updEntry tag fun e => { e with length := m }) := keeps_updEntry _ _ h
  unfold verdictPoint
  dsimp only
  split
  · exact h1
  · split
    · exact keeps_completeLearn _ (keeps_countMatch _ _ (keeps_updEntry _ _ h1))
    · exact keeps_actOnVerdict _ _ (keeps_countMatch _ _ (keeps_updEntry _ _ h1))

/-! ## Settling -/

theorem keeps_pagesEligible (e : TrackEntry) (h : Keeps s u) : Keeps s (pagesEligible e u) := by
  unfold pagesEligible
  dsimp only
  refine keeps_offerTest ?_
  have h1 := keeps_foldl (fun s r => enterReady (PageRec.id r)
    (s.updRec r.id fun r => { r with pagesOfSheet := some (pagesRequired e.snap) }))
    (fun v r => keeps_enterReady _ (keeps_updRec _ (fun r => { r with
      pagesOfSheet := some (pagesRequired e.snap) }) (fun _ => ⟨rfl, rfl, rfl⟩) (Keeps.refl v)))
    ((e.pages.filterMap u.findRec).filter (eligibleRec e.snap)) h
  have h2 := keeps_foldl (fun s r => discardRec (PageRec.id r) s) (fun v _ => keeps_discardRec _ (Keeps.refl v))
    ((e.pages.filterMap u.findRec).filter fun r => !eligibleRec e.snap r) h1
  split
  · exact keeps_ite h2 (keeps_fillFailed _ h2)
  · exact h2

theorem keeps_settleNotices (e : TrackEntry) (h : Keeps s u) : Keeps s (settleNotices e u) := by
  unfold settleNotices
  split
  · exact keeps_pagesEligible _ (keeps_acceptPosition _ h)
  · exact keeps_discardAll _ (keeps_addHole _ _ _ _ h)
  · exact keeps_pagesEligible _ (keeps_fillScanned _ h)
  · exact keeps_discardAll _ (keeps_fillRefused _ h)
  · exact keeps_discardAll _ (keeps_fillChanged h)
  · exact keeps_discardAll _ h

theorem keeps_endedTestFor (e : TrackEntry) (h : Keeps s u) : Keeps s (endedTestFor e u) := by
  unfold endedTestFor
  split
  · exact keeps_ite h (keeps_endedTest _ h)
  · exact h

theorem keeps_removeEntry (tag : Nat) (h : Keeps s u) : Keeps s (removeEntry tag u) :=
  keeps_modTsq _ (fun k => le_trans (List.length_eraseP_le) k) h

theorem keeps_settle (e : TrackEntry) (h : Keeps s u) : Keeps s (settle e u) :=
  keeps_pickTest (keeps_drainTest (keeps_endedTestFor _ (keeps_settleNotices _ (keeps_removeEntry _ h))))

/-! ## Edges and reports -/

theorem keeps_leadingEdge (tag : Nat) (sn : Sensor) (p : Pocket) (h : Keeps s u) :
    Keeps s (leadingEdge tag sn p u) := by
  unfold leadingEdge
  refine keeps_ite h ?_
  split
  · exact keeps_hold _ h
  · rename_i e _
    have h1 : Keeps s (u.updEntry tag fun e => { e with
        edges := e.edges.upd sn fun t => { t with lead := some u.now } }) := keeps_updEntry _ _ h
    refine keeps_ite (keeps_hold _ h) ?_
    cases sn
    · exact h1
    · exact h1
    · exact keeps_ite h1 (keeps_ite (keeps_hold _ h1) (keeps_hold _ h1))
    · exact keeps_ite h1 (keeps_hold _ h1)

theorem keeps_trailingEdge (tag : Nat) (sn : Sensor) (m : Option Nat) (h : Keeps s u) :
    Keeps s (trailingEdge tag sn m u) := by
  unfold trailingEdge
  refine keeps_ite h ?_
  split
  · exact keeps_hold _ h
  · rename_i e _
    have h1 : Keeps s (u.updEntry tag fun e => { e with
        edges := e.edges.upd sn fun t => { t with trail := some u.now } }) := keeps_updEntry _ _ h
    refine keeps_ite (keeps_hold _ h) ?_
    cases sn
    · exact keeps_pickTest (keeps_verdictPoint _ _ h1)
    · exact h1
    · exact keeps_handshakeTest h1
    · exact keeps_ite (keeps_settle _ h1) (keeps_hold _ h1)

theorem keeps_placeSheet (e : TrackEntry) (p : Nat) (f b : Bool) (h : Keeps s u) :
    Keeps s (placeSheet e p f b u) := by
  have h1 := keeps_placePages e.pages p (keeps_updEntry e.tag (fun e => { e with position := some p }) h)
  exact keeps_ite (keeps_hold _ h1) h1

theorem keeps_markOverrun (e : TrackEntry) (h : Keeps s u) : Keeps s (markOverrun e u) := by
  unfold markOverrun
  dsimp only
  have h1 := fun l => keeps_foldl (fun s t => releaseReservation t (s.updEntry t fun x => { x with overrun := true }))
    (fun v _ => keeps_releaseReservation _ (keeps_updEntry _ _ (Keeps.refl v))) l h
  exact keeps_ite (h1 _) (keeps_raise _ (h1 _))

theorem keeps_drainFeed (h : Keeps s u) : Keeps s (drainFeed u) := keeps_modTsq _ (fun k => k) h

theorem keeps_endActive (b : Nat) (h : Keeps s u) : Keeps s (endActive b u) :=
  keeps_updBatch _ (fun r => { r with state := if r.state = .active then .ended else r.state })
    ⟨fun _ => rfl, fun r => by by_cases hr : r.state = .active <;> simp [BatchRec.live, hr],
      fun r => by by_cases hr : r.state = .active <;> simp [hr, BatchState.terminal], fun _ => id⟩ h

theorem keeps_assignPosition (e : TrackEntry) (b : Nat) (x y : Bool) (h : Keeps s u) :
    Keeps s (assignPosition e b x y u) := by
  unfold assignPosition
  split
  · exact h
  · rename_i r _
    have h1 := keeps_placeSheet e (r.scanned + 1) x y (keeps_updBatch b (fun q => { q with scanned := r.scanned + 1 })
      (recOk_same _ (fun _ => rfl) (fun _ => rfl)) h)
    exact keeps_ite (keeps_ite (keeps_markOverrun _ (keeps_drainFeed (keeps_endActive _ h1))) h1) h

theorem keeps_rebindOne (a : AttrSet) (tag : Nat) (h : Keeps s u) : Keeps s (rebindOne a tag u) := by
  unfold rebindOne
  split
  · exact h
  · split
    · exact keeps_updEntry _ _ h
    · dsimp only
      have h1 := fun e => keeps_updEntry tag (fun _ => e) h
      have h2 := fun (e : TrackEntry) => keeps_ite (c := e.marked = true) (keeps_markPages e.pages (h1 e)) (h1 e)
      exact keeps_ite (keeps_hold _ (h2 _)) (h2 _)

theorem keeps_patchAttrs (e : TrackEntry) (b : Nat) (a : AttrArg) (h : Keeps s u) :
    Keeps s (patchAttrs e b a u) := by
  unfold patchAttrs
  split
  · exact keeps_updBatch _ (fun r => { r with rejectedPatch := bump8 r.rejectedPatch })
      (recOk_same _ (fun _ => rfl) (fun _ => rfl)) h
  · rename_i attrs _
    exact keeps_foldl (fun s t => rebindOne attrs t s) (fun v _ => keeps_rebindOne _ _ (Keeps.refl v)) _
      (keeps_updBatch b (fun r => { r with attrs }) (recOk_same _ (fun _ => rfl) (fun _ => rfl)) h)

theorem keeps_reportEffect (e : TrackEntry) (f b : Bool) (p : Patch) (h : Keeps s u) :
    Keeps s (reportEffect e f b p u) := by
  unfold reportEffect
  split
  · refine keeps_ite h ?_
    split
    · exact keeps_ite h (keeps_assignPosition _ _ _ _ h)
    · exact keeps_patchAttrs _ _ _ h
    · exact keeps_patchAttrs _ _ _ h
    · exact keeps_endedTest _ (keeps_markOverrun _ (keeps_drainFeed (keeps_endActive _ h)))
  · split
    · exact keeps_fillChanged (keeps_ite h (keeps_placeSheet _ _ _ _ h))
    · exact keeps_fillChanged h
    · exact keeps_fillChanged (keeps_releaseReservation _ h)
    · exact keeps_fillChanged (keeps_releaseReservation _ h)
    · exact keeps_fillChanged (keeps_markOverrun _ (keeps_fillEnd _ _ (keeps_drainFeed
        (keeps_releaseReservation _ h))))
  · exact h

theorem keeps_captureReport (tag : Nat) (f b : Bool) (p : Patch) (h : Keeps s u) :
    Keeps s (captureReport tag f b p u) := by
  unfold captureReport
  refine keeps_ite h ?_
  split
  · exact keeps_hold _ h
  · refine keeps_ite (keeps_hold _ h) (keeps_pickTest ?_)
    have h1 := fun e : TrackEntry => keeps_routesLater tag (keeps_reportEffect e f b p
      (keeps_updEntry tag (fun e => { e with report := some ⟨f, b, p⟩ }) h))
    exact keeps_ite (keeps_hold _ (h1 _)) (h1 _)

/-! ## Windows, diverter, misfeed, CLEAR -/

theorem keeps_pulledHole (e : TrackEntry) (b p : Nat) (h : Keeps s u) : Keeps s (pulledHole e b p u) :=
  keeps_addHole _ _ _ _ h

theorem keeps_misfedNotice (e : TrackEntry) (h : Keeps s u) : Keeps s (misfedNotice e u) := by
  unfold misfedNotice
  split
  · exact keeps_pulledHole _ _ _ h
  · exact h
  · exact keeps_fillChanged h
  · exact keeps_modDfm _ h

theorem keeps_misfeed (e : TrackEntry) (h : Keeps s u) : Keeps s (misfeed e u) := by
  unfold misfeed
  dsimp only
  refine keeps_ite (keeps_hold _ h) (keeps_drainTest (keeps_endedTestFor _ (keeps_misfedNotice e ?_)))
  exact keeps_discardAll e.pages (keeps_drainFeed (keeps_modTsq
    (fun t => { t with handshake := if t.handshake.any (·.tag == e.tag) then none else t.handshake })
    (fun k => k) (keeps_removeEntry e.tag h)))

theorem keeps_pickWindowExpired (tag : Nat) (h : Keeps s u) : Keeps s (pickWindowExpired tag u) := by
  unfold pickWindowExpired
  split
  · exact h
  · split
    · exact h
    · refine keeps_ite h ?_
      dsimp only
      split
      · exact keeps_misfeed _ (keeps_advanceTo _ h)
      · exact keeps_hold _ (keeps_advanceTo _ h)

theorem keeps_edgeWindowExpired (tag : Nat) (sn : Sensor) (k : EdgeKind) (h : Keeps s u) :
    Keeps s (edgeWindowExpired tag sn k u) := by
  unfold edgeWindowExpired
  split
  · exact h
  · split
    · exact h
    · exact keeps_ite (keeps_hold _ (keeps_advanceTo _ h)) h

theorem keeps_settleTimeOver (h : Keeps s u) : Keeps s (settleTimeOver u) := by
  unfold settleTimeOver
  split
  · exact keeps_ite h (keeps_modTsq _ (fun k => k) (keeps_advanceTo _ h))
  · exact h

theorem keeps_readySampled (r : Bool) (h : Keeps s u) : Keeps s (readySampled r u) := by
  unfold readySampled
  split
  · exact keeps_ite (keeps_updEntry _ _ (keeps_modTsq (fun t => { t with
      diverterConfirmed := true, handshake := none }) (fun k => k) h)) h
  · exact h

theorem keeps_readyWindowOver (h : Keeps s u) : Keeps s (readyWindowOver u) := by
  unfold readyWindowOver
  split
  · exact keeps_hold _ (keeps_advanceTo _ h)
  · exact h

theorem keeps_pullEntry (e : TrackEntry) (h : Keeps s u) : Keeps s (pullEntry e u) := by
  unfold pullEntry
  split
  · exact keeps_pulledHole _ _ _ h
  · exact keeps_fillRefused _ (keeps_releaseReservation _ h)
  · exact keeps_fillChanged (keeps_releaseReservation _ h)
  · exact keeps_ite (keeps_raise _ (keeps_modDfm _ h)) h
  · exact h

theorem keeps_clearPath (h : Keeps s u) : Keeps s (clearPath u) := by
  unfold clearPath
  dsimp only
  have h1 := keeps_foldl (fun s e => pullEntry e s) (fun v _ => keeps_pullEntry _ (Keeps.refl v)) u.tsq.track h
  have h2 := fun v w (hv : Keeps s v) => keeps_toIdle (keeps_drive (.diverter .main) (keeps_modTsq (fun t => { t with
    track := [], holdReason := none, handshake := none, diverter := .main, diverterConfirmed := false })
    (fun _ => Nat.zero_le _) (keeps_discardAll w hv)))
  split
  · exact keeps_endedTest _ (h2 _ _ h1)
  · exact keeps_feedStopped (h2 _ _ h1)
  · exact h2 _ _ h1

theorem keeps_clearPressed (h : Keeps s u) : Keeps s (clearPressed u) := by
  unfold clearPressed
  refine keeps_ite h ?_
  split
  · exact keeps_ite (keeps_raise _ h) (keeps_clearPath h)
  · exact keeps_clearPath h

end Sys2Proof.Machine
end

