-- ==== Sys2Proof/Laws/KeepsIntake.lean ====
section
/-! SUPPORT. What the Intake Controller's operations keep: the account of slots and blocks of R133, the limit
of each sender and the store queue. -/

namespace Sys2Proof.Machine

set_option Elab.async false

variable {s u : State}

/-! ## The account -/

/-- The blocks that one slot reserves. -/
def Slot.blocks (sl : Slot) : List Nat := match sl.hold with | some h => h.blocks | none => []

/-- The account depends on the slots, the free count, and the store queue only. -/
theorem accounted_same {i j : Ict} (hs : j.slots = i.slots) (hf : j.freeBlocks = i.freeBlocks)
    (hq : j.storeQueue = i.storeQueue) (k : i.accounted) : j.accounted := by
  have hr : j.reserved = i.reserved := by unfold Ict.reserved; rw [hs]
  exact ⟨by rw [hf, hr]; exact k.blocks, by rw [hr]; exact k.once, by rw [hr]; exact k.exist,
    by rw [hs]; exact k.slots, by rw [hs]; exact k.holds, by rw [hs]; exact k.senders,
    by unfold Ict.pagesHeld; rw [hs]; exact k.pages, by rw [hq, hs]; exact k.queue, by rw [hq]; exact k.queued⟩

/-- A slot replaced by another one. -/
theorem accounted_set {i j : Ict} (n : Nat) (old new : Slot) (hn : i.slots[n]? = some old)
    (hs : j.slots = i.slots.set n new)
    (hf : j.freeBlocks + new.blocks.length = i.freeBlocks + old.blocks.length)
    (hnew : new.blocks.Nodup) (hex : ∀ k ∈ new.blocks, k < Config.blocks ∧ (k ∈ old.blocks ∨ k ∉ i.reserved))
    (hh : new.holdOk)
    (hsend : ∀ a, Slot.ofSender a new = true →
      Slot.ofSender a old = true ∨ i.slots.countP (Slot.ofSender a) < Config.slotsPerSender)
    (hp : ∀ p ∈ new.hold.map (·.page), p ∈ old.hold.map (·.page) ∨ p ∉ i.pagesHeld)
    (hq : ∀ m ∈ j.storeQueue, (m = n ∧ new.state = .complete) ∨ (m ≠ n ∧ m ∈ i.storeQueue))
    (hqn : j.storeQueue.Nodup) (k : i.accounted) : j.accounted := by
  obtain ⟨hlt, hget⟩ := List.getElem?_eq_some_iff.mp hn
  have hsplit : i.slots = i.slots.take n ++ old :: i.slots.drop (n + 1) := by
    rw [← hget]; simp
  have hset : j.slots = i.slots.take n ++ new :: i.slots.drop (n + 1) := by
    rw [hs, List.set_eq_take_append_cons_drop, if_pos hlt]
  have hold : i.reserved = (i.slots.take n).flatMap Slot.blocks ++
      (old.blocks ++ (i.slots.drop (n + 1)).flatMap Slot.blocks) := by
    show i.slots.flatMap Slot.blocks = _
    conv_lhs => rw [hsplit]
    simp
  have hnw : j.reserved = (i.slots.take n).flatMap Slot.blocks ++
      (new.blocks ++ (i.slots.drop (n + 1)).flatMap Slot.blocks) := by
    show j.slots.flatMap Slot.blocks = _
    rw [hset]; simp
  have hperm : ∀ (x : List Nat) (a b : List Nat), (a ++ (x ++ b)).Perm (x ++ (a ++ b)) := by
    intro x a b
    rw [List.perm_iff_count]; intro c; simp only [List.count_append]; omega
  have honce := k.once
  rw [hold, (hperm _ _ _).nodup_iff, List.nodup_append] at honce
  refine ⟨?_, ?_, ?_, ?_, ?_, ?_, ?_, ?_, hqn⟩
  · have := k.blocks
    rw [hold] at this
    rw [hnw]
    simp only [List.length_append] at this ⊢; omega
  · rw [hnw, (hperm _ _ _).nodup_iff, List.nodup_append]
    refine ⟨hnew, honce.2.1, fun a ha b hb => ?_⟩
    rcases (hex a ha).2 with h | h
    · exact honce.2.2 a h b hb
    · rintro rfl
      apply h
      rw [hold]
      simp only [List.mem_append] at hb ⊢
      tauto
  · rw [hnw]
    intro x hx
    simp only [List.mem_append] at hx
    have hk := k.exist
    rw [hold] at hk
    rcases hx with hx | hx | hx
    · exact hk x (by simp only [List.mem_append]; exact Or.inl hx)
    · exact (hex x hx).1
    · exact hk x (by simp only [List.mem_append]; exact Or.inr (Or.inr hx))
  · rw [hs, List.length_set]; exact k.slots
  · rw [hset]
    intro x hx
    have hk := k.holds
    rw [hsplit] at hk
    simp only [List.mem_append, List.mem_cons] at hx
    rcases hx with hx | rfl | hx
    · exact hk x (by simp only [List.mem_append]; exact Or.inl hx)
    · exact hh
    · exact hk x (by simp only [List.mem_append, List.mem_cons]; exact Or.inr (Or.inr hx))
  · intro a
    have hk := k.senders a
    have hs' := hsend a
    rw [hset]
    rw [hsplit] at hk hs'
    simp only [List.countP_append, List.countP_cons] at hk hs' ⊢
    have h4 : Config.slotsPerSender = 4 := rfl
    by_cases h1 : Slot.ofSender a new = true
    · rcases hs' h1 with h2 | h2
      · simp only [h1, h2, if_true] at hk ⊢; omega
      · simp only [h1, if_true]
        split at h2 <;> omega
    · simp only [h1, Bool.false_eq_true, if_false]
      split at hk <;> omega
  · have hk := k.pages
    unfold Ict.pagesHeld at hk hp ⊢
    rw [hset]
    rw [hsplit] at hk hp
    simp only [List.filterMap_append, List.filterMap_cons] at hk hp ⊢
    cases hn' : new.hold.map (·.page) with
    | none =>
      refine hk.sublist (List.Sublist.append_left ?_ _)
      cases old.hold.map (·.page)
      · exact List.Sublist.refl _
      · exact List.sublist_cons_self _ _
    | some p =>
      have hp' := hp p (by simp [hn'])
      cases ho : old.hold.map (·.page) with
      | none =>
        rw [ho] at hk hp'
        refine (List.nodup_middle).mpr (List.nodup_cons.mpr ⟨?_, hk⟩)
        simpa using hp'
      | some q =>
        rw [ho] at hk hp'
        rcases hp' with hp' | hp'
        · rw [show p = q from by simpa [eq_comm] using hp']; exact hk
        · refine (List.nodup_middle).mpr (List.nodup_cons.mpr ⟨?_, (List.nodup_cons.mp ((List.nodup_middle).mp hk)).2⟩)
          simp only [List.mem_append, List.mem_cons, not_or] at hp' ⊢
          exact ⟨hp'.1, hp'.2.2⟩
  · intro m hm
    rw [hs]
    rcases hq m hm with ⟨rfl, hc⟩ | ⟨hne, hm'⟩
    · rw [List.getElem?_set_self hlt]; simp [hc]
    · rw [List.getElem?_set_ne (Ne.symm hne)]; exact k.queue m hm'

theorem Slot.ofSender_of_hold (a : Nat) (x y : Slot) (hh : x.hold.map (·.sender) = y.hold.map (·.sender))
    (hs : x.inUse = y.inUse) : Slot.ofSender a x = Slot.ofSender a y := by
  unfold Slot.ofSender
  rw [hs]
  cases hx : x.hold <;> cases hy : y.hold <;> simp_all

/-! ## Freeing -/

theorem keeps_freeSlot (n : Nat) (h : Keeps s u) : Keeps s (freeSlot n u) := by
  unfold freeSlot
  split
  · exact h
  · rename_i sl hsl
    refine keeps_modIct _ (fun k => ?_) (fun m => m) h
    have hb : (sl.hold.map (·.blocks.length)).getD 0 = sl.blocks.length := by
      unfold Slot.blocks; cases sl.hold <;> rfl
    refine accounted_set n sl (sl.freed u.now) hsl rfl ?_ ?_ ?_ ?_ ?_ (by simp [Slot.freed]) ?_ ?_ k
    · rw [hb]; simp [Slot.freed, Slot.blocks]
    · simp [Slot.freed, Slot.blocks]
    · simp [Slot.freed, Slot.blocks]
    · simp [Slot.holdOk, Slot.freed]
    · simp [Slot.ofSender, Slot.inUse, Slot.freed]
    · intro m hm
      have hm' := List.mem_filter.mp hm
      exact Or.inr ⟨by simpa using hm'.2, hm'.1⟩
    · exact k.queued.filter _

theorem keeps_freeSlots (ns : List Nat) (h : Keeps s u) : Keeps s (freeSlots ns u) :=
  keeps_foldl _ (fun _ _ => keeps_freeSlot _ (Keeps.refl _)) _ h

theorem keeps_ictSame (f : Ict → Ict) (hs : ∀ i, (f i).slots = i.slots) (hf : ∀ i, (f i).freeBlocks = i.freeBlocks)
    (hq : ∀ i, (f i).storeQueue = i.storeQueue) (hm : ∀ i, (f i).mem = i.mem) (h : Keeps s u)
    (hc : ∀ i, (f i).commits = i.commits := by exact fun _ => rfl) : Keeps s (u.modIct f) :=
  keeps_modIct f (accounted_same (hs _) (hf _) (hq _)) (fun m => by rw [hm]; exact m) h
    (fun c => ⟨by rw [hc]; exact c.1, by rw [hc]; exact c.2⟩)

/-! ## Offers -/

theorem keeps_answerWait (x : Hdr) (h : Keeps s u) : Keeps s (answerWait x u) :=
  keeps_hand _ _ _ (keeps_ictSame _ (fun _ => rfl) (fun _ => rfl) (fun _ => rfl) (fun _ => rfl) h)

theorem keeps_answerRefuse (x : Hdr) (r : PageRefusal) (h : Keeps s u) : Keeps s (answerRefuse x r u) :=
  keeps_hand _ _ _ (keeps_ictSame _ (fun _ => rfl) (fun _ => rfl) (fun _ => rfl) (fun _ => rfl) h)

theorem keeps_answerStored (x : Hdr) (p : PageId) (h : Keeps s u) : Keeps s (answerStored x p u) :=
  keeps_hand _ _ _ (keeps_ictSame _ (fun _ => rfl) (fun _ => rfl) (fun _ => rfl) (fun _ => rfl) h)

/-- A slot granted to a sender with fewer than four, from blocks that suffice (R136, R137). -/
theorem keeps_grantSlot (x : Hdr) (n : Nat) (p : PageId) (c size : Nat) (m : Bool) (hn : u.lowestFree = some n)
    (ha : ¬ Config.slotsPerSender ≤ u.slotsHeld x.src) (hb : ¬ u.ict.freeBlocks < slotBlocks size)
    (hp : ¬ u.pageInSlot p = true) (h : Keeps s u) : Keeps s (grantSlot x n p c size m u) := by
  unfold grantSlot
  refine keeps_hand _ _ _ (keeps_modIct _ (fun k => ?_) (fun m => m) h)
  have h1 := List.find?_some hn
  cases hsl : u.slot? n with
  | none => rw [hsl] at h1; simp at h1
  | some sl =>
    rw [hsl] at h1
    have hfree : sl.state = .free := by simpa [Slot.inUse] using h1
    have hok : sl.holdOk := k.holds sl (List.mem_of_getElem? hsl)
    have hnone : sl.hold = none := hok.mp hfree
    have hlen := length_freshBlocks u.ict.reserved (slotBlocks size) u.ict.freeBlocks k.once k.exist k.blocks
      (by omega)
    have hmem := mem_freshBlocks u.ict.reserved (slotBlocks size)
    refine accounted_set n sl _ hsl rfl ?_ (freshBlocks_nodup u.ict.reserved (slotBlocks size)) ?_ ?_ ?_ ?_ ?_ k.queued k
    · show u.ict.freeBlocks - (freshBlocks u.ict.reserved (slotBlocks size)).length +
        (freshBlocks u.ict.reserved (slotBlocks size)).length = _
      rw [hlen]; simp only [Slot.blocks, hnone, List.length_nil]; omega
    · intro b hb'
      exact ⟨(hmem b hb').1, Or.inr (hmem b hb').2⟩
    · simp [Slot.holdOk]
    · intro a ha'
      right
      have : x.src = a := by simpa [Slot.ofSender, Slot.inUse] using ha'
      rw [← this]; simpa [State.slotsHeld] using ha
    · intro q hq
      right
      obtain rfl : p = q := by simpa using hq
      intro hm
      obtain ⟨y, hy, hy'⟩ := List.mem_filterMap.mp hm
      refine hp (List.any_eq_true.mpr ⟨y, hy, ?_⟩)
      have hk := k.holds y hy
      cases hh : y.hold with
      | none => rw [hh] at hy'; simp at hy'
      | some z =>
        rw [hh] at hy'
        have : y.state ≠ .free := fun e => by have := hk.mp e; rw [hh] at this; simp at this
        simpa [Slot.inUse, this] using hy'
    · intro q hq
      refine Or.inr ⟨?_, hq⟩
      rintro rfl
      have := k.queue q hq
      have hsl' : u.ict.slots[q]? = some sl := hsl
      rw [hsl'] at this
      simp [hfree] at this

theorem keeps_takePageOffer (x : Hdr) (p : PageId) (c size : Nat) (m : Bool) (h : Keeps s u) :
    Keeps s (takePageOffer x p c size m u) := by
  unfold takePageOffer
  split
  · exact keeps_answerRefuse _ _ h
  · refine keeps_ite (keeps_answerStored _ _ h) (keeps_ite (keeps_answerRefuse _ _ h)
      (keeps_ite (keeps_answerRefuse _ _ h) ?_))
    split
    · exact keeps_answerWait _ h
    rename_i hp
    split
    · exact keeps_answerWait _ h
    · rename_i ha
      split
      · exact keeps_answerWait _ h
      · rename_i n hn
        split
        · exact keeps_answerWait _ h
        · rename_i hb
          exact keeps_grantSlot x n p c size m hn ha hb hp h

/-! ## The store port -/

/-- A change of a slot that keeps its holding's sender and blocks. -/
theorem accounted_modify {i j : Ict} (n : Nat) (f : Slot → Slot) (sl : Slot) (hn : i.slots[n]? = some sl)
    (hs : j.slots = i.slots.modify n f) (hf : j.freeBlocks = i.freeBlocks)
    (hb : (f sl).blocks = sl.blocks) (hx : (f sl).hold.map (·.sender) = sl.hold.map (·.sender))
    (hpg : (f sl).hold.map (·.page) = sl.hold.map (·.page)) (hu : (f sl).inUse = sl.inUse)
    (hq : ∀ m ∈ j.storeQueue, (m = n ∧ (f sl).state = .complete) ∨ (m ≠ n ∧ m ∈ i.storeQueue))
    (hqn : j.storeQueue.Nodup) (k : i.accounted) : j.accounted := by
  have hmem : sl ∈ i.slots := List.mem_of_getElem? hn
  refine accounted_set n sl (f sl) hn ?_ ?_ ?_ ?_ ?_ ?_ (fun p hp => Or.inl (hpg ▸ hp)) hq hqn k
  · rw [hs]
    apply List.ext_getElem?
    intro m
    by_cases hm : n = m
    · subst hm
      obtain ⟨hlt, _⟩ := List.getElem?_eq_some_iff.mp hn
      rw [List.getElem?_modify_eq, List.getElem?_set_self hlt, hn]; rfl
    · rw [List.getElem?_modify, List.getElem?_set_ne hm]
      simp only [if_neg hm]; cases i.slots[m]? <;> rfl
  · rw [hf, hb]
  · rw [hb]
    have := k.once
    exact (List.nodup_flatMap.mp this).1 sl hmem
  · intro x hx'
    rw [hb] at hx'
    exact ⟨k.exist x (List.mem_flatMap.mpr ⟨sl, hmem, hx'⟩), Or.inl hx'⟩
  · have := k.holds sl hmem
    unfold Slot.holdOk at this ⊢
    have h1 : (f sl).state = .free ↔ sl.state = .free := by
      unfold Slot.inUse at hu
      cases hx : (f sl).state <;> cases hy : sl.state <;> rw [hx, hy] at hu <;> revert hu <;> decide
    have h2 : (f sl).hold = none ↔ sl.hold = none := by
      constructor <;> intro h <;> simp_all
    rw [h1, h2]; exact this
  · intro a ha
    rw [Slot.ofSender_of_hold a (f sl) sl hx hu] at ha
    exact Or.inl ha

theorem keeps_storeTest (h : Keeps s u) : Keeps s (storeTest u) := by
  unfold storeTest
  split
  · rename_i n rest hp hq
    have h1 : Keeps s ((u.modIct fun i => { i with storeQueue := rest, portBusy := true }).updSlot n
        fun sl => { sl with state := .storing }) := by
      refine keeps_modIct (u := u) (fun i => { i with
        storeQueue := rest, portBusy := true,
        slots := i.slots.modify n fun sl => { sl with state := .storing } }) (fun k => ?_) (fun m => m) h
      have hqn := k.queued
      rw [hq] at hqn
      have hn := k.queue n (by rw [hq]; simp)
      cases hsl : u.ict.slots[n]? with
      | none => rw [hsl] at hn; simp at hn
      | some sl =>
        rw [hsl] at hn
        have hc : sl.state = .complete := by simpa using hn
        refine accounted_modify n (fun sl => { sl with state := .storing }) sl hsl rfl rfl rfl rfl rfl
          (by simp only [Slot.inUse, hc]; decide) (fun m hm => ?_) (List.nodup_cons.mp hqn).2 k
        refine Or.inr ⟨?_, by rw [hq]; exact List.mem_cons_of_mem _ hm⟩
        rintro rfl
        exact (List.nodup_cons.mp hqn).1 hm
    dsimp only
    split
    · exact keeps_drive _ h1
    · exact h1
  · exact h

/-! ## Bursts -/

theorem keeps_takeBurst (n src off len : Nat) (sl : Slot) (hd : SlotHold) (bytes : List Byte)
    (hsl : u.slot? n = some sl) (hh : sl.hold = some hd) (hfit : burstFits src off len sl = true)
    (h : Keeps s u) : Keeps s (takeBurst n hd bytes u) := by
  have hfill : sl.state = .granted ∨ sl.state = .receiving := by
    have : sl.filling = true := by
      unfold burstFits at hfit; simp only [Bool.and_eq_true] at hfit; exact hfit.1
    simpa [Slot.filling] using this
  have key : ∀ (full : Bool), Keeps s (u.modIct fun i => { i with
      mem := Memory.writeRun i.mem hd.blocks hd.expected bytes
      burstsTaken := bump16 i.burstsTaken
      slots := i.slots.modify n fun sl => { sl with
        hold := some { hd with expected := hd.expected + bytes.length }
        state := if full = true then .complete else .receiving
        idleSince := u.now
        idleStop := if full = true then some 0 else none }
      storeQueue := if full = true then i.storeQueue ++ [n] else i.storeQueue }) := by
    intro full
    refine keeps_modIct _ (fun k => ?_) (fun m => writeRun_wf _ _ _ _ m) h
    have hnot : n ∉ u.ict.storeQueue := by
      intro hc
      have := k.queue n hc
      have hsl' : u.ict.slots[n]? = some sl := hsl
      rw [hsl'] at this
      rcases hfill with h | h <;> simp [h] at this
    refine accounted_modify n (fun sl => { sl with
        hold := some { hd with expected := hd.expected + bytes.length }
        state := if full = true then .complete else .receiving
        idleSince := u.now
        idleStop := if full = true then some 0 else none }) sl hsl rfl rfl ?_ ?_ ?_ ?_ ?_ ?_ k
    · simp [Slot.blocks, hh]
    · simp [hh]
    · simp [hh]
    · cases full <;> rcases hfill with h | h <;> simp only [Slot.inUse, h] <;> decide
    · intro m hm
      cases full
      · have hm : m ∈ u.ict.storeQueue := hm
        exact Or.inr ⟨by rintro rfl; exact hnot hm, hm⟩
      · have hm : m ∈ u.ict.storeQueue ++ [n] := hm
        rcases List.mem_append.mp hm with hm | hm
        · exact Or.inr ⟨fun e => hnot (e ▸ hm), hm⟩
        · exact Or.inl ⟨List.mem_singleton.mp hm, rfl⟩
    · cases full
      · exact k.queued
      · show (u.ict.storeQueue ++ [n]).Nodup
        rw [List.nodup_append]
        refine ⟨k.queued, by simp, fun a ha b hb => ?_⟩
        rw [List.mem_singleton.mp hb]; rintro rfl; exact hnot ha
  unfold takeBurst
  cases hfull : (hd.expected + bytes.length == Config.startOffset + hd.size)
  · have := key false
    simp only [hfull]
    exact this
  · have := key true
    simp only [hfull]
    exact keeps_storeTest this

theorem keeps_faultPage (src n : Nat) (p : PageId) (h : Keeps s u) : Keeps s (faultPage src n p u) :=
  keeps_tell _ _ (keeps_ictSame _ (fun _ => rfl) (fun _ => rfl) (fun _ => rfl) (fun _ => rfl) h)

theorem keeps_faultNoPage (src n : Nat) (h : Keeps s u) : Keeps s (faultNoPage src n u) :=
  keeps_faultPage _ _ _ (keeps_freeNext _ h)

theorem keeps_burstFault (src n : Nat) (h : Keeps s u) : Keeps s (burstFault src n u) := by
  unfold burstFault
  repeat' split
  all_goals first
    | exact keeps_faultNoPage _ _ h
    | exact keeps_faultPage _ _ _ h
    | exact keeps_faultPage _ _ _ (keeps_freeSlot _ h)

theorem keeps_takePageData (x : Hdr) (n off : Nat) (bytes : List Byte) (h : Keeps s u) :
    Keeps s (takePageData x n off bytes u) := by
  unfold takePageData
  split
  · rename_i sl hsl
    split
    · rename_i hd hh
      split
      · rename_i hf
        exact keeps_takeBurst n x.src off bytes.length sl hd bytes hsl hh hf h
      · exact keeps_burstFault _ _ h
    · exact keeps_burstFault _ _ h
  · exact keeps_burstFault _ _ h

/-! ## Completions -/

theorem keeps_updCommit (b : Nat) (f : CommitRec → CommitRec) (hf : ∀ r, (f r).batch = r.batch) (h : Keeps s u) :
    Keeps s (u.updCommit b f) :=
  keeps_modIct _ (accounted_same rfl rfl rfl) (fun m => m) h (fun c => ⟨by simpa using c.1, by
    have := updFirst_map (·.batch == b) f (·.batch) (fun r _ => hf r) u.ict.commits
    show ((updFirst _ f u.ict.commits).map (·.batch)).Nodup
    rw [this]; exact c.2⟩)

theorem keeps_lateCompletion (n : Nat) (hd : SlotHold) (o : Option Bool) (h : Keeps s u) :
    Keeps s (lateCompletion n hd o u) := by
  unfold lateCompletion
  split
  · exact keeps_ictSame _ (fun _ => rfl) (fun _ => rfl) (fun _ => rfl) (fun _ => rfl) (keeps_freeSlot _ h)
  · exact keeps_freeSlot _ (keeps_tell _ _ h)
  · exact keeps_freeSlot _ (keeps_faultPage _ _ _ h)

theorem keeps_strayCompletion (h : Keeps s u) : Keeps s (strayCompletion u) :=
  keeps_ictSame _ (fun _ => rfl) (fun _ => rfl) (fun _ => rfl) (fun _ => rfl) h

theorem keeps_storeDone (h : Keeps s u) : Keeps s (storeDone u) := by
  unfold storeDone
  split
  · exact keeps_storeTest (keeps_strayCompletion h)
  · have h1 : Keeps s (u.modIct fun i => { i with portBusy := false }) :=
      keeps_ictSame _ (fun _ => rfl) (fun _ => rfl) (fun _ => rfl) (fun _ => rfl) h
    dsimp only
    split
    · split
      · refine keeps_storeTest ?_
        split
        · exact keeps_ictSame _ (fun _ => rfl) (fun _ => rfl) (fun _ => rfl) (fun _ => rfl)
            (keeps_freeSlot _ (keeps_tell _ _ (keeps_updCommit _ _ (fun _ => rfl) h1)))
        · exact keeps_lateCompletion _ _ _ h1
        · exact keeps_lateCompletion _ _ _ h1
      · exact keeps_storeTest (keeps_freeSlot _ h1)
    · exact keeps_storeTest h1

theorem keeps_storeError (h : Keeps s u) : Keeps s (storeError u) := by
  unfold storeError
  split
  · exact keeps_storeTest (keeps_strayCompletion h)
  · have h1 : Keeps s (u.modIct fun i => { i with portBusy := false }) :=
      keeps_ictSame _ (fun _ => rfl) (fun _ => rfl) (fun _ => rfl) (fun _ => rfl) h
    dsimp only
    split
    · split
      · refine keeps_storeTest ?_
        split
        · exact keeps_raise _ (keeps_ictSame _ (fun _ => rfl) (fun _ => rfl) (fun _ => rfl) (fun _ => rfl)
            (keeps_freeSlot _ (keeps_tell _ _ h1)))
        · exact keeps_lateCompletion _ _ _ h1
        · exact keeps_lateCompletion _ _ _ h1
      · exact keeps_storeTest (keeps_freeSlot _ h1)
    · exact keeps_storeTest h1

/-! ## The commit table -/

/-- Slots that differ in nothing that the account reads. -/
theorem accounted_map {i j : Ict} (f : Slot → Slot) (hs : j.slots = i.slots.map f)
    (hf : j.freeBlocks = i.freeBlocks) (hq : j.storeQueue = i.storeQueue)
    (hsame : ∀ sl, (f sl).hold = sl.hold ∧ (f sl).state = sl.state) (k : i.accounted) : j.accounted := by
  have hr : j.reserved = i.reserved := by
    unfold Ict.reserved
    rw [hs, List.flatMap_map]
    congr 1
    funext sl
    rw [(hsame sl).1]
  have hp : j.pagesHeld = i.pagesHeld := by
    unfold Ict.pagesHeld
    rw [hs, List.filterMap_map]
    congr 1
    funext sl
    simp only [Function.comp, (hsame sl).1]
  refine ⟨by rw [hf, hr]; exact k.blocks, by rw [hr]; exact k.once, by rw [hr]; exact k.exist,
    by rw [hs, List.length_map]; exact k.slots, ?_, ?_, by rw [hp]; exact k.pages, ?_,
    by rw [hq]; exact k.queued⟩
  · rw [hs]
    intro x hx
    obtain ⟨y, hy, rfl⟩ := List.mem_map.mp hx
    have := k.holds y hy
    unfold Slot.holdOk at this ⊢
    rw [(hsame y).1, (hsame y).2]; exact this
  · intro a
    rw [hs, List.countP_map]
    refine le_trans (le_of_eq ?_) (k.senders a)
    congr 1
    funext sl
    exact Slot.ofSender_of_hold a _ _ (by rw [(hsame sl).1]) (by unfold Slot.inUse; rw [(hsame sl).2])
  · rw [hq, hs]
    intro n hn
    have := k.queue n hn
    rw [List.getElem?_map]
    cases hx : i.slots[n]? with
    | none => rw [hx] at this; simp at this
    | some x => rw [hx] at this; simpa [(hsame x).2] using this

theorem keeps_freeBatchSlots (b : Nat) (h : Keeps s u) : Keeps s (freeBatchSlots b u) := keeps_freeSlots _ h

theorem keeps_abandonSlots (b : Nat) (h : Keeps s u) : Keeps s (abandonSlots b u) :=
  keeps_modIct _ (accounted_map (fun sl => if sl.ofBatch b && sl.state == .storing then { sl with disowned := true }
    else sl) rfl rfl rfl (fun sl => by split <;> exact ⟨rfl, rfl⟩)) (fun m => m) (keeps_freeBatchSlots _ h)

theorem keeps_abandonEntry (b : Nat) (h : Keeps s u) : Keeps s (abandonEntry b u) :=
  keeps_modIct _ (accounted_same rfl rfl rfl) (fun m => m) (keeps_abandonSlots _ h)
    (fun c => ⟨le_trans (List.length_filter_le _ _) c.1, c.2.sublist (List.Sublist.map _ List.filter_sublist)⟩)

theorem keeps_takeAbandon (x : Hdr) (b : Nat) (h : Keeps s u) : Keeps s (takeAbandon x b u) :=
  keeps_ite (keeps_abandonEntry _ h) h

theorem keeps_abandonAtGateway (b : Nat) (h : Keeps s u) : Keeps s (abandonAtGateway b u).2 := by
  unfold abandonAtGateway
  split
  · exact keeps_abandonEntry _ h
  · exact h

/-- Freeing slots leaves the commit table as it is. -/
theorem freeSlots_commits (ns : List Nat) (v : State) : (freeSlots ns v).ict.commits = v.ict.commits := by
  unfold freeSlots
  induction ns generalizing v with
  | nil => rfl
  | cons n ns ih => exact (ih _).trans (by dsimp only; unfold freeSlot; split <;> rfl)

theorem abandonEntry_commits (b : Nat) (v : State) :
    (abandonEntry b v).ict.commits = v.ict.commits.filter (·.batch != b) := by
  show (freeBatchSlots b v).ict.commits.filter _ = _
  unfold freeBatchSlots
  rw [freeSlots_commits]

theorem findCommit_none {v : State} {b : Nat} (hb : v.findCommit b = none) :
    b ∉ v.ict.commits.map (·.batch) := by
  intro hm
  obtain ⟨r, hr, e⟩ := List.mem_map.mp hm
  have := List.find?_eq_none.mp hb r hr
  simp [e] at this

/-- An entry enters a commit table that has room and none of its batch. -/
theorem keeps_makeEntry (b o : Nat) (hb : b ∉ u.ict.commits.map (·.batch))
    (hr : u.ict.committing → u.ict.commits.length < Config.commitEntries) (h : Keeps s u) :
    Keeps s (makeEntry b o u) :=
  keeps_modIct _ (accounted_same rfl rfl rfl) (fun m => m) h (fun c => ⟨by simpa using hr c, by
    show ((u.ict.commits ++ [({ batch := b, owner := o } : CommitRec)]).map CommitRec.batch).Nodup
    rw [List.map_append, List.nodup_append]
    refine ⟨c.2, by simp, ?_⟩
    rintro x hx y hy rfl
    have : x = b := by simpa using hy
    exact hb (this ▸ hx)⟩)

/-- An entry in the place of one that leaves. -/
theorem keeps_replaceEntry (b o old : Nat) (hold : ∃ r ∈ u.ict.commits, r.batch = old)
    (hb : b = old ∨ b ∉ u.ict.commits.map (·.batch)) (h : Keeps s u) :
    Keeps s (makeEntry b o (abandonEntry old u)) := by
  have hlt : (u.ict.commits.filter (·.batch != old)).length < u.ict.commits.length := by
    obtain ⟨r, hr, e⟩ := hold
    refine List.length_filter_lt_length_iff_exists.mpr ⟨r, hr, by simp [e]⟩
  have hnot : b ∉ (abandonEntry old u).ict.commits.map (·.batch) := by
    rw [abandonEntry_commits]
    intro hm
    obtain ⟨r, hr, e⟩ := List.mem_map.mp hm
    obtain ⟨hr, hne⟩ := List.mem_filter.mp hr
    rcases hb with rfl | hb
    · simp [e] at hne
    · exact hb (List.mem_map.mpr ⟨r, hr, e⟩)
  have k := keeps_abandonEntry old (Keeps.refl u)
  refine h.trans { k with
    intake := fun i => accounted_same (i := (abandonEntry old u).ict) rfl rfl rfl (k.intake i)
    commits := fun c => ?_
    sized := fun z => ⟨(k.sized z).1, (k.sized z).2, (k.sized z).3⟩
    own := fun but i => k.own but i
    mems := fun m => k.mems m }
  refine ⟨?_, (keeps_makeEntry b o hnot (fun _ => ?_) (Keeps.refl (abandonEntry old u))).commits
    (k.commits c) |>.batches⟩
  · show ((abandonEntry old u).ict.commits ++ [_]).length ≤ _
    have := c.table
    rw [List.length_append, abandonEntry_commits]
    simp only [List.length_cons, List.length_nil]; omega
  · have := c.table
    rw [abandonEntry_commits]; omega

theorem oldestCommitted_mem (l : List CommitRec) (r : CommitRec) (h : oldestCommitted l = some r) : r ∈ l := by
  induction l generalizing r with
  | nil => simp [oldestCommitted] at h
  | cons x l ih =>
    unfold oldestCommitted at h
    split at h
    · split at h
      · simp only [Option.some.injEq] at h; exact h ▸ List.mem_cons_self ..
      · simp at h
    · rename_i y hy
      split at h
      · simp only [Option.some.injEq] at h; exact h ▸ List.mem_cons_self ..
      · simp only [Option.some.injEq] at h; exact h ▸ List.mem_cons_of_mem _ (ih y hy)

theorem keeps_takeBatchOpen (x : Hdr) (b g : Nat) (h : Keeps s u) : Keeps s (takeBatchOpen x b g u) := by
  unfold takeBatchOpen
  refine keeps_ite h ?_
  dsimp only
  split
  · rename_i r hr
    have hm : r ∈ u.ict.commits := List.mem_of_find?_eq_some hr
    have he : r.batch = b := by simpa using List.find?_some hr
    exact keeps_ite (keeps_hand _ _ _ (keeps_replaceEntry _ _ _ ⟨r, hm, he⟩ (Or.inl rfl) h))
      (keeps_ite (keeps_hand _ _ _ h) (keeps_hand _ _ _ h))
  · rename_i hb
    split
    · rename_i hl
      exact keeps_hand _ _ _ (keeps_makeEntry _ _ (findCommit_none hb) (fun _ => hl) h)
    · split
      · rename_i old ho
        exact keeps_hand _ _ _ (keeps_replaceEntry _ _ _ ⟨old, oldestCommitted_mem _ _ ho, rfl⟩
          (Or.inr (findCommit_none hb)) h)
      · exact keeps_hand _ _ _ h

theorem keeps_commitBatch (b : Nat) (h : Keeps s u) : Keeps s (commitBatch b u) :=
  keeps_freeBatchSlots _ (keeps_ictSame (fun i => { i with commitNext := i.commitNext + 1 })
    (fun _ => rfl) (fun _ => rfl) (fun _ => rfl) (fun _ => rfl) (keeps_updCommit _ _ (fun _ => rfl) h))

theorem keeps_takeClose (x : Hdr) (b n : Nat) (ps : List Nat) (h : Keeps s u) : Keeps s (takeClose x b n ps u) := by
  unfold takeClose
  split
  · exact keeps_hand _ _ _ h
  · exact keeps_ite (keeps_hand _ _ _ h) (keeps_ite
      (keeps_ite (keeps_commitBatch _ (keeps_hand _ _ _ h)) (keeps_hand _ _ _ h)) (keeps_hand _ _ _ h))

/-! ## Timers, silence, Restart -/

theorem keeps_lifetimeOver (n : Nat) (h : Keeps s u) : Keeps s (lifetimeOver n u) := by
  unfold lifetimeOver
  split
  · exact keeps_ite (keeps_ictSame _ (fun _ => rfl) (fun _ => rfl) (fun _ => rfl) (fun _ => rfl)
      (keeps_freeSlot _ (keeps_advanceTo _ h))) h
  · exact h

theorem keeps_ictSilence (a : Nat) (h : Keeps s u) : Keeps s (ictSilence a u) := keeps_freeSlots _ h

end Sys2Proof.Machine
end

