-- ==== Sys2Proof/Laws/KeepsLine.lean ====
section
/-! SUPPORT. What RESTART, the orders, and the Floor Line Interface keep: each operation is `Safe`, that is,
the fixed fields stay and the invariant that held before holds after. -/

namespace Sys2Proof.Machine

set_option Elab.async false

variable {s u : State}

/-! ## RESTART -/

theorem accounted_restartPgs (m : Memory) (a b c d : Nat) :
    ({ mem := m, strayCapture := a, lossNoRecord := b, lossOversize := c, lossNoBlock := d } : Pgs).accounted :=
  ⟨rfl, rfl, by simp, by simp [Pgs.listed], by simp [Pgs.listed], by simp,
    by simpa using List.nodup_range⟩

theorem bounded_restart : ({} : Bct).bounded :=
  ⟨by simp, by simp, by simp, by simp, by simp, by simp, by simp, by simp⟩

theorem blocks_restarted (sl : Slot) : sl.restarted.blocks.Sublist sl.blocks := by
  unfold Slot.restarted
  split
  · exact List.Sublist.refl _
  · simp [Slot.blocks]

theorem reserved_restart (l : List Slot) :
    ((l.map Slot.restarted).flatMap Slot.blocks).Sublist (l.flatMap Slot.blocks) := by
  induction l with
  | nil => exact List.Sublist.refl _
  | cons x l ih =>
    simp only [List.map_cons, List.flatMap_cons]
    exact (blocks_restarted x).append ih

theorem pagesHeld_restart (l : List Slot) :
    ((l.map Slot.restarted).filterMap fun sl => sl.hold.map (·.page)).Sublist
      (l.filterMap fun sl => sl.hold.map (·.page)) := by
  induction l with
  | nil => exact List.Sublist.refl _
  | cons x l ih =>
    have hx : x.restarted.hold = x.hold ∨ x.restarted.hold = none := by
      unfold Slot.restarted; split <;> simp
    rw [List.map_cons, List.filterMap_cons, List.filterMap_cons]
    rcases hx with hx | hx <;> rw [hx] <;> cases x.hold
    · exact ih
    · exact ih.cons_cons _
    · exact ih
    · exact ih.cons _

theorem accounted_restartIct (i : Ict) (k : i.accounted) :
    ({ i with
        slots := i.slots.map fun sl => sl.restarted
        freeBlocks := Config.blocks - ({ i with slots := i.slots.map fun sl => sl.restarted } : Ict).reserved.length
        storeQueue := [], commits := [], commitNext := 0 } : Ict).accounted := by
  have hsub : ((i.slots.map fun sl => sl.restarted).flatMap Slot.blocks).Sublist (i.slots.flatMap Slot.blocks) :=
    reserved_restart i.slots
  have hlen := hsub.length_le
  have hb : i.freeBlocks + (i.slots.flatMap Slot.blocks).length = Config.blocks := k.blocks
  refine ⟨?_, k.once.sublist hsub, fun x hx => k.exist x (hsub.subset hx), ?_, ?_, ?_, ?_, ?_, List.nodup_nil⟩
  · show Config.blocks - ((i.slots.map fun sl => sl.restarted).flatMap Slot.blocks).length +
      ((i.slots.map fun sl => sl.restarted).flatMap Slot.blocks).length = Config.blocks
    omega
  · show (i.slots.map _).length = _
    rw [List.length_map]; exact k.slots
  · intro x hx
    obtain ⟨y, hy, rfl⟩ := List.mem_map.mp hx
    have := k.holds y hy
    unfold Slot.restarted
    split
    · exact this
    · simp [Slot.holdOk]
  · intro a
    show (i.slots.map _).countP _ ≤ _
    rw [List.countP_map]
    refine le_trans (List.countP_mono_left fun x _ hx => ?_) (k.senders a)
    have hx' : Slot.ofSender a x.restarted = true := hx
    unfold Slot.restarted at hx'
    split at hx'
    · exact hx'
    · simp [Slot.ofSender, Slot.inUse] at hx'
  · exact k.pages.sublist (pagesHeld_restart i.slots)
  · intro n hn
    simp at hn

theorem keeps_restartTsq (h : Keeps s u) : Keeps s (restartTsq u) :=
  keeps_drive _ (keeps_modTsq (fun t => { tray := t.tray }) (fun _ => Nat.zero_le _) h)

theorem keeps_restartBct (h : Keeps s u) : Keeps s (restartBct u) :=
  keeps_modBct (fun _ => {}) (fun _ => bounded_restart) (fun _ _ _ hd => absurd hd (List.not_mem_nil)) h

theorem keeps_restartPgs (h : Keeps s u) : Keeps s (restartPgs u) :=
  keeps_modPgs _ (fun _ => accounted_restartPgs ..) (fun m => m) h (fun _ => rfl)

theorem keeps_restartTxe (h : Keeps s u) : Keeps s (restartTxe u) :=
  keeps_modFli _ (fun k => k) (keeps_modTxe _ h)

theorem keeps_restartBlocks (h : Keeps s u) : Keeps s (restartBlocks u) := by
  unfold restartBlocks
  split
  · exact keeps_restartTxe (keeps_restartPgs (keeps_restartBct (keeps_modDfm _ (keeps_restartTsq h))))
  · exact keeps_modIct _ (fun k => accounted_restartIct _ k) (fun m => m) h
      (fun _ => ⟨Nat.zero_le _, List.nodup_nil⟩)

theorem keeps_answer (x : Hdr) (c : ResultCode) (b : List Byte) (h : Keeps s u) : Keeps s (answer x c b u) :=
  keeps_hand _ _ _ h

theorem keeps_restartLine (x : Hdr) (h : Keeps s u) : Keeps s (restartLine x u) :=
  keeps_answer _ _ _ (keeps_modOru (fun o => { o with restartDue := none }) (fun _ => ⟨rfl, rfl, rfl⟩)
    (keeps_modFli (fun l => { l with
      txQueue := [], rxQueue := []
      presenceDue := if l.line = .joined then some (u.now + u.oru.settings.presenceMs) else l.presenceDue })
      (fun _ => ⟨Nat.zero_le _, Nat.zero_le _⟩) h))

theorem keeps_restartOrder (x : Hdr) (h : Keeps s u) : Keeps s (restartOrder x u) :=
  keeps_ite (keeps_restartLine _ (keeps_restartBlocks h))
    (keeps_modOru (fun o => { o with restartDue := some x }) (fun _ => ⟨rfl, rfl, rfl⟩) (keeps_restartBlocks h))

/-! ## Orders -/

theorem keeps_loadExemption (k e v m : Nat) (a b : ZoneSet) (h : Keeps s u) :
    Keeps s (loadExemption k e v m a b u).2 := by
  unfold loadExemption
  split
  · exact h
  · exact keeps_ite2 _ h (keeps_ite2 _ h (keeps_ite2 _ h (keeps_writeExemption _ _ _ h)))

theorem keeps_learnExemption (k e m : Nat) (a : ZoneSet) (h : Keeps s u) :
    Keeps s (learnExemption k e m a u).2 := by
  unfold learnExemption
  split
  · exact h
  · exact keeps_ite2 _ h (keeps_ite2 _ h (keeps_modDfm (fun d => { d with learn := some _ }) h))

theorem keeps_ackAttention (c : ClassSet) (h : Keeps s u) : Keeps s (ackAttention c u) :=
  keeps_modOru _ (fun _ => ⟨rfl, rfl, rfl⟩) h

theorem keeps_clearMarks (n : Nat) (h : Keeps s u) : Keeps s (clearMarks n u) := by
  unfold clearMarks
  refine keeps_modFli _ (fun k => k) h ?_
  simp only [List.length_append, List.length_take, List.length_map, List.length_drop]
  omega

theorem safe_runOrder (x : Hdr) (o : Order) : Safe u (runOrder x o u) := by
  have after : ∀ v c b, Safe u v → Safe u (answer x c b v) :=
    fun v c b h => h.trans (keeps_answer _ _ _ (Keeps.refl v)).safe
  have r := Keeps.refl u
  cases o with
  | openBatch b g a => exact after _ _ _ (safe_openBatch b g a)
  | endBatch b => exact after _ _ _ (keeps_endBatch b r).safe
  | abandonBatch b =>
    unfold runOrder
    dsimp only
    split
    · exact after _ _ _ (keeps_abandonBatch b r).safe
    · exact after _ _ _ (keeps_abandonAtGateway b r).safe
  | waiveHoles b ps => exact after _ _ _ (keeps_waiveHoles b ps r).safe
  | closeAgain b => exact after _ _ _ (keeps_closeAgain b r).safe
  | fill b => exact after _ _ _ (keeps_fillOrder b r).safe
  | fillCancel => exact after _ _ _ (keeps_fillCancel r).safe
  | loadExemption k e v m a b => exact after _ _ _ (keeps_loadExemption k e v m a b r).safe
  | learnExemption k e m a => exact after _ _ _ (keeps_learnExemption k e m a r).safe
  | query q b i => exact after _ _ _ (keeps_ite (keeps_clearMarks i r) r).safe
  | ackAttention c => exact after _ _ _ (keeps_ackAttention c r).safe
  | restart => exact (keeps_restartOrder x r).safe
  | undecodable => exact after _ _ _ r.safe

theorem safe_takeOrder (x : Hdr) (o : Order) : Safe u (takeOrder x o u) := by
  have h1 : Keeps u (u.modOru fun o => { o with ordersTaken := bump16 o.ordersTaken }) :=
    keeps_modOru _ (fun _ => ⟨rfl, rfl, rfl⟩) (Keeps.refl u)
  unfold takeOrder
  split
  · exact (keeps_modOru (fun o => { o with broadcastOrders := bump16 o.broadcastOrders })
      (fun _ => ⟨rfl, rfl, rfl⟩) (Keeps.refl u)).safe
  · dsimp only
    split
    · exact (keeps_answer _ _ _ (keeps_modOru (fun o => { o with refusedSource := bump16 o.refusedSource })
        (fun _ => ⟨rfl, rfl, rfl⟩) h1)).safe
    · split
      · exact (keeps_answer _ _ _ h1).safe
      · split
        · exact (keeps_answer _ _ _ h1).safe
        · exact h1.safe.trans (safe_runOrder x o)

/-! ## Delivery -/

theorem safe_take (f : Frame) (hx : f.hdr.src ≠ u.oru.address) : Safe u (take f u) := by
  have r := Keeps.refl u
  obtain ⟨x, p⟩ := f
  cases p with
  | order o => exact safe_takeOrder x o
  | orderAnswer c b => exact r.safe
  | attention c => exact r.safe
  | presence q => exact r.safe
  | batchOpen b g =>
    unfold take
    dsimp only
    split
    · exact safe_takeBatchOpenHeard x b g hx
    · exact (keeps_takeBatchOpen x b g r).safe
  | openAccept b => exact (keeps_takeOpenAccept x b r).safe
  | openRefuse b q => exact (keeps_takeOpenRefuse x b q r).safe
  | batchGone b => exact (keeps_takeBatchGone x b r).safe
  | abandon b => exact (keeps_takeAbandon x b r).safe
  | close b n ps => exact (keeps_takeClose x b n ps r).safe
  | committed b => exact (keeps_takeCommitted x b r).safe
  | incomplete b t e ps => exact (keeps_takeIncomplete x b t e ps r).safe
  | unknown b => exact (keeps_takeUnknown x b r).safe
  | holeClaim b w ps => exact (keeps_takeHoleClaim x b w ps r).safe
  | holeGrant b g gs => exact (keeps_takeHoleGrant x b g gs r).safe
  | holeNone b => exact (keeps_takeHoleNone x b r).safe
  | holeRefuse b q => exact (keeps_takeHoleRefusal x b q r).safe
  | filled b q => exact (keeps_ownerFilled b q r).safe
  | release b z ps => exact (keeps_ownerRelease x.src b z ps r).safe
  | pageOffer q c n m => exact (keeps_takePageOffer x q c n m r).safe
  | slotGrant n o => exact (keeps_takeSlotGrant x n o r).safe
  | slotWait => exact (keeps_takeSlotWait x r).safe
  | pageRefuse q => exact (keeps_takePageRefuse x q r).safe
  | pageStored q n => exact (keeps_takePageStored x q r).safe
  | pageFail q n => exact (keeps_takeSetback .fail x q n r).safe
  | pageFault q n => exact (keeps_takeSetback .fault x q n r).safe
  | pageData n o b => exact (keeps_takePageData x n o b r).safe

theorem safe_receive (f : Frame) (hx : f.hdr.src ≠ u.oru.address) : Safe u (receive f u) := by
  unfold receive
  split
  · exact (keeps_modFli (fun l => { l with rxOverflows := bump16 l.rxOverflows }) (fun k => k) (Keeps.refl u)).safe
  · rename_i hl
    split
    · exact safe_take f hx
    · refine (keeps_modFli _ (fun k => ⟨k.1, ?_⟩) (Keeps.refl u)).safe
      show (u.fli.rxQueue ++ [f]).length ≤ _
      rw [List.length_append, List.length_singleton]; omega

theorem safe_deliver (f : Frame) (hx : f.hdr.src ≠ u.oru.address) : Safe u (deliver f u) := by
  unfold deliver
  split
  · exact (keeps_modFli (fun l => { l with roleDiscards := bump16 l.roleDiscards }) (fun k => k) (Keeps.refl u)).safe
  · split
    · exact (Keeps.refl u).safe
    · exact safe_take f hx
    · exact safe_receive f hx

theorem keeps_malformedFrame (h : Keeps s u) : Keeps s (malformedFrame u) := keeps_modFli _ (fun k => k) h

theorem safe_accept (f : Frame) (hx : f.hdr.src ≠ u.oru.address) : Safe u (accept f u) := by
  have r := (Keeps.refl u).safe
  unfold accept
  split
  · exact r
  · split
    · exact (keeps_malformedFrame (Keeps.refl u)).safe
    · split
      · split
        · exact safe_deliver f hx
        · exact (keeps_modFli (fun l => { l with listeningDiscards := bump16 l.listeningDiscards }) (fun k => k)
            (Keeps.refl u)).safe
      · exact safe_deliver f hx

theorem safe_arrive (f : Frame) (hx : f.hdr.src ≠ u.oru.address) : Safe u (arrive f u) := by
  unfold arrive
  split
  · exact safe_accept f hx
  · exact (Keeps.refl u).safe

/-! ## Conflict, peers, hearing -/

theorem keeps_conflict (h : Keeps s u) : Keeps s (conflict u) := by
  unfold conflict
  split
  all_goals first
    | exact h
    | exact keeps_raise _ (keeps_modFli (fun l => { l with
        line := .conflict, txQueue := [], unsent := min 65535 (l.unsent + l.txQueue.length)
        presenceDue := none, joinDue := none }) (fun k => ⟨Nat.zero_le _, k.2⟩) h)

theorem keeps_peerUpdate (a : Nat) (q : Option PresenceRole) (h : Keeps s u) : Keeps s (peerUpdate a q u) := by
  have h1 := keeps_modFli (fun l => { l with peers := l.peers.modify a fun p => p.heard a u.now q })
    (fun k => k) h
  exact keeps_ite (keeps_offerTest h1) h1

theorem keeps_silenceOver (a : Nat) (h : Keeps s u) : Keeps s (silenceOver a u) := by
  unfold silenceOver
  split
  · exact h
  · refine keeps_ite ?_ h
    dsimp only
    have h1 := fun t : Nat => keeps_raise .peerSilent (keeps_modFli (fun l => { l with
      peers := l.peers.modify a fun p => { p with state := .silent, changed := true } }) (fun k => k)
      (keeps_advanceTo (t + silenceMs u.oru.settings) h))
    split
    · exact keeps_txeSilence _ (keeps_bctSilence _ (h1 _))
    · exact keeps_ictSilence _ (h1 _)
  · exact h

theorem safe_hearFrame (f : RawFrame) : Safe u (hearFrame f u) := by
  unfold hearFrame
  split
  · exact (keeps_malformedFrame (Keeps.refl u)).safe
  · split
    · exact (keeps_conflict (Keeps.refl u)).safe
    · rename_i hx
      have h1 := keeps_peerUpdate f.hdr.src (presenceRoleOf f) (Keeps.refl u)
      dsimp only
      split
      · split
        · refine h1.safe.trans (safe_accept _ ?_)
          rw [h1.address]; exact hx
        · exact (keeps_malformedFrame h1).safe
      · exact h1.safe

theorem safe_hear (q : Nat) (bytes : List Byte) : Safe u (hear q bytes u) := by
  unfold hear
  split
  · exact (Keeps.refl u).safe
  · split
    · exact (keeps_modFli (fun l => { l with
        turnHolder := turnAfter l q none, checkFailures := bump16 l.checkFailures }) (fun k => k) (Keeps.refl u)).safe
    · rename_i f _
      exact (keeps_modFli (fun l => { l with turnHolder := turnAfter l q (some f.hdr.src), heardAny := true })
        (fun k => k) (Keeps.refl u)).safe.trans (safe_hearFrame f)

theorem safe_hearPresence (x : Hdr) (q : PresenceRole) : Safe u (hearPresence x q u) := by
  unfold hearPresence
  split
  · exact (Keeps.refl u).safe
  · split
    · exact (keeps_conflict (Keeps.refl u)).safe
    · rename_i hx
      have h1 := fun k => keeps_peerUpdate x.src k (Keeps.refl u)
      refine (h1 _).safe.trans (safe_arrive _ ?_)
      rw [(h1 _).address]; exact hx

/-! ## Sending, joining, presence -/

theorem keeps_beginFrame (f : Frame) (o : Origin) (h : Keeps s u) : Keeps s (beginFrame f o u) :=
  keeps_drive _ (keeps_modFli _ (fun k => k) h)

theorem keeps_ownTurn (h : Keeps s u) : Keeps s (ownTurn u) := by
  unfold ownTurn
  refine keeps_ite ?_ h
  repeat' split
  all_goals first | exact h | exact keeps_beginFrame _ _ h

theorem keeps_sentEffect (f : Flight) (h : Keeps s u) : Keeps s (sentEffect f u) := by
  unfold sentEffect
  split
  · refine keeps_modFli _ (fun k => ⟨le_trans ?_ k.1, k.2⟩) h
    rw [List.length_drop]; exact Nat.sub_le _ _
  · exact keeps_burstSent _ _ (keeps_modFli _ (fun k => k) h)
  · exact keeps_modFli _ (fun k => k) h

theorem keeps_sent (h : Keeps s u) : Keeps s (sent u) := by
  unfold sent
  split
  · exact h
  · rename_i f _
    dsimp only
    have h1 := keeps_sentEffect f (keeps_modFli (fun l => { l with
      inFlight := none, framesSent := bump32 l.framesSent
      presenceDue := some (u.now + u.oru.settings.presenceMs) }) (fun k => k) h)
    split
    · exact keeps_restartLine _ h1
    · exact h1

theorem keeps_handPresence (h : Keeps s u) : Keeps s (handPresence u) := keeps_tell _ _ h

theorem keeps_startPresence (h : Keeps s u) : Keeps s (startPresence u) := keeps_modFli _ (fun k => k) h

theorem keeps_joinOver (h : Keeps s u) : Keeps s (joinOver u) := by
  unfold joinOver
  split
  · exact keeps_startPresence (keeps_handPresence (keeps_modFli (fun l => { l with
      line := .joined, joinDue := none, turnHolder := if l.heardAny then l.turnHolder else some 15 })
      (fun k => k) (keeps_advanceTo _ h)))
  · exact h

theorem keeps_presenceOver (h : Keeps s u) : Keeps s (presenceOver u) := by
  unfold presenceOver
  split
  · exact keeps_startPresence (keeps_ite (keeps_advanceTo _ h) (keeps_handPresence (keeps_advanceTo _ h)))
  · exact h

end Sys2Proof.Machine
end

