-- ==== Sys2Proof/Laws/Slots.lean ====
section
/-! SUPPORT. What freeing a set of slots does, once for the rules that free slots by a test: the ABANDON of a batch,
its commit, and the silence of a sender. -/

namespace Sys2Proof.Machine

set_option Elab.async false

/-- The first `k` slots freed where they meet the test. -/
theorem freeSlots_prefix (p : Slot → Bool) (s : State) : ∀ k, k ≤ s.ict.slots.length →
    freeSlots ((List.range k).filter fun n => (s.slot? n).any p) s = { s with ict := { s.ict with
      slots := (s.ict.slots.take k).map (fun sl => if p sl then sl.freed s.now else sl) ++ s.ict.slots.drop k
      freeBlocks := s.ict.freeBlocks + ((s.ict.slots.take k).map fun sl =>
        if p sl then (sl.hold.map (·.blocks.length)).getD 0 else 0).sum
      storeQueue := s.ict.storeQueue.filter fun n => !((s.ict.slots.take k)[n]?).any p } } := by
  intro k
  induction k with
  | zero => intro _; simp [freeSlots]
  | succ k ih =>
    intro hk
    have ih := ih (by omega)
    have hget : s.slot? k = some (s.ict.slots[k]'(by omega)) := by
      unfold State.slot?; exact List.getElem?_eq_getElem (by omega)
    have htake : s.ict.slots.take (k + 1) = s.ict.slots.take k ++ [s.ict.slots[k]'(by omega)] := by
      rw [List.take_succ_eq_append_getElem]
    have hdrop : s.ict.slots.drop k = s.ict.slots[k]'(by omega) :: s.ict.slots.drop (k+1) := List.drop_eq_getElem_cons (by omega)
    have hq : ∀ n, (((s.ict.slots.take k) ++ [s.ict.slots[k]'(by omega)])[n]?).any p =
        (((s.ict.slots.take k)[n]?).any p || (n == k && p (s.ict.slots[k]'(by omega)))) := by
      intro n
      have hl : (s.ict.slots.take k).length = k := by rw [List.length_take]; omega
      rw [List.getElem?_append]
      by_cases h1 : n < k
      · rw [if_pos (by omega)]
        have : (n == k) = false := by simp; omega
        simp [this]
      · rw [if_neg (by omega), List.getElem?_eq_none (by omega : (s.ict.slots.take k).length ≤ n)]
        by_cases h2 : n = k
        · subst h2; simp [hl]
        · have : (n == k) = false := by simpa using h2
          rw [List.getElem?_eq_none (by simp; omega)]
          simp [this]
    rw [List.range_succ, List.filter_append]
    unfold freeSlots at ih ⊢
    rw [List.foldl_append, ih]
    by_cases hp : p (s.ict.slots[k]'(by omega)) = true
    · rw [show List.filter (fun n => (s.slot? n).any p) [k] = [k] by simp [hget, hp]]
      simp only [List.foldl_cons, List.foldl_nil]
      unfold freeSlot
      have hl : ((s.ict.slots.take k).map (fun sl => if p sl then sl.freed s.now else sl)).length = k := by
        rw [List.length_map, List.length_take]; omega
      rw [show State.slot? { s with ict := { s.ict with
      slots := (s.ict.slots.take k).map (fun sl => if p sl then sl.freed s.now else sl) ++ s.ict.slots.drop k
      freeBlocks := s.ict.freeBlocks + ((s.ict.slots.take k).map fun sl =>
        if p sl then (sl.hold.map (·.blocks.length)).getD 0 else 0).sum
      storeQueue := s.ict.storeQueue.filter fun n => !((s.ict.slots.take k)[n]?).any p } } k = some (s.ict.slots[k]'(by omega)) by
          unfold State.slot?
          rw [List.getElem?_append_right (by omega), hl, hdrop]; simp]
      simp only [State.modIct]
      rw [htake, List.map_append, List.map_append, List.sum_append]
      simp only [List.map_cons, List.map_nil, hp, if_true, List.sum_cons, List.sum_nil, hq, List.filter_filter]
      have hset : ((s.ict.slots.take k).map (fun sl => if p sl then sl.freed s.now else sl) ++ s.ict.slots.drop k).set k
            ((s.ict.slots[k]'(by omega)).freed s.now) =
          (s.ict.slots.take k).map (fun sl => if p sl then sl.freed s.now else sl) ++
            [(s.ict.slots[k]'(by omega)).freed s.now] ++ s.ict.slots.drop (k+1) := by
        rw [List.set_append_right _ _ (by omega), hl, hdrop, Nat.sub_self, List.set_cons_zero, List.append_assoc]
        rfl
      rw [hset]
      have hf : ∀ q : List Nat, List.filter (fun a => (a != k) && !((s.ict.slots.take k)[a]?).any p) q =
          List.filter (fun n => !(((s.ict.slots.take k)[n]?).any p || (n == k && true))) q := by
        intro q
        congr 1
        funext n
        unfold bne
        generalize ((s.ict.slots.take k)[n]?).any p = x
        generalize (n == k) = y
        cases x <;> cases y <;> rfl
      rw [hf]
      simp [Nat.add_assoc]
    · rw [show List.filter (fun n => (s.slot? n).any p) [k] = [] by simp [hget, hp]]
      simp only [List.foldl_nil]
      have hp' : p (s.ict.slots[k]'(by omega)) = false := by simpa using hp
      rw [htake, List.map_append, List.map_append, List.sum_append]
      simp only [List.map_cons, List.map_nil, hp', List.sum_cons, List.sum_nil, hq, hdrop]
      simp

/-- Every slot that meets the test is freed, its blocks return, and it leaves the store queue. -/
theorem freeSlots_slotsWhere (p : Slot → Bool) (s : State) :
    freeSlots (s.slotsWhere p) s = { s with ict := { s.ict with
      slots := s.ict.slots.map fun sl => if p sl then sl.freed s.now else sl
      freeBlocks := s.ict.freeBlocks + (s.ict.slots.map fun sl =>
        if p sl then (sl.hold.map (·.blocks.length)).getD 0 else 0).sum
      storeQueue := s.ict.storeQueue.filter fun n => !(s.ict.slots[n]?).any p } } := by
  have := freeSlots_prefix p s s.ict.slots.length (Nat.le_refl _)
  unfold State.slotsWhere
  rw [this]
  simp

end Sys2Proof.Machine
end

