-- ==== Sys2Proof/Laws/Taking.lean ====
section
/-! SUPPORT. The way of a frame command to its block: a station that listens hands a frame for it to the block
that owns its kind, and an order that passes ORU's checks to its owner. -/

namespace Sys2Proof.Machine

set_option Elab.async false

variable {s : State}

theorem running_next (f : State → State) (hp : s.power = .running) : running f s = .next (f s) := by
  simp [running, hp]

theorem scanner_next (f : State → State) (hs : s.scans) : scanner f s = .next (f s) := by
  simp [scanner, running, hs.1, hs.2]

theorem gateway_next (f : State → State) (hs : s.archives) : gateway f s = .next (f s) := by
  simp [gateway, running, hs.1, hs.2]

theorem accept_deliver (f : Frame) (hl : s.listens) (hr : f.payload.inRange f.hdr.src = true) :
    accept f s = deliver f s := by
  unfold accept
  rcases hl.2.1 with h | h <;> simp [h, hr]

/-- A frame of an owned kind whose fields are in range reaches its block. -/
theorem frameIn_take (h : Hdr) (p : Payload) (hl : s.listens) (hh : s.reached h) (hr : p.inRange h.src = true)
    (ho : p.owned s.oru.role = true) (hc : canTake ⟨h, p⟩ s = true) :
    frameIn h p s = .next (take ⟨h, p⟩ s) := by
  unfold frameIn
  rw [running_next _ hl.1, if_neg hh.2]
  unfold arrive
  rw [if_pos hh.1, accept_deliver _ hl hr]
  unfold deliver
  simp only [ho, not_true_eq_false, if_false]
  have hq : ¬ Config.queueFrames ≤ s.fli.rxQueue.length := by rw [hl.2.2]; decide
  have hrec : receive ⟨h, p⟩ s = take ⟨h, p⟩ s := by
    unfold receive
    rw [if_neg hq, if_pos ⟨hl.2.2, hc⟩]
  cases p <;> first | exact congrArg _ hrec | rfl

/-- A directory frame reaches a scanner that listens before it joins (R100). -/
theorem frameIn_directory (h : Hdr) (p : Payload) (hs : s.scans)
    (hl : s.power = .running ∧ s.fli.line = .listening ∧ s.fli.rxQueue = []) (hh : s.reached h)
    (hr : p.inRange h.src = true) (hd : directoryFrame p = true) :
    frameIn h p s = .next (take ⟨h, p⟩ s) := by
  unfold frameIn
  rw [running_next _ hl.1, if_neg hh.2]
  unfold arrive accept
  rw [if_pos hh.1]
  simp only [hl.2.1, hr, hs.2, hd]
  rw [if_neg (by decide), if_neg (by decide), if_pos ⟨trivial, trivial⟩]
  cases p <;> cases hd <;>
    simp [deliver, receive, Payload.owned, hl.2.2, canTake, hs.2, Config.queueFrames]

/-- A frame that carries no order needs no more than a station that listens. -/
theorem frameIn_block (h : Hdr) (p : Payload) (hl : s.listens) (hh : s.reached h) (hr : p.inRange h.src = true)
    (ho : p.owned s.oru.role = true) (hn : ∀ o, p ≠ .order o) :
    frameIn h p s = .next (take ⟨h, p⟩ s) :=
  frameIn_take h p hl hh hr ho (by cases p <;> first | rfl | exact absurd rfl (hn _))

theorem frameIn_order (h : Hdr) (o : Order) (ht : s.takesOrder h) :
    frameIn h (.order o) s = .next (takeOrder h o s) :=
  frameIn_take h (.order o) ht.1 ⟨Or.inl ht.2.2.1, ht.2.2.2.2⟩ rfl rfl (by simp [canTake, ht.2.1])

/-- An order from the console that passes ORU's checks reaches its owner, counted. -/
theorem frameIn_runOrder (h : Hdr) (o : Order) (ht : s.consoleOrder h) (ha : o.argsOk = true)
    (ho : o.owned s.oru.role = true) : frameIn h (.order o) s = .next (runOrder h o s.orderCounted) := by
  rw [frameIn_order h o ht.1]
  unfold takeOrder
  rw [if_neg ht.1.2.2.2.1]
  have : (s.modOru fun u => { u with ordersTaken := bump16 u.ordersTaken }) = s.orderCounted := rfl
  simp only [this, ht.2, ne_eq, not_true_eq_false, if_false, ha]
  have ho' : o.owned s.orderCounted.oru.role = true := ho
  simp [ho']

@[simp] theorem orderCounted_role : s.orderCounted.oru.role = s.oru.role := rfl
@[simp] theorem orderCounted_address : s.orderCounted.oru.address = s.oru.address := rfl
@[simp] theorem orderCounted_settings : s.orderCounted.oru.settings = s.oru.settings := rfl
@[simp] theorem orderCounted_now : s.orderCounted.now = s.now := rfl
@[simp] theorem orderCounted_fli : s.orderCounted.fli = s.fli := rfl
@[simp] theorem orderCounted_tsq : s.orderCounted.tsq = s.tsq := rfl
@[simp] theorem orderCounted_dfm : s.orderCounted.dfm = s.dfm := rfl
@[simp] theorem orderCounted_bct : s.orderCounted.bct = s.bct := rfl
@[simp] theorem orderCounted_pgs : s.orderCounted.pgs = s.pgs := rfl
@[simp] theorem orderCounted_txe : s.orderCounted.txe = s.txe := rfl
@[simp] theorem orderCounted_ict : s.orderCounted.ict = s.ict := rfl
@[simp] theorem orderCounted_findBatch (b : Nat) : s.orderCounted.findBatch b = s.findBatch b := rfl
@[simp] theorem orderCounted_findDir (b : Nat) : s.orderCounted.findDir b = s.findDir b := rfl
@[simp] theorem orderCounted_findCommit (b : Nat) : s.orderCounted.findCommit b = s.findCommit b := rfl

end Sys2Proof.Machine
end

