-- ==== Sys2Proof/Tests/Slice0.lean ====
section
/-! SUPPORT. Checks of our own work on fixed values: refused ill-formed commands, check values of the two
checks, one step of each command, and for the statements states that meet their premises. -/

namespace Sys2Proof.Tests

set_option Elab.async false

open Sys2Proof Sys2Proof.Machine

/-! ## Small states -/

/-- A station at address 1, running and JOINED. -/
def up (role : Role) : State := { power := .running, oru := { address := 1, role }, fli := { line := .joined } }
def sc : State := up .scanner
def gw : State := up .gateway

/-- The state after a command. -/
def after (c : Instr) (s : State) : State :=
  match exec c s with
  | .next t => t
  | _ => s

/-- A frame from the console, and one from station 2, for station 1. -/
def con : Hdr := ⟨1, 0, 7⟩
def two : Hdr := ⟨1, 2, 0⟩

def attrs : AttrSet := ⟨.simplex, .divert, 0, some 297, 8⟩
def arg : AttrArg := ⟨0, 0, 0, some 297, some 8⟩

/-- Batch 5 of this station in a state, with gateway 2. -/
def rec5 (st : BatchState) : BatchRec :=
  { number := 5, gateway := 2, state := st, attrs, openAsk := some 0, closeAsk := some 0 }
def owner (r : BatchRec) : State :=
  { sc with bct := { batches := [r], directory := [⟨5, 1, 2, 0⟩] }, pgs := { queues := [{ batch := 5 }] } }
def hole (p : Nat) (st : HoleState) (a : Option Nat) : Hole :=
  { position := p, reason := .pulled, state := st, claimant := a, snap := attrs }
def holed : BatchRec := { rec5 .reconciling with scanned := 3, holes := [hole 1 .vacant none, hole 2 .claimed (some 2)] }

/-- Sheet 0 of batch 5, and the track that holds it. -/
def sheet : TrackEntry := { tag := 0, binding := .batch 5, snap := attrs, pickedAt := 0 }
def entered : TrackEntry := { sheet with edges := { entry := { lead := some 0 } } }
def moved (t : Transport) (es : List TrackEntry) : State :=
  { owner (rec5 .active) with
      tsq := { transport := t, feedMode := some .batch, fedBatch := some 5, track := es, tagCounter := 1 } }
def fed (es : List TrackEntry) : State := moved .feeding es
def held (es : List TrackEntry) : State :=
  { moved .held es with tsq := { (moved .held es).tsq with holdReason := some .jam } }

/-- A fill of batch 9 of station 3 with a claim of tag 0 open. -/
def job : FillJob := { batch := 9, owner := 3, gateway := 2, atHome := false, claimTag := some 0, claims := 1 }
def filling : State := { sc with bct := { fill := some job } }
def three : Hdr := ⟨1, 3, 0⟩

/-- A FILL feed with one position UNUSED after one that a sheet has reserved, and the sheet that has. -/
def grant (p : Nat) (st : GrantState) : Grant := { position := p, snap := attrs, state := st, required := 1, stored := 0 }
def fillFeed (es : List TrackEntry) : State :=
  { sc with
    tsq := { transport := .feeding, feedMode := some .fill, track := es, tagCounter := 7 }
    bct := { fill := some { job with granted := [grant 1 .unused, grant 2 .unused] } } }
def shown : TrackEntry :=
  { sheet with binding := .fill (some 1), edges := { entry := { lead := some 0, trail := some 9 } } }
/-- A LEARN feed in a transport state, its one sheet, and the pending learn. -/
def learnt : TrackEntry := { sheet with binding := .learn }
def learning (t : Transport) (phase : LearnPhase) (es : List TrackEntry) : State :=
  { sc with
    tsq := { transport := t, feedMode := some .learn, track := es, tagCounter := 1 }
    dfm := { learn := some ⟨1, 5, 1, .strict, phase⟩ } }

/-- A page of batch 5: its identity and its record. -/
def page : PageId := ⟨5, 1, .front⟩
def rec0 (st : PageState) : PageRec :=
  { id := 0, state := st, batch := some 5, position := some 1, side := .front, pagesOfSheet := some 1, size := 700
    blocks := [0], tag := 0 }
def paged (st : PageState) (x : Txe) : State :=
  { owner (rec5 .active) with
      pgs := { recs := [rec0 st], recPool := (List.range 512).drop 1, freeRecs := 511, freeBlocks := 16383
               queues := [{ batch := 5 }] }
      txe := x }
def offered : Txe :=
  { chanA := { staged := { phase := .offered, page := some 0, gateway := some 2, askTag := some 0, askDue := 200 } } }
def stream (remaining : Nat) : Txe :=
  { chanA := { active := { phase := .streaming, page := some 0, gateway := some 2, slot := some 3, start := 512
                           next := 512, remaining } } }
def sentOut : Txe := { outstanding := [⟨0, 2, 3, 30000⟩] }

/-- Page 0 READY at the head of its queue, its gateway PRESENT. -/
def ready : State :=
  { paged .ready {} with
    pgs := { (paged .ready {}).pgs with queues := [{ batch := 4 }, { batch := 5, pages := [0] }] }
    fli := { line := .joined, peers := (List.replicate 16 {}).set 2 { state := .present } } }

/-- A gateway with batch 5 of station 2 OPEN, and slot 0 with a page of it. -/
def hold0 (expected : Nat) : SlotHold :=
  { sender := 2, page, pagesOfSheet := 1, mark := false, size := 700, expected, blocks := [0] }
def keeper (c : CommitRec) : State := { gw with ict := { commits := [c] } }
def open5 : CommitRec := { batch := 5, owner := 2 }
def taking (st : SlotState) (expected : Nat) : State :=
  { keeper open5 with
      ict := { slots := { state := st, hold := some (hold0 expected), idleStop := none } :: List.replicate 47 {}
               freeBlocks := 16383, commits := [open5], portBusy := st = .storing } }

/-! ## Ill-formed commands are refused -/

theorem test_wf_start : (Instr.startUp 16 .scanner).wf = false ∧ (Instr.startUp 15 .gateway).wf = true ∧
    (Instr.settingsLoad (some (List.replicate 232 0))).wf = false := by decide +kernel

theorem test_wf_header : (Instr.endBatch ⟨256, 0, 0⟩ 5).wf = false ∧ (Instr.endBatch ⟨1, 256, 0⟩ 5).wf = false ∧
    (Instr.endBatch ⟨1, 0, 256⟩ 5).wf = false ∧ (Instr.endBatch con 5).wf = true := by decide

theorem test_wf_order_fields : [
    Instr.openBatch con 16777216 2 arg, .openBatch con 5 256 arg, .openBatch con 5 2 { arg with duplex := 256 },
    .openBatch con 5 2 { arg with policy := 256 }, .openBatch con 5 2 { arg with bank := 256 },
    .openBatch con 5 2 { arg with nominal := some 0 }, .openBatch con 5 2 { arg with nominal := some 65536 },
    .openBatch con 5 2 { arg with tolerance := some 255 }, .endBatch con 16777216, .abandonBatch con 16777216,
    .waiveHoles con 16777216 [1], .waiveHoles con 5 (List.replicate 256 1), .waiveHoles con 5 [65536],
    .closeAgain con 16777216, .fill con 16777216, .loadExemption con 256 0 1 0 1 1, .loadExemption con 0 256 1 0 1 1,
    .loadExemption con 0 0 256 0 1 1, .loadExemption con 0 0 1 256 1 1, .learnExemption con 256 0 0 1,
    .learnExemption con 0 256 0 1, .learnExemption con 0 0 256 1, .queryStation con 65536, .queryBatch con 16777216 0,
    .queryBatch con 5 65536, .queryHoles con 16777216 0, .queryHoles con 5 65536, .queryFill con 65536,
    .queryChannels con 65536, .queryPeers con 65536, .querySlots con 65536, .queryCommit con 16777216 0,
    .queryCommit con 5 65536, .queryCounters con 65536, .queryAttention con 65536].all (!·.wf) = true := by
  decide +kernel

theorem test_wf_header_of_bare_orders : [Instr.fillCancel ⟨256, 0, 0⟩, .ackAttention ⟨256, 0, 0⟩ 1, .restart ⟨256, 0, 0⟩,
    .slotWait ⟨256, 0, 0⟩, .pageRefuse ⟨256, 0, 0⟩ .tooLarge, .presence ⟨256, 0, 0⟩ .scanner].all (!·.wf) = true := by
  decide

theorem test_wf_port_events : [Instr.leadingEdge 8 .entry .main, .trailingEdge 8 .entry .main none,
    .trailingEdge 0 .entry .main (some 8192), .zoneReading 8 true, .sideBegin 8 .front, .dataEvent 8 .front [1],
    .dataEvent 0 .front [], .sideEnd 8 .front, .captureReport 8 true true .none,
    .captureReport 0 true true (.header { arg with tolerance := some 255 }),
    .captureReport 0 true true (.sectionSheet { arg with nominal := some 0 }), .pickWindowExpiry 8,
    .edgeWindowExpiry 8 .gate .leading, .frameHeard 0 []].all (!·.wf) = true := by decide

theorem test_wf_data_too_long : (Instr.dataEvent 0 .front (List.replicate 16385 0)).wf = false := by
  decide +kernel

theorem test_wf_frames : [Instr.batchOpenHeard two 16777216 2, .batchOpenHeard two 5 256, .batchOpen two 16777216 1,
    .batchOpen two 5 256, .openAccept two 16777216, .openRefuse two 16777216 .duplicate, .batchGone two 16777216,
    .abandon two 16777216, .close two 16777216 1 [], .close two 5 65536 [], .close two 5 1 [65536],
    .committed two 16777216, .incomplete two 16777216 1 0 [1], .incomplete two 5 65536 0 [1],
    .incomplete two 5 1 65536 [1], .incomplete two 5 1 0 [65536], .unknown two 16777216, .holeClaim two 16777216 1 [],
    .holeClaim two 5 256 [], .holeClaim two 5 1 [65536], .holeGrant two 16777216 2 [(1, attrs)],
    .holeGrant two 5 256 [(1, attrs)], .holeGrant two 5 2 [(65536, attrs)],
    .holeGrant two 5 2 [(1, { attrs with bank := 256 })], .holeGrant two 5 2 [(1, { attrs with nominal := some 0 })],
    .holeGrant two 5 2 [(1, { attrs with tolerance := 256 })], .holeNone two 16777216,
    .holeRefuse two 16777216 .badState, .filled two 16777216 1, .filled two 5 65536, .release two 16777216 true [],
    .release two 5 true [65536], .pageOffer two ⟨16777216, 1, .front⟩ 1 1 false,
    .pageOffer two ⟨5, 65536, .front⟩ 1 1 false, .pageOffer two page 256 1 false, .pageOffer two page 1 4294967296 false,
    .pageData two 256 0 [1], .pageData two 0 4294967296 [1], .slotGrant two 256 0, .slotGrant two 0 65536,
    .pageStored two ⟨16777216, 1, .front⟩ 0, .pageStored two page 256, .pageFail two ⟨5, 65536, .front⟩ 0,
    .pageFail two page 256, .pageFault two ⟨16777216, 1, .front⟩ 0, .pageFault two page 256].all (!·.wf) = true := by
  decide

theorem test_wf_burst_too_long : (Instr.pageData two 0 0 (List.replicate 4097 0)).wf = false := by
  decide +kernel

theorem test_wf_timers : [Instr.openAnswerTimeout 16777216, .closeAnswerTimeout 16777216,
    .storeTimerExpiry ⟨16777216, 1, .front⟩, .grantLifetimeExpiry 48, .silenceLimitExpiry 16].all (!·.wf) = true := by
  decide

/-! ## The table gives no bits; the two checks -/

theorem test_no_word : decodeTableWord 8 1 = none := by decide

/-- The bytes "123456789". -/
def nine : List Byte := [0x31, 0x32, 0x33, 0x34, 0x35, 0x36, 0x37, 0x38, 0x39]

theorem test_frame_check : frameCheck nine = 0xFC891918#32 := by decide +kernel
theorem test_image_check : imageCheck nine = 0x29B1#16 := by decide +kernel

/-- A BATCH OPEN as it leaves: destination 255, source 1, kind 5, tag 0, length 4, number 5, gateway 2. -/
theorem test_frame_bytes : (Frame.bytes ⟨⟨255, 1, 0⟩, .batchOpen 5 2⟩).take 10 = [255, 1, 5, 0, 0, 4, 0, 0, 5, 2] := by
  decide +kernel

/-- The bursts of a page of 10000 bytes from offset 512. -/
theorem test_burst_lengths : burstLength 512 10000 = 3584 ∧ burstLength 4096 6416 = 4096 ∧
    burstLength 8192 2320 = 2320 := by decide

/-! ## One step of each command -/

theorem test_start_up : (after (.startUp 9 .gateway) State.reset).oru.address = 9 ∧
    (after (.startUp 9 .gateway) State.reset).oru.role = .gateway ∧
    (after (.startUp 9 .gateway) State.reset).power = .loading := by decide +kernel

theorem test_settings_load : (after (.settingsLoad none) (after (.startUp 9 .scanner) State.reset)).power = .running ∧
    (after (.settingsLoad none) (after (.startUp 9 .scanner) State.reset)).fli.line = .listening ∧
    (after (.settingsLoad none) (after (.startUp 9 .scanner) State.reset)).oru.attention = Attn.configDefault.bit := by
  decide +kernel

/-- The head of an image whose fields lie at the ends of their ranges; 216 zeros and the check follow. -/
def endsHead : List Byte := [2, 3, 3, 232, 0, 10, 120, 1, 0, 2, 0, 8, 50]
def endsBody : List Byte := endsHead ++ List.replicate 216 0
def endsImage : List Byte := endsBody ++ [28, 12]

theorem crc_append {w : Nat} (poly r : BitVec w) (a b : List Byte) : crc poly r (a ++ b) = crc poly (crc poly r a) b := by
  induction a generalizing r with
  | nil => rfl
  | cons x a ih => exact ih _

theorem crc_zeros {w : Nat} (poly r : BitVec w) (m n : Nat) :
    crc poly r (List.replicate (m + n) 0) = crc poly (crc poly r (List.replicate m 0)) (List.replicate n 0) := by
  rw [← List.replicate_append_replicate, crc_append]

theorem test_crc_head : crc 0x1021#16 0xFFFF#16 endsHead = 0x8B07#16 := by decide +kernel
theorem test_crc_zeros1 : crc 0x1021#16 0x8B07#16 (List.replicate 24 0) = 0xF8F6#16 := by decide +kernel
theorem test_crc_zeros2 : crc 0x1021#16 0xF8F6#16 (List.replicate 24 0) = 0x17B3#16 := by decide +kernel
theorem test_crc_zeros3 : crc 0x1021#16 0x17B3#16 (List.replicate 24 0) = 0xA94C#16 := by decide +kernel
theorem test_crc_zeros4 : crc 0x1021#16 0xA94C#16 (List.replicate 24 0) = 0x60A8#16 := by decide +kernel
theorem test_crc_zeros5 : crc 0x1021#16 0x60A8#16 (List.replicate 24 0) = 0x7A8D#16 := by decide +kernel
theorem test_crc_zeros6 : crc 0x1021#16 0x7A8D#16 (List.replicate 24 0) = 0x7D0B#16 := by decide +kernel
theorem test_crc_zeros7 : crc 0x1021#16 0x7D0B#16 (List.replicate 24 0) = 0x2588#16 := by decide +kernel
theorem test_crc_zeros8 : crc 0x1021#16 0x2588#16 (List.replicate 24 0) = 0xE003#16 := by decide +kernel
theorem test_crc_zeros9 : crc 0x1021#16 0xE003#16 (List.replicate 24 0) = 0x1C0C#16 := by decide +kernel

theorem test_ends_check : imageCheck endsBody = 0x1C0C#16 := by
  unfold imageCheck endsBody
  rw [crc_append, test_crc_head, crc_zeros _ _ 24 192, test_crc_zeros1, crc_zeros _ _ 24 168, test_crc_zeros2,
    crc_zeros _ _ 24 144, test_crc_zeros3, crc_zeros _ _ 24 120, test_crc_zeros4, crc_zeros _ _ 24 96, test_crc_zeros5,
    crc_zeros _ _ 24 72, test_crc_zeros6, crc_zeros _ _ 24 48, test_crc_zeros7, crc_zeros _ _ 24 24, test_crc_zeros8,
    test_crc_zeros9]

theorem test_ends_image_ok : imageOk endsImage = true := by
  have ht : endsImage.take 229 = endsBody := by decide +kernel
  have hn : imageField endsImage 229 2 = 0x1C0C := by decide +kernel
  have hl : Config.imageBytes ≤ endsImage.length := by decide +kernel
  simp [imageOk, ht, hn, hl, test_ends_check]

theorem test_settings_image_at_the_ends :
    settingsOf endsImage = ⟨1000, 16, 1000, 10, 120, 256, 512, 8, 50, .image⟩ := by decide +kernel

theorem test_open_batch : ((after (.openBatch con 16777215 15 arg) sc).bct.batches.map (·.state)) = [.opening] ∧
    (after (.openBatch con 16777215 15 arg) sc).fli.txQueue.map (·.payload) =
      [.batchOpen 16777215 15, .orderAnswer 0 []] := by decide +kernel
theorem test_open_batch_at_the_ends : [(0, 2), (16777216, 2), (5, 0), (5, 16), (5, 1)].all (fun x =>
    (after (.openBatch con x.1 x.2 arg) sc).fli.txQueue.map (·.payload) == [.orderAnswer 10 []]) = true := by
  decide +kernel
theorem test_end_batch : (after (.endBatch con 5) (owner (rec5 .active))).bct.batches.map (·.state) = [.closing] := by
  decide +kernel
theorem test_abandon_batch : (after (.abandonBatch con 5) (fed [sheet])).bct.batches.map (·.state) = [.abandoned] ∧
    (after (.abandonBatch con 5) (fed [sheet])).tsq.transport = .draining := by decide +kernel
theorem test_waive_holes : (after (.waiveHoles con 5 [1]) (owner holed)).bct.batches.map (·.holes.map (·.state)) =
    [[.waived, .claimed]] := by decide +kernel
theorem test_close_again : (after (.closeAgain con 5) (owner (rec5 .disputed))).bct.batches.map (·.state) =
    [.closing] := by decide +kernel
theorem test_fill : (after (.fill con 9) { sc with bct := { directory := [⟨9, 3, 2, 0⟩] } }).fli.txQueue =
    [⟨⟨3, 1, 0⟩, .holeClaim 9 8 []⟩, ⟨⟨0, 1, 7⟩, .orderAnswer 0 []⟩] := by decide +kernel
theorem test_fill_cancel : (after (.fillCancel con) filling).bct.fill = none := by decide +kernel
theorem test_load_exemption : ((after (.loadExemption con 1 5 1 1 1 1) sc).dfm.exemptions.getD 11 {}).valid = true ∧
    (after (.loadExemption con 1 6 1 1 1 1) sc).dfm = sc.dfm ∧ (after (.loadExemption con 2 5 1 1 1 1) sc).dfm = sc.dfm := by
  decide +kernel
theorem test_learn_exemption : (after (.learnExemption con 1 5 1 1) sc).dfm.learn =
    some ⟨1, 5, 1, .loose, .waiting⟩ := by decide +kernel
theorem test_query_station : (answerQuery .station 0 16 sc).1 = .accepted ∧
    (answerQuery .station 0 18 sc).1 = .badArgument := by decide +kernel
theorem test_queries : [Instr.queryStation con 0, .queryFill con 0, .queryChannels con 0, .queryPeers con 0,
    .queryCounters con 0, .queryAttention con 0, .queryBatch con 5 0, .queryHoles con 5 0].all (fun c =>
      (after c (owner holed)).fli.txQueue.any (fun f =>
        match f.payload with | .orderAnswer 0 _ => true | _ => false)) = true := by decide +kernel
theorem test_answer_within_128_bytes : (queryRun 0 16 (List.replicate 16 (List.replicate 8 0))).length = 13 ∧
    (queryRun 0 8 (List.replicate 8 (List.replicate 8 0))).length = 8 := by decide +kernel
theorem test_gateway_queries : [Instr.querySlots con 0, .queryCommit con 5 0].all (fun c =>
      (after c (keeper open5)).fli.txQueue.any (fun f =>
        match f.payload with | .orderAnswer 0 _ => true | _ => false)) = true := by decide +kernel
theorem test_ack_attention : (after (.ackAttention con 1#32) { sc with oru := { sc.oru with attention := 3#32 } }).fli.txQueue =
    [⟨⟨0, 1, 7⟩, .orderAnswer 0 [0, 0, 0, 2]⟩] := by decide +kernel
theorem test_restart : (after (.restart con) (fed [sheet])).tsq.track = [] ∧
    (after (.restart con) (fed [sheet])).portLog = [.diverter .main] := by decide +kernel
theorem test_start_key : (after .startKey (owner (rec5 .active))).tsq.transport = .armed := by decide +kernel
theorem test_stop_key : (after .stopKey (fed [sheet])).tsq.transport = .draining ∧
    (after .stopKey (fed [])).tsq.transport = .idle := by decide +kernel
theorem test_clear_key : (after .clearKey (held [{ sheet with position := some 1 }])).bct.batches.map
    (·.holes.map (·.position)) = [[1]] := by decide +kernel
theorem test_tray_ready : (after .trayReady (moved .armed [])).tsq.transport = .feeding ∧
    (after .trayReady (moved .armed [])).portLog = [.pick 1] := by decide +kernel
theorem test_tray_empty : (after .trayEmpty (fed [])).tsq.tray = .empty := by decide +kernel
theorem test_leading_edge : (after (.leadingEdge 0 .entry .main) (fed [sheet])).tsq.track = [entered] ∧
    (after (.leadingEdge 0 .exit .main) (fed [sheet])).tsq.holdReason = some .jam := by decide +kernel
theorem test_trailing_edge : (after (.trailingEdge 0 .entry .main (some 305)) (fed [entered])).tsq.track.map (·.verdict) =
    [some .clean, none] ∧ ((after (.trailingEdge 0 .entry .main (some 306)) (fed [entered])).tsq.track.map (·.verdict)) =
    [some .length, none] := by decide +kernel
theorem test_zone_reading : (after (.zoneReading 0 true)
      (fed [{ sheet with profile := List.replicate 63 false }])).tsq.track.map (·.profile.length) = [64] ∧
    (after (.zoneReading 0 true)
      (fed [{ sheet with profile := List.replicate 64 false }])).tsq.track.map (·.profile.length) = [64] := by
  decide +kernel
theorem test_side_begin : (after (.sideBegin 0 .front) (fed [sheet])).tsq.track.map (·.pages) = [[0]] := by
  decide +kernel
/-- Sheet 0 with a front record of a size. -/
def capturing (size : Nat) : State :=
  let s := fed [{ sheet with pages := [0] }]
  { s with pgs := { s.pgs with
      recs := [{ rec0 .filling with size, blocks := List.range ((size + 16383) / 16384), position := none }]
      recPool := (List.range 512).drop 1, freeRecs := 511 } }
theorem test_data_event : (after (.dataEvent 0 .front [7, 8]) (capturing 0)).pgs.mem = [(0, 7), (1, 8)] := by
  decide +kernel
theorem test_side_end : (after (.sideEnd 0 .front) (capturing 2)).pgs.recs.map (·.state) = [.heldForSheet] ∧
    (after (.sideEnd 0 .front) (capturing 0)).pgs.recs = [] := by decide +kernel
theorem test_capture_report : (after (.captureReport 0 false false .none) (fed [sheet])).tsq.holdReason =
      some .captureMismatch ∧
    (after (.captureReport 0 false false .stop) (fed [sheet])).tsq.transport = .draining := by decide +kernel
theorem test_pick_window : (after (.pickWindowExpiry 0) (fed [sheet])).tsq.track = [] ∧
    (after (.pickWindowExpiry 0) (fed [sheet])).now = 300 := by decide +kernel
theorem test_edge_window : (after (.edgeWindowExpiry 0 .entry .trailing) (fed [entered])).tsq.holdReason = some .jam ∧
    (after (.edgeWindowExpiry 0 .entry .trailing) (fed [entered])).now = 4000 := by decide +kernel
/-- A handshake that runs for sheet 0. -/
def turning (sampling : Bool) : State :=
  { fed [sheet] with tsq := { (fed [sheet]).tsq with handshake := some ⟨0, sampling, 0⟩ } }
theorem test_settle_time : (after .diverterSettleTime (turning false)).tsq.handshake = some ⟨0, true, 0⟩ ∧
    (after .diverterSettleTime (turning false)).now = 10 := by decide +kernel
theorem test_ready_sample : (after (.readySample true) (turning true)).tsq.track.map (·.routeSettled) = [true] := by
  decide +kernel
theorem test_ready_window : (after .readyWindowExpiry (turning true)).tsq.holdReason = some .diverter := by decide +kernel
/-- The line's last frame was station 15's: the next interval is the console's, and the one after it ours. -/
def turned (s : State) : State := { s with fli := { s.fli with turnHolder := some 15 } }
theorem test_turn_interval :
    ((after .turnInterval (turned (paged .sending (stream 700)))).fli.inFlight.map (·.frame.payload.dataLength)) =
      some 700 ∧
    (after .turnInterval (paged .sending (stream 700))).fli.inFlight = none := by decide +kernel
theorem test_frame_sent :
    (after .frameSent (after .turnInterval (turned (paged .sending (stream 700))))).pgs.recs.map (·.state) = [.sent] := by
  decide +kernel
theorem test_motor : (fed []).motorRuns = true ∧ (held []).motorRuns = false ∧ gw.motorRuns = false := by decide
theorem test_frame_heard : (after (.frameHeard 0 (Frame.bytes ⟨⟨255, 2, 0⟩, .presence .gateway⟩)) sc).fli.peers.map (·.state) =
    [.absent, .absent, .present] ++ List.replicate 13 .absent := by decide +kernel
theorem test_frame_heard_failed : (after (.frameHeard 0 [1, 2, 3]) sc).fli.checkFailures = 1 := by decide +kernel
theorem test_presence : ((after (.presence ⟨255, 2, 0⟩ .gateway) sc).peer 2).role = .gateway := by decide +kernel
theorem test_presence_out_of_range : ((after (.presence ⟨255, 2, 0⟩ .console) sc).peer 2).role = .console ∧
    (after (.presence ⟨255, 2, 0⟩ .console) sc).fli.malformed = 1 := by decide +kernel
theorem test_batch_open_heard : (after (.batchOpenHeard ⟨255, 3, 0⟩ 9 2) sc).bct.directory = [⟨9, 3, 2, 0⟩] := by
  decide +kernel
theorem test_batch_open : (after (.batchOpen ⟨255, 2, 4⟩ 5 1) gw).ict.commits = [open5] ∧
    (after (.batchOpen ⟨255, 2, 4⟩ 5 1) gw).fli.txQueue = [⟨⟨2, 1, 4⟩, .openAccept 5⟩] := by decide +kernel
theorem test_open_accept : (after (.openAccept two 5) (owner (rec5 .opening))).bct.batches.map (·.state) = [.active] := by
  decide +kernel
theorem test_open_refuse : (after (.openRefuse two 5 .tableFull) (owner (rec5 .opening))).bct.batches.map (·.refusalCause) =
    [some .tableFull] := by decide +kernel
theorem test_batch_gone : (after (.batchGone ⟨255, 3, 0⟩ 9) filling).bct.fill = none := by decide +kernel
theorem test_abandon : (after (.abandon two 5) (taking .receiving 600)).ict.freeBlocks = 16384 := by decide +kernel
theorem test_close : (after (.close two 5 0 []) (keeper open5)).ict.commits.map (·.state) = [.committed] ∧
    (after (.close two 5 1 []) (keeper open5)).fli.txQueue.map (·.payload) = [.incomplete 5 1 0 [1]] := by decide +kernel
theorem test_committed : (after (.committed two 5) (owner (rec5 .closing))).bct.batches.map (·.state) = [.committed] := by
  decide +kernel
theorem test_incomplete : (after (.incomplete two 5 1 0 [1]) (owner (rec5 .closing))).bct.batches.map (·.lastClose) =
    [some ⟨[1], 1, 0⟩] := by decide +kernel
theorem test_unknown : (after (.unknown two 5) (owner (rec5 .closing))).bct.batches.map (·.disputeCause) =
    [some .unknown] := by decide +kernel
theorem test_hole_claim : (after (.holeClaim ⟨1, 3, 6⟩ 5 8 []) (owner holed)).fli.txQueue =
    [⟨⟨3, 1, 6⟩, .holeGrant 5 2 [(1, attrs)]⟩] := by decide +kernel
theorem test_hole_grant : ((after (.holeGrant three 9 2 [(4095, attrs)]) filling).bct.fill.map (·.granted.map (·.position))) =
    some [4095] := by decide +kernel
theorem test_hole_none : (after (.holeNone three 9) filling).bct.fill = none := by decide +kernel
theorem test_hole_refuse : (after (.holeRefuse three 9 .badState) filling).bct.fill = none := by decide +kernel
theorem test_filled : (after (.filled three 5 2) (owner holed)).bct.batches.map (·.holes.map (·.state)) =
    [[.vacant, .filled]] := by decide +kernel
theorem test_release : (after (.release two 5 false [2]) (owner holed)).bct.batches.map (·.holes.map (·.retries)) =
    [[0, 1]] := by decide +kernel
theorem test_page_offer : (after (.pageOffer two page 2 16776704 false) (keeper open5)).fli.txQueue.map (·.payload) =
      [.slotGrant 0 512] ∧
    (after (.pageOffer two page 2 16776705 false) (keeper open5)).fli.txQueue.map (·.payload) =
      [.pageRefuse .tooLarge] := by decide +kernel
theorem test_page_data : (after (.pageData two 0 1210 [7, 8]) (taking .receiving 1210)).portLog.length = 1 ∧
    (after (.pageData two 0 1210 [7]) (taking .receiving 1210)).ict.slots.head?.map (·.state) = some .receiving := by
  decide +kernel
theorem test_page_data_fault : (after (.pageData two 0 1210 [7, 8, 9]) (taking .receiving 1210)).fli.txQueue.map (·.payload) =
    [.pageFault page 0] := by decide +kernel
theorem test_slot_grant : (after (.slotGrant two 47 4080) (paged .sending offered)).txe.chanA.active.next = 4080 ∧
    (after (.slotGrant two 48 4080) (paged .sending offered)).pgs.recs.map (·.state) = [.ready] := by decide +kernel
theorem test_slot_wait : (after (.slotWait two) (paged .sending offered)).txe.chanA.retryDue = some 50 := by decide +kernel
theorem test_page_refuse : (after (.pageRefuse two .batchClosed) (paged .sending offered)).bct.batches.map (·.gatewayRefusal) =
    [some .batchClosed] := by decide +kernel
theorem test_page_stored : (after (.pageStored two page 3) (paged .sent sentOut)).pgs.recs = [] := by decide +kernel
theorem test_page_fail : (after (.pageFail two page 3) (paged .sent sentOut)).pgs.recs.map (·.restarts) = [1] := by
  decide +kernel
theorem test_page_fault : (after (.pageFault two page 3) (paged .sent sentOut)).txe.faultRestarts = 1 ∧
    (after (.pageFault two page 4) (paged .sent sentOut)).txe.staleCompletions = 1 := by decide +kernel
theorem test_store_done : (after .storeDone (taking .storing 1212)).ict.commits.map (·.present) = [1] := by decide +kernel
theorem test_store_error : (after .storeError (taking .storing 1212)).oru.attention = Attn.storePortError.bit := by
  decide +kernel
theorem test_open_timeout : (after (.openAnswerTimeout 5) (owner (rec5 .opening))).bct.batches.map (·.refusalCause) =
    [some .noAnswer] := by decide +kernel
theorem test_close_timeout : (after (.closeAnswerTimeout 5) (owner (rec5 .closing))).bct.batches.map (·.disputeCause) =
    [some .noAnswer] := by decide +kernel
theorem test_claim_timeout : ((after .claimTimeout { filling with tsq := { tray := .loaded } }).bct.fill.map (·.timeouts)) =
      some 1 ∧
    (after .claimTimeout { sc with bct := { fill := some { job with timeouts := 2 } } }).bct.fill = none := by
  decide +kernel
theorem test_offer_timeout : (after (.offerTimeout .a) (paged .sending offered)).pgs.recs.map (·.state) = [.ready] := by
  decide +kernel
theorem test_retry_wait : (after (.retryWaitExpiry .a) { sc with txe := { chanA := { retryDue := some 50 } } }).now = 50 := by
  decide +kernel
theorem test_store_timer : (after (.storeTimerExpiry page) (paged .sent sentOut)).txe.storeTimeouts = 1 := by
  decide +kernel
theorem test_grant_lifetime : (after (.grantLifetimeExpiry 0) (taking .granted 512)).ict.expiredSlots = 1 ∧
    (after (.grantLifetimeExpiry 0) (taking .granted 512)).now = 2000 := by decide +kernel
theorem test_join_listen : (after .joinListenExpiry
    { sc with fli := { line := .listening, joinDue := some 1500 } }).fli.line = .joined := by decide +kernel
theorem test_presence_timer : (after .presenceTimerExpiry
    { sc with fli := { line := .joined, presenceDue := some 500 } }).fli.txQueue.map (·.payload) = [.presence .scanner] := by
  decide +kernel
theorem test_silence_limit : (after (.silenceLimitExpiry 2) (after (.presence ⟨255, 2, 0⟩ .gateway) sc)).oru.attention =
    Attn.peerSilent.bit := by decide +kernel

/-! ## States that meet the premises of the statements -/

theorem sc_scans : sc.scans := ⟨rfl, rfl⟩
theorem gw_archives : gw.archives := ⟨rfl, rfl⟩
theorem sc_order : sc.consoleOrder con := ⟨⟨⟨rfl, Or.inl rfl, rfl⟩, rfl, rfl, by decide, by decide⟩, rfl⟩
theorem gw_order : gw.consoleOrder con := ⟨⟨⟨rfl, Or.inl rfl, rfl⟩, rfl, rfl, by decide, by decide⟩, rfl⟩
theorem zero_ne_one : (0 : Nat) ≠ 1 := by decide
theorem two_ne_one : (2 : Nat) ≠ 1 := by decide
theorem three_ne_one : (3 : Nat) ≠ 1 := by decide
theorem owner_order (r : BatchRec) : (owner r).consoleOrder con :=
  ⟨⟨⟨rfl, Or.inl rfl, rfl⟩, rfl, rfl, by decide, zero_ne_one⟩, rfl⟩
theorem owner_frame (r : BatchRec) : (owner r).scans ∧ (owner r).listens ∧ (owner r).reached two ∧
    (owner r).reached three := ⟨⟨rfl, rfl⟩, ⟨rfl, Or.inl rfl, rfl⟩, ⟨Or.inl rfl, two_ne_one⟩, Or.inl rfl, three_ne_one⟩
theorem keeper_frame (c : CommitRec) : (keeper c).archives ∧ (keeper c).listens ∧ (keeper c).reached two :=
  ⟨⟨rfl, rfl⟩, ⟨rfl, Or.inl rfl, rfl⟩, Or.inl rfl, two_ne_one⟩

theorem witness_StepRunsFront : { sc with pending := [.startKey] }.pending = .startKey :: [] ∧ sc.pending = [] :=
  ⟨rfl, rfl⟩
theorem witness_EveryCommandAnswersNext : (∀ x r, Instr.startKey ≠ .startUp x r) ∧ (∀ i, Instr.startKey ≠ .settingsLoad i) ∧
    ∃ t, exec .startKey sc = .next t := ⟨by simp, by simp, _, rfl⟩

theorem witness_StepKeepsInv : sc.Inv ∧ Settings.inRange sc.oru.settings ∧ ∃ t, step sc = .next t := by
  refine ⟨⟨⟨by decide, by decide⟩, by unfold Tsq.trackBounded; decide, ⟨?_, ?_, ?_, ?_, ?_, ?_, ?_⟩,
    ⟨?_, ?_, ?_, ?_, ?_, ?_, ?_, ?_, ?_⟩, ⟨?_, ?_⟩, ⟨?_, ?_, ?_, ?_, ?_, ?_, ?_, ?_⟩, ⟨?_, ?_, ?_⟩, ?_, ?_⟩, ?_, _, rfl⟩
  all_goals first
    | decide +kernel
    | exact fun sl hs => by
        rw [show sl = ({} : Slot) from List.eq_of_mem_replicate hs]; exact ⟨fun _ => rfl, fun _ => rfl⟩
    | exact fun a => by
        rw [show sc.ict.slots = List.replicate 48 ({} : Slot) from rfl, List.countP_replicate]
        simp [Slot.ofSender, Slot.inUse]
    | exact fun r (hr : r ∈ []) => absurd hr (List.not_mem_nil)
    | exact fun j hj => absurd hj (by simp [sc, up])
    | exact ⟨by decide +kernel, by decide +kernel⟩
    | exact ⟨by decide, by decide, by decide, by decide, by decide, by decide, by decide, by decide, by decide⟩

theorem witness_StartUpSamplesStraps : 15 < 16 ∧ State.reset.power ≠ .running ∧
    (∀ x r, Instr.startKey ≠ .startUp x r) ∧ ∀ i, Instr.startKey ≠ .settingsLoad i :=
  ⟨by decide, by decide, by simp, by simp⟩
theorem witness_SettingsLoadEndsStart : (sampleStraps 9 .scanner State.reset).power = .loading ∧
    imageOk [] = false ∧ imageOk endsImage = true ∧ 11 < 12 ∧ endsImage[12]? = some 50 ∧ endsImage[229]? = some 28 ∧
    endsImage[230]? = some 12 ∧ imageField (List.replicate 13 0 ++ [1, 0]) 13 1 = 1 ∧
    imageField (List.replicate 13 0 ++ [1, 2]) 14 1 = 2 :=
  ⟨rfl, by decide, test_ends_image_ok, by decide +kernel⟩
theorem witness_HandedFrameJoinsOrIsLost : sc.fli.line = .joined ∧ sc.fli.txQueue.length < 16 ∧
    16 ≤ (List.replicate 16 (⟨con, .slotWait⟩ : Frame)).length ∧ State.reset.fli.line = .unaddressed ∧ sc.fli.askTag ≤ 255 := by
  decide
theorem witness_RaiseJoinsTheAttentionSet : sc.oru.attention = 0 ∧ Attn.jam.bit ≠ 0 ∧
    Attn.jam.bit &&& Attn.jam.bit = Attn.jam.bit := by decide
theorem witness_HoldsAndLevelSignals_hold : (fed []).tsq.transport ≠ .held ∧ (held []).tsq.transport = .held := by decide
/-- A level state with counts. -/
def levelled (level : Level) (blocks recs : Nat) : State :=
  { sc with pgs := { level, freeBlocks := blocks, freeRecs := recs } }
theorem witness_HoldsAndLevelSignals_levels :
    (levelled .normal 1023 8).pgs.freeBlocks < sc.oru.settings.pauseLevel ∧ (levelled .normal 1024 7).pgs.freeRecs < 8 ∧
    sc.oru.settings.resumeLevel ≤ (levelled .pause 2048 16).pgs.freeBlocks ∧ 16 ≤ (levelled .pause 2048 16).pgs.freeRecs ∧
    sc.oru.settings.pauseLevel ≤ (levelled .normal 1024 8).pgs.freeBlocks ∧ 8 ≤ (levelled .normal 1024 8).pgs.freeRecs ∧
    (levelled .pause 2047 16).pgs.freeBlocks < sc.oru.settings.resumeLevel ∧ (levelled .pause 2048 15).pgs.freeRecs < 16 := by
  decide
theorem witness_LampsFollowTheState : State.reset.power ≠ .running ∧ sc.power = .running := by decide
theorem witness_OrdersCheckedBeforeTheirOwner :
    commandOrder (.fill con 9) = some (con, .fill 9) ∧ sc.listens ∧ sc.oru.restartDue = none ∧
    (⟨255, 0, 7⟩ : Hdr).src ≠ sc.oru.address ∧ sc.takesOrder two ∧ two.src ≠ 0 ∧ sc.consoleOrder con ∧
    (Order.waiveHoles 5 []).argsOk = false ∧ (Order.waiveHoles 5 [1]).argsOk = true ∧
    (Order.waiveHoles 5 (List.replicate 32 1)).argsOk = true ∧ (Order.waiveHoles 5 (List.replicate 33 1)).argsOk = false ∧
    (Order.query .station 0 4095).argsOk = true ∧ (Order.query .station 0 4096).argsOk = false ∧
    (Order.fill 9).owned gw.oru.role = false :=
  ⟨rfl, ⟨rfl, Or.inl rfl, rfl⟩, rfl, by decide, ⟨⟨rfl, Or.inl rfl, rfl⟩, rfl, rfl, by decide, by decide⟩, by decide,
    sc_order, by decide, by decide, by decide, by decide, by decide, by decide, by decide⟩
theorem witness_OpenBatchJudged_accepted : sc.consoleOrder con ∧ sc.oru.role = .scanner ∧ arg.resolve 8 = some attrs ∧
    15 ≠ sc.oru.address ∧ (∀ r ∈ sc.bct.batches, r.state ≠ .opening ∧ r.state ≠ .active) ∧
    sc.findDir 16777215 = none ∧ sc.findBatch 16777215 = none ∧ sc.bct.batches.length < 8 :=
  ⟨sc_order, rfl, by decide, by decide, by decide, rfl, rfl, by decide⟩
/-- Eight terminal records, numbers 1 to 8, the fourth the oldest. -/
def eight : List BatchRec := [8, 7, 6, 1, 5, 4, 3, 2].zipIdx.map fun x =>
  { rec5 .abandoned with number := x.2 + 1, terminalOrder := some x.1 }
theorem witness_NewRecordTakesItsEntry : 8 ≤ eight.length ∧ (eight.map (·.number)).Nodup ∧
    (∀ x ∈ eight, x.number ≠ 9) ∧ eight = eight.take 3 ++ { rec5 .abandoned with number := 4, terminalOrder := some 1 } :: eight.drop 4 ∧
    ∀ x ∈ eight.take 3 ++ eight.drop 4, 1 < x.terminalOrder.getD 0 := by decide
/-- Eight live records. -/
def eightLive : State := { sc with bct := { batches := (List.range 8).map fun n => { rec5 .ended with number := n + 1 } } }
theorem witness_OpenBatchJudged_refused : sc.consoleOrder con ∧ { arg with duplex := 2 }.resolve 8 = none ∧
    (∃ r ∈ (owner (rec5 .opening)).bct.batches, r.state = .opening) ∧ (owner (rec5 .opening)).consoleOrder con ∧
    (∃ r, (owner (rec5 .ended)).findBatch 5 = some r ∧ r.state.terminal = false) ∧ (owner (rec5 .ended)).consoleOrder con ∧
    eightLive.consoleOrder con ∧ 8 ≤ eightLive.bct.batches.length ∧
    (∀ r ∈ eightLive.bct.batches, r.state.terminal = false) ∧ eightLive.findBatch 9 = none ∧ eightLive.findDir 9 = none :=
  ⟨sc_order, by decide, by decide, owner_order _, ⟨_, rfl, rfl⟩, owner_order _,
    ⟨⟨⟨rfl, Or.inl rfl, rfl⟩, rfl, rfl, by decide, by decide⟩, rfl⟩, by decide, by decide, by decide, by decide⟩
theorem witness_AttributeSetsAtTheEnds : ({ arg with nominal := some 1, tolerance := some 0 }.resolve 8).isSome = true ∧
    ({ arg with nominal := some 2000, tolerance := some 50 }.resolve 8).isSome = true ∧
    ({ arg with nominal := some 2001 }.resolve 8) = none ∧ ({ arg with nominal := some 0 }.resolve 8) = none ∧
    ({ arg with tolerance := some 51 }.resolve 8) = none ∧ ({ arg with tolerance := none }.resolve 50).isSome = true ∧
    ({ arg with policy := 3 }.resolve 8) = none ∧ ({ arg with bank := 2 }.resolve 8) = none := by decide
theorem witness_EndBatchAndCloseAgain : sc.findBatch 5 = none ∧ (owner (rec5 .active)).consoleOrder con ∧
    ∀ st, (owner (rec5 st)).findBatch 5 = some (rec5 st) := ⟨rfl, owner_order _, fun _ => rfl⟩
theorem witness_EndedReconcilesAndReadyCloses : (fed []).tsq.feedMode = some .batch ∧ (fed []).tsq.fedBatch = some 5 ∧
    (moved .armed []).tsq.transport = .armed ∧ (fed [sheet]).tsq.track ≠ [] ∧ (held []).tsq.transport = .held ∧
    (owner (rec5 .ended)).findBatch 5 = some (rec5 .ended) ∧ (∀ e ∈ (owner (rec5 .ended)).tsq.track, e.boundTo 5 = false) ∧
    (∃ e ∈ (fed [sheet]).tsq.track, e.boundTo 5 = true) ∧ (∀ x ∈ (rec5 .reconciling).holes, x.state = .filled ∨ x.state = .waived) ∧
    (∀ p ∈ (owner (rec5 .reconciling)).pgs.recs, p.batch ≠ some 5) ∧ (∃ x ∈ holed.holes, x.state = .vacant) ∧
    ∃ p ∈ (paged .ready {}).pgs.recs, p.batch = some 5 := by decide
theorem witness_AbandonedInBothRoles : (owner (rec5 .committed)).findBatch 5 = some (rec5 .committed) ∧
    (rec5 .committed).state.terminal = true ∧ (fed [sheet]).findBatch 5 = some (rec5 .active) ∧
    (owner (rec5 .active)).bct.fill = none ∧ (owner (rec5 .active)).tsq.fedBatch ≠ some 5 ∧
    (keeper open5).consoleOrder con ∧ (keeper open5).findCommit 5 = some open5 ∧ open5.owner = two.src ∧
    open5.owner ≠ three.src ∧ (keeper open5).listens ∧ (keeper open5).reached three :=
  ⟨rfl, rfl, rfl, rfl, by decide, ⟨⟨⟨rfl, Or.inl rfl, rfl⟩, rfl, rfl, by decide, by decide⟩, rfl⟩, rfl, rfl, by decide,
    ⟨rfl, Or.inl rfl, rfl⟩, Or.inl rfl, by decide⟩
theorem witness_WaiveHolesJudged_accepted : (owner holed).consoleOrder con ∧ (owner holed).findBatch 5 = some holed ∧
    holed.waiveRefused = false ∧ (holed.holes.map (·.position)).Nodup ∧ 1 ≤ holed.scanned ∧
    (∃ x ∈ holed.holes, x.position = 1 ∧ x.state ≠ .claimed) ∧ (∀ e ∈ (owner holed).tsq.track, e.boundTo 5 = true → e.position ≠ some 1) ∧
    holed.holes.length + 1 + (owner holed).holesComing 5 ≤ 32 ∧ (∀ x ∈ holed.holes, x.position ≠ 3) ∧
    (∀ q ∈ (owner holed).pgs.recs, ¬ (q.batch = some 5 ∧ q.position = some 3)) ∧
    ∃ q ∈ (paged .failed {}).pgs.recs, q.batch = some 5 ∧ q.position = some 1 ∧ q.state = .failed :=
  ⟨owner_order _, rfl, rfl, by decide, by decide, by decide, by decide, by decide, by decide, by decide, by decide⟩
/-- A batch with 32 holes and one position more. -/
def fullHoles : BatchRec := { rec5 .ended with scanned := 33, holes := (List.range 32).map fun n => hole (n + 1) .waived none }
theorem witness_WaiveHolesJudged_refused : sc.findBatch 5 = none ∧
    (rec5 .opening).state ∈ [BatchState.opening, .closing, .committed, .refused, .abandoned] ∧
    (rec5 .ended).scanned < 1 ∧ (owner holed).findBatch 5 = some holed ∧ (∃ x, holed.hole? 2 = some x ∧ x.state = .claimed) ∧
    (owner fullHoles).findBatch 5 = some fullHoles ∧ (∀ x ∈ fullHoles.holes, x.position ≠ 33) ∧
    32 < fullHoles.holes.length + (([33].filter fun p => (fullHoles.hole? p).isNone).length) + (owner fullHoles).holesComing 5 := by
  refine ⟨rfl, by decide, by decide, rfl, ⟨_, rfl, rfl⟩, rfl, by decide, by decide⟩
theorem witness_FillMadeAndCancelled : sc.consoleOrder con ∧ sc.tsq.transport = .idle ∧ sc.bct.fill = none ∧
    sc.findDir 9 = none ∧ (fed []).tsq.transport ≠ .idle ∧ filling.bct.fill ≠ none ∧
    (owner holed).findDir 5 = some ⟨5, 1, 2, 0⟩ ∧ filling.bct.fill = some job ∧ job.phase = .feeding ∧ job.atHome = false ∧
    (∀ g ∈ job.granted, g.state = .stored) ∧ filling.tsq.feedMode ≠ some .fill :=
  ⟨sc_order, rfl, rfl, rfl, by decide, by decide, rfl, rfl, rfl, rfl, by decide, by decide⟩
/-- The fill of batch 9 with given positions, in a phase. -/
def granting (phase : FillPhase) (gs : List Grant) : State := { filling with bct := { fill := some { job with phase, granted := gs } } }
theorem witness_FillMadeAndCancelled_ends : (fillFeed [shown]).reserves 1 = true ∧ (fillFeed [shown]).reserves 2 = false ∧
    (∀ ph gs, (granting ph gs).bct.fill = some { job with phase := ph, granted := gs }) ∧
    (grant 1 .scanned).state = .scanned ∧ (∀ g ∈ [grant 1 .refused], ¬ (g.state = .scanned ∨ g.state = .unused)) ∧
    (endingTest (granting .ending [grant 1 .refused])).bct.fill = none ∧
    (endingTest (granting .ending [grant 1 .scanned])).bct.fill ≠ none ∧
    (fillEnd .cancel none (granting .feeding [grant 1 .refused, grant 2 .scanned])).fli.txQueue.map (·.payload) =
      [.release 9 false [1]] ∧
    (fillEnd .cancel none (fillFeed [shown])).tsq.transport = .draining :=
  ⟨by decide, by decide, fun _ _ => rfl, rfl, by decide, by decide +kernel⟩
theorem witness_ExemptionOrders : sc.consoleOrder con ∧ ¬ (1 < 1 ∨ 5 < 5 ∨ 1 < 1) ∧ (1 < 2 ∨ 5 < 6 ∨ 1 < 2) ∧
    sc.tsq.transport = .idle ∧ (fed []).tsq.transport ≠ .idle ∧ (0 : ZoneSet) ≠ 1 ∧
    { sc.dfm with learn := some ⟨1, 5, 1, .loose, .waiting⟩ }.learns 1 5 = true :=
  ⟨sc_order, by decide, by decide, rfl, by decide, by decide, by decide⟩
theorem witness_QueriesAnswered : sc.consoleOrder con ∧ gw.consoleOrder con ∧ 0 ≤ 4095 ∧ 16 < 17 ∧
    sc.fli.peers.length = 16 ∧ gw.oru.role = .gateway ∧ sc.findBatch 5 = none ∧ gw.findCommit 5 = none :=
  ⟨sc_order, gw_order, by decide, by decide, by decide, rfl, rfl, rfl⟩
theorem witness_AckAttentionRemovesTheNamed : sc.consoleOrder con := sc_order
theorem witness_RestartClearsTheBlocks : sc.consoleOrder con ∧ sc.fli.inFlight = none ∧ gw.consoleOrder con ∧
    gw.fli.inFlight = none := ⟨sc_order, rfl, gw_order, rfl⟩
theorem witness_KeysAndTrayMoveTheTransport : sc.scans ∧ (fed []).tsq.transport ≠ .idle ∧ sc.tsq.transport = .idle ∧
    sc.dfm.learn = none ∧ (∃ r ∈ (owner (rec5 .active)).bct.batches, r.state = .active) ∧ (moved .draining []).tsq.transport = .draining ∧
    (moved .armed []).tsq.feedMode ≠ some .fill ∧ (moved .armed []).tsq.storeLevel = .normal ∧
    (held [sheet]).tsq.transport = .held ∧ (held [sheet]).findBatch 5 = some (rec5 .active) ∧
    (∀ e ∈ (held [sheet]).tsq.track, e.binding = .batch 5 ∧ e.abandoned = false) ∧
    32 < fullHoles.holes.length + ([{ sheet with position := some 33 }].countP fun e => e.boundTo 5 && e.position.isSome) :=
  ⟨sc_scans, by decide, rfl, rfl, by decide, rfl, by decide, rfl, rfl, rfl, by decide, by decide⟩
theorem witness_KeysAndTrayMoveTheTransport_clear :
    (held [sheet]).scans ∧ (held [sheet]).tsq.feedMode = some .batch ∧ (held [sheet]).tsq.fedBatch = some 5 ∧
    (rec5 .active).holes.length + ((held [sheet]).tsq.track.countP fun e => e.boundTo 5 && e.position.isSome) ≤ 32 ∧
    ({ fillFeed [shown] with tsq := { (fillFeed [shown]).tsq with transport := .held } } : State).tsq.tray = .empty ∧
    ({ fillFeed [] with tsq := { (fillFeed []).tsq with transport := .held, tray := .loaded } } : State).tsq.tray = .loaded ∧
    (learning .held .picked [learnt]).scans ∧ (learning .held .picked [learnt]).tsq.feedMode = some .learn ∧
    shown.binding = .fill (some 1) ∧ shown.position = none ∧ shown.report = none ∧
    { shown with report := some ⟨true, false, .none⟩ }.report ≠ none ∧ sheet.position = none ∧ learnt.binding = .learn ∧
    (after .clearKey (learning .held .picked [learnt])).dfm.learn = none ∧
    (after .clearKey (learning .held .picked [learnt])).oru.attention = Attn.learnFailed.bit ∧
    (after .clearKey (learning .held .waiting [])).dfm.learn ≠ none ∧
    (after .clearKey { fillFeed [shown] with tsq := { (fillFeed [shown]).tsq with transport := .held } }).bct.fill = none :=
  ⟨⟨rfl, rfl⟩, rfl, rfl, by decide, rfl, rfl, ⟨rfl, rfl⟩, by decide +kernel⟩
/-- A local fill of batch 5 HELD with sheet 0 at its one position, more sheets in the tray. -/
def homeHeld (j : FillPhase) (e : TrackEntry) : State :=
  { owner { rec5 .reconciling with scanned := 1, holes := [hole 1 .claimed (some 1)] } with
    tsq := { transport := .held, feedMode := some .fill, tray := .loaded, track := [e] }
    bct := { batches := [{ rec5 .reconciling with scanned := 1, holes := [hole 1 .claimed (some 1)] }]
             directory := [⟨5, 1, 2, 0⟩]
             fill := some { batch := 5, owner := 1, gateway := 2, atHome := true, claims := 1, phase := j
                            granted := [grant 1 .unused] } } }
/-- The position of a pulled fill sheet is granted again and free: the fill goes on; an ENDING fill ends. -/
theorem test_clear_local_fill :
    (after .clearKey (homeHeld .feeding { shown with position := some 1 })).bct.fill.map (·.phase) = some .feeding ∧
    (after .clearKey (homeHeld .feeding { shown with position := some 1 })).bct.fill.map (·.granted.map (·.state)) =
      some [.unused] ∧
    (after .clearKey (homeHeld .ending { shown with position := some 1 })).bct.fill = none ∧
    (after .clearKey (homeHeld .ending { shown with report := some ⟨true, false, .none⟩ })).bct.fill = none := by
  decide +kernel
theorem witness_KeysAndTrayMoveTheTransport_fill : shown.binding = .fill (some 1) ∧
    { shown with position := some 1 }.position = some 1 ∧
    { shown with binding := .fill none, report := some ⟨true, false, .stop⟩ }.position = none := by decide
theorem witness_EdgesJudged : (fed [sheet]).scans ∧ sc.tsq.transport = .idle ∧
    (∀ x ∈ (fed [sheet]).tsq.track, x.tag ≠ 1) ∧ (fed [sheet]).tsq.track = [] ++ sheet :: [] ∧
    (sheet.edges.times .entry).lead = none ∧ (sheet.edges.times .gate).lead = none ∧ sensorBefore .entry = none ∧
    (entered.edges.times .entry).lead ≠ none ∧ (entered.edges.times .entry).trail = none ∧
    (∃ x ∈ [sheet], (x.edges.times .entry).trail = none) :=
  ⟨⟨rfl, rfl⟩, rfl, by decide, rfl, rfl, rfl, rfl, by decide, rfl, by decide⟩
theorem witness_VerdictPointActsByPolicy : (fed [entered]).tsq.track = [] ++ entered :: [] ∧ entered.binding = .batch 5 ∧
    (judge (fed [entered]) { entered with length := some 305 }).1.suspect = false ∧
    (judge (fed [entered]) { entered with length := some 306 }).1.suspect = true ∧ entered.patched = false ∧
    { entered with report := some ⟨false, false, .stop⟩ }.patched = true := by decide +kernel
theorem witness_VerdictPointActsByPolicy_learn : (learning .draining .picked [learnt]).tsq.track = [] ++ learnt :: [] ∧
    learnt.binding = .learn ∧ ((learning .draining .picked []).dfm.learn.map (·.phase)) = some .picked ∧
    ((learning .draining .waiting []).dfm.learn.map (·.phase)) = some .waiting ∧
    ((verdictPoint 0 (some 305) (learning .draining .picked [{ learnt with profile := [true] }])).dfm.exemptions.getD 11 {}).pattern =
      zoneSet [true] ∧
    (verdictPoint 0 (some 305) (learning .draining .picked [learnt])).oru.attention = Attn.learnDone.bit := by decide +kernel
theorem witness_VerdictPointActsByPolicy_uncounted : (fillFeed [shown]).tsq.track = [] ++ shown :: [] ∧
    shown.binding = .fill (some 1) ∧ { sheet with abandoned := true }.abandoned = true ∧
    (judge (fillFeed [shown]) { shown with length := some 305 }).1.suspect = false ∧
    (judge (fillFeed [shown]) { shown with length := some 306 }).1.suspect = true ∧ shown.patched = false ∧
    (verdictPoint 0 (some 306) (fed [{ entered with abandoned := true }])).bct = (fed []).bct ∧
    (verdictPoint 0 (some 306) (fed [entered])).bct ≠ (fed []).bct := by decide +kernel
theorem witness_VerdictByBothTests : 1 ≤ sc.oru.settings.runThreshold ∧ 63 < 64 ∧
    lengthSuspicion attrs none = true ∧ lengthSuspicion attrs (some 305) = false ∧ lengthSuspicion attrs (some 306) = true ∧
    hasRun 3 0 [false, true, true, true] = true ∧ hasRun 3 0 [true, true, false, true] = false ∧
    searchBank { exemptions := (List.replicate 12 {}).set 5 { valid := true, mask := 1, pattern := 0 } } 0 [true, true, true] =
      some 5 ∧ searchBank {} 0 [true, true, true] = none := by decide +kernel
theorem witness_RouteFollowsPolicyAndVerdict : (fed [sheet]).tsq.track = [] ++ sheet :: [] ∧
    (fed [sheet]).tsq.transport ≠ .held ∧ (held [sheet]).tsq.transport = .held ∧ sheet.route = none ∧
    (fed [sheet]).holeFits sheet = true ∧
    ({ owner fullHoles with tsq := (fed [sheet]).tsq } : State).holeFits sheet = false := by decide +kernel
theorem witness_RouteFollowsPolicyAndVerdict_holes : (fed [sheet]).findBatch 5 = some (rec5 .active) ∧
    sheet.binding = .batch 5 ∧ sheet.report = none ∧ sheet.overrun = false ∧ { sheet with overrun := true }.overrun = true ∧
    (∀ b, shown.binding ≠ .batch b) ∧
    ({ fed [sheet] with bct := { batches := [{ fullHoles with holes := fullHoles.holes.take 31 }] } } : State).holeFits sheet = true ∧
    ({ fed [sheet, { sheet with tag := 1, route := some .reject }] with
        bct := { batches := [{ fullHoles with holes := fullHoles.holes.take 31 }] } } : State).holeFits sheet = false ∧
    ({ owner fullHoles with tsq := (fed [sheet]).tsq } : State).holeFits { sheet with overrun := true } = true :=
  ⟨rfl, rfl, rfl, rfl, rfl, by intro b; simp [shown], by decide +kernel⟩
/-- A fill sheet of position 1 whose FRONT page is held for it, with a granted list. -/
def settling (side : Side) : State :=
  { fillFeed [] with
    tsq := { transport := .draining, feedMode := some .fill }
    pgs := { recs := [{ rec0 .heldForSheet with side, batch := some 9, fillFlag := true }], freeRecs := 511 } }
theorem witness_SheetSettles_pages : (settling .front).findRec 0 ≠ none ∧
    (settling .front).bct.fill = some { job with granted := [] ++ grant 1 .unused :: [grant 2 .unused] } ∧
    (∀ j, sc.bct.fill = some j → ∀ g ∈ j.granted, g.position ≠ 1) ∧
    (pagesEligible { shown with position := some 1, pages := [0] } (settling .front)).pgs.fillQueue = [0] ∧
    (pagesEligible { shown with position := some 1, pages := [0] } (settling .back)).pgs.recs = [] :=
  ⟨by decide +kernel, rfl, by decide, by decide +kernel⟩
theorem witness_SheetSettles_abandoned : { sheet with abandoned := true }.binding = .batch 5 ∧
    { sheet with abandoned := true }.position = none := by decide
theorem witness_SheetSettles : { sheet with position := some 1, route := some .main }.position = some 1 ∧
    sheet.position = none ∧ sheet.binding = .batch 5 ∧ { sheet with binding := .fill (some 1) }.binding = .fill (some 1) := by
  decide
theorem witness_WindowsAndDiverterHandshake : (fed [sheet]).scans ∧ (fed [sheet]).tsq.transport ≠ .idle ∧
    (fed [sheet]).tsq.transport ≠ .held ∧ sheet.edges.entry.lead = none ∧ entered.edges.entry.lead = some 0 ∧
    (fed [sheet]).tsq.tray = .empty ∧ sheet.pages = [] ∧ (fed [sheet]).tsq.handshake = none ∧
    sensorBefore .capture = some .entry ∧ sheet.edges.gate.trail = none ∧ sheet.routeSettled = false ∧
    (turning true).scans ∧ (turning true).tsq.handshake = some ⟨0, true, 0⟩ :=
  ⟨⟨rfl, rfl⟩, by decide, by decide, rfl, rfl, rfl, rfl, rfl, rfl, rfl, rfl, ⟨rfl, rfl⟩, rfl⟩
theorem witness_WindowsAndDiverterHandshake_misfed :
    (turning false).tsq.handshake = some ⟨0, false, 0⟩ ∧ (turning false).tsq.tray = .empty ∧
    ((capturing 700).findEntry 0).map (·.pages) = some [0] ∧ (capturing 700).tsq.tray = .empty ∧
    (after (.pickWindowExpiry 0) (capturing 700)).pgs.recs = [] ∧
    (after (.pickWindowExpiry 0) (turning false)).tsq.handshake = none ∧
    (after (.pickWindowExpiry 0) (fed [{ sheet with abandoned := true }])).tsq.transport = .idle := by decide +kernel
theorem witness_ZoneReadingJoinsTheProfile : (fed [sheet]).scans ∧ (fed []).tsq.track = [] ∧
    (fed [sheet]).tsq.track = [] ++ [sheet] ∧ sheet.edges.entry.trail = none ∧
    64 ≤ (List.replicate 64 true).length ∧ (List.replicate 63 true).length < 64 :=
  ⟨⟨rfl, rfl⟩, rfl, rfl, rfl, by decide, by decide⟩
theorem witness_CaptureFillsARecord : (fed [sheet]).scans ∧ (fed [sheet]).findEntry 0 = some sheet ∧
    (fed []).findEntry 0 = none ∧ ((fed [sheet]).progressOf 0).mode = .keep ∧ (fed [sheet]).sideRec sheet .front = none ∧
    (fed [sheet]).pgs.recPool = 0 :: (List.range 512).drop 1 ∧
    ((capturing 16776704).sideRec { sheet with pages := [0] } .front).map (·.state) = some .filling ∧
    16776704 < 16776704 + [(7 : Byte)].length ∧ 16776703 + [(7 : Byte)].length ≤ 16776704 :=
  ⟨⟨rfl, rfl⟩, rfl, rfl, rfl, rfl, by decide +kernel, by decide +kernel, by decide, by decide⟩
theorem witness_CaptureFillsARecord_loss :
    (capturing 16776704).findEntry 0 = some { sheet with pages := [0] } ∧
    ((capturing 16776704).pgs.recs.map (·.id)).Nodup ∧
    (after (.dataEvent 0 .front [7]) (capturing 16776704)).pgs.recs = [] ∧
    (after (.dataEvent 0 .front [7]) (capturing 16776704)).tsq.track.map (·.pages) = [[]] := by decide +kernel
theorem witness_BytesStoredReadBack : [3, 1].Nodup ∧ Memory.wf [] ∧ 16383 + [(1 : Byte), 2].length ≤ 16384 * [3, 1].length := by
  decide +kernel
theorem witness_CaptureReportTaken : (fed [sheet]).scans ∧ sc.tsq.transport = .idle ∧
    (∀ x ∈ (fed []).tsq.track, x.report ≠ none) ∧ (fed [sheet]).tsq.track = [] ++ sheet :: [] ∧ sheet.report = none ∧
    (fed [sheet]).findBatch 5 = some (rec5 .active) ∧ (rec5 .active).scanned < 4094 ∧
    { rec5 .active with scanned := 4094 }.scanned = 4094 ∧ 4095 ≤ { rec5 .active with scanned := 4095 }.scanned ∧
    sheet.suspect = false ∧ { arg with bank := 2 }.resolve 8 = none ∧ arg.resolve 8 = some attrs :=
  ⟨⟨rfl, rfl⟩, rfl, by decide, rfl, rfl, rfl, by decide, rfl, by decide, by decide, by decide, by decide⟩
theorem witness_LaterSheetsOverrunOrRebound : (fed [sheet, { sheet with tag := 1 }]).tsq.track =
      [] ++ sheet :: [{ sheet with tag := 1 }] ∧ ([sheet, { sheet with tag := 1 }].map (·.tag)).Nodup ∧
    [{ sheet with tag := 1 }].any (·.boundTo 5) = true ∧ sheet.verdict = none ∧
    { sheet with verdict := some .both }.verdict = some .both ∧ Verdict.both.suspect = true := by decide +kernel
theorem witness_LaterSheetsOverrunOrRebound_reports :
    (fed [sheet, { sheet with tag := 1 }]).scans ∧ (fed [sheet]).tsq.transport ≠ .idle ∧ sheet.report = none ∧
    arg.resolve (fed []).oru.settings.toleranceDefault = some attrs ∧
    { arg with bank := 2 }.resolve (fed []).oru.settings.toleranceDefault = none ∧ shown.binding = .fill (some 1) ∧
    shown.overrun = false ∧ { sheet with abandoned := true }.abandoned = true ∧
    ((after (.sideEnd 0 .front) (capturing 2)).progressOf 0).ended .front = true ∧
    (after (.captureReport 0 false false (.header { arg with policy := 2 })) (fed [sheet, { sheet with tag := 1 }])).tsq.track.map
      (·.snap.policy) = [.divert, .mark] ∧
    (after (.captureReport 0 false false .stop) (fillFeed [shown])).bct.fill = none ∧
    (after (.captureReport 0 false false .none) (fillFeed [shown])).tsq.track.map (·.position) = [some 1] ∧
    ((after (.captureReport 0 false false .none) (learning .feeding .picked [learnt])).tsq.track.map (·.report.isSome)) = [true] :=
  ⟨⟨rfl, rfl⟩, by decide, rfl, by decide, by decide, rfl, rfl, rfl, by decide +kernel⟩
theorem witness_OwnTurnSendsAndSentFrameLeaves : 0 < 1 ∧ (paged .sending (stream 700)).power = .running ∧
    ((paged .sending (stream 700)).chan .a).active.page = some 0 ∧
    (paged .sending (stream 700)).findRec 0 = some (rec0 .sending) ∧ (paged .sending (stream 700)).fli.line = .joined ∧
    (paged .sending (stream 700)).fli.inFlight = none ∧ (paged .sending (stream 700)).fli.txQueue = [] ∧
    (paged .sending (stream 700)).burstReady .a = true ∧ (paged .sending (stream 700)).burstReady .b = false ∧
    (turned sc).fli.turnHolder = some 15 ∧ (15 + 1 + 1) % 16 = sc.oru.address := by decide +kernel
/-- The burst of page 0 in transmission, with a give-up to take when it has left. -/
def leaving (giveUp : GiveUp) (stored fatal : Bool) : State :=
  { paged .sending { chanA := { active := { (stream 700).chanA.active with giveUp, stored, fatal } } } with
    fli := { line := .joined, inFlight := some ⟨⟨con, .slotWait⟩, .data .a⟩ } }
theorem witness_OwnTurnSendsAndSentFrameLeaves_giveUps :
    (∀ g st f, (leaving g st f).power = .running ∧ (leaving g st f).fli.inFlight = some ⟨⟨con, .slotWait⟩, .data .a⟩ ∧
      ((leaving g st f).chan .a).active.page = some 0 ∧ ((leaving g st f).chan .a).active.giveUp = g ∧
      ((leaving g st f).chan .a).active.stored = st ∧ ((leaving g st f).chan .a).active.fatal = f) ∧
    ((paged .sending offered).chan .a).staged.phase ≠ .granted ∧
    (({ sc with txe := { chanA := { staged := { phase := .granted } } } } : State).chan .a).staged.phase = .granted ∧
    (after .frameSent (leaving .ret false false)).pgs.recs.map (·.state) = [.ready] ∧
    (after .frameSent (leaving .restart false true)).pgs.recs.map (·.state) = [.failed] ∧
    (after .frameSent (leaving .discard true false)).txe.storedPages = 1 :=
  ⟨fun _ _ _ => ⟨rfl, rfl, rfl, rfl, rfl, rfl⟩, by decide +kernel⟩
theorem witness_FrameHeardJudged : sc.power = .running ∧ sc.fli.inFlight = none ∧ sc.fli.line ≠ .unaddressed ∧
    RawFrame.ofBytes [1, 2, 3] = none ∧
    RawFrame.ofBytes (Frame.bytes ⟨⟨255, 15, 0⟩, .slotWait⟩) = some ⟨⟨255, 15, 0⟩, 22, []⟩ ∧
    RawFrame.ofBytes (Frame.bytes ⟨⟨16, 2, 0⟩, .slotWait⟩) = some ⟨⟨16, 2, 0⟩, 22, []⟩ ∧
    RawFrame.ofBytes (Frame.bytes ⟨⟨3, 1, 0⟩, .slotWait⟩) = some ⟨⟨3, 1, 0⟩, 22, []⟩ ∧
    Payload.ofBytes 22 [] = some .slotWait ∧ Payload.ofBytes 28 [] = none := by decide +kernel
theorem witness_FrameHeardJudged_peers : sc.fli.heardAny = false ∧ { sc.fli with heardAny := true }.heardAny = true ∧
    15 < sc.fli.peers.length ∧ gw.oru.role = .gateway ∧ (sc.peer 15).state ≠ .present ∧ sc.oru.role = .scanner ∧
    (ready.peer 2).state = .present ∧ Payload.ofBytes (Payload.presence .console).kind (Payload.presence .console).bytes =
      some (.presence .console) := by decide +kernel
theorem witness_FramesByAddressLineAndRole : sc.fli.line = .joined ∧ State.reset.fli.line = .unaddressed ∧
    commandOrder (.fill ⟨1, 1, 0⟩ 9) = some (⟨1, 1, 0⟩, .fill 9) ∧ (Payload.slotWait).owned sc.oru.role = true ∧
    (Payload.slotWait).owned gw.oru.role = false ∧ (Payload.openAccept 0).inRange 2 = false ∧
    (Payload.openAccept 16777215).inRange 2 = true ∧ directoryFrame (.batchGone 5) = true ∧
    canTake ⟨con, .order .restart⟩ { sc with oru := { sc.oru with restartDue := some con } } = false := by decide
theorem witness_PresenceAndSilence : two.src ≠ sc.oru.address ∧ 15 < sc.fli.peers.length ∧
    ((after (.presence ⟨255, 2, 0⟩ .gateway) sc).peer 2).state = .present ∧
    ((after (.presence ⟨255, 2, 0⟩ .gateway) sc).peer 2).heardAt = some 0 := by decide +kernel
theorem witness_PresenceAndSilence_told : ((paged .sending offered).chan .a).staged.gateway = some 2 ∧
    ((paged .sending (stream 1)).chan .a).active.gateway = some 2 ∧ (paged .sending (stream 1)).bursting .a = false ∧
    (leaving .none false false).bursting .a = true ∧ (txeSilence 2 (paged .sending offered)).pgs.recs.map (·.state) = [.ready] ∧
    (bctSilence 2 (owner holed)).bct.batches.map (·.holes.map (·.state)) = [[.vacant, .vacant]] ∧
    (bctSilence 2 (owner (rec5 .opening))).bct.batches.map (·.refusalCause) = [some .gatewaySilent] ∧
    (ictSilence 2 (taking .receiving 600)).ict.freeBlocks = 16384 ∧ (ictSilence 3 (taking .receiving 600)).ict.freeBlocks = 16383 := by
  decide +kernel
theorem witness_JoinListenAndPresenceTimer :
    { sc.fli with line := .listening, joinDue := some 1500 }.joinDue = some 1500 ∧ sc.fli.line ≠ .listening ∧
    sc.fli.presenceDue = none ∧ { sc.fli with presenceDue := some 500 }.presenceDue = some 500 := by decide
theorem witness_FramesReadBack : (Payload.holeGrant 16777215 15 (List.replicate 8 (4095, attrs))).inRange 2 = true ∧
    payloadFits (.holeGrant 16777215 15 (List.replicate 8 (4095, attrs))) ∧ payloadFits (.slotGrant 255 65535) ∧
    (Payload.bytes .slotWait).length < 65536 := by
  refine ⟨by decide, ?_, ⟨by decide, by decide⟩, by decide⟩
  intro g hg; rw [List.eq_of_mem_replicate hg]; decide
theorem witness_DirectoryFollowsBatchFrames : sc.scans ∧ sc.listens ∧ sc.reached ⟨255, 3, 0⟩ ∧ sc.findBatch 9 = none ∧
    sc.findDir 9 = none ∧ (owner (rec5 .opening)).findBatch 5 = some (rec5 .opening) ∧
    ({ owner (rec5 .opening) with oru := { sc.oru with address := 4 } } : State).reached ⟨255, 3, 0⟩ ∧ 3 < 4 ∧
    filling.bct.fill = some job ∧ job.owner = three.src ∧
    64 ≤ ((List.range 64).map fun n => (⟨n + 10, 3, 2, 0⟩ : DirEntry)).length :=
  ⟨sc_scans, ⟨rfl, Or.inl rfl, rfl⟩, ⟨Or.inr rfl, by decide⟩, rfl, rfl, rfl, ⟨Or.inr rfl, by decide⟩, by decide, rfl, rfl,
    by decide⟩
theorem witness_DirectoryFollowsBatchFrames_listening :
    ({ sc with fli := { line := .listening } } : State).scans ∧ ({ sc with fli := { line := .listening } } : State).reached ⟨255, 3, 0⟩ ∧
    (after (.batchOpenHeard ⟨255, 3, 0⟩ 9 2) { sc with fli := { line := .listening } }).bct.directory = [⟨9, 3, 2, 0⟩] :=
  ⟨⟨rfl, rfl⟩, ⟨Or.inr rfl, by decide⟩, by decide +kernel⟩
theorem witness_OpeningAnswered : (owner (rec5 .opening)).scans ∧ (owner (rec5 .opening)).listens ∧
    (owner (rec5 .opening)).reached two ∧ (owner (rec5 .opening)).findBatch 5 = some (rec5 .opening) ∧
    (rec5 .opening).openAsk = some two.tag ∧ (rec5 .opening).gateway = two.src ∧ (rec5 .opening).gateway ≠ three.src ∧
    (owner (rec5 .opening)).bct.fill = none :=
  ⟨(owner_frame _).1, (owner_frame _).2.1, (owner_frame _).2.2.1, rfl, rfl, rfl, by decide, rfl⟩
theorem witness_ClosingAnswered : (owner (rec5 .closing)).scans ∧ (owner (rec5 .closing)).listens ∧
    (owner (rec5 .closing)).reached two ∧ (owner (rec5 .closing)).findBatch 5 = some (rec5 .closing) ∧
    (rec5 .closing).closeAsk = some two.tag ∧ (rec5 .closing).gateway = two.src ∧
    (List.replicate 8 4095).length ≤ 8 ∧ ∀ p ∈ List.replicate 8 4095, 1 ≤ p ∧ p ≤ 4095 :=
  ⟨(owner_frame _).1, (owner_frame _).2.1, (owner_frame _).2.2.1, rfl, rfl, rfl, by decide, by decide⟩
theorem witness_UnknownDisputesTheBatch : (owner (rec5 .closing)).scans ∧ (owner (rec5 .closing)).listens ∧
    (owner (rec5 .closing)).reached two ∧ (rec5 .closing).state = .closing := ⟨(owner_frame _).1, (owner_frame _).2.1, (owner_frame _).2.2.1, rfl⟩
theorem witness_OwnerGrantsTheLowestHoles : (owner holed).scans ∧ (owner holed).listens ∧ (owner holed).reached three ∧
    0 + (List.replicate 8 4095).length ≤ 8 ∧ 8 + ([] : List Nat).length ≤ 8 ∧ (owner holed).findBatch 5 = some holed ∧
    holed.state ∈ [BatchState.active, .ended, .reconciling, .halted] ∧ (holed.holes.map (·.position)).Nodup :=
  ⟨(owner_frame _).1, (owner_frame _).2.1, (owner_frame _).2.2.2, by decide, by decide, rfl, by decide, by decide⟩
theorem witness_FilledMarksTheHole : (owner holed).scans ∧ (owner holed).listens ∧ (owner holed).reached three ∧
    holed.holes = [hole 1 .vacant none] ++ hole 2 .claimed (some 2) :: [] ∧ (∀ y ∈ [hole 1 .vacant none], y.position ≠ 2) ∧
    (∀ x ∈ holed.holes, x.position = 4095 → x.state = .filled ∨ x.state = .waived) :=
  ⟨(owner_frame _).1, (owner_frame _).2.1, (owner_frame _).2.2.2, rfl, by decide, by decide⟩
theorem witness_ReleaseReopensTheHoles : (owner holed).scans ∧ (owner holed).listens ∧ (owner holed).reached two ∧
    (owner holed).findBatch 5 = some holed ∧ (List.replicate 8 4095).length ≤ 8 :=
  ⟨(owner_frame _).1, (owner_frame _).2.1, (owner_frame _).2.2.1, rfl, by decide⟩
theorem witness_FillerTakesClaimAnswers : filling.scans ∧ filling.listens ∧ filling.reached three ∧
    filling.bct.fill = some job ∧ job.claimTag = some three.tag ∧ job.owner = three.src ∧ job.claims = 1 ∧
    job.granted.length + (List.replicate 8 (1, attrs)).length ≤ 8 ∧ ((List.range 8).map fun n => (n + 4088, attrs).1).Nodup ∧
    job.timeouts < 2 ∧ 2 ≤ { job with timeouts := 2 }.timeouts ∧ sc.bct.fill = none :=
  ⟨⟨rfl, rfl⟩, ⟨rfl, Or.inl rfl, rfl⟩, ⟨Or.inl rfl, by decide⟩, rfl, rfl, rfl, rfl, by decide, by decide, by decide,
    by decide, rfl⟩
/-- An own batch's fill, with nothing granted, and a FILL feed whose granted positions are spent. -/
def atHome : State := { owner holed with bct := { (owner holed).bct with
  fill := some { batch := 5, owner := 1, gateway := 2, atHome := true } } }
def spent (t : Transport) (es : List TrackEntry) : State :=
  { granting .feeding [grant 1 .stored] with tsq := { transport := t, feedMode := some .fill, track := es } }
theorem witness_FillerTakesClaimAnswers_tests : atHome.bct.fill.map (·.claimTag) = some none ∧ atHome.tsq.tray = .empty ∧
    (fillTest 4 true atHome).bct.fill.map (·.granted.map (·.position)) = some [1] ∧ (fillTest 4 false atHome) = atHome ∧
    (spent .armed []).tsq.tray = .empty ∧ (feedTest (spent .armed [])).tsq.transport = .idle ∧
    (feedTest (spent .feeding [learnt])).tsq.transport = .draining ∧ (feedTest (spent .feeding [])).bct.fill = none ∧
    (feedTest (spent .draining [])).bct.fill ≠ none ∧
    (∀ y ∈ [grant 1 .unused], y.position ≠ 2) := by decide +kernel
theorem witness_OfferAnsweredByTheGateway : (keeper open5).archives ∧ (keeper open5).listens ∧ (keeper open5).reached two ∧
    (keeper open5).findCommit 5 = some open5 ∧ (keeper open5).findCommit 6 = none ∧ open5.stored page = false ∧
    { open5 with positions := [{ position := 1, front := true }] }.stored page = true ∧
    (keeper open5).ict.slots = [] ++ ({} : Slot) :: List.replicate 47 ({} : Slot) ∧ (512 + 16776704 + 16383) / 16384 ≤ (keeper open5).ict.freeBlocks ∧
    (taking .granted 512).ict.slots.countP (fun sl => sl.state != .free && sl.hold.any fun x => x.sender == 2) = 1 :=
  ⟨(keeper_frame _).1, (keeper_frame _).2.1, (keeper_frame _).2.2, rfl, rfl, by decide, by decide, rfl, by decide,
    by decide +kernel⟩
theorem witness_BurstTakenOrFaulted : (taking .receiving 1210).archives ∧ (taking .receiving 1210).listens ∧
    (taking .receiving 1210).reached two ∧ (taking .receiving 1210).ict.slots.length ≤ 48 ∧
    (taking .receiving 1210).ict.slots = [] ++ { state := .receiving, hold := some (hold0 1210), idleStop := none } :: List.replicate 47 ({} : Slot) ∧
    1210 + 1 < 512 + (hold0 1210).size ∧ 1210 + 2 = 512 + (hold0 1210).size ∧ (hold0 1210).sender = two.src ∧
    (hold0 1210).sender ≠ three.src ∧ ({} : Slot).former = none ∧
    { ({} : Slot) with former := some (2, page) }.former = some (two.src, page) :=
  ⟨⟨rfl, rfl⟩, ⟨rfl, Or.inl rfl, rfl⟩, ⟨Or.inl rfl, by decide⟩, by decide, rfl, by decide, by decide, rfl, by decide, rfl, rfl⟩
theorem witness_OfferAnswersTaken : (paged .sending offered).scans ∧ (paged .sending offered).listens ∧
    (paged .sending offered).reached two ∧ ((paged .sending offered).chan .a).staged.phase = .offered ∧
    ((paged .sending offered).chan .a).staged.askTag = some two.tag ∧ ((paged .sending offered).chan .a).staged.gateway = some two.src ∧
    ((paged .sending offered).chan .a).staged.page = some 0 ∧ (paged .sending offered).findRec 0 = some (rec0 .sending) ∧
    47 < 48 ∧ 4080 % 16 = 0 ∧ 4080 ≤ 4080 ∧ 48 ≤ 48 ∧ 4081 % 16 ≠ 0 ∧ 4080 < 4096 ∧ sc.txe.chanA.staged.phase ≠ .offered ∧
    sc.txe.chanA.retryDue = none :=
  ⟨⟨rfl, rfl⟩, ⟨rfl, Or.inl rfl, rfl⟩, ⟨Or.inl rfl, by decide⟩, rfl, rfl, rfl, rfl, rfl, by decide, by decide, by decide,
    by decide, by decide, by decide, by decide, rfl⟩
theorem witness_FailedPageHaltsItsBatch : (paged .sending {}).findRec 0 = some (rec0 .sending) ∧
    (rec0 .sending).discardPending = false ∧ { rec0 .sending with discardPending := true }.discardPending = true ∧
    (rec0 .sending).fillFlag = false ∧ (rec0 .sending).batch = some 5 ∧
    (paged .sending {}).findBatch 5 = some (rec5 .active) := by decide +kernel
theorem witness_FailedPageHaltsItsBatch_fills :
    (granting .feeding [grant 1 .scanned]).bct.fill = some { job with granted := [] ++ grant 1 .scanned :: [] } ∧
    (grant 1 .scanned).required ≤ (grant 1 .scanned).stored + 1 ∧
    { grant 1 .scanned with required := 2 }.stored + 1 < { grant 1 .scanned with required := 2 }.required ∧
    (grant 1 .unused).state ≠ .scanned ∧
    (fillStored 1 (granting .feeding [grant 1 .scanned])).fli.txQueue.head?.map (·.payload) = some (.filled 9 1) ∧
    (fillFailed 1 (granting .feeding [grant 1 .scanned])).bct.fill.map (·.granted.map (·.state)) = some [.refused] :=
  ⟨rfl, by decide +kernel⟩
theorem witness_CompletionsOfSentPages : (paged .sent sentOut).scans ∧ (paged .sent sentOut).listens ∧
    (paged .sent sentOut).reached two ∧ (paged .sent sentOut).findRec 0 = some (rec0 .sent) ∧
    (paged .sent sentOut).txe.outstanding = [⟨0, 2, 3, 30000⟩] ∧ (rec0 .sent).position = some page.position ∧
    (∀ q ∈ (paged .sent sentOut).pgs.recs, q = rec0 .sent) ∧ (∀ c, ((paged .sent sentOut).chan c).active.page = none) ∧
    (rec0 .sent).restarts < 3 ∧ { rec0 .sent with restarts := 3 }.restarts = 3 :=
  ⟨⟨rfl, rfl⟩, ⟨rfl, Or.inl rfl, rfl⟩, ⟨Or.inl rfl, by decide⟩, rfl, rfl, rfl, by decide, by intro c; cases c <;> rfl,
    by decide, rfl⟩
theorem witness_CompletionsOfSentPages_anywhere : ready.scans ∧ ready.listens ∧ ready.reached two ∧
    ready.pgs.recs = [] ++ rec0 .ready :: [] ∧ (rec0 .ready).side = page.side ∧ ready.findBatch 5 = some (rec5 .active) ∧
    ((paged .sending offered).chan .a).staged.gateway = some two.src ∧ ((paged .sending (stream 1)).chan .a).active.slot = some 3 ∧
    (leaving .none false false).bursting .a = true ∧ (paged .sending (stream 1)).bursting .a = false ∧
    (after (.pageStored two page 3) ready).pgs.recs = [] ∧ (after (.pageStored two page 3) (paged .sending offered)).pgs.recs = [] ∧
    (after (.pageStored two page 3) (leaving .none false false)).pgs.recs.length = 1 ∧
    (after (.pageStored three page 3) ready).txe.staleAnswers = 1 ∧
    (after (.pageFail two page 3) (paged .sending (stream 1))).pgs.recs.map (·.state) = [.ready] ∧
    (after (.pageFault two page 3) (paged .sent { outstanding := [⟨7, 2, 3, 9⟩, ⟨0, 2, 3, 9⟩] })).txe.faultRestarts = 1 ∧
    (after (.pageFault two page 4) (paged .sent sentOut)).txe.staleCompletions = 1 ∧
    (after (.storeTimerExpiry page) (paged .sent { outstanding := [⟨7, 2, 3, 9⟩, ⟨0, 2, 3, 9⟩] })).now = 9 :=
  ⟨⟨rfl, rfl⟩, ⟨rfl, Or.inl rfl, rfl⟩, ⟨Or.inl rfl, by decide⟩, rfl, rfl, rfl, rfl, rfl, by decide +kernel⟩
/-- The page whose burst is in transmission, given up by a discard. -/
def discarded : State := discardRec 0 (leaving .none false false)
theorem witness_CompletionsOfSentPages_discarded : discarded.findRec 0 = some { rec0 .sending with discardPending := true } ∧
    discarded.bursting .a = true ∧ (after (.pageStored two page 3) discarded).txe.staleAnswers = 1 ∧
    (after (.pageFail two page 3) discarded).txe.staleCompletions = 1 ∧
    (after (.pageFault two page 3) discarded).pgs.recs.map (·.restarts) = [0] ∧
    (after .frameSent (after (.pageStored two page 3) discarded)).txe.storedPages = 0 ∧
    (after .frameSent (discardRec 0 (after (.pageStored two page 3) (leaving .none false false)))).txe.storedPages = 1 := by
  decide +kernel
theorem witness_StorePortAndGrantLifetime : (taking .storing 1212).archives ∧ (∀ sl ∈ gw.ict.slots, sl.state ≠ .storing) ∧
    (taking .storing 1212).ict.slots = [] ++ { state := .storing, hold := some (hold0 1212), idleStop := none } :: List.replicate 47 ({} : Slot) ∧
    (taking .storing 1212).findCommit 5 = some open5 ∧ open5.state = .opened ∧
    { open5 with state := .committed }.state = .committed ∧ gw.findCommit 5 = none := by
  refine ⟨⟨rfl, rfl⟩, ?_, rfl, rfl, rfl, rfl, rfl⟩
  intro sl h; rw [show sl = ({} : Slot) from List.eq_of_mem_replicate h]; decide
theorem witness_StoredSidesAndTheStorePort : (open5.positions.map (·.position)).Pairwise (· < ·) ∧
    (keeper open5).ict.portBusy = false ∧ (keeper open5).ict.storeQueue = [] ∧
    { (taking .complete 1212).ict with storeQueue := [0] }.storeQueue = 0 :: [] ∧
    (taking .complete 1212).ict.portBusy = false := by decide +kernel
theorem witness_GatewayEntryAndClose_entry : gw.archives ∧ gw.listens ∧ gw.reached ⟨255, 2, 4⟩ ∧ 1 = gw.oru.address ∧
    15 ≠ gw.oru.address ∧ (keeper open5).findCommit 5 = some open5 ∧ open5.owner = 2 ∧ gw.findCommit 5 = none ∧
    gw.ict.commits.length < 32 ∧ 32 ≤ ((List.range 32).map fun n => { open5 with batch := n + 6 }).length :=
  ⟨gw_archives, ⟨rfl, Or.inl rfl, rfl⟩, ⟨Or.inr rfl, by decide⟩, rfl, by decide, rfl, rfl, rfl, by decide, by decide⟩
theorem witness_GatewayEntryAndClose_close : (keeper open5).archives ∧ (keeper open5).listens ∧ (keeper open5).reached two ∧
    (keeper open5).findCommit 5 = some open5 ∧ open5.owner = two.src ∧ open5.missing 0 [] = [] ∧ open5.excess 0 = 0 ∧
    open5.missing 1 [] ≠ [] ∧ (List.replicate 32 4095).length ≤ 32 :=
  ⟨(keeper_frame _).1, (keeper_frame _).2.1, (keeper_frame _).2.2, rfl, rfl, by decide, by decide, by decide, by decide⟩

theorem witness_PicksFollowTheFeed : (fed []).tsq.transport = .feeding ∧ (fed []).tsq.track = [] ∧
    (fed []).tsq.tagCounter ≤ 7 ∧ (fed []).tsq.fedBatch = some 5 ∧ (fed []).findBatch 5 = some (rec5 .active) ∧
    (moved .idle []).tsq.transport ≠ .feeding ∧ 3 ≤ (fed [shown, shown, shown]).tsq.track.length ∧
    (fillFeed [shown]).tsq.track.getLast? = some shown ∧ shown.edges.entry.trail ≠ none ∧ (fillFeed [shown]).tsq.tagCounter = 7 ∧
    (fillFeed [shown]).reserves 1 = true ∧ (fillFeed [shown]).reserves 2 = false ∧
    (moved .draining []).tsq.track = [] ∧ (moved .draining [sheet]).tsq.track ≠ [] ∧ sc.tsq.tray = .empty := by decide
theorem witness_PicksFollowTheFeed_learn :
    (pickTest { fed [] with
      tsq := { (fed []).tsq with feedMode := some .learn }
      dfm := { learn := some ⟨1, 5, 1, .strict, .waiting⟩ } }).tsq.transport = .draining := by decide +kernel
theorem witness_OffersFollowTheQueues : (ready.chan .a).staged.phase = .empty ∧ (ready.chan .a).retryDue = none ∧
    ready.findRec 0 = some (rec0 .ready) ∧ (rec0 .ready).fillFlag = false ∧ (rec0 .ready).batch = some 5 ∧
    ready.findBatch 5 = some (rec5 .active) ∧ (ready.peer 2).state = .present ∧ ready.offerable [] = none ∧
    ready.pgs.fillQueue = [] ∧ ((paged .sending offered).chan .a).staged.phase ≠ .empty ∧
    (offerOne .b ready).txe.chanB.staged.page = some 0 := by decide +kernel
/-- Batch 5 HALTED with one failed page. -/
def halted : State :=
  { paged .failed {} with bct := { batches := [{ rec5 .halted with failedPages := 1 }] } }
theorem witness_FreedRecordReturnsItsBlocks : (paged .sent {}).findRec 0 = some (rec0 .sent) ∧
    (rec0 .sent).state ≠ .failed ∧ { rec0 .sent with batch := none }.batch = none ∧ halted.findRec 0 = some (rec0 .failed) ∧
    (rec0 .failed).fillFlag = false ∧ (freeRec 0 halted).bct.batches.map (·.state) = [.closing] ∧
    (freeRec 0 (paged .failed {})).bct.batches.map (·.state) = [.active] := by decide +kernel
theorem witness_ReadyAndDiscardedPages : (paged .ready {}).findRec 0 = some (rec0 .ready) ∧
    (∀ e ∈ (paged .ready {}).tsq.track, 0 ∉ e.pages) ∧ (rec0 .ready).discardPending = false ∧
    (paged .sending offered).findRec 0 = some (rec0 .sending) ∧ ((paged .sending offered).chan .a).staged.page = some 0 ∧
    ((paged .sending (stream 1)).chan .a).active.page = some 0 ∧ (paged .sending (stream 1)).txe.chanA.staged.page ≠ some 0 ∧
    (paged .sending (stream 1)).txe.chanB.staged.page ≠ some 0 ∧ (paged .sending (stream 1)).bursting .a = false ∧
    (leaving .none false false).bursting .a = true ∧
    insertBy (fun k => (k, 0)) 2 [1, 3] = [1, 2, 3] := by decide +kernel
theorem witness_ReadyAndDiscardedPages_keys : (paged .ready {}).pageKey 0 = (1, 0) ∧
    (settling .back).fillKey 0 = (0, 1) ∧ (settling .front).findRec 0 = some { rec0 .heldForSheet with batch := some 9, fillFlag := true } ∧
    (∀ x ∈ ([] : List Grant), x.position ≠ 1) ∧
    (fed [{ sheet with pages := [0] }]).tsq.track = [] ++ { sheet with pages := [0] } :: [] ∧
    (∀ e ∈ ready.tsq.track, 0 ∉ e.pages) ∧
    ((discardRec 0 (after (.sideEnd 0 .front) (capturing 2))).progressOf 0).mode = .drop ∧
    (discardRec 0 (after (.sideEnd 0 .front) (capturing 2))).tsq.track.map (·.pages) = [[]] := by decide +kernel

/-! ## The parts of the statements about operations -/

/-- An accepted position 1 of batch 5, in a state, with one FAILED page of the batch's two. -/
def giving (st : BatchState) (failedPages : Nat) (es : List TrackEntry) : State :=
  { paged .failed {} with
      bct := { batches := [{ rec5 st with scanned := 1, accepted := 1, failedPages }] }
      tsq := { track := es } }
theorem witness_AbandonedInBothRoles_scanner :
    (leaving .none false false).findBatch 5 = some (rec5 .active) ∧
    ((leaving .none false false).pgs.recs.map (·.id)).Nodup ∧
    (after (.abandonBatch con 5) (leaving .none false false)).pgs.recs.map (fun r => (r.state, r.discardPending)) =
      [(.sending, true)] ∧
    (after (.abandonBatch con 5) (paged .ready {})).pgs.recs = [] ∧
    atHome.findBatch 5 = some holed ∧ (after (.abandonBatch con 5) atHome).bct.fill = none ∧
    (after (.abandonBatch con 5) (fed [entered])).tsq.track.map (·.abandoned) = [true] ∧
    gw.oru.role = .gateway ∧ gw.findCommit 5 = none := by decide +kernel
theorem witness_WaiveHolesJudged_pages :
    (giving .halted 1 []).findBatch 5 = some { rec5 .halted with scanned := 1, accepted := 1, failedPages := 1 } ∧
    ((giving .halted 1 []).pgs.recs.map (·.id)).Nodup ∧ (giving .halted 1 []).holesComing 5 = 0 ∧
    (∃ q ∈ (giving .halted 1 []).pgs.recs, q.batch = some 5 ∧ q.position = some 1 ∧ q.state = .failed) ∧
    (after (.waiveHoles con 5 [1]) (giving .halted 1 [])).pgs.recs = [] ∧
    (after (.waiveHoles con 5 [1]) (giving .halted 1 [])).bct.batches.map (fun r => (r.state, r.accepted, r.failedPages)) =
      [(.closing, 0, 0)] ∧
    (after (.waiveHoles con 5 [1]) (giving .halted 1 [sheet])).bct.batches.map (·.state) = [.ended] ∧
    (after (.waiveHoles con 5 [1]) (giving .halted 2 [])).bct.batches.map (fun r => (r.state, r.failedPages)) =
      [(.halted, 1)] ∧
    (after (.waiveHoles con 5 [1]) (giving .disputed 1 [])).bct.batches.map (·.state) = [.disputed] := by decide +kernel
theorem witness_WaiveHolesJudged_coming :
    (giving .ended 0 [{ sheet with route := some .reject }]).holesComing 5 = 1 ∧
    (giving .ended 0 [{ sheet with route := some .reject, report := some ⟨true, false, .stop⟩ }]).holesComing 5 = 0 ∧
    (giving .ended 0 [{ sheet with route := some .main }]).holesComing 5 = 0 := by decide +kernel
/-- A local fill of batch 5 with its sheet at a position of the batch. -/
def homeSheet (p : Option Nat) : State :=
  { atHome with tsq := { track := [{ shown with position := p }] } }
/-- R155 check 3 comes before the claimed hole: a position that the fill's sheet holds is a bad argument (log 42). -/
theorem test_waive_position_of_a_fill_sheet :
    after (.waiveHoles con 5 [2]) (homeSheet (some 2)) = answer con .badArgument [] (homeSheet (some 2)).orderCounted ∧
    after (.waiveHoles con 5 [2]) (homeSheet none) = answer con .holeClaimed [] (homeSheet none).orderCounted ∧
    after (.waiveHoles con 5 [2]) (homeSheet (some 1)) = answer con .holeClaimed [] (homeSheet (some 1)).orderCounted := by
  decide +kernel
/-- A misfed sheet of batch 5 whose report gave it position 1. -/
def misfedAt (lost : Bool) : TrackEntry :=
  { sheet with position := some 1, storeLost := lost, report := some ⟨true, false, .none⟩ }
theorem witness_WindowsAndDiverterHandshake_position :
    (fed [misfedAt false]).tsq.tray = .empty ∧ (misfedAt false).edges.entry.lead = none ∧
    (fed [misfedAt false]).holeFits (misfedAt false) = true ∧
    (after (.pickWindowExpiry 0) (fed [misfedAt false])).bct.batches.map (·.holes.map fun x => (x.position, x.reason)) =
      [[(1, .pulled)]] ∧
    (after (.pickWindowExpiry 0) (fed [misfedAt true])).bct.batches.map (·.holes.map fun x => (x.position, x.reason)) =
      [[(1, .store)]] ∧
    ({ fed [misfedAt false] with bct := (owner fullHoles).bct } : State).holeFits (misfedAt false) = false ∧
    (after (.pickWindowExpiry 0) { fed [misfedAt false] with bct := (owner fullHoles).bct }).tsq.holdReason =
      some .holeLimit ∧
    (after (.pickWindowExpiry 0) { fed [misfedAt false] with bct := (owner fullHoles).bct }).tsq.track =
      [misfedAt false] := by decide +kernel
theorem witness_CaptureReportTaken_parts :
    ((paged .heldForSheet {}).pgs.recs.map (·.id)).Nodup ∧
    (placePages [0] 2 (paged .heldForSheet {})).pgs.recs.map (·.position) = [some 2] ∧
    (placePages [1] 2 (paged .heldForSheet {})).pgs.recs.map (·.position) = [some 1] ∧
    (owner (rec5 .active)).bct.batches = [] ++ rec5 .active :: [] ∧ (rec5 .active).number = 5 ∧
    (endActive 5 (owner (rec5 .active))).bct.batches.map (·.state) = [.ended] ∧ (rec5 .halted).state ≠ .active ∧
    (endActive 5 (owner (rec5 .halted))).bct.batches.map (·.state) = [.halted] ∧ (∀ r ∈ sc.bct.batches, r.number ≠ 5) ∧
    (drainFeed (moved .paused [sheet])).tsq.transport = .draining ∧ (moved .armed []).tsq.transport ≠ .feeding ∧
    (moved .armed []).tsq.transport ≠ .paused ∧ (drainFeed (moved .armed [])).tsq.transport = .armed := by decide +kernel
theorem witness_VerdictPointActsByPolicy_marks : ((paged .heldForSheet {}).pgs.recs.map (·.id)).Nodup ∧
    (markPages [0] (paged .heldForSheet {})).pgs.recs.map (·.mark) = [true] ∧
    (markPages [1] (paged .heldForSheet {})).pgs.recs.map (·.mark) = [false] := by decide +kernel
theorem witness_FrameHeardJudged_commands :
    commandFrame (.slotWait ⟨255, 15, 0⟩) = some ⟨⟨255, 15, 0⟩, .slotWait⟩ ∧
    RawFrame.ofBytes (Frame.bytes ⟨⟨255, 15, 0⟩, .slotWait⟩) = some ⟨⟨255, 15, 0⟩, 22, []⟩ ∧ (15 : Nat) ≠ sc.oru.address ∧
    RawFrame.ofBytes (Frame.bytes ⟨two, .presence .gateway⟩) =
      some ⟨two, (Payload.presence .gateway).kind, (Payload.presence .gateway).bytes⟩ ∧
    Payload.ofBytes (Payload.presence .gateway).kind (Payload.presence .gateway).bytes = some (.presence .gateway) := by
  decide +kernel
theorem witness_FramesByAddressLineAndRole_effect :
    commandFrame (.slotWait two) = some ⟨two, .slotWait⟩ ∧ sc.fli.rxQueue = [] ∧ sc.oru.restartDue = none ∧
    (Payload.slotWait).inRange two.src = true ∧ (Payload.pageData 1 0 [7]).owned gw.oru.role = true ∧
    (Payload.pageData 1 0 [7]).inRange two.src = true ∧ commandFrame (.pageData two 1 0 [7]) = some ⟨two, .pageData 1 0 [7]⟩ ∧
    canTake ⟨con, .order .undecodable⟩ sc = true ∧
    (accept ⟨con, .order .undecodable⟩ sc).oru.ordersTaken = 1 ∧
    accept ⟨con, .order (.query .station 5 0)⟩ sc = accept ⟨con, .order (.query .station 0 0)⟩ sc := by decide +kernel
/-- A station that still listens before it joins. -/
def listening : State := { sc with fli := { line := .listening, joinDue := some 1500 } }
theorem witness_PresenceAndSilence_listening : listening.fli.line ≠ .unaddressed ∧ two.src < listening.fli.peers.length ∧
    (after (.presence two .gateway) listening).fli.listeningDiscards = 1 ∧
    ((after (.presence two .gateway) listening).peer 2).state = .present ∧
    (after (.presence two .console) listening).fli.malformed = 1 ∧
    (after (.presence two .console) listening).fli.listeningDiscards = 0 ∧
    (after (.presence three .gateway) { listening with oru := { listening.oru with address := 4 } }).fli.listeningDiscards = 0 := by
  decide +kernel
theorem witness_GatewayEntryAndClose_slots :
    (freeBatchSlots 5 (taking .complete 1212)).ict.freeBlocks = 16384 ∧
    (freeBatchSlots 5 (taking .granted 512)).ict.slots.map (·.state) = List.replicate 48 .free ∧
    (freeBatchSlots 5 (taking .storing 1212)).ict.freeBlocks = 16383 ∧
    (freeBatchSlots 5 (taking .storing 1212)).ict.slots = (taking .storing 1212).ict.slots ∧
    (freeBatchSlots 6 (taking .complete 1212)).ict.slots = (taking .complete 1212).ict.slots := by decide +kernel
theorem witness_ClosingAnswered_fill :
    let s : State := { owner (rec5 .closing) with bct := { (owner (rec5 .closing)).bct with
      fill := some { batch := 5, owner := 1, gateway := 2, atHome := true } } }
    s.findBatch 5 = some (rec5 .closing) ∧ s.bct.fill.map (·.atHome) = some true ∧
    (after (.committed two 5) s).bct.fill = none ∧
    (after (.committed two 5) s).oru.attention = Attn.fillEnded.bit := by decide +kernel
/-- Slot 0 FREE, last held by station 2: a burst of station 3 for it is a fault that names no page. -/
theorem witness_BurstTakenOrFaulted_former :
    let sl : Slot := { former := some (2, page) }
    let s : State := { gw with ict := { gw.ict with slots := [sl] } }
    s.ict.slots = [] ++ sl :: [] ∧ sl.state = .free ∧ sl.hold = none ∧ sl.former = some (2, page) ∧ 2 ≠ three.src ∧
    (after (.pageData three 0 512 [7]) s).ict.faultsSent = 1 ∧ (after (.pageData three 0 512 [7]) s).freeNext = 1 ∧
    (after (.pageData two 0 512 [7]) s).freeNext = 0 := by decide +kernel
theorem witness_GatewayEntryAndClose_excess :
    { open5 with positions := [⟨3, true, false, some 1, false⟩, ⟨7, true, true, some 2, false⟩] }.excess 2 = 2 ∧
    { open5 with positions := [⟨3, true, false, some 1, false⟩, ⟨7, true, false, some 2, false⟩] }.excess 2 = 1 ∧
    { open5 with positions := [⟨3, true, false, some 1, false⟩] }.excess 3 = 0 := by decide

end Sys2Proof.Tests
end

section
/-! Every command keeps the invariant and the ranges of the settings (O4): START_UP and SETTINGS_LOAD make every block
anew, and every other command is `Safe`. -/

namespace Sys2Proof.Machine

variable {s : State}

/-! ## Start -/

theorem accounted_start : ({} : Ict).accounted where
  blocks := by decide
  once := by decide
  exist := by decide
  slots := by decide
  holds := by
    intro sl h
    rw [List.eq_of_mem_replicate h]
    exact Iff.intro (fun _ => rfl) fun _ => rfl
  senders := by
    intro a
    have h : (({} : Ict).slots.countP (Slot.ofSender a)) = 0 := by
      rw [List.countP_eq_zero]
      intro sl h
      rw [List.eq_of_mem_replicate h]
      simp [Slot.ofSender, Slot.inUse]
    rw [h]
    exact Nat.zero_le _
  pages := by decide
  queue := by simp
  queued := by simp

/-- A station whose blocks stand at Start, but for what ORU, FLI and DFM have been given, meets the invariant. -/
theorem inv_of_start (hq : s.fli.queuesBounded) (hp : s.fli.peers.length = 16) (hd : s.dfm.exemptions.length = 12)
    (ht : s.tsq = {}) (hb : s.bct = {}) (hg : s.pgs = {}) (hi : s.ict = {}) : s.Inv where
  queues := hq
  track := by rw [ht]; exact Nat.zero_le _
  pages := by rw [hg]; exact accounted_restartPgs [] 0 0 0 0
  intake := by rw [hi]; exact accounted_start
  commits := by rw [hi]; exact ⟨Nat.zero_le _, List.nodup_nil⟩
  tables := by rw [hb]; exact bounded_restart
  sized := ⟨hp, hd, by rw [hg]; rfl⟩
  own := by unfold State.ownListed; rw [hb]; simp
  mems := by unfold State.memoriesWf; rw [hg, hi]; simp [Memory.wf]

theorem inv_sampleStraps (straps : Nat) (role : Role) : (sampleStraps straps role s).Inv :=
  inv_of_start ⟨Nat.zero_le _, Nat.zero_le _⟩ rfl rfl rfl rfl rfl rfl

/-- An image gives twelve exemption entries, whole or not (R75). -/
theorem loadImage_exemptions (image : Option (List Byte)) (free : Nat) : (loadImage image free).2.length = 12 := by
  unfold loadImage
  split
  · split <;> simp
  · simp

theorem inv_startState (image : Option (List Byte)) : (startState image s).Inv := by
  have hline : ∀ l : Fli, (l.txQueue = [] ∧ l.rxQueue = []) ∧ l.peers.length = 16 →
      l.queuesBounded ∧ l.peers.length = 16 := by
    rintro l ⟨⟨ht, hr⟩, hp⟩
    refine ⟨⟨?_, ?_⟩, hp⟩
    · rw [ht]; exact Nat.zero_le _
    · rw [hr]; exact Nat.zero_le _
  have h : (startState image s).fli.queuesBounded ∧ (startState image s).fli.peers.length = 16 := by
    apply hline
    unfold startState
    dsimp only
    split <;> exact ⟨⟨rfl, rfl⟩, rfl⟩
  exact inv_of_start h.1 h.2 (loadImage_exemptions image s.freeNext) rfl rfl rfl rfl

/-- What follows the Start state in the settings load drives a port and raises a class. -/
theorem keeps_loaded (image : Option (List Byte)) (h : s.power = .loading) :
    Keeps (startState image s) (loadSettings image s) := by
  unfold loadSettings
  rw [if_pos h]
  dsimp only
  have hdrive : Keeps (startState image s) (match (startState image s).oru.role with
      | .scanner => (startState image s).drive (.diverter .main) | .gateway => startState image s) := by
    split
    · exact keeps_drive _ (Keeps.refl _)
    · exact Keeps.refl _
  exact keeps_ite hdrive (keeps_raise _ hdrive)

theorem loadSettings_of_not_loading (image : Option (List Byte)) (h : s.power ≠ .loading) :
    loadSettings image s = s := if_neg h

/-! ## Settings (R191) -/

theorem inRange_default : Settings.inRange {} := by
  constructor <;> decide

/-- A setting holds what both its image value, when in range, and its default have. -/
theorem setting_of {p : Nat → Prop} {ok : Bool} {v d : Nat} (hv : ok = true → p v) (hd : p d) : p (setting ok v d) := by
  unfold setting
  split
  · exact hv ‹_›
  · exact hd

theorem within_iff {lo hi v : Nat} : within lo hi v = true ↔ lo ≤ v ∧ v ≤ hi := by
  simp [within]

theorem presence_mem {n : Nat} (h : decide (n ≤ 2) = true) : 250 * 2 ^ n ∈ [250, 500, 1000] := by
  have h : n ≤ 2 := of_decide_eq_true h
  interval_cases n <;> decide

theorem silence_mem {n : Nat} (h : decide (n ≤ 3) = true) : 2 * 2 ^ n ∈ [2, 4, 8, 16] := by
  have h : n ≤ 3 := of_decide_eq_true h
  interval_cases n <;> decide

theorem inRange_settingsOf (image : List Byte) : (settingsOf image).inRange := by
  have hpause : 256 ≤ (settingsOf image).pauseLevel ∧ (settingsOf image).pauseLevel ≤ 4096 :=
    setting_of (p := fun v => 256 ≤ v ∧ v ≤ 4096) within_iff.mp (by decide)
  exact {
    presence := setting_of (p := fun v => v ∈ [250, 500, 1000]) presence_mem (by decide)
    silence := setting_of (p := fun v => v ∈ [2, 4, 8, 16]) silence_mem (by decide)
    answer := setting_of (p := fun v => 50 ≤ v ∧ v ≤ 1000) within_iff.mp (by decide)
    retry := setting_of (p := fun v => 10 ≤ v ∧ v ≤ 500) within_iff.mp (by decide)
    store := setting_of (p := fun v => 5 ≤ v ∧ v ≤ 120) within_iff.mp (by decide)
    pause := hpause
    resume := setting_of (p := fun v => (settingsOf image).pauseLevel + 256 ≤ v ∧ v ≤ 16384) within_iff.mp
      ⟨le_max_right _ _, max_le (by decide) (le_trans (Nat.add_le_add_right hpause.2 256) (by decide))⟩
    run := setting_of (p := fun v => 1 ≤ v ∧ v ≤ 8) within_iff.mp (by decide)
    length := setting_of (p := fun v => v ≤ 50) (fun h => (within_iff.mp h).2) (by decide) }

theorem inRange_loadImage (image : Option (List Byte)) (free : Nat) : (loadImage image free).1.inRange := by
  unfold loadImage
  split
  · split
    · exact inRange_settingsOf _
    · exact inRange_default
  · exact inRange_default

/-! ## Every command -/

/-- The outcome is a next state that is safe after `s`. -/
def Answers (s : State) (o : Host.Outcome State Fault Refusal) : Prop := ∃ t, o = .next t ∧ Safe s t

theorem safe_refl (s : State) : Safe s s := (Keeps.refl s).safe

theorem running_answers {f : State → State} (hf : Safe s (f s)) : Answers s (running f s) := by
  refine ⟨_, rfl, ?_⟩
  split
  · exact hf
  · exact safe_refl s

theorem scanner_answers {f : State → State} (hf : Keeps s (f s)) : Answers s (scanner f s) :=
  running_answers (keeps_ite hf (Keeps.refl s)).safe

theorem gateway_answers {f : State → State} (hf : Keeps s (f s)) : Answers s (gateway f s) :=
  running_answers (keeps_ite hf (Keeps.refl s)).safe

theorem frameIn_answers (h : Hdr) (p : Payload) : Answers s (frameIn h p s) := by
  refine running_answers ?_
  split
  · exact (keeps_conflict (Keeps.refl s)).safe
  · exact safe_arrive ⟨h, p⟩ ‹_›

/-- A command that stands for a frame enters R99 with it. -/
theorem exec_of_commandFrame (c : Instr) (f : Frame) (h : commandFrame c = some f) :
    exec c s = frameIn f.hdr f.payload s := by
  cases c <;> cases h <;> rfl

/-- The commands of Start. -/
def startCommand : Instr → Bool
  | .startUp _ _ | .settingsLoad _ => true
  | _ => false

/-- Every command but those of Start answers a next state that is safe. -/
theorem exec_answers (c : Instr) (hc : startCommand c = false) : Answers s (exec c s) := by
  have r := Keeps.refl s
  cases hf : commandFrame c with
  | some f => exact exec_of_commandFrame c f hf ▸ frameIn_answers f.hdr f.payload
  | none =>
    cases c with
    | startUp _ _ => cases hc
    | settingsLoad _ => cases hc
    | startKey => exact scanner_answers (keeps_startPressed r)
    | stopKey => exact scanner_answers (keeps_stopPressed r)
    | clearKey => exact scanner_answers (keeps_clearPressed r)
    | trayReady => exact scanner_answers (keeps_trayLoaded r)
    | trayEmpty => exact scanner_answers (keeps_trayEmptied r)
    | leadingEdge tag sn p => exact scanner_answers (keeps_leadingEdge tag sn p r)
    | trailingEdge tag sn _ m => exact scanner_answers (keeps_trailingEdge tag sn m r)
    | zoneReading tag l => exact scanner_answers (keeps_zoneReading tag l r)
    | sideBegin tag side => exact scanner_answers (keeps_sideBegin tag side r)
    | dataEvent tag side bytes => exact scanner_answers (keeps_dataEvent tag side bytes r)
    | sideEnd tag side => exact scanner_answers (keeps_sideEnd tag side r)
    | captureReport tag f b p => exact scanner_answers (keeps_captureReport tag f b p r)
    | pickWindowExpiry tag => exact scanner_answers (keeps_pickWindowExpired tag r)
    | edgeWindowExpiry tag sn k => exact scanner_answers (keeps_edgeWindowExpired tag sn k r)
    | diverterSettleTime => exact scanner_answers (keeps_settleTimeOver r)
    | readySample q => exact scanner_answers (keeps_readySampled q r)
    | readyWindowExpiry => exact scanner_answers (keeps_readyWindowOver r)
    | turnInterval => exact running_answers (keeps_ownTurn r).safe
    | frameSent => exact running_answers (keeps_sent r).safe
    | frameHeard q bytes => exact running_answers (safe_hear q bytes)
    | presence x q => exact running_answers (safe_hearPresence x q)
    | storeDone => exact gateway_answers (keeps_storeDone r)
    | storeError => exact gateway_answers (keeps_storeError r)
    | openAnswerTimeout b => exact scanner_answers (keeps_openExpired b r)
    | closeAnswerTimeout b => exact scanner_answers (keeps_closeExpired b r)
    | claimTimeout => exact scanner_answers (keeps_claimExpired r)
    | offerTimeout ch => exact scanner_answers (keeps_offerExpired ch r)
    | retryWaitExpiry ch => exact scanner_answers (keeps_retryExpired ch r)
    | storeTimerExpiry p => exact scanner_answers (keeps_storeTimerExpired p r)
    | grantLifetimeExpiry n => exact gateway_answers (keeps_lifetimeOver n r)
    | joinListenExpiry => exact running_answers (keeps_joinOver r).safe
    | presenceTimerExpiry => exact running_answers (keeps_presenceOver r).safe
    | silenceLimitExpiry a => exact running_answers (keeps_silenceOver a r).safe
    | _ => cases hf

theorem exec_inv {t : State} (c : Instr) (hi : s.Inv) (h : exec c s = .next t) : t.Inv := by
  cases hc : startCommand c with
  | false =>
    obtain ⟨u, hu, hs⟩ := exec_answers (s := s) c hc
    obtain ⟨-, -, -, -, -, -, inv⟩ := hs
    cases hu.symm.trans h
    exact inv hi
  | true =>
    cases c with
    | startUp straps role =>
      cases h
      exact inv_sampleStraps straps role
    | settingsLoad image =>
      cases h
      by_cases hl : s.power = .loading
      · exact (keeps_loaded image hl).inv (inv_startState image)
      · rw [loadSettings_of_not_loading image hl]
        exact hi
    | _ => cases hc

theorem exec_settings {t : State} (c : Instr) (hi : s.oru.settings.inRange) (h : exec c s = .next t) :
    t.oru.settings.inRange := by
  cases hc : startCommand c with
  | false =>
    obtain ⟨u, hu, hs⟩ := exec_answers (s := s) c hc
    obtain ⟨-, -, -, -, settings, -, -⟩ := hs
    cases hu.symm.trans h
    rw [settings]
    exact hi
  | true =>
    cases c with
    | startUp straps role =>
      cases h
      exact inRange_default
    | settingsLoad image =>
      cases h
      by_cases hl : s.power = .loading
      · rw [(keeps_loaded image hl).settings]
        exact inRange_loadImage image s.freeNext
      · rw [loadSettings_of_not_loading image hl]
        exact hi
    | _ => cases hc

/-! ## The step -/

theorem step_of_pending {c : Instr} {rest : List Instr} (h : s.pending = c :: rest) :
    step s = exec c { s with pending := rest } := by
  unfold step
  rw [h]

theorem step_of_none (h : s.pending = []) : step s = .next { s with now := s.now + 1 } := by
  unfold step
  rw [h]

/-- The invariant reads neither the clock nor the waiting commands. -/
theorem inv_unqueued (now : Nat) (pending : List Instr) (h : s.Inv) : { s with now, pending }.Inv :=
  ⟨h.queues, h.track, h.pages, h.intake, h.commits, h.tables, ⟨h.sized.peers, h.sized.exemptions, h.sized.progress⟩,
    h.own, h.mems⟩

/-- Settles O4: a step runs one command on a state that meets the invariant still. -/
theorem stepKeepsInv : Obligations.StepKeepsInv := by
  unfold Obligations.StepKeepsInv
  constructor
  · intro s t hi h
    cases hp : s.pending with
    | nil =>
      rw [step_of_none hp] at h
      cases h
      exact inv_unqueued _ s.pending hi
    | cons c rest =>
      rw [step_of_pending hp] at h
      exact exec_inv c (inv_unqueued s.now rest hi) h
  · intro s t hi h
    cases hp : s.pending with
    | nil =>
      rw [step_of_none hp] at h
      cases h
      exact hi
    | cons c rest =>
      rw [step_of_pending hp] at h
      exact exec_settings (s := { s with pending := rest }) c hi h

end Sys2Proof.Machine
end

section
/-! What an order from the console comes to at a scanner, and the tests on a batch that takes no more sheets: END BATCH
and CLOSE AGAIN (O13), the withdrawal of a feed, the ENDED test and the close test (O14), and a page record freed
(O59). -/

namespace Sys2Proof.Machine

variable {s : State}

/-! ## Orders at a scanner -/

/-- An order of the scanner's blocks that passes ORU's checks is answered with what its owner makes of it. -/
theorem exec_answered {c : Instr} {h : Hdr} {o : Order} {r : ResultCode × State} (hf : commandFrame c = some ⟨h, .order o⟩)
    (hc : s.consoleOrder h) (ha : o.argsOk = true) (ho : o.owned s.oru.role = true)
    (hr : runOrder h o s.orderCounted = answer h r.1 [] r.2) : exec c s = .next (answer h r.1 [] r.2) := by
  rw [exec_of_commandFrame c _ hf]
  exact (frameIn_runOrder h o hc ha ho).trans (congrArg _ hr)

theorem exec_endBatch {h : Hdr} {b : Nat} (hc : s.consoleOrder h) (hr : s.oru.role = .scanner) :
    exec (.endBatch h b) s =
      .next (answer h (endBatch b s.orderCounted).1 [] (endBatch b s.orderCounted).2) :=
  exec_answered rfl hc rfl (by rw [hr]; rfl) rfl

theorem exec_closeAgain {h : Hdr} {b : Nat} (hc : s.consoleOrder h) (hr : s.oru.role = .scanner) :
    exec (.closeAgain h b) s =
      .next (answer h (closeAgain b s.orderCounted).1 [] (closeAgain b s.orderCounted).2) :=
  exec_answered rfl hc rfl (by rw [hr]; rfl) rfl

/-! ## END BATCH and CLOSE AGAIN by the state of the batch -/

theorem endBatch_of_none {b : Nat} (hb : s.findBatch b = none) : endBatch b s = (.unknownBatch, s) := by
  simp only [endBatch, hb]

theorem endBatch_of_active {b : Nat} {r : BatchRec} (hb : s.findBatch b = some r) (hs : r.state = .active) :
    endBatch b s = (.accepted, endedTest b (withdrawBatch b (s.updBatch b fun r => { r with state := .ended }))) := by
  simp only [endBatch, hb, hs]

theorem endBatch_of_ended {b : Nat} {r : BatchRec} (hb : s.findBatch b = some r)
    (hs : r.state = .ended ∨ r.state = .halted) : endBatch b s = (.accepted, s) := by
  rcases hs with hs | hs <;> simp only [endBatch, hb, hs]

theorem endBatch_of_other {b : Nat} {r : BatchRec} (hb : s.findBatch b = some r) (ha : r.state ≠ .active)
    (he : r.state ≠ .ended) (hh : r.state ≠ .halted) : endBatch b s = (.badState, s) := by
  cases hs : r.state <;> simp_all [endBatch]

theorem closeAgain_of_none {b : Nat} (hb : s.findBatch b = none) : closeAgain b s = (.unknownBatch, s) := by
  simp only [closeAgain, hb]

theorem closeAgain_of_disputed {b : Nat} {r : BatchRec} (hb : s.findBatch b = some r) (hs : r.state = .disputed) :
    closeAgain b s = (.accepted, closeTest b (s.updBatch b fun r => { r with state := .reconciling })) := by
  simp only [closeAgain, hb, hs, if_true]

theorem closeAgain_of_other {b : Nat} {r : BatchRec} (hb : s.findBatch b = some r) (hs : r.state ≠ .disputed) :
    closeAgain b s = (.badState, s) := by
  simp only [closeAgain, hb, hs, if_false]

/-- Settles O13, by the state of the batch. -/
theorem endBatchAndCloseAgain : Obligations.EndBatchAndCloseAgain := by
  unfold Obligations.EndBatchAndCloseAgain
  constructor
  · intro h b s hc hr
    rw [exec_endBatch hc hr]
    refine ⟨fun hb => ?_, fun r hb => ⟨fun hs => ?_, fun hs => ?_, fun ha he hh => ?_⟩⟩
    · rw [endBatch_of_none (s := s.orderCounted) hb]
    · rw [endBatch_of_active (s := s.orderCounted) hb hs]
    · rw [endBatch_of_ended (s := s.orderCounted) hb hs]
    · rw [endBatch_of_other (s := s.orderCounted) hb ha he hh]
  · intro h b s hc hr
    rw [exec_closeAgain hc hr]
    refine ⟨fun hb => ?_, fun r hb => ⟨fun hs => ?_, fun hs => ?_⟩⟩
    · rw [closeAgain_of_none (s := s.orderCounted) hb]
    · rw [closeAgain_of_disputed (s := s.orderCounted) hb hs]
    · rw [closeAgain_of_other (s := s.orderCounted) hb hs]

/-! ## The withdrawal of a feed (R34, R35) -/

theorem withdrawBatch_of_other {b : Nat} (hf : ¬ (s.tsq.feedMode = some .batch ∧ s.tsq.fedBatch = some b)) :
    withdrawBatch b s = s := if_neg hf

/-- A withdrawal of the fed batch by the state of the transport: what stops at once, what drains, and what is left. -/
theorem withdrawBatch_of_fed {b : Nat} (hf : s.tsq.feedMode = some .batch ∧ s.tsq.fedBatch = some b) :
    withdrawBatch b s = if drainedNow s (feedStops s) then toIdle (feedStops s) else feedStops s := if_pos hf

theorem feedStops_of_fed (h : s.tsq.transport = .feeding ∨ s.tsq.transport = .paused) :
    feedStops s = { s with tsq := { s.tsq with transport := .draining } } := by
  rcases h with h | h <;> simp only [feedStops, h, State.modTsq]

/-- A feed that was not in DRAINING passes through it at once exactly with an empty track. -/
theorem drainedNow_of_fed (h : s.tsq.transport = .feeding ∨ s.tsq.transport = .paused) :
    drainedNow s { s with tsq := { s.tsq with transport := .draining } } = s.tsq.track.isEmpty := by
  rcases h with h | h <;> simp [drainedNow, State.drained, h]

theorem drainedNow_self : drainedNow s s = false := by
  cases h : s.tsq.transport <;> simp [drainedNow, State.drained, h]

theorem withdrawBatch_of_armed {b : Nat} (hf : s.tsq.feedMode = some .batch ∧ s.tsq.fedBatch = some b)
    (h : s.tsq.transport = .armed) : withdrawBatch b s = toIdle s := by
  have hstop : feedStops s = toIdle s := by simp only [feedStops, h]
  have hnow : drainedNow s (toIdle s) = false := by simp [drainedNow, State.drained, toIdle]
  rw [withdrawBatch_of_fed hf, hstop, hnow, if_neg Bool.false_ne_true]

theorem withdrawBatch_of_feeding {b : Nat} (hf : s.tsq.feedMode = some .batch ∧ s.tsq.fedBatch = some b)
    (h : s.tsq.transport = .feeding ∨ s.tsq.transport = .paused) :
    withdrawBatch b s = if s.tsq.track.isEmpty then toIdle s
      else { s with tsq := { s.tsq with transport := .draining } } := by
  rw [withdrawBatch_of_fed hf, feedStops_of_fed h, drainedNow_of_fed h]
  rfl

theorem withdrawBatch_of_still {b : Nat} (hf : s.tsq.feedMode = some .batch ∧ s.tsq.fedBatch = some b)
    (h : s.tsq.transport = .held ∨ s.tsq.transport = .idle) : withdrawBatch b s = s := by
  have hstop : feedStops s = s := by rcases h with h | h <;> simp only [feedStops, h]
  rw [withdrawBatch_of_fed hf, hstop, drainedNow_self, if_neg Bool.false_ne_true]

/-! ## The ENDED test and the close test (R20, R170, R171) -/

theorem number_of_findBatch {b : Nat} {r : BatchRec} (h : s.findBatch b = some r) : r.number = b := by
  simpa using List.find?_some h

theorem boundCount_eq_zero {b : Nat} : s.boundCount b = 0 ↔ ∀ e ∈ s.tsq.track, e.boundTo b = false := by
  simp [State.boundCount, List.countP_eq_zero]

theorem pagesOf_eq_zero {b : Nat} : s.pagesOf b = 0 ↔ ∀ p ∈ s.pgs.recs, p.batch ≠ some b := by
  simp [State.pagesOf, List.countP_eq_zero]

theorem holesSettled_iff {hs : List Hole} : holesSettled hs = true ↔ ∀ x ∈ hs, x.state = .filled ∨ x.state = .waived := by
  simp [holesSettled]

theorem endedTest_of_some {b : Nat} {r : BatchRec} (h : s.findBatch b = some r) :
    endedTest b s = if r.state = .ended ∧ s.boundCount b = 0 then
      closeTest b (s.updBatch b fun r => { r with state := .reconciling }) else s := by
  simp only [endedTest, h]

theorem endedTest_of_ended {b : Nat} {r : BatchRec} (h : s.findBatch b = some r) (hs : r.state = .ended)
    (hb : ∀ e ∈ s.tsq.track, e.boundTo b = false) :
    endedTest b s = closeTest b (s.updBatch b fun r => { r with state := .reconciling }) := by
  rw [endedTest_of_some h, if_pos ⟨hs, boundCount_eq_zero.mpr hb⟩]

theorem endedTest_of_other {b : Nat} {r : BatchRec} (h : s.findBatch b = some r)
    (ho : r.state ≠ .ended ∨ ∃ e ∈ s.tsq.track, e.boundTo b = true) : endedTest b s = s := by
  rw [endedTest_of_some h, if_neg]
  rintro ⟨hs, hb⟩
  rcases ho with ho | ⟨e, he, hbound⟩
  · exact ho hs
  · exact Bool.false_ne_true ((boundCount_eq_zero.mp hb e he).symm.trans hbound)

theorem closeTest_of_some {b : Nat} {r : BatchRec} (h : s.findBatch b = some r) :
    closeTest b s = if r.state = .reconciling ∧ holesSettled r.holes ∧ s.pagesOf b = 0 then sendClose r s else s := by
  simp only [closeTest, h]

theorem closeTest_of_ready {b : Nat} {r : BatchRec} (h : s.findBatch b = some r) (hs : r.state = .reconciling)
    (hh : ∀ x ∈ r.holes, x.state = .filled ∨ x.state = .waived) (hp : ∀ p ∈ s.pgs.recs, p.batch ≠ some b) :
    closeTest b s = sendClose r s := by
  rw [closeTest_of_some h, if_pos ⟨hs, holesSettled_iff.mpr hh, pagesOf_eq_zero.mpr hp⟩]

theorem closeTest_of_other {b : Nat} {r : BatchRec} (h : s.findBatch b = some r)
    (ho : r.state ≠ .reconciling ∨ (∃ x ∈ r.holes, x.state = .vacant ∨ x.state = .claimed) ∨
      ∃ p ∈ s.pgs.recs, p.batch = some b) : closeTest b s = s := by
  rw [closeTest_of_some h, if_neg]
  rintro ⟨hs, hh, hp⟩
  rcases ho with ho | ⟨x, hx, ho⟩ | ⟨p, hq, hb⟩
  · exact ho hs
  · rcases holesSettled_iff.mp hh x hx with hx | hx <;> rw [hx] at ho <;> rcases ho with ho | ho <;> cases ho
  · exact pagesOf_eq_zero.mp hp p hq hb

/-- Settles O14, clause by clause of the three operations. -/
theorem endedReconcilesAndReadyCloses : Obligations.EndedReconcilesAndReadyCloses := by
  unfold Obligations.EndedReconcilesAndReadyCloses
  refine ⟨fun b s => ?_, fun b r s hb => ⟨endedTest_of_ended hb, endedTest_of_other hb, fun hs hh hp => ?_,
    closeTest_of_other hb⟩⟩
  · refine ⟨withdrawBatch_of_other, withdrawBatch_of_armed, fun hf ht hne => ?_, fun hf ht he => ?_,
      withdrawBatch_of_still⟩
    · rw [withdrawBatch_of_feeding hf ht, if_neg (by simpa using hne)]
    · rw [withdrawBatch_of_feeding hf ht, if_pos (by simpa using he)]
      rfl
  · rw [closeTest_of_ready hb hs hh hp]
    have hn := number_of_findBatch hb
    subst hn
    rfl

/-! ## A page record freed (R91, R22) -/

/-- The level-tested state in which a record has left the page store, its blocks and itself back in the pools. -/
def State.recFreed (s : State) (id : Nat) (r : PageRec) : State :=
  levelTest { s with pgs := { s.pgs with
    recs := s.pgs.recs.eraseP (·.id == id)
    recPool := s.pgs.recPool ++ [id]
    freeRecs := s.pgs.freeRecs + 1
    freeBlocks := s.pgs.freeBlocks + r.blocks.length
    queues := s.pgs.queues.map fun q => { q with pages := q.pages.filter (· != id) }
    fillQueue := s.pgs.fillQueue.filter (· != id) } }

/-- The batch's last record freed lets the close condition be tested (R91, R170). -/
def State.lastFreed (s : State) (b : Nat) : State :=
  if s.pgs.recs.countP (·.batch == some b) = 0 then closeTest b s else s

theorem freeRec_of_some {id : Nat} {r : PageRec} (h : s.findRec id = some r) :
    freeRec id s = match r.batch with
      | none => s.recFreed id r
      | some b => (if r.state = .failed ∧ ¬ r.fillFlag then haltEndTest b (lowerFailed b (s.recFreed id r))
          else s.recFreed id r).lastFreed b := by
  simp only [freeRec, h]
  rfl

theorem freeRec_of_bare {id : Nat} {r : PageRec} (h : s.findRec id = some r) (hb : r.batch = none) :
    freeRec id s = s.recFreed id r := by
  rw [freeRec_of_some h, hb]

theorem freeRec_of_unfailed {id b : Nat} {r : PageRec} (h : s.findRec id = some r) (hb : r.batch = some b)
    (hf : r.state ≠ .failed ∨ r.fillFlag = true) : freeRec id s = (s.recFreed id r).lastFreed b := by
  have hno : ¬ (r.state = .failed ∧ ¬ r.fillFlag) := by
    rintro ⟨hs, hflag⟩
    exact hf.elim (absurd hs) hflag
  rw [freeRec_of_some h, hb]
  dsimp only
  rw [if_neg hno]

theorem freeRec_of_failed {id b : Nat} {r : PageRec} (h : s.findRec id = some r) (hb : r.batch = some b)
    (hs : r.state = .failed) (hf : r.fillFlag = false) :
    freeRec id s = (haltEndTest b (lowerFailed b (s.recFreed id r))).lastFreed b := by
  rw [freeRec_of_some h, hb]
  dsimp only
  rw [if_pos ⟨hs, by simp [hf]⟩]

theorem haltEndTest_of_halted {b : Nat} {x : BatchRec} (h : s.findBatch b = some x) (hs : x.state = .halted)
    (hf : x.failedPages = 0) :
    haltEndTest b s = endedTest b (s.updBatch b fun r => { r with state := .ended }) := by
  simp only [haltEndTest, h]
  rw [if_pos ⟨hs, hf⟩]

theorem haltEndTest_of_other {b : Nat}
    (h : ∀ x, s.findBatch b = some x → x.state ≠ .halted ∨ x.failedPages ≠ 0) : haltEndTest b s = s := by
  cases hb : s.findBatch b with
  | none => simp only [haltEndTest, hb]
  | some x =>
    simp only [haltEndTest, hb]
    rw [if_neg fun hx => (h x hb).elim (absurd hx.1) (absurd hx.2)]

/-- Settles O59, by the batch of the record and by what becomes of its count. -/
theorem freedRecordReturnsItsBlocks : Obligations.FreedRecordReturnsItsBlocks := by
  unfold Obligations.FreedRecordReturnsItsBlocks
  intro id r s h
  refine ⟨freeRec_of_bare h, fun b hb hf => freeRec_of_unfailed h hb hf, fun b hb hs hf => ⟨fun x hx hh hz => ?_,
    fun ho => ?_⟩⟩
  · rw [freeRec_of_failed h hb hs hf]
    exact congrArg (State.lastFreed · b) (haltEndTest_of_halted hx hh hz)
  · rw [freeRec_of_failed h hb hs hf]
    exact congrArg (State.lastFreed · b) (haltEndTest_of_other ho)

end Sys2Proof.Machine
end

section
/-! Rules for keyed updates of tables and for what a handed frame, a raised class and a removed fill leave, and with
them the answers to BATCH OPEN (O42), the room batch directory (O41) and RESTART (O21). -/

namespace Sys2Proof.Machine

variable {s : State}

/-! ## Keyed updates -/

/-- The first element that meets the test, in a list split there, is the one that changes. -/
theorem updFirst_append_cons {α : Type} {p : α → Bool} {f : α → α} {l m : List α} {x : α}
    (hl : ∀ y ∈ l, p y = false) (hx : p x = true) : updFirst p f (l ++ x :: m) = l ++ f x :: m := by
  induction l with
  | nil => simp [updFirst, hx]
  | cons y l ih =>
    have hy : p y = false := hl y List.mem_cons_self
    simp [updFirst, hy, ih fun z hz => hl z (List.mem_cons_of_mem _ hz)]

theorem find?_append_cons {α : Type} {p : α → Bool} {l m : List α} {x : α} (hl : ∀ y ∈ l, p y = false)
    (hx : p x = true) : (l ++ x :: m).find? p = some x := by
  rw [List.find?_append, List.find?_eq_none.mpr fun y hy => by simp [hl y hy], Option.none_or, List.find?_cons_of_pos hx]

theorem updFirst_of_none {α : Type} {p : α → Bool} {f : α → α} {l : List α} (hl : ∀ y ∈ l, p y = false) :
    updFirst p f l = l := by
  induction l with
  | nil => rfl
  | cons y l ih =>
    have hy : p y = false := hl y List.mem_cons_self
    simp [updFirst, hy, ih fun z hz => hl z (List.mem_cons_of_mem _ hz)]

/-- Two updates under one key, of which the first keeps the key, are one. -/
theorem updFirst_updFirst {α : Type} {p : α → Bool} {f g : α → α} (h : ∀ x, p x = true → p (f x) = true) (l : List α) :
    updFirst p g (updFirst p f l) = updFirst p (fun x => g (f x)) l := by
  induction l with
  | nil => rfl
  | cons x l ih =>
    by_cases hx : p x = true
    · simp [updFirst, hx, h x hx]
    · simp [updFirst, hx, ih]

/-- An update acts on the element found alone. -/
theorem updFirst_congr_found {α : Type} {p : α → Bool} {f g : α → α} {l : List α} {x : α} (h : l.find? p = some x)
    (hx : f x = g x) : updFirst p f l = updFirst p g l := by
  induction l with
  | nil => rfl
  | cons y l ih =>
    by_cases hy : p y = true
    · rw [List.find?_cons_of_pos hy] at h
      cases h
      simp [updFirst, hy, hx]
    · rw [List.find?_cons_of_neg hy] at h
      simp [updFirst, hy, ih h]

/-- The state with another batch table. -/
def State.withBatches (s : State) (l : List BatchRec) : State := { s with bct := { s.bct with batches := l } }

theorem updBatch_eq (b : Nat) (f : BatchRec → BatchRec) :
    s.updBatch b f = s.withBatches (updFirst (·.number == b) f s.bct.batches) := rfl

theorem updBatch_updBatch (b : Nat) (f g : BatchRec → BatchRec) (hf : ∀ r, (f r).number = r.number) :
    (s.updBatch b f).updBatch b g = s.updBatch b fun r => g (f r) :=
  congrArg s.withBatches (updFirst_updFirst (fun r hr => by simpa [hf r] using hr) s.bct.batches)

theorem updBatch_congr {b : Nat} {f g : BatchRec → BatchRec} {r : BatchRec} (h : s.findBatch b = some r)
    (hr : f r = g r) : s.updBatch b f = s.updBatch b g :=
  congrArg s.withBatches (updFirst_congr_found h hr)

/-! ## What a handed frame and a raised class leave -/

theorem hand_frame (d t : Nat) (p : Payload) (s : State) :
    (hand d t p s).bct = s.bct ∧ (hand d t p s).oru = s.oru ∧ (hand d t p s).now = s.now ∧
      (hand d t p s).tsq = s.tsq ∧ (hand d t p s).txe = s.txe := by
  unfold hand
  split
  iterate 2 (split <;> exact ⟨rfl, rfl, rfl, rfl, rfl⟩)
  all_goals exact ⟨rfl, rfl, rfl, rfl, rfl⟩

@[simp] theorem hand_bct (d t : Nat) (p : Payload) (s : State) : (hand d t p s).bct = s.bct := (hand_frame d t p s).1
@[simp] theorem hand_oru (d t : Nat) (p : Payload) (s : State) : (hand d t p s).oru = s.oru := (hand_frame d t p s).2.1
@[simp] theorem hand_now (d t : Nat) (p : Payload) (s : State) : (hand d t p s).now = s.now :=
  (hand_frame d t p s).2.2.1
@[simp] theorem hand_tsq (d t : Nat) (p : Payload) (s : State) : (hand d t p s).tsq = s.tsq :=
  (hand_frame d t p s).2.2.2.1
@[simp] theorem hand_txe (d t : Nat) (p : Payload) (s : State) : (hand d t p s).txe = s.txe :=
  (hand_frame d t p s).2.2.2.2

@[simp] theorem tell_bct (d : Nat) (p : Payload) (s : State) : (tell d p s).bct = s.bct := hand_bct d 0 p s
@[simp] theorem tell_oru (d : Nat) (p : Payload) (s : State) : (tell d p s).oru = s.oru := hand_oru d 0 p s
@[simp] theorem tell_now (d : Nat) (p : Payload) (s : State) : (tell d p s).now = s.now := hand_now d 0 p s

@[simp] theorem raise_bct (c : Attn) (s : State) : (raise c s).bct = s.bct := by
  unfold raise; split <;> simp
@[simp] theorem raise_now (c : Attn) (s : State) : (raise c s).now = s.now := by
  unfold raise; split <;> simp
@[simp] theorem raise_tsq (c : Attn) (s : State) : (raise c s).tsq = s.tsq := by
  unfold raise; split <;> simp [tell]
@[simp] theorem raise_settings (c : Attn) (s : State) : (raise c s).oru.settings = s.oru.settings := by
  unfold raise; split <;> simp
@[simp] theorem raise_pages (c : Attn) (s : State) : (raise c s).pgs = s.pgs := raise_pgs s c

/-! ## The end of a fill turns no clock -/

@[simp] theorem ownerRelease_now (a b : Nat) (final : Bool) (ps : List Nat) (s : State) :
    (ownerRelease a b final ps s).now = s.now := by
  unfold ownerRelease
  split
  · rfl
  · split <;> rfl

@[simp] theorem sendRelease_now (j : FillJob) (final : Bool) (s : State) : (sendRelease j final s).now = s.now := by
  unfold sendRelease
  split <;> simp

@[simp] theorem removeJob_now (j : FillJob) (s : State) : (removeJob j s).now = s.now := by
  simp [removeJob]

@[simp] theorem feedStops_now (s : State) : (feedStops s).now = s.now := by
  unfold feedStops
  split <;> rfl

@[simp] theorem withdrawFill_now (s : State) : (withdrawFill s).now = s.now := by
  unfold withdrawFill
  split <;> simp

@[simp] theorem withdrawEnding_now (s : State) : (withdrawEnding s).now = s.now := by
  unfold withdrawEnding
  dsimp only
  split <;> simp [toIdle]

@[simp] theorem collectReleases_now (s : State) : (collectReleases s).now = s.now := rfl

@[simp] theorem fillEnd_now (c : EndCause) (r : Option HoleRefusal) (s : State) : (fillEnd c r s).now = s.now := by
  unfold fillEnd
  split
  · split
    · dsimp only
      split
      · split
        · split <;> simp
        · simp
      · simp
    · rfl
  · rfl

@[simp] theorem ownerGone_now (b : Nat) (s : State) : (ownerGone b s).now = s.now := by
  unfold ownerGone
  split
  · split <;> simp
  · rfl

theorem ownerGone_of_other {b : Nat} (h : ∀ j, s.bct.fill = some j → ¬ (j.atHome = true ∧ j.batch = b)) :
    ownerGone b s = s := by
  cases hj : s.bct.fill with
  | none => simp only [ownerGone, hj]
  | some j =>
    simp only [ownerGone, hj]
    rw [if_neg (h j hj)]

/-! ## A batch in OPENING refused (R9) -/

/-- The state in which a record has become REFUSED: its terminal order, its cause, and its queue gone. -/
def State.refusedRecord (s : State) (b : Nat) (cause : RefusalCause) : State :=
  { s with
    bct := { s.bct with
      terminalNext := s.bct.terminalNext + 1
      batches := updFirst (·.number == b) (fun r => { r with
        state := .refused, terminalOrder := some s.bct.terminalNext, refusalCause := some cause
        openAsk := none }) s.bct.batches }
    pgs := { s.pgs with queues := s.pgs.queues.filter (·.batch != b) } }

theorem refused_record (b : Nat) (cause : RefusalCause) :
    (enterTerminal b .refused s).updBatch b (fun r => { r with refusalCause := some cause, openAsk := none }) =
      s.refusedRecord b cause :=
  congrArg (fun l => ({ s with
    bct := { s.bct with terminalNext := s.bct.terminalNext + 1, batches := l }
    pgs := { s.pgs with queues := s.pgs.queues.filter (·.batch != b) } } : State))
    (updFirst_updFirst (p := (·.number == b))
      (f := fun r : BatchRec => { r with state := .refused, terminalOrder := some s.bct.terminalNext })
      (g := fun r : BatchRec => { r with refusalCause := some cause, openAsk := none })
      (fun _ h => h) s.bct.batches)

theorem refuseBatch_of_some {b : Nat} {cause : RefusalCause} {abandon : Bool} {r : BatchRec}
    (h : s.findBatch b = some r) :
    refuseBatch b cause abandon s = ownerGone b (raise .batchRefused (removeDir b s.oru.address
      (tell Config.everyStation (.batchGone b)
        (if abandon then tell r.gateway (.abandon b) (s.refusedRecord b cause) else s.refusedRecord b cause)))) := by
  simp only [refuseBatch, h, refused_record]
  have hold : (if abandon = true then tell r.gateway (.abandon b) (s.refusedRecord b cause)
      else s.refusedRecord b cause).oru = s.oru := by split <;> simp [State.refusedRecord]
  rw [hold]

@[simp] theorem refuseBatch_now (b : Nat) (cause : RefusalCause) (abandon : Bool) (s : State) :
    (refuseBatch b cause abandon s).now = s.now := by
  cases h : s.findBatch b with
  | none => simp only [refuseBatch, h]
  | some r =>
    rw [refuseBatch_of_some h]
    cases abandon <;> simp [removeDir, State.refusedRecord]

theorem refuseBatch_of_no_fill {b : Nat} {cause : RefusalCause} {abandon : Bool} {r : BatchRec}
    (h : s.findBatch b = some r) (hf : ∀ j, s.bct.fill = some j → ¬ (j.atHome = true ∧ j.batch = b)) :
    refuseBatch b cause abandon s = raise .batchRefused (removeDir b s.oru.address
      (tell Config.everyStation (.batchGone b)
        (if abandon then tell r.gateway (.abandon b) (s.refusedRecord b cause) else s.refusedRecord b cause))) := by
  rw [refuseBatch_of_some h, ownerGone_of_other]
  have hfill : (if abandon = true then tell r.gateway (.abandon b) (s.refusedRecord b cause)
      else s.refusedRecord b cause).bct.fill = s.bct.fill := by split <;> simp [State.refusedRecord]
  simpa [removeDir, hfill] using hf

/-! ## The answers to BATCH OPEN and their timeout (R5, R6) -/

theorem batchOk_of {b : Nat} (h1 : 1 ≤ b) (h2 : b ≤ 16777215) : batchOk b = true := by
  simp [batchOk, Config.maxBatch, h1, h2]

theorem gatewayOk_of {g : Nat} (h1 : 1 ≤ g) (h2 : g ≤ 15) : gatewayOk g = true := by
  simp [gatewayOk, h1, h2]

/-- A frame command of a scanner's kind, taken by a scanner that listens. -/
theorem exec_taken {c : Instr} {f : Frame} (hf : commandFrame c = some f) (hl : s.listens) (hh : s.reached f.hdr)
    (hr : f.payload.inRange f.hdr.src = true) (ho : f.payload.owned s.oru.role = true)
    (hn : ∀ o, f.payload ≠ .order o) : exec c s = .next (take f s) := by
  rw [exec_of_commandFrame c f hf]
  exact frameIn_block f.hdr f.payload hl hh hr ho hn

theorem openAnswered_iff {h : Hdr} {b : Nat} : s.openAnswered h b = true ↔
    ∃ r, s.findBatch b = some r ∧ r.state = .opening ∧ r.openAsk = some h.tag ∧ r.gateway = h.src := by
  simp [State.openAnswered, Option.any_eq_true, and_assoc]

theorem openExpired_of_none {b : Nat} (h : s.findBatch b = none) : openExpired b s = s := by
  simp only [openExpired, h]

theorem openExpired_of_other {b : Nat} {r : BatchRec} (h : s.findBatch b = some r)
    (ho : r.state ≠ .opening ∨ r.openAsk = none) : openExpired b s = s := by
  simp only [openExpired, h]
  rw [if_neg]
  rintro ⟨hs, ha⟩
  rcases ho with ho | ho
  · exact ho hs
  · rw [ho] at ha; cases ha

theorem openExpired_of_waiting {b : Nat} {r : BatchRec} (h : s.findBatch b = some r) (hs : r.state = .opening)
    (ha : r.openAsk ≠ none) : openExpired b s = refuseBatch b .noAnswer true (s.advanceTo r.openDue) := by
  simp only [openExpired, h]
  rw [if_pos ⟨hs, Option.isSome_iff_ne_none.mpr ha⟩]

/-- Settles O42: the refusal, then the three commands by the record in OPENING that waits for them. -/
theorem openingAnswered : Obligations.OpeningAnswered := by
  unfold Obligations.OpeningAnswered
  refine ⟨fun b cause abandon r s h hf => refuseBatch_of_no_fill h hf, fun h b reason s hs h1 h2 => ?_⟩
  have expires : exec (.openAnswerTimeout b) s = .next (openExpired b s) := scanner_next _ hs
  refine ⟨fun hn => ?_, fun r hr => ⟨fun ho => ?_, fun hst ha => ?_⟩, fun hl hh => ?_⟩
  · rw [expires, openExpired_of_none hn]
  · rw [expires, openExpired_of_other hr ho]
  · rw [expires, openExpired_of_waiting hr hst ha]
    rfl
  · have accepts : exec (.openAccept h b) s = .next (takeOpenAccept h b s) :=
      exec_taken (f := ⟨h, .openAccept b⟩) rfl hl hh (batchOk_of h1 h2) (by rw [hs.2]; rfl) (by simp)
    have refuses : exec (.openRefuse h b reason) s = .next (takeOpenRefuse h b reason s) :=
      exec_taken (f := ⟨h, .openRefuse b reason⟩) rfl hl hh (batchOk_of h1 h2) (by rw [hs.2]; rfl) (by simp)
    rw [accepts, refuses]
    unfold takeOpenAccept takeOpenRefuse
    refine ⟨fun hno => ?_, fun r hr hw => ?_⟩
    · have : ¬ s.openAnswered h b = true := fun ha => by
        obtain ⟨r, hr, hw⟩ := openAnswered_iff.mp ha
        exact hno r hr hw
      rw [if_neg this, if_neg this]
      exact ⟨rfl, rfl⟩
    · have : s.openAnswered h b = true := openAnswered_iff.mpr ⟨r, hr, hw⟩
      rw [if_pos this, if_pos this]
      exact ⟨rfl, by cases reason <;> rfl⟩

/-! ## The room batch directory (R26, R8, R167) -/

theorem dropForeign_append_cons {own : Nat} {before after : List DirEntry} {d : DirEntry}
    (hb : ∀ x ∈ before, x.owner = own) (hd : d.owner ≠ own) :
    dropForeign own (before ++ d :: after) = before ++ after := by
  induction before with
  | nil => simp [dropForeign, hd]
  | cons x before ih =>
    have hx : x.owner = own := hb x List.mem_cons_self
    simp [dropForeign, hx, ih fun y hy => hb y (List.mem_cons_of_mem _ hy)]

theorem setDir_of_room {e : DirEntry} (h : (s.bct.directory.filter (·.batch != e.batch)).length < 64) :
    setDir e s = { s with bct := { s.bct with directory := s.bct.directory.filter (·.batch != e.batch) ++ [e] } } := by
  unfold setDir State.modBct
  simp only [Config.directoryEntries, h, if_true]

/-- A full directory loses the entry last heard longest ago that is not this station's. -/
theorem setDir_of_full {e d : DirEntry} {before after : List DirEntry}
    (hs : s.bct.directory.filter (·.batch != e.batch) = before ++ d :: after) (hl : 64 ≤ (before ++ d :: after).length)
    (hd : d.owner ≠ s.oru.address) (hb : ∀ x ∈ before, x.owner = s.oru.address) :
    setDir e s = { s with bct := { s.bct with directory := before ++ after ++ [e] } } := by
  unfold setDir State.modBct
  simp only [hs, Config.directoryEntries, dropForeign_append_cons hb hd]
  rw [if_neg (by omega)]

/-- A directory frame is taken by a scanner in LISTENING as by one that has joined (R100). -/
theorem exec_directory {c : Instr} {h : Hdr} {p : Payload} (hf : commandFrame c = some ⟨h, p⟩) (hs : s.scans)
    (hl : s.listens ∨ (s.power = .running ∧ s.fli.line = .listening ∧ s.fli.rxQueue = [])) (hh : s.reached h)
    (hr : p.inRange h.src = true) (hd : directoryFrame p = true) : exec c s = .next (take ⟨h, p⟩ s) := by
  rcases hl with hl | hl
  · refine exec_taken hf hl hh hr ?_ ?_
    · rw [hs.2]; cases p <;> cases hd <;> rfl
    · rintro o rfl; cases hd
  · rw [exec_of_commandFrame c _ hf]
    exact frameIn_directory h p hs hl hh hr hd

/-- The directory shows the batch as this station's own. -/
def State.ownsEntry (s : State) (b : Nat) : Prop := ∃ d, s.findDir b = some d ∧ d.owner = s.oru.address

theorem ownsEntry_iff {b : Nat} : (s.findDir b).any (·.owner == s.oru.address) = true ↔ s.ownsEntry b := by
  simp [State.ownsEntry, Option.any_eq_true]

/-- A record in OPENING that a BATCH OPEN of a lower address withdraws (R8). -/
def State.yields (s : State) (h : Hdr) (b : Nat) : Prop :=
  ∃ r, s.findBatch b = some r ∧ r.state = .opening ∧ h.src < s.oru.address

theorem yields_iff {h : Hdr} {b : Nat} :
    ((s.findBatch b).any (·.state == .opening) = true ∧ h.src < s.oru.address) ↔ s.yields h b := by
  simp only [State.yields, Option.any_eq_true, beq_iff_eq]
  constructor
  · rintro ⟨⟨r, hr, hs⟩, hlt⟩
    exact ⟨r, hr, hs, hlt⟩
  · rintro ⟨r, hr, hs, hlt⟩
    exact ⟨⟨r, hr, hs⟩, hlt⟩

theorem takeBatchOpenHeard_of_stays {h : Hdr} {b g : Nat} (hy : ¬ s.yields h b) :
    takeBatchOpenHeard h b g s =
      if (s.findDir b).any (·.owner == s.oru.address) then s else setDir ⟨b, h.src, g, s.now⟩ s := by
  unfold takeBatchOpenHeard
  rw [if_neg fun hc => hy (yields_iff.mp hc)]

theorem takeBatchOpenHeard_of_own {h : Hdr} {b g : Nat} (hy : ¬ s.yields h b) (ho : s.ownsEntry b) :
    takeBatchOpenHeard h b g s = s := by
  rw [takeBatchOpenHeard_of_stays hy, if_pos (ownsEntry_iff.mpr ho)]

theorem takeBatchOpenHeard_of_foreign {h : Hdr} {b g : Nat} (hy : ¬ s.yields h b) (ho : ¬ s.ownsEntry b) :
    takeBatchOpenHeard h b g s = setDir ⟨b, h.src, g, s.now⟩ s := by
  rw [takeBatchOpenHeard_of_stays hy, if_neg fun hc => ho (ownsEntry_iff.mp hc)]

theorem takeBatchOpenHeard_of_yields {h : Hdr} {b g : Nat} (hy : s.yields h b)
    (ho : ¬ (refuseBatch b .duplicate true s).ownsEntry b) :
    takeBatchOpenHeard h b g s = setDir ⟨b, h.src, g, s.now⟩ (refuseBatch b .duplicate true s) := by
  unfold takeBatchOpenHeard
  rw [if_pos (yields_iff.mpr hy)]
  dsimp only
  rw [if_neg fun hc => ho (ownsEntry_iff.mp hc), refuseBatch_now]

theorem takeBatchGone_of_filler {h : Hdr} {b : Nat} {j : FillJob} (hj : s.bct.fill = some j) (hb : j.batch = b)
    (ho : j.owner = h.src) : takeBatchGone h b s = fillEnd .ownerGone none (removeDir b h.src s) := by
  have hr : (removeDir b h.src s).bct.fill = some j := hj
  simp only [takeBatchGone, hr]
  rw [if_pos ⟨hb, ho⟩]

theorem takeBatchGone_of_other {h : Hdr} {b : Nat}
    (hj : ∀ j, s.bct.fill = some j → j.batch ≠ b ∨ j.owner ≠ h.src) : takeBatchGone h b s = removeDir b h.src s := by
  have hr : (removeDir b h.src s).bct.fill = s.bct.fill := rfl
  cases hf : s.bct.fill with
  | none => simp only [takeBatchGone, hr, hf]
  | some j =>
    simp only [takeBatchGone, hr, hf]
    rw [if_neg fun hc => (hj j hf).elim (absurd hc.1) (absurd hc.2)]

/-- Settles O41: by what the directory and the table hold of the number. -/
theorem directoryFollowsBatchFrames : Obligations.DirectoryFollowsBatchFrames := by
  unfold Obligations.DirectoryFollowsBatchFrames
  intro h b g s hs hl hh h1 h2 g1 g2
  have opens : exec (.batchOpenHeard h b g) s = .next (takeBatchOpenHeard h b g s) := by
    rw [exec_directory rfl hs hl hh (by simp [Payload.inRange, batchOk_of h1 h2, gatewayOk_of g1 g2]) rfl]
    simp only [take, hs.2]
  have goes : exec (.batchGone h b) s = .next (takeBatchGone h b s) :=
    exec_directory (p := .batchGone b) rfl hs hl hh (batchOk_of h1 h2) rfl
  intro o rest entered withdrawn own
  have ho : o = .next (takeBatchOpenHeard h b g s) := opens
  rw [ho]
  refine ⟨fun hy hown => ?_, fun hy hown hroom => ?_, fun hy hown before after d hrest hfull hd hb => ?_,
    fun hy hown => ?_, fun j hj hjb hjo => ?_, fun hj => ?_⟩
  · rw [takeBatchOpenHeard_of_own hy hown]
  · rw [takeBatchOpenHeard_of_foreign hy hown, setDir_of_room hroom]
  · rw [takeBatchOpenHeard_of_foreign hy hown, setDir_of_full hrest (hrest ▸ hfull) hd hb]
  · rw [takeBatchOpenHeard_of_yields hy hown]
  · rw [goes, takeBatchGone_of_filler hj hjb hjo]
    rfl
  · rw [goes, takeBatchGone_of_other hj]
    rfl

/-! ## RESTART (R193) -/

theorem exec_restart {h : Hdr} (hc : s.consoleOrder h) : exec (.restart h) s = .next (restartOrder h s.orderCounted) :=
  frameIn_runOrder h .restart hc rfl rfl

/-- With no frame in transmission the order is answered at once. -/
theorem restartOrder_of_quiet {h : Hdr} (hf : (restartBlocks s).fli.inFlight = none) :
    restartOrder h s = restartLine h (restartBlocks s) := by
  unfold restartOrder
  dsimp only
  rw [if_pos hf]

theorem restartBlocks_of_scanner (hr : s.oru.role = .scanner) :
    restartBlocks s = restartTxe (restartPgs (restartBct (restartDfm (restartTsq s)))) := by
  unfold restartBlocks
  rw [hr]

theorem restartBlocks_of_gateway (hr : s.oru.role = .gateway) : restartBlocks s = restartIct s := by
  unfold restartBlocks
  rw [hr]

/-- What the line makes of a Restart, where no answer waited for a frame in transmission before. -/
theorem restartLine_eq {h : Hdr} (hd : s.oru.restartDue = none) :
    restartLine h s = answer h .accepted [] { s with fli := { s.fli with
      txQueue := [], rxQueue := []
      presenceDue := if s.fli.line = .joined then some (s.now + s.oru.settings.presenceMs)
        else s.fli.presenceDue } } := by
  have ho : { s.oru with restartDue := none } = s.oru := by rw [← hd]
  unfold restartLine State.modOru State.modFli
  simp only [ho]

theorem reserved_eq (slots : List Slot) (i : Ict) :
    ({ i with slots } : Ict).reserved = slots.flatMap fun sl => (sl.hold.map (·.blocks)).getD [] := by
  unfold Ict.reserved
  congr 1
  funext sl
  cases sl.hold <;> rfl

/-- Settles O21: the blocks of the role, then the line and the answer. -/
theorem restartClearsTheBlocks : Obligations.RestartClearsTheBlocks := by
  unfold Obligations.RestartClearsTheBlocks
  constructor
  · intro h s hc hr hf
    have hb := restartBlocks_of_scanner (s := s.orderCounted) hr
    have hfl : (restartBlocks s.orderCounted).fli = s.fli := by
      rw [hb]
      show { s.fli with inFlight := s.fli.inFlight.map fun f => { f with origin := f.origin.orphaned } } = s.fli
      rw [hf, Option.map_none, ← hf]
    have hdue : (restartBlocks s.orderCounted).oru.restartDue = none := by rw [hb]; exact hc.1.2.1
    rw [exec_restart hc, restartOrder_of_quiet (by rw [hfl]; exact hf), restartLine_eq hdue, hfl, hb]
    rfl
  · intro h s hc hr hf
    have hb := restartBlocks_of_gateway (s := s.orderCounted) hr
    have hdue : (restartBlocks s.orderCounted).oru.restartDue = none := by rw [hb]; exact hc.1.2.1
    rw [exec_restart hc, restartOrder_of_quiet (by rw [hb]; exact hf), restartLine_eq hdue, hb]
    unfold restartIct State.modIct
    simp only [reserved_eq]
    rfl

end Sys2Proof.Machine
end

section
/-! The granted list of a fill and what a stored, failed or settled sheet changes in it; a page that fails (O52); a sheet
that settles (O28). -/

namespace Sys2Proof.Machine

variable {s : State}

/-! ## The granted list (R156, R161, R162) -/

/-- The state with another fill job record. -/
def State.withJob (s : State) (j : FillJob) : State := { s with bct := { s.bct with fill := some j } }

/-- A granted list split at the entry of a position, which no entry before it holds. -/
structure FillJob.SplitAt (j : FillJob) (p : Nat) (before : List Grant) (g : Grant) (after : List Grant) : Prop where
  list  : j.granted = before ++ g :: after
  here  : g.position = p
  first : ∀ x ∈ before, x.position ≠ p

theorem findGrant_of_split {j : FillJob} {p : Nat} {before after : List Grant} {g : Grant} (hj : s.bct.fill = some j)
    (h : j.SplitAt p before g after) : s.findGrant p = some g := by
  unfold State.findGrant
  rw [hj, Option.bind_some, h.list]
  exact find?_append_cons (fun x hx => by simpa using h.first x hx) (by simp [h.here])

theorem findGrant_of_absent {p : Nat} (h : ∀ j, s.bct.fill = some j → ∀ g ∈ j.granted, g.position ≠ p) :
    s.findGrant p = none := by
  unfold State.findGrant
  cases hj : s.bct.fill with
  | none => rfl
  | some j => exact List.find?_eq_none.mpr fun g hg => by simpa using h j hj g hg

theorem updJob_of_some {j : FillJob} (hj : s.bct.fill = some j) (f : FillJob → FillJob) :
    s.updJob f = s.withJob (f j) := by
  unfold State.updJob State.modBct State.withJob
  simp only [hj, Option.map_some]

theorem updJob_of_none (hj : s.bct.fill = none) (f : FillJob → FillJob) : s.updJob f = s := by
  show ({ s with bct := { s.bct with fill := s.bct.fill.map f } } : State) = s
  rw [hj, Option.map_none, ← hj]

theorem updGrant_of_split {j : FillJob} {p : Nat} {before after : List Grant} {g : Grant} (hj : s.bct.fill = some j)
    (h : j.SplitAt p before g after) (f : Grant → Grant) :
    updGrant p f s = s.withJob { j with granted := before ++ f g :: after } := by
  have hu : updFirst (·.position == p) f j.granted = before ++ f g :: after := by
    rw [h.list]
    exact updFirst_append_cons (fun x hx => by simpa using h.first x hx) (by simp [h.here])
  unfold updGrant
  rw [updJob_of_some hj, hu]

theorem updGrant_of_absent {p : Nat} (h : ∀ j, s.bct.fill = some j → ∀ g ∈ j.granted, g.position ≠ p)
    (f : Grant → Grant) : updGrant p f s = s := by
  cases hj : s.bct.fill with
  | none => exact updJob_of_none hj _
  | some j =>
    have hu : updFirst (·.position == p) f j.granted = j.granted :=
      updFirst_of_none fun g hg => by simpa using h j hj g hg
    unfold updGrant
    rw [updJob_of_some hj, hu, State.withJob, ← hj]

theorem storeGrant_of_absent {p : Nat} (h : s.findGrant p = none) : storeGrant p s = s := by
  unfold storeGrant
  rw [h]
  cases s.bct.fill <;> rfl

theorem storeGrant_of_some {j : FillJob} {p : Nat} {g : Grant} (hj : s.bct.fill = some j) (hg : s.findGrant p = some g) :
    storeGrant p s = if g.state = .scanned then
      if g.required ≤ g.stored + 1 then sendFilled j p ((updGrant p (fun g => { g with
          state := .stored, stored := g.stored + 1 }) s).updJob fun j => { j with
        filledCount := bump Config.maxPosition j.filledCount })
      else updGrant p (fun g => { g with stored := g.stored + 1 }) s
    else s := by
  simp only [storeGrant, hj, hg]

theorem refuseGrant_of_absent {p : Nat} (h : s.findGrant p = none) : refuseGrant p s = s := by
  simp only [refuseGrant, h]

theorem refuseGrant_of_some {p : Nat} {g : Grant} (hg : s.findGrant p = some g) :
    refuseGrant p s = if g.state = .scanned then
      discardAll ((s.pgs.recs.filter fun r => r.fillFlag && r.position == some p).map (·.id))
        (updGrant p (fun g => { g with state := .refused }) s)
    else s := by
  simp only [refuseGrant, hg]
  rfl

/-! ## A page that fails (R21, R128) -/

theorem refusal_kept (held : Option GatewayRefusal) (reason : Option PageRefusal) :
    (held.orElse fun _ => gatewayRefusalOf reason) = if held = none then (match reason with
      | some .unknownBatch => some .unknownBatch
      | some .batchClosed => some .batchClosed
      | _ => none) else held := by
  cases held with
  | some g => rfl
  | none => rcases reason with _ | _ | _ | _ <;> rfl

/-- The record of a batch that is told of a failed page, in the state it then has. -/
def BatchRec.toldFailed (reason : Option PageRefusal) (state : BatchState) (x : BatchRec) : BatchRec :=
  { x with
    state, failedPages := min 512 (x.failedPages + 1)
    gatewayRefusal := if x.gatewayRefusal = none then (match reason with
        | some .unknownBatch => some .unknownBatch
        | some .batchClosed => some .batchClosed
        | _ => none)
      else x.gatewayRefusal }

/-- The count and the refusal of `haltBatch`, and the state set after them, are one change of the record. -/
theorem updBatch_toldFailed (b : Nat) (reason : Option PageRefusal) (state : BatchState) :
    (s.updBatch b fun r => { r with
      failedPages := bump 512 r.failedPages
      gatewayRefusal := r.gatewayRefusal.orElse fun _ => gatewayRefusalOf reason }).updBatch b
        (fun r => { r with state }) = s.updBatch b (BatchRec.toldFailed reason state) := by
  refine (updBatch_updBatch b _ _ ?_).trans ?_
  · intro r
    rfl
  congr 1
  funext r
  simp only [refusal_kept]
  rfl

theorem haltBatch_of_active {b : Nat} {reason : Option PageRefusal} {x : BatchRec} (h : s.findBatch b = some x)
    (hs : x.state = .active) : haltBatch b reason s =
      withdrawBatch b (raise .batchHalted (s.updBatch b (BatchRec.toldFailed reason .halted))) := by
  simp only [haltBatch, h, hs, updBatch_toldFailed]

theorem haltBatch_of_ended {b : Nat} {reason : Option PageRefusal} {x : BatchRec} (h : s.findBatch b = some x)
    (hs : x.state = .ended ∨ x.state = .reconciling) : haltBatch b reason s =
      raise .batchHalted (s.updBatch b (BatchRec.toldFailed reason .halted)) := by
  rcases hs with hs | hs <;> simp only [haltBatch, h, hs, updBatch_toldFailed]

theorem haltBatch_of_other {b : Nat} {reason : Option PageRefusal} {x : BatchRec} (h : s.findBatch b = some x)
    (ha : x.state ≠ .active) (he : x.state ≠ .ended) (hr : x.state ≠ .reconciling) :
    haltBatch b reason s = s.updBatch b (BatchRec.toldFailed reason x.state) := by
  have hcount : haltBatch b reason s = s.updBatch b fun r => { r with
      failedPages := bump 512 r.failedPages
      gatewayRefusal := r.gatewayRefusal.orElse fun _ => gatewayRefusalOf reason } := by
    cases hs : x.state <;> simp_all [haltBatch]
  rw [hcount]
  refine updBatch_congr h ?_
  rw [refusal_kept]
  rfl

/-- The state in which a page is FAILED, TRANSFER_FAILED raised and the failure counted. -/
def State.failCounted (s : State) (id : Nat) : State :=
  (raise .transferFailed (s.updRec id fun r => { r with state := .failed })).modTxe fun t => { t with
    failedPages := bump16 t.failedPages }

theorem failCounted_findBatch (id b : Nat) : (s.failCounted id).findBatch b = s.findBatch b := by
  simp [State.failCounted, State.findBatch]

theorem pageFailed_of_pending {id : Nat} {reason : Option PageRefusal} {r : PageRec} (h : s.findRec id = some r)
    (hd : r.discardPending = true) : pageFailed id reason s = freeRec id s := by
  simp only [pageFailed, h, hd, if_true]

theorem pageFailed_of_kept {id : Nat} {reason : Option PageRefusal} {r : PageRec} (h : s.findRec id = some r)
    (hd : r.discardPending = false) : pageFailed id reason s =
      if r.fillFlag then fillFailed (r.position.getD 0) (s.failCounted id)
      else haltBatch (r.batch.getD 0) reason (s.failCounted id) := by
  simp only [pageFailed, h, hd, Bool.false_eq_true, if_false]
  rfl

/-- Settles O52: the failed page by what it is a page of, then the granted list by the entry of the position. -/
theorem failedPageHaltsItsBatch : Obligations.FailedPageHaltsItsBatch := by
  unfold Obligations.FailedPageHaltsItsBatch
  constructor
  · intro id b reason r x s h
    refine ⟨pageFailed_of_pending h, fun hd => ⟨fun p hfill hp => ?_, fun hfill hb hx => ?_⟩⟩
    · rw [pageFailed_of_kept h hd, if_pos hfill, hp]
      rfl
    · have hx' : (s.failCounted id).findBatch b = some x := (failCounted_findBatch id b).trans hx
      rw [pageFailed_of_kept h hd, hfill, hb, if_neg Bool.false_ne_true, Option.getD_some]
      exact ⟨haltBatch_of_active hx', haltBatch_of_ended hx', haltBatch_of_other hx'⟩
  · intro p s
    refine ⟨fun habsent => ?_, fun j before g after hj hl hg hb => ?_⟩
    · have hn := findGrant_of_absent habsent
      exact ⟨congrArg fillChanged (storeGrant_of_absent hn), congrArg fillChanged (refuseGrant_of_absent hn)⟩
    · have hsplit : j.SplitAt p before g after := ⟨hl, hg, hb⟩
      have hf := findGrant_of_split hj hsplit
      unfold fillStored fillFailed
      rw [storeGrant_of_some hj hf, refuseGrant_of_some hf]
      refine ⟨fun hs => ?_, fun hs => ⟨fun hlt => ?_, fun hle => ?_, ?_⟩⟩
      · rw [if_neg hs, if_neg hs]
        exact ⟨rfl, rfl⟩
      · rw [if_pos hs, if_neg (by omega), updGrant_of_split hj hsplit]
        rfl
      · rw [if_pos hs, if_pos hle, updGrant_of_split hj hsplit]
        rfl
      · rw [if_pos hs, updGrant_of_split hj hsplit]
        rfl

/-! ## The notices of a settled sheet (R53, R86, R161) -/

theorem settleNotices_main {e : TrackEntry} {b p : Nat} (hb : e.binding = .batch b) (hp : e.position = some p)
    (hr : e.route = some .main) : settleNotices e s = pagesEligible e (acceptPosition b s) := by
  simp only [settleNotices, hb, hp, hr]

theorem settleNotices_reject {e : TrackEntry} {b p : Nat} (hb : e.binding = .batch b) (hp : e.position = some p)
    (hr : e.route ≠ some .main) :
    settleNotices e s = discardAll e.pages (addHole b p .doubleFeed e.snap s) := by
  rcases h : e.route with _ | _ | _
  · simp only [settleNotices, hb, hp, h]
  · exact absurd h hr
  · simp only [settleNotices, hb, hp, h]

theorem settleNotices_fillMain {e : TrackEntry} {k : Option Nat} {p : Nat} (hb : e.binding = .fill k)
    (hp : e.position = some p) (hr : e.route = some .main) :
    settleNotices e s = pagesEligible e (fillScanned p s) := by
  simp only [settleNotices, hb, hp, hr]

theorem settleNotices_fillReject {e : TrackEntry} {k : Option Nat} {p : Nat} (hb : e.binding = .fill k)
    (hp : e.position = some p) (hr : e.route ≠ some .main) :
    settleNotices e s = discardAll e.pages (fillRefused p s) := by
  rcases h : e.route with _ | _ | _
  · simp only [settleNotices, hb, hp, h]
  · exact absurd h hr
  · simp only [settleNotices, hb, hp, h]

theorem settleNotices_fillBare {e : TrackEntry} {k : Option Nat} (hb : e.binding = .fill k) (hp : e.position = none) :
    settleNotices e s = discardAll e.pages (fillChanged s) := by
  simp only [settleNotices, hb, hp]

/-- A sheet that has no position of a batch and no fill to tell of loses its pages. -/
theorem settleNotices_bare {e : TrackEntry} (hf : ∀ k, e.binding ≠ .fill k)
    (hp : e.position = none ∨ e.binding = .learn) : settleNotices e s = discardAll e.pages s := by
  cases hb : e.binding with
  | batch b =>
    have hp : e.position = none := hp.resolve_right fun h => by rw [hb] at h; cases h
    simp only [settleNotices, hb, hp]
  | fill k => exact absurd hb (hf k)
  | learn => simp only [settleNotices, hb]

theorem endedTestFor_batch {e : TrackEntry} {b : Nat} (hb : e.binding = .batch b) (ha : e.abandoned = false) :
    endedTestFor e s = endedTest b s := by
  simp only [endedTestFor, hb, ha, Bool.false_eq_true, if_false]

theorem endedTestFor_other {e : TrackEntry} (h : (∀ b, e.binding ≠ .batch b) ∨ e.abandoned = true) :
    endedTestFor e s = s := by
  cases hb : e.binding with
  | batch b =>
    have ha : e.abandoned = true := h.resolve_left fun h => h b hb
    simp only [endedTestFor, hb, ha, if_true]
  | fill k => simp only [endedTestFor, hb]
  | learn => simp only [endedTestFor, hb]

theorem settle_of_batch {e : TrackEntry} {b : Nat} (hb : e.binding = .batch b) (ha : e.abandoned = false) :
    settle e s = pickTest (drainTest (endedTest b (settleNotices e (removeEntry e.tag s)))) := by
  rw [settle, endedTestFor_batch hb ha]

theorem settle_of_other {e : TrackEntry} (h : (∀ b, e.binding ≠ .batch b) ∨ e.abandoned = true) :
    settle e s = pickTest (drainTest (settleNotices e (removeEntry e.tag s))) := by
  rw [settle, endedTestFor_other h]

/-! ## The eligible notice (R86) -/

theorem sideRequired_eq (snap : AttrSet) (side : Side) :
    sideRequired snap side = (side == .front || snap.duplex == .duplex) := by
  cases side <;> rfl

theorem eligibleRec_eq (snap : AttrSet) :
    eligibleRec snap = fun r => r.state == .heldForSheet && (r.side == .front || snap.duplex == .duplex) := by
  funext r
  rw [eligibleRec, sideRequired_eq]

theorem pagesRequired_eq (snap : AttrSet) : pagesRequired snap = if snap.duplex = .duplex then 2 else 1 := by
  unfold pagesRequired
  cases snap.duplex <;> rfl

/-- A required side is not among the records. -/
def sidesMissing (snap : AttrSet) (rs : List PageRec) : Prop :=
  (∀ r ∈ rs, r.side ≠ .front) ∨ (snap.duplex = .duplex ∧ ∀ r ∈ rs, r.side ≠ .back)

theorem sidesPresent_iff {snap : AttrSet} {rs : List PageRec} : sidesPresent snap rs = true ↔ ¬ sidesMissing snap rs := by
  unfold sidesPresent sidesMissing
  cases h : snap.duplex <;> simp

/-- The records of the sheet taken into READY or discarded, before a fill is told of a missing side. -/
def State.pagesTaken (s : State) (e : TrackEntry) : State :=
  let recs := e.pages.filterMap s.findRec
  (recs.filter fun r => !eligibleRec e.snap r).foldl (fun s r => discardRec r.id s)
    ((recs.filter (eligibleRec e.snap)).foldl (fun s r => enterReady r.id
      (s.updRec r.id fun r => { r with pagesOfSheet := some (pagesRequired e.snap) })) s)

/-- The records of the sheet that enter READY. -/
def State.pagesKept (s : State) (e : TrackEntry) : List PageRec := (e.pages.filterMap s.findRec).filter (eligibleRec e.snap)

theorem pagesEligible_of_whole {e : TrackEntry} (h : (∀ k, e.binding ≠ .fill k) ∨ ¬ sidesMissing e.snap (s.pagesKept e)) :
    pagesEligible e s = offerTest (s.pagesTaken e) := by
  cases hb : e.binding with
  | batch b => simp only [pagesEligible, hb]; rfl
  | learn => simp only [pagesEligible, hb]; rfl
  | fill k =>
    have hw : sidesPresent e.snap (s.pagesKept e) = true := sidesPresent_iff.mpr (h.resolve_left fun h => h k hb)
    cases hp : e.position with
    | none => simp only [pagesEligible, hb, hp]; rfl
    | some p =>
      simp only [pagesEligible, hb, hp]
      exact congrArg offerTest (if_pos hw)

theorem pagesEligible_of_missing {e : TrackEntry} {k : Option Nat} {p : Nat} (hb : e.binding = .fill k)
    (hp : e.position = some p) (h : sidesMissing e.snap (s.pagesKept e)) :
    pagesEligible e s = offerTest (fillFailed p (s.pagesTaken e)) := by
  have hw : ¬ sidesPresent e.snap (s.pagesKept e) = true := fun hc => sidesPresent_iff.mp hc h
  simp only [pagesEligible, hb, hp]
  exact congrArg offerTest (if_neg hw)

/-- Settles O28: the sheet by its binding, its position and its route; the eligible notice by the sides present; the
granted list by the entry of the position. -/
theorem sheetSettles : Obligations.SheetSettles := by
  unfold Obligations.SheetSettles
  refine ⟨fun e s => ⟨fun b hb ha => ⟨fun p hp hr => ?_, fun p hp hr => ?_, fun hp => ?_⟩, fun b hb ha hp => ?_,
    fun k hb => ⟨fun p hp hr => ?_, fun p hp hr => ?_, fun hp => ?_⟩, fun hb => ?_⟩, fun e s => ?_, fun p s => ?_⟩
  · rw [settle_of_batch hb ha, settleNotices_main hb hp hr]
    rfl
  · rw [settle_of_batch hb ha, settleNotices_reject hb hp hr]
    rfl
  · rw [settle_of_batch hb ha, settleNotices_bare (by simp [hb]) (Or.inl hp)]
    rfl
  · rw [settle_of_other (Or.inr ha), settleNotices_bare (by simp [hb]) (Or.inl hp)]
    rfl
  · rw [settle_of_other (Or.inl (by simp [hb])), settleNotices_fillMain hb hp hr]
    rfl
  · rw [settle_of_other (Or.inl (by simp [hb])), settleNotices_fillReject hb hp hr]
    rfl
  · rw [settle_of_other (Or.inl (by simp [hb])), settleNotices_fillBare hb hp]
    rfl
  · rw [settle_of_other (Or.inl (by simp [hb])), settleNotices_bare (by simp [hb]) (Or.inr hb)]
    rfl
  · have whole := pagesEligible_of_whole (s := s) (e := e)
    have missing := fun k p => pagesEligible_of_missing (s := s) (e := e) (k := k) (p := p)
    simp only [State.pagesKept, State.pagesTaken, eligibleRec_eq, pagesRequired_eq] at whole missing
    exact ⟨whole, missing⟩
  · refine ⟨fun habsent => ?_, fun j before g after hj hl hg hb => ?_, rfl⟩
    · exact ⟨congrArg fillChanged (updGrant_of_absent habsent _), congrArg fillChanged (updGrant_of_absent habsent _)⟩
    · have hsplit : j.SplitAt p before g after := ⟨hl, hg, hb⟩
      exact ⟨congrArg fillChanged (updGrant_of_split hj hsplit _), congrArg fillChanged (updGrant_of_split hj hsplit _)⟩

end Sys2Proof.Machine
end

section
/-! The sheet track split at one entry: what a keyed change, a fold over the later entries and the tests read there. With
it the later sheets of a report (O34) and the windows and the diverter handshake (O29). -/

namespace Sys2Proof.Machine

variable {s : State}

/-! ## The track at one entry -/

/-- The state with another track. -/
def State.withTrack (s : State) (l : List TrackEntry) : State := { s with tsq := { s.tsq with track := l } }

@[simp] theorem withTrack_track (s : State) (l : List TrackEntry) : (s.withTrack l).tsq.track = l := rfl

@[simp] theorem withTrack_withTrack (s : State) (l m : List TrackEntry) :
    (s.withTrack l).withTrack m = s.withTrack m := rfl

/-- The track split at the entry of a tag, which no older entry bears. -/
structure State.TrackAt (s : State) (older : List TrackEntry) (e : TrackEntry) (younger : List TrackEntry) : Prop where
  track : s.tsq.track = older ++ e :: younger
  first : ∀ x ∈ older, x.tag ≠ e.tag

variable {older younger : List TrackEntry} {e : TrackEntry}

theorem findEntry_of_trackAt (h : s.TrackAt older e younger) : s.findEntry e.tag = some e := by
  unfold State.findEntry
  rw [h.track]
  exact find?_append_cons (fun x hx => by simpa using h.first x hx) (by simp)

theorem updEntry_of_trackAt (h : s.TrackAt older e younger) (f : TrackEntry → TrackEntry) :
    s.updEntry e.tag f = s.withTrack (older ++ f e :: younger) := by
  have hu : updFirst (·.tag == e.tag) f s.tsq.track = older ++ f e :: younger := by
    rw [h.track]
    exact updFirst_append_cons (fun x hx => by simpa using h.first x hx) (by simp)
  exact congrArg s.withTrack hu

theorem eraseEntry_of_trackAt (h : s.TrackAt older e younger) :
    s.tsq.track.eraseP (·.tag == e.tag) = older ++ younger := by
  rw [h.track, List.eraseP_append_right _ fun x hx => by simpa using h.first x hx]
  simp

/-- The entries later than one. -/
theorem later_of_trackAt (h : s.TrackAt older e younger) :
    (s.tsq.track.dropWhile (·.tag != e.tag)).drop 1 = younger := by
  rw [h.track, List.dropWhile_append_of_pos fun x hx => by simpa using h.first x hx]
  simp

theorem routesLater_of_trackAt (h : s.TrackAt older e younger) :
    routesLater e.tag s = (younger.map (·.tag)).foldl (fun s t => routeTest t s) s := by
  unfold routesLater State.laterTags
  rw [later_of_trackAt h]

/-- A change of each entry that meets a test, one tag after the other, is one change of the list. -/
theorem foldl_updEntry (f : TrackEntry → TrackEntry) (hf : ∀ x, (f x).tag = x.tag) (p : TrackEntry → Bool)
    (l : List TrackEntry) : ∀ (pre : List TrackEntry) (s : State), s.tsq.track = pre ++ l →
      ((pre ++ l).map (·.tag)).Nodup →
      ((l.filter p).map (·.tag)).foldl (fun s t => s.updEntry t f) s =
        s.withTrack (pre ++ l.map fun x => if p x then f x else x) := by
  induction l with
  | nil =>
    intro pre s ht _
    rw [List.filter_nil, List.map_nil, List.foldl_nil, List.map_nil, ← ht]
    rfl
  | cons x l ih =>
    intro pre s ht hn
    have hfirst : ∀ y ∈ pre, y.tag ≠ x.tag := by
      rw [List.map_append, List.map_cons, List.nodup_append] at hn
      intro y hy
      exact hn.2.2 y.tag (List.mem_map_of_mem hy) x.tag List.mem_cons_self
    have step : ∀ (y : TrackEntry) (t : State), y.tag = x.tag → t.tsq.track = pre ++ y :: l →
        ((l.filter p).map (·.tag)).foldl (fun s t => s.updEntry t f) t =
          t.withTrack (pre ++ y :: l.map fun x => if p x then f x else x) := by
      intro y t hy ht
      have := ih (pre ++ [y]) t (by rw [ht, List.append_assoc, List.singleton_append]) (by simpa [hy] using hn)
      rwa [List.append_assoc, List.singleton_append] at this
    by_cases hp : p x = true
    · rw [List.filter_cons_of_pos hp, List.map_cons, List.foldl_cons,
        updEntry_of_trackAt (older := pre) (younger := l) ⟨ht, hfirst⟩ f, step (f x) _ (hf x) rfl]
      simp [hp]
    · rw [List.filter_cons_of_neg hp, step x s rfl ht]
      simp [hp]

/-! ## Sheets behind a STOP sheet (R46) -/

/-- An entry of the feed of another. -/
def sameFeed (e x : TrackEntry) : Bool :=
  match e.binding, x.binding with
  | .batch b, _ => x.boundTo b
  | .fill _, .fill _ => true
  | _, _ => false

/-- The mark of one later entry: overrun, and its reservation released. -/
def TrackEntry.overrunMark (x : TrackEntry) : TrackEntry :=
  { x with overrun := true, binding := match x.binding with | .fill _ => .fill none | b => b }

theorem overrunMark_eq (tag : Nat) (s : State) :
    releaseReservation tag (s.updEntry tag fun x => { x with overrun := true }) = s.updEntry tag TrackEntry.overrunMark :=
  congrArg s.withTrack (updFirst_updFirst (p := (·.tag == tag)) (f := fun x : TrackEntry => { x with overrun := true })
    (fun _ h => h) s.tsq.track)

theorem markOverrun_eq (h : s.TrackAt older e younger) (hn : (s.tsq.track.map (·.tag)).Nodup) :
    markOverrun e s = if younger.filter (sameFeed e) = [] then s else raise .overrun
      (s.withTrack (older ++ e :: younger.map fun x => if sameFeed e x then x.overrunMark else x)) := by
  have hfold : ((younger.filter (sameFeed e)).map (·.tag)).foldl
      (fun s t => s.updEntry t TrackEntry.overrunMark) s =
      s.withTrack (older ++ e :: younger.map fun x => if sameFeed e x then x.overrunMark else x) := by
    have := foldl_updEntry TrackEntry.overrunMark (fun _ => rfl) (sameFeed e) younger (older ++ [e]) s
      (by simpa using h.track) (by simpa [h.track] using hn)
    simpa using this
  have heq : markOverrun e s =
      (let tags := (((s.tsq.track.dropWhile (·.tag != e.tag)).drop 1).filter (sameFeed e)).map (·.tag)
       let u := tags.foldl (fun s t => releaseReservation t (s.updEntry t fun x => { x with overrun := true })) s
       if tags = [] then u else raise .overrun u) := rfl
  rw [heq, later_of_trackAt h]
  simp only [overrunMark_eq, hfold, List.map_eq_nil_iff]
  by_cases hnil : younger.filter (sameFeed e) = []
  · rw [if_pos hnil, if_pos hnil, ← hfold, hnil]
    rfl
  · rw [if_neg hnil, if_neg hnil]

theorem sameFeed_batch {b : Nat} (hb : e.binding = .batch b) (x : TrackEntry) : sameFeed e x = x.boundTo b := by
  simp only [sameFeed, hb]

theorem sameFeed_fill {k : Option Nat} (hb : e.binding = .fill k) (x : TrackEntry) :
    sameFeed e x = true ↔ ∃ i, x.binding = .fill i := by
  unfold sameFeed
  rw [hb]
  cases x.binding <;> simp

/-- A sheet bound to a batch reserves nothing. -/
theorem overrunMark_of_boundTo {b : Nat} {x : TrackEntry} (h : x.boundTo b = true) :
    x.overrunMark = { x with overrun := true } := by
  have hb : x.binding = .batch b := by
    simp only [TrackEntry.boundTo, Bool.and_eq_true, beq_iff_eq] at h
    exact h.1
  simp only [TrackEntry.overrunMark, hb]

theorem markOverrun_of_none (h : s.TrackAt older e younger) (hn : (s.tsq.track.map (·.tag)).Nodup)
    (hs : ∀ x ∈ younger, ¬ sameFeed e x = true) : markOverrun e s = s := by
  rw [markOverrun_eq h hn, if_pos (List.filter_eq_nil_iff.mpr hs)]

theorem markOverrun_of_some (h : s.TrackAt older e younger) (hn : (s.tsq.track.map (·.tag)).Nodup)
    (hs : ∃ x ∈ younger, sameFeed e x = true) {f : TrackEntry → TrackEntry}
    (hf : ∀ x, (if sameFeed e x then x.overrunMark else x) = f x) :
    markOverrun e s = raise .overrun (s.withTrack (older ++ e :: younger.map f)) := by
  obtain ⟨x, hx, hp⟩ := hs
  rw [markOverrun_eq h hn, if_neg fun hc => List.filter_eq_nil_iff.mp hc x hx hp, funext hf]

/-! ## Re-binding (R45) -/

/-- The attributes of an entry after its verdict: duplex and policy follow a later HEADER or SECTION. -/
def AttrSet.rebound (snap attrs : AttrSet) : AttrSet := { snap with duplex := attrs.duplex, policy := attrs.policy }

theorem rebindOne_of_unjudged {attrs : AttrSet} (h : s.TrackAt older e younger) (hv : e.verdict = none) :
    rebindOne attrs e.tag s = s.withTrack (older ++ { e with snap := attrs } :: younger) := by
  unfold rebindOne
  rw [findEntry_of_trackAt h]
  dsimp only
  split
  · exact updEntry_of_trackAt h _
  · rename_i hsome
    rw [hv] at hsome
    cases hsome

theorem marked_rebound {attrs : AttrSet} {v : Verdict} (hv : e.verdict = some v) :
    TrackEntry.marked { e with snap := AttrSet.rebound e.snap attrs } =
      (v.suspect && attrs.policy == .mark && !e.overrun) := by
  simp [TrackEntry.marked, TrackEntry.suspect, hv, AttrSet.rebound]

/-- The track with the entry re-bound after its verdict. -/
def State.reboundAt (s : State) (older : List TrackEntry) (e : TrackEntry) (younger : List TrackEntry)
    (attrs : AttrSet) : State := s.withTrack (older ++ { e with snap := AttrSet.rebound e.snap attrs } :: younger)

theorem rebindOne_of_judged {attrs : AttrSet} {v : Verdict} (h : s.TrackAt older e younger) (hv : e.verdict = some v) :
    rebindOne attrs e.tag s =
      let t := if v.suspect && attrs.policy == .mark && !e.overrun then
        markPages e.pages (s.reboundAt older e younger attrs) else s.reboundAt older e younger attrs
      if v.suspect && attrs.policy == .stop && !e.overrun then hold .doubleFeedStop t else t := by
  have hsus : e.suspect = v.suspect := by simp [TrackEntry.suspect, hv]
  unfold rebindOne
  rw [findEntry_of_trackAt h]
  dsimp only
  split
  · rename_i hnone
    rw [hv] at hnone
    cases hnone
  · rw [updEntry_of_trackAt h, ← marked_rebound hv, ← hsus]
    rfl

theorem rebindOne_of_quiet {attrs : AttrSet} {v : Verdict} (h : s.TrackAt older e younger) (hv : e.verdict = some v)
    (hq : v.suspect = false ∨ e.overrun = true ∨ attrs.policy = .divert) :
    rebindOne attrs e.tag s = s.reboundAt older e younger attrs := by
  rw [rebindOne_of_judged h hv]
  rcases hq with hq | hq | hq <;> simp [hq]

theorem rebindOne_of_mark {attrs : AttrSet} {v : Verdict} (h : s.TrackAt older e younger) (hv : e.verdict = some v)
    (hs : v.suspect = true) (ho : e.overrun = false) (hp : attrs.policy = .mark) :
    rebindOne attrs e.tag s = markPages e.pages (s.reboundAt older e younger attrs) := by
  rw [rebindOne_of_judged h hv]
  simp [hs, ho, hp]

theorem rebindOne_of_stop {attrs : AttrSet} {v : Verdict} (h : s.TrackAt older e younger) (hv : e.verdict = some v)
    (hs : v.suspect = true) (ho : e.overrun = false) (hp : attrs.policy = .stop) :
    rebindOne attrs e.tag s = hold .doubleFeedStop (s.reboundAt older e younger attrs) := by
  rw [rebindOne_of_judged h hv]
  simp [hs, ho, hp]

/-! ## The effect of a report by binding (R44) -/

theorem reportEffect_abandoned {b : Nat} {front back : Bool} {patch : Patch} (hb : e.binding = .batch b)
    (ha : e.abandoned = true) : reportEffect e front back patch s = s := by
  simp only [reportEffect, hb, ha, if_true]

/-- HEADER and SECTION are taken alike. -/
theorem reportEffect_attrs {b : Nat} {front back : Bool} {patch : Patch} {a : AttrArg} (hb : e.binding = .batch b)
    (ha : e.abandoned = false) (hp : patch = .header a ∨ patch = .sectionSheet a) :
    reportEffect e front back patch s = patchAttrs e b a s := by
  rcases hp with rfl | rfl <;> simp [reportEffect, hb, ha]

theorem reportEffect_stop {b : Nat} {front back : Bool} (hb : e.binding = .batch b) (ha : e.abandoned = false) :
    reportEffect e front back .stop s = endedTest b (markOverrun e (drainFeed (endActive b s))) := by
  simp [reportEffect, hb, ha]

theorem reportEffect_learn {front back : Bool} {patch : Patch} (hb : e.binding = .learn) :
    reportEffect e front back patch s = s := by
  simp only [reportEffect, hb]

theorem reportEffect_fillPlaced {front back : Bool} {p : Nat} (hb : e.binding = .fill (some p))
    (ho : e.overrun = false) :
    reportEffect e front back .none s = fillChanged (placeSheet e p front back s) := by
  simp [reportEffect, hb, ho]

theorem reportEffect_fillBare {front back : Bool} {k : Option Nat} (hb : e.binding = .fill k)
    (ho : k = none ∨ e.overrun = true) : reportEffect e front back .none s = fillChanged s := by
  cases k with
  | none => simp only [reportEffect, hb]
  | some p =>
    have ho : e.overrun = true := ho.resolve_left (by simp)
    simp only [reportEffect, hb, ho, if_true]

theorem reportEffect_fillAttrs {front back : Bool} {k : Option Nat} {patch : Patch} {a : AttrArg}
    (hb : e.binding = .fill k) (hp : patch = .header a ∨ patch = .sectionSheet a) :
    reportEffect e front back patch s = fillChanged (releaseReservation e.tag s) := by
  rcases hp with rfl | rfl <;> simp only [reportEffect, hb]

theorem reportEffect_fillStop {front back : Bool} {k : Option Nat} (hb : e.binding = .fill k) :
    reportEffect e front back .stop s =
      fillChanged (markOverrun e (fillEnd .stopPatch none (drainFeed (releaseReservation e.tag s)))) := by
  simp only [reportEffect, hb]

theorem patchAttrs_of_none {b : Nat} {a : AttrArg} (h : a.resolve s.oru.settings.toleranceDefault = none) :
    patchAttrs e b a s = s.updBatch b fun r => { r with rejectedPatch := bump8 r.rejectedPatch } := by
  simp only [patchAttrs, h]

theorem patchAttrs_of_some {b : Nat} {a : AttrArg} {attrs : AttrSet} {x : TrackEntry} (ht : s.TrackAt older x younger)
    (hx : x.tag = e.tag) (h : a.resolve s.oru.settings.toleranceDefault = some attrs) :
    patchAttrs e b a s = ((younger.filter (·.boundTo b)).map (·.tag)).foldl (fun s t => rebindOne attrs t s)
      (s.updBatch b fun r => { r with attrs }) := by
  have hl := hx ▸ later_of_trackAt ht
  simp only [patchAttrs, h]
  show List.foldl _ _ (((s.tsq.track.dropWhile (·.tag != e.tag)).drop 1 |>.filter (·.boundTo b)).map (·.tag)) = _
  rw [hl]

/-- The reservation of the entry released in the track split at it. -/
theorem releaseReservation_of_trackAt {k : Option Nat} (h : s.TrackAt older e younger) (hb : e.binding = .fill k) :
    releaseReservation e.tag s = s.withTrack (older ++ { e with binding := .fill none } :: younger) := by
  unfold releaseReservation
  rw [updEntry_of_trackAt h, hb]

theorem sideMissing_iff {snap : AttrSet} {front back : Bool} :
    sideMissing snap front back = true ↔ front = false ∨ (snap.duplex = .duplex ∧ back = false) := by
  simp [sideMissing]

theorem placeSheet_of_trackAt {p : Nat} {front back : Bool} {x : TrackEntry} (h : s.TrackAt older x younger)
    (hx : x.tag = e.tag) : placeSheet e p front back s =
      let u := placePages e.pages p (s.withTrack (older ++ { x with position := some p } :: younger))
      if front = false ∨ (e.snap.duplex = .duplex ∧ back = false) then hold .captureMismatch u else u := by
  unfold placeSheet
  rw [← hx, updEntry_of_trackAt h]
  simp only [sideMissing_iff]

/-! ## A report taken -/

/-- A report for the oldest sheet without one, whose sides have ended, has its effect; then the later routes are tested,
the patch code on a suspect sheet, and the pick (R44, R47). -/
theorem captureReport_of_trackAt {front back : Bool} {patch : Patch} (ht : s.tsq.transport ≠ .idle)
    (h : s.TrackAt older e younger) (hr : ∀ x ∈ older, x.report ≠ none) (hn : e.report = none)
    (hf : front = true → (s.progressOf e.tag).ended .front = true)
    (hb : back = true → (s.progressOf e.tag).ended .back = true) :
    captureReport e.tag front back patch s = pickTest (patchSuspectTest e patch (routesLater e.tag
      (reportEffect e front back patch
        (s.withTrack (older ++ { e with report := some ⟨front, back, patch⟩ } :: younger))))) := by
  have hfind : s.tsq.track.find? (·.report.isNone) = some e := by
    rw [h.track]
    exact find?_append_cons (fun x hx => by simpa using Option.isSome_iff_ne_none.mpr (hr x hx)) (by simp [hn])
  have hended : reportEnded (s.progressOf e.tag) front back = true := by
    cases front <;> cases back <;> simp_all [reportEnded]
  unfold captureReport
  rw [if_neg ht]
  simp only [hfind, hended, updEntry_of_trackAt h]
  simp

/-- Settles O34: the mark of the later sheets, their re-binding, and the report by the binding of its sheet. -/
theorem laterSheetsOverrunOrRebound : Obligations.LaterSheetsOverrunOrRebound := by
  unfold Obligations.LaterSheetsOverrunOrRebound
  refine ⟨fun older younger e s ht hn => ?_, fun tag attrs older younger e s ht htag hfirst => ?_,
    fun tag front back patch older younger e s hs hidle ht hold hrep htag hfr hbk => ?_⟩
  · have hsplit := List.nodup_append.mp (List.map_append ▸ hn)
    have h : s.TrackAt older e younger := ⟨ht, fun x hx => hsplit.2.2 x.tag (List.mem_map_of_mem hx) e.tag (by simp)⟩
    rw [← ht] at hn
    refine ⟨fun b hb => ⟨fun hall => markOverrun_of_none h hn ?_, fun hany => markOverrun_of_some h hn ?_ ?_⟩,
      fun k hb => ⟨fun hall => markOverrun_of_none h hn ?_, fun hany => markOverrun_of_some h hn ?_ ?_⟩⟩
    · intro x hx
      rw [sameFeed_batch hb]
      simpa using List.all_eq_true.mp hall x hx
    · simp only [sameFeed_batch hb]
      simpa using hany
    · intro x
      rw [sameFeed_batch hb]
      by_cases hx : x.boundTo b = true
      · rw [if_pos hx, if_pos hx, overrunMark_of_boundTo hx]
      · rw [if_neg hx, if_neg hx]
    · intro x hx hc
      obtain ⟨i, hi⟩ := (sameFeed_fill hb x).mp hc
      exact hall x hx i hi
    · obtain ⟨x, hx, hi⟩ := hany
      exact ⟨x, hx, (sameFeed_fill hb x).mpr hi⟩
    · intro x
      by_cases hx : sameFeed e x = true
      · obtain ⟨i, hi⟩ := (sameFeed_fill hb x).mp hx
        rw [if_pos hx]
        simp only [TrackEntry.overrunMark, hi]
      · rw [if_neg hx]
        cases hxb : x.binding with
        | fill i => exact absurd ((sameFeed_fill hb x).mpr ⟨i, hxb⟩) hx
        | batch b => rfl
        | learn => rfl
  · subst htag
    have h : s.TrackAt older e younger := ⟨ht, hfirst⟩
    exact ⟨rebindOne_of_unjudged h, fun v hv => rebindOne_of_quiet h hv,
      fun v hv hs ho => ⟨rebindOne_of_mark h hv hs ho, rebindOne_of_stop h hv hs ho⟩, routesLater_of_trackAt h⟩
  · subst htag
    have h : s.TrackAt older e younger := ⟨ht, fun x hx => (hold x hx).2⟩
    intro reported track t does changes
    have hrt : t.TrackAt older reported younger := ⟨rfl, h.first⟩
    have taken : ∀ u, reportEffect e front back patch t = u → does u := by
      rintro u rfl
      show exec (.captureReport e.tag front back patch) s = _
      exact (scanner_next _ hs).trans (congrArg _
        (captureReport_of_trackAt hidle h (fun x hx => (hold x hx).1) hrep hfr hbk))
    refine ⟨fun b hb ha => taken _ (reportEffect_abandoned hb ha), fun b hb ha => ⟨fun a attrs hc hres => ?_,
      fun a hc hres => ?_, ?_⟩, fun k hb => ⟨fun p hnone hk ho => ?_, fun hnone ho => ?_, fun a hc => ?_, ?_⟩,
      fun hb => taken _ (reportEffect_learn hb)⟩
    · exact taken _ ((reportEffect_attrs hb ha hc).trans (patchAttrs_of_some hrt rfl hres))
    · exact taken _ ((reportEffect_attrs hb ha hc).trans (patchAttrs_of_none hres))
    · rintro rfl
      exact taken _ (reportEffect_stop hb ha)
    · subst hk
      subst hnone
      exact taken _ ((reportEffect_fillPlaced hb ho).trans
        (congrArg fillChanged (placeSheet_of_trackAt (x := reported) hrt rfl)))
    · subst hnone
      exact taken _ (reportEffect_fillBare hb ho)
    · exact taken _ ((reportEffect_fillAttrs hb hc).trans
        (congrArg fillChanged (releaseReservation_of_trackAt hrt hb)))
    · rintro rfl
      refine taken _ ((reportEffect_fillStop hb).trans ?_)
      rw [releaseReservation_of_trackAt (e := reported) hrt hb]
      rfl

end Sys2Proof.Machine
end

section
/-! Windows of awaited edges, misfeeds and the diverter handshake (O29). -/

namespace Sys2Proof.Machine

variable {s : State} {older younger : List TrackEntry} {e : TrackEntry}

/-! ## Windows (R40) -/

theorem windowsRun_of_moving {t : Transport} (hi : t ≠ .idle) (hh : t ≠ .held) : t.windowsRun = true := by
  cases t <;> first | rfl | contradiction

theorem windowEnd_pick (h : e.edges.entry.lead = none) : windowEnd e .entry .leading = some (e.pickedAt + 300) := by
  simp [windowEnd, EdgeRecord.times, h, sensorBefore, Config.pickWindow]

theorem windowEnd_lead_next {sn p : Sensor} {t : Nat} (h : (e.edges.times sn).lead = none)
    (hp : sensorBefore sn = some p) (ht : (e.edges.times p).lead = some t) :
    windowEnd e sn .leading = some (t + 250) := by
  simp [windowEnd, h, hp, ht, Config.edgeWindow]

theorem windowEnd_lead_taken {sn : Sensor} (h : (e.edges.times sn).lead ≠ none) : windowEnd e sn .leading = none := by
  simp [windowEnd, Option.isSome_iff_ne_none.mpr h]

theorem windowEnd_trail_entry {t : Nat} (h : (e.edges.times .entry).lead = some t) (hn : e.edges.entry.trail = none) :
    windowEnd e .entry .trailing = some (t + 4000) := by
  have h : e.edges.entry.lead = some t := h
  simp [windowEnd, EdgeRecord.times, h, hn, Config.entryTrailWindow]

theorem windowEnd_trail_later {sn : Sensor} {t a b : Nat} (hs : sn ≠ .entry) (h : (e.edges.times sn).lead = some t)
    (hn : (e.edges.times sn).trail = none) (ha : (e.edges.times .entry).lead = some a)
    (hb : e.edges.entry.trail = some b) : windowEnd e sn .trailing = some (t + (b - a) + 250) := by
  have ha : e.edges.entry.lead = some a := ha
  cases sn with
  | entry => exact absurd rfl hs
  | capture | gate | exit => simp [windowEnd, h, hn, ha, hb, Config.edgeWindow]

theorem windowEnd_trail_none {sn : Sensor} (h : (e.edges.times sn).lead = none ∨ (e.edges.times sn).trail ≠ none) :
    windowEnd e sn .trailing = none := by
  rcases h with h | h
  · cases sn <;> simp [windowEnd, h]
  · simp [windowEnd, Option.isSome_iff_ne_none.mpr h]

theorem edgeWindowExpired_of_end {sn : Sensor} {k : EdgeKind} {due : Nat} (h : s.TrackAt older e younger)
    (hw : s.tsq.transport.windowsRun = true) (hd : windowEnd e sn k = some due) :
    edgeWindowExpired e.tag sn k s = hold .jam (s.advanceTo due) := by
  simp only [edgeWindowExpired, findEntry_of_trackAt h, hd, hw, if_true]

theorem edgeWindowExpired_of_none {sn : Sensor} {k : EdgeKind} (h : s.TrackAt older e younger)
    (hd : windowEnd e sn k = none) : edgeWindowExpired e.tag sn k s = s := by
  simp only [edgeWindowExpired, findEntry_of_trackAt h, hd]

theorem pickWindowExpired_of_none (h : s.TrackAt older e younger) (hd : windowEnd e .entry .leading = none) :
    pickWindowExpired e.tag s = s := by
  simp only [pickWindowExpired, findEntry_of_trackAt h, hd]

theorem pickWindowExpired_of_loaded {due : Nat} (h : s.TrackAt older e younger)
    (hw : s.tsq.transport.windowsRun = true) (hd : windowEnd e .entry .leading = some due) (ht : s.tsq.tray = .loaded) :
    pickWindowExpired e.tag s = hold .jam (s.advanceTo due) := by
  simp only [pickWindowExpired, findEntry_of_trackAt h, hd, hw, advanceTo_tsq, ht, not_true_eq_false, if_false]

theorem pickWindowExpired_of_empty {due : Nat} (h : s.TrackAt older e younger)
    (hw : s.tsq.transport.windowsRun = true) (hd : windowEnd e .entry .leading = some due) (ht : s.tsq.tray = .empty) :
    pickWindowExpired e.tag s = misfeed e (s.advanceTo due) := by
  simp only [pickWindowExpired, findEntry_of_trackAt h, hd, hw, advanceTo_tsq, ht, not_true_eq_false, if_false]

/-! ## Misfeeds (R41) -/

/-- The state without a misfed entry: its handshake given up, the feed draining. -/
def State.misfed (s : State) (older younger : List TrackEntry) (tag : Nat) : State :=
  { s with tsq := { s.tsq with
    track := older ++ younger
    handshake := if ∃ h, s.tsq.handshake = some h ∧ h.tag = tag then none else s.tsq.handshake
    transport := if s.tsq.transport = .feeding ∨ s.tsq.transport = .paused then .draining else s.tsq.transport } }

theorem dropHandshake_eq (tag : Nat) (s : State) : dropHandshake tag s = s.modTsq fun t => { t with
    handshake := if ∃ h, s.tsq.handshake = some h ∧ h.tag = tag then none else s.tsq.handshake } := by
  have hany : s.tsq.handshake.any (·.tag == tag) = true ↔ ∃ h, s.tsq.handshake = some h ∧ h.tag = tag := by
    simp [Option.any_eq_true]
  unfold dropHandshake State.modTsq
  by_cases hc : s.tsq.handshake.any (·.tag == tag) = true
  · simp only [hc, hany.mp hc, if_true]
  · simp only [hc, mt hany.mpr hc, if_false]
    rfl

theorem misfed_eq (h : s.TrackAt older e younger) :
    drainFeed (dropHandshake e.tag (removeEntry e.tag s)) = s.misfed older younger e.tag := by
  have hr : removeEntry e.tag s = s.withTrack (older ++ younger) := congrArg s.withTrack (eraseEntry_of_trackAt h)
  rw [hr, dropHandshake_eq]
  rfl

theorem misfed_of_no_handshake {tag : Nat} (h : ∀ h, s.tsq.handshake = some h → h.tag ≠ tag) :
    s.misfed older younger tag = { s with tsq := { s.tsq with
      track := older ++ younger
      transport := if s.tsq.transport = .feeding ∨ s.tsq.transport = .paused then .draining
        else s.tsq.transport } } := by
  have hno : ¬ ∃ h, s.tsq.handshake = some h ∧ h.tag = tag := fun ⟨x, hx, ht⟩ => h x hx ht
  unfold State.misfed
  rw [if_neg hno]

theorem misfeed_of_fits (h : s.TrackAt older e younger) (hf : e.position = none ∨ s.holeFits e = true) :
    misfeed e s = drainTest (endedTestFor e (misfedNotice e (discardAll e.pages (s.misfed older younger e.tag)))) := by
  have hno : ¬ (e.position.isSome && !s.holeFits e) = true := by
    rcases hf with hf | hf <;> simp [hf]
  unfold misfeed
  rw [if_neg hno, ← misfed_eq h]

theorem misfeed_of_full {p : Nat} (hp : e.position = some p) (hf : s.holeFits e = false) :
    misfeed e s = hold .holeLimit s := by
  unfold misfeed
  rw [if_pos (by simp [hp, hf])]

theorem holeFits_of_unbound (hb : ∀ b, e.binding ≠ .batch b) : s.holeFits e = true := by
  unfold State.holeFits
  split
  · exact absurd ‹_› (hb _)
  · rfl

/-- What the notices of a misfed entry make of the state without it (R41). -/
theorem misfed_notices (s : State) (e : TrackEntry) :
    (∀ b, e.binding = .batch b → e.abandoned = false → e.position = none →
      endedTestFor e (misfedNotice e s) = endedTest b s) ∧
    (∀ b p, e.binding = .batch b → e.abandoned = false → e.position = some p →
      endedTestFor e (misfedNotice e s) =
        endedTest b (addHole b p (if e.storeLost then .store else .pulled) e.snap s)) ∧
    (∀ b, e.binding = .batch b → e.abandoned = true → e.position = none → endedTestFor e (misfedNotice e s) = s) ∧
    (∀ k, e.binding = .fill k → endedTestFor e (misfedNotice e s) = fillChanged s) ∧
    (e.binding = .learn → endedTestFor e (misfedNotice e s) = relearn s) := by
  refine ⟨fun b hb ha hp => ?_, fun b p hb ha hp => ?_, fun b hb ha hp => ?_, fun k hb => ?_, fun hb => ?_⟩
  · rw [endedTestFor_batch hb ha]
    simp only [misfedNotice, hb, hp]
  · rw [endedTestFor_batch hb ha]
    simp only [misfedNotice, hb, hp]
    rfl
  · rw [endedTestFor_other (Or.inr ha)]
    simp only [misfedNotice, hb, hp]
  · rw [endedTestFor_other (Or.inl (by simp [hb]))]
    simp only [misfedNotice, hb]
  · rw [endedTestFor_other (Or.inl (by simp [hb]))]
    simp only [misfedNotice, hb]

/-! ## The diverter handshake (R50) -/

theorem handshakeTest_of_owner {r : Pocket} (ht : s.tsq.track = older ++ e :: younger)
    (ho : ∀ x ∈ older, x.edges.gate.trail ≠ none) (hg : e.edges.gate.trail = none) (hr : e.route = some r)
    (hs : e.routeSettled = false) (hh : s.tsq.handshake = none) (hm : s.tsq.transport ≠ .held) :
    handshakeTest s = startHandshake e.tag r s := by
  have hown : s.gateOwner = some e := by
    unfold State.gateOwner
    rw [ht]
    exact find?_append_cons (fun x hx => by simpa using Option.isSome_iff_ne_none.mpr (ho x hx)) (by simp [hg])
  simp [handshakeTest, hown, hr, hs, hh, hm]

theorem startHandshake_of_confirmed {r : Pocket} (h : s.TrackAt older e younger) (hd : s.tsq.diverter = r)
    (hc : s.tsq.diverterConfirmed = true) :
    startHandshake e.tag r s = s.withTrack (older ++ { e with routeSettled := true } :: younger) := by
  unfold startHandshake
  rw [if_pos ⟨hd, hc⟩]
  exact updEntry_of_trackAt h _

theorem startHandshake_of_other {tag : Nat} {r : Pocket} (h : s.tsq.diverter ≠ r ∨ s.tsq.diverterConfirmed = false) :
    startHandshake tag r s = { s with
      tsq := { s.tsq with diverter := r, diverterConfirmed := false, handshake := some ⟨tag, false, s.now⟩ }
      portLog := s.portLog ++ [.diverter r] } := by
  unfold startHandshake
  rw [if_neg]
  · rfl
  · rintro ⟨hd, hc⟩
    rcases h with h | h
    · exact h hd
    · exact Bool.false_ne_true (h.symm.trans hc)

/-- Without a handshake the three waits of the diverter have nothing to act on. -/
theorem waits_of_no_handshake (h : s.tsq.handshake = none) :
    settleTimeOver s = s ∧ readyWindowOver s = s ∧ ∀ ready, readySampled ready s = s := by
  refine ⟨?_, ?_, fun ready => ?_⟩
  · simp only [settleTimeOver, h]
  · simp only [readyWindowOver, h]
  · simp only [readySampled, h]

theorem settleTimeOver_of_some {h : Handshake} (hh : s.tsq.handshake = some h) :
    settleTimeOver s = if h.sampling then s else
      { s with
          now := max s.now (h.commandedAt + 10)
          tsq := { s.tsq with handshake := some { h with sampling := true } } } := by
  simp only [settleTimeOver, hh]
  rfl

theorem readySampled_of_some {h : Handshake} {ready : Bool} (hh : s.tsq.handshake = some h) :
    readySampled ready s = if h.sampling = true ∧ ready = true then
      { s with tsq := { s.tsq with
        diverterConfirmed := true, handshake := none
        track := updFirst (·.tag == h.tag) (fun e => { e with routeSettled := true }) s.tsq.track } } else s := by
  simp only [readySampled, hh]
  rfl

theorem readyWindowOver_of_some {h : Handshake} (hh : s.tsq.handshake = some h) :
    readyWindowOver s = hold .diverter { s with now := max s.now (h.commandedAt + 40) } := by
  simp only [readyWindowOver, hh]
  rfl

/-- Settles O29: the windows by the edge and the tray, the misfeed by its binding, the handshake step by step. -/
theorem windowsAndDiverterHandshake : Obligations.WindowsAndDiverterHandshake := by
  unfold Obligations.WindowsAndDiverterHandshake
  refine ⟨fun tag older younger e s hs ht htag hfirst hidle hheld => ?_,
    fun older younger e r s ht hold hg hr hset hh hm => ?_, fun s hs => ?_⟩
  · subst htag
    have h : s.TrackAt older e younger := ⟨ht, hfirst⟩
    have hw := windowsRun_of_moving hidle hheld
    have edge : ∀ sn k, exec (.edgeWindowExpiry e.tag sn k) s = .next (edgeWindowExpired e.tag sn k s) :=
      fun sn k => scanner_next _ hs
    have expires : exec (.pickWindowExpiry e.tag) s = .next (pickWindowExpired e.tag s) := scanner_next _ hs
    intro late lead pick
    have hpick : pick = .next (pickWindowExpired e.tag s) := expires
    rw [hpick]
    have h' : (s.advanceTo (e.pickedAt + 300)).TrackAt older e younger := ⟨ht, hfirst⟩
    have hunbound : (∃ k, e.binding = .fill k) ∨ e.binding = .learn → (s.advanceTo (e.pickedAt + 300)).holeFits e = true := by
      rintro (⟨k, hb⟩ | hb) <;> exact holeFits_of_unbound (by simp [hb])
    refine ⟨fun hl => ?_, fun hl htray => ?_, fun hl htray hpages hhand => ?_, fun hl htray => ?_,
      fun sn due hl _ hdue => ?_, fun t hl hn => ?_, fun sn t a b hsn hl hn ha hb => ?_, fun sn hn => ?_, fun sn hl => ?_⟩
    · rw [pickWindowExpired_of_none h (windowEnd_lead_taken (sn := .entry) hl)]
    · rw [pickWindowExpired_of_loaded h hw (windowEnd_pick hl) htray]
      rfl
    · rw [pickWindowExpired_of_empty h hw (windowEnd_pick hl) htray]
      intro gone
      have hgone : discardAll e.pages ((s.advanceTo (e.pickedAt + 300)).misfed older younger e.tag) = gone := by
        rw [hpages, misfed_of_no_handshake (s := s.advanceTo _) hhand]
        rfl
      obtain ⟨hbatch, -, -, hfill, hlearn⟩ := misfed_notices gone e
      refine ⟨fun b hb ha hp => ?_, fun k hb => ?_, fun hb => ?_⟩
      · rw [misfeed_of_fits h' (Or.inl hp), hgone, hbatch b hb ha hp]
      · rw [misfeed_of_fits h' (Or.inr (hunbound (Or.inl ⟨k, hb⟩))), hgone, hfill k hb]
      · rw [misfeed_of_fits h' (Or.inr (hunbound (Or.inr hb))), hgone, hlearn hb]
        rfl
    · rw [pickWindowExpired_of_empty h hw (windowEnd_pick hl) htray]
      intro gone bare
      have hbare : discardAll e.pages ((s.advanceTo (e.pickedAt + 300)).misfed older younger e.tag) = bare := rfl
      obtain ⟨hbatch, hplaced, habandoned, hfill, hlearn⟩ := misfed_notices bare e
      refine ⟨fun b hb ha hp => ?_, fun b p hb ha hp => ⟨fun hfit => ?_, fun hfull => ?_⟩, fun b hb ha hp => ?_,
        fun k hb => ?_, fun hb => ?_⟩
      · rw [misfeed_of_fits h' (Or.inl hp), hbare, hbatch b hb ha hp]
      · rw [misfeed_of_fits h' (Or.inr hfit), hbare, hplaced b p hb ha hp]
      · rw [misfeed_of_full hp (s := s.advanceTo (e.pickedAt + 300)) hfull]
        rfl
      · rw [misfeed_of_fits h' (Or.inl hp), hbare, habandoned b hb ha hp]
      · rw [misfeed_of_fits h' (Or.inr (hunbound (Or.inl ⟨k, hb⟩))), hbare, hfill k hb]
      · rw [misfeed_of_fits h' (Or.inr (hunbound (Or.inr hb))), hbare, hlearn hb]
        rfl
    · obtain ⟨p, hp, t, hlt, rfl⟩ := hdue
      rw [edge, edgeWindowExpired_of_end h hw (windowEnd_lead_next hl hp hlt)]
      rfl
    · rw [edge, edgeWindowExpired_of_end h hw (windowEnd_trail_entry hl hn)]
      rfl
    · rw [edge, edgeWindowExpired_of_end h hw (windowEnd_trail_later hsn hl hn ha hb)]
      rfl
    · rw [edge, edgeWindowExpired_of_none h (windowEnd_trail_none hn)]
    · rw [edge, edgeWindowExpired_of_none h (windowEnd_lead_taken hl)]
  · have h : s.TrackAt older e younger := ⟨ht, fun x hx => (hold x hx).2⟩
    rw [handshakeTest_of_owner ht (fun x hx => (hold x hx).1) hg hr hset hh hm]
    exact ⟨startHandshake_of_confirmed h, startHandshake_of_other⟩
  · have settles : exec .diverterSettleTime s = .next (settleTimeOver s) := scanner_next _ hs
    have closes : exec .readyWindowExpiry s = .next (readyWindowOver s) := scanner_next _ hs
    have samples : ∀ ready, exec (.readySample ready) s = .next (readySampled ready s) := fun _ => scanner_next _ hs
    simp only [settles, closes, samples]
    refine ⟨fun hn => ?_, fun h hh => ?_⟩
    · obtain ⟨h1, h2, h3⟩ := waits_of_no_handshake hn
      exact ⟨congrArg _ h1, congrArg _ h2, fun ready => congrArg _ (h3 ready)⟩
    · rw [settleTimeOver_of_some hh, readyWindowOver_of_some hh, readySampled_of_some hh, readySampled_of_some hh]
      refine ⟨rfl, fun hsm => ?_, fun hsm => ?_, ?_, rfl⟩
      · rw [if_pos ⟨hsm, rfl⟩]
      · rw [if_neg (by simp [hsm])]
      · rw [if_neg (by simp)]

end Sys2Proof.Machine
end

section
/-! OPEN BATCH (O12): the entry that a new record takes, the four checks, and the judgement of the attributes. -/

namespace Sys2Proof.Machine

variable {s : State}

/-! ## The entry of a new record (R1) -/

theorem placeBatch_of_number {r old : BatchRec} {l m : List BatchRec} (ho : old.number = r.number)
    (hl : ∀ x ∈ l, x.number ≠ r.number) : placeBatch r (l ++ old :: m) = l ++ r :: m := by
  unfold placeBatch
  rw [if_pos (by simp [ho])]
  exact updFirst_append_cons (fun x hx => by simpa using hl x hx) (by simp [ho])

theorem any_number_eq_false {r : BatchRec} {l : List BatchRec} (hl : ∀ x ∈ l, x.number ≠ r.number) :
    ¬ l.any (·.number == r.number) = true := by
  simpa using hl

theorem placeBatch_of_room {r : BatchRec} {l : List BatchRec} (hl : ∀ x ∈ l, x.number ≠ r.number)
    (hr : l.length < 8) : placeBatch r l = l ++ [r] := by
  unfold placeBatch
  rw [if_neg (any_number_eq_false hl)]
  exact if_pos hr

theorem oldestTerminal_cons (x : BatchRec) (l : List BatchRec) : oldestTerminal (x :: l) =
    match oldestTerminal l with
    | none => if x.state.terminal then some x else none
    | some y => if x.state.terminal && x.terminalOrder.getD 0 ≤ y.terminalOrder.getD 0 then some x else some y := rfl

/-- The terminal record of the least order, wherever it stands. -/
theorem oldestTerminal_of_least {old : BatchRec} {l m : List BatchRec} (ht : old.state.terminal = true)
    (hleast : ∀ x ∈ l ++ m, x.state.terminal = true → old.terminalOrder.getD 0 < x.terminalOrder.getD 0) :
    oldestTerminal (l ++ old :: m) = some old := by
  induction l with
  | nil =>
    rw [List.nil_append, oldestTerminal_cons]
    cases hm : oldestTerminal m with
    | none => simp [ht]
    | some y =>
      obtain ⟨hy, hyt⟩ := oldestTerminal_mem m y hm
      simp [ht, le_of_lt (hleast y hy hyt)]
  | cons x l ih =>
    rw [List.cons_append, oldestTerminal_cons, ih fun y hy => hleast y (List.mem_cons_of_mem _ hy)]
    by_cases hx : x.state.terminal = true
    · simp [hx, Nat.not_le.mpr (hleast x List.mem_cons_self hx)]
    · simp [hx]

theorem placeBatch_of_oldest {r old : BatchRec} {l m : List BatchRec} (hl : ∀ x ∈ l ++ old :: m, x.number ≠ r.number)
    (hfull : 8 ≤ (l ++ old :: m).length) (hn : ((l ++ old :: m).map (·.number)).Nodup) (ht : old.state.terminal = true)
    (hleast : ∀ x ∈ l ++ m, x.state.terminal = true → old.terminalOrder.getD 0 < x.terminalOrder.getD 0) :
    placeBatch r (l ++ old :: m) = l ++ r :: m := by
  have hfirst : ∀ x ∈ l, x.number ≠ old.number := by
    rw [List.map_append, List.map_cons, List.nodup_append] at hn
    intro x hx
    exact hn.2.2 x.number (List.mem_map_of_mem hx) old.number List.mem_cons_self
  unfold placeBatch
  rw [if_neg (any_number_eq_false hl), if_neg (show ¬ _ < Config.batchEntries from Nat.not_lt.mpr hfull),
    oldestTerminal_of_least ht hleast]
  exact updFirst_append_cons (fun x hx => by simpa using hfirst x hx) (by simp)

/-- The record placed is the one that its number finds. -/
theorem find?_placeBatch {r : BatchRec} {t : List BatchRec}
    (hroom : t.length < 8 ∨ ∃ x ∈ t, x.state.terminal = true) :
    (placeBatch r t).find? (·.number == r.number) = some r := by
  unfold placeBatch
  split
  · rename_i hany
    obtain ⟨x, hx⟩ := Option.isSome_iff_exists.mp (List.find?_isSome.mpr (List.any_eq_true.mp hany))
    rw [find?_updFirst _ _ (fun _ _ => by simp), hx]
    rfl
  · rename_i hany
    have hnew : ∀ x ∈ t, (x.number == r.number) = false := by simpa using hany
    split
    · exact find?_append_cons hnew (by simp)
    · rename_i hfull
      obtain ⟨old, hold⟩ := oldestTerminal_some t (hroom.resolve_left hfull)
      obtain ⟨l, x, m, ht, -, hu⟩ := updFirst_split (·.number == old.number) (fun _ => r) t
        (List.any_eq_true.mpr ⟨old, (oldestTerminal_mem t old hold).1, by simp⟩)
      rw [hold]
      dsimp only
      rw [hu]
      exact find?_append_cons (fun y hy => hnew y (by rw [ht]; simp [hy])) (by simp)

/-! ## The four checks (R3) -/

/-- The operands that OPEN BATCH refuses with BAD_ARGUMENT. -/
def State.openBad (s : State) (b g : Nat) (a : AttrArg) : Prop :=
  b = 0 ∨ 16777215 < b ∨ g = 0 ∨ 15 < g ∨ g = s.oru.address ∨ a.resolve s.oru.settings.toleranceDefault = none

/-- A batch is OPENING or ACTIVE. -/
def State.openBusy (s : State) : Prop := ∃ r ∈ s.bct.batches, r.state = .opening ∨ r.state = .active

/-- The number is another owner's in the directory, or a batch of this station that is not terminal. -/
def State.openDuplicate (s : State) (b : Nat) : Prop :=
  (∃ d, s.findDir b = some d ∧ d.owner ≠ s.oru.address) ∨ ∃ r, s.findBatch b = some r ∧ r.state.terminal = false

/-- The table is full of records that are not terminal. -/
def State.openFull (s : State) : Prop := 8 ≤ s.bct.batches.length ∧ ∀ r ∈ s.bct.batches, r.state.terminal = false

theorem openBad_iff {b g : Nat} {a : AttrArg} {attrs : AttrSet}
    (hr : a.resolve s.oru.settings.toleranceDefault = some attrs) :
    (¬ batchOk b ∨ ¬ gatewayOk g ∨ g = s.oru.address) ↔ s.openBad b g a := by
  have hb : batchOk b = true ↔ 1 ≤ b ∧ b ≤ 16777215 := by
    simp only [batchOk, Bool.and_eq_true, decide_eq_true_eq]
    exact Iff.rfl
  have hg : gatewayOk g = true ↔ 1 ≤ g ∧ g ≤ 15 := by simp [gatewayOk]
  simp only [State.openBad, hb, hg, hr, reduceCtorEq, or_false]
  omega

theorem openBusy_iff : s.bct.batches.any (fun r => r.state == .opening || r.state == .active) = true ↔ s.openBusy := by
  simp [State.openBusy]

theorem openDuplicate_iff {b : Nat} : ((s.findDir b).any (·.owner != s.oru.address) = true ∨
    (s.findBatch b).any (!·.state.terminal) = true) ↔ s.openDuplicate b := by
  simp [State.openDuplicate, Option.any_eq_true]

theorem openFull_iff : (Config.batchEntries ≤ s.bct.batches.length ∧ s.bct.batches.all (!·.state.terminal) = true) ↔
    s.openFull := by
  simp [State.openFull, Config.batchEntries]

/-- What an accepted OPEN BATCH makes of the state (R4). -/
def State.opened (s : State) (b g : Nat) (attrs : AttrSet) : State :=
  ask Config.everyStation (.batchOpen b g) (addQueue b (setDir ⟨b, s.oru.address, g, s.now⟩
    (s.modBct fun t => { t with batches := placeBatch (newBatch b g attrs s.fli.askTag s.answerDue) t.batches })))

/-- OPEN BATCH, its checks in their order. -/
theorem openBatch_of_resolved {b g : Nat} {a : AttrArg} {attrs : AttrSet}
    (hr : a.resolve s.oru.settings.toleranceDefault = some attrs) : openBatch b g a s =
      if ¬ batchOk b ∨ ¬ gatewayOk g ∨ g = s.oru.address then (.badArgument, s)
      else if s.bct.batches.any (fun r => r.state == .opening || r.state == .active) then (.busy, s)
      else if (s.findDir b).any (·.owner != s.oru.address) ∨ (s.findBatch b).any (!·.state.terminal) then
        (.duplicateBatch, s)
      else if Config.batchEntries ≤ s.bct.batches.length ∧ s.bct.batches.all (!·.state.terminal) then (.tableFull, s)
      else (.accepted, s.opened b g attrs) := by
  simp only [openBatch, hr]
  rfl

theorem resolved_of_not_bad {b g : Nat} {a : AttrArg} (h : ¬ s.openBad b g a) :
    ∃ attrs, a.resolve s.oru.settings.toleranceDefault = some attrs := by
  refine Option.ne_none_iff_exists'.mp fun hn => h ?_
  exact Or.inr (Or.inr (Or.inr (Or.inr (Or.inr hn))))

theorem openBatch_of_bad {b g : Nat} {a : AttrArg} (h : s.openBad b g a) : openBatch b g a s = (.badArgument, s) := by
  cases hr : a.resolve s.oru.settings.toleranceDefault with
  | none => simp only [openBatch, hr]
  | some attrs => rw [openBatch_of_resolved hr, if_pos ((openBad_iff hr).mpr h)]

theorem openBatch_of_busy {b g : Nat} {a : AttrArg} (h : ¬ s.openBad b g a) (hb : s.openBusy) :
    openBatch b g a s = (.busy, s) := by
  obtain ⟨attrs, hr⟩ := resolved_of_not_bad h
  rw [openBatch_of_resolved hr, if_neg (mt (openBad_iff hr).mp h), if_pos (openBusy_iff.mpr hb)]

theorem openBatch_of_duplicate {b g : Nat} {a : AttrArg} (h : ¬ s.openBad b g a) (hb : ¬ s.openBusy)
    (hd : s.openDuplicate b) : openBatch b g a s = (.duplicateBatch, s) := by
  obtain ⟨attrs, hr⟩ := resolved_of_not_bad h
  rw [openBatch_of_resolved hr, if_neg (mt (openBad_iff hr).mp h), if_neg (mt openBusy_iff.mp hb),
    if_pos (openDuplicate_iff.mpr hd)]

theorem openBatch_of_full {b g : Nat} {a : AttrArg} (h : ¬ s.openBad b g a) (hb : ¬ s.openBusy)
    (hd : ¬ s.openDuplicate b) (hf : s.openFull) : openBatch b g a s = (.tableFull, s) := by
  obtain ⟨attrs, hr⟩ := resolved_of_not_bad h
  rw [openBatch_of_resolved hr, if_neg (mt (openBad_iff hr).mp h), if_neg (mt openBusy_iff.mp hb),
    if_neg (mt openDuplicate_iff.mp hd), if_pos (openFull_iff.mpr hf)]

theorem openBatch_of_accepted {b g : Nat} {a : AttrArg} {attrs : AttrSet}
    (hr : a.resolve s.oru.settings.toleranceDefault = some attrs) (h : ¬ s.openBad b g a) (hb : ¬ s.openBusy)
    (hd : ¬ s.openDuplicate b) (hf : ¬ s.openFull) : openBatch b g a s = (.accepted, s.opened b g attrs) := by
  rw [openBatch_of_resolved hr, if_neg (mt (openBad_iff hr).mp h), if_neg (mt openBusy_iff.mp hb),
    if_neg (mt openDuplicate_iff.mp hd), if_neg (mt openFull_iff.mp hf)]

theorem exec_openBatch {h : Hdr} {b g : Nat} {a : AttrArg} (hc : s.consoleOrder h) (hr : s.oru.role = .scanner) :
    exec (.openBatch h b g a) s =
      .next (answer h (openBatch b g a s.orderCounted).1 [] (openBatch b g a s.orderCounted).2) :=
  exec_answered rfl hc rfl (by rw [hr]; rfl) rfl

/-! ## The attributes of a batch (R10) -/

theorem nominalOk_iff {n : Option Nat} : nominalOk n = true ↔ n = none ∨ ∃ l, n = some l ∧ 1 ≤ l ∧ l ≤ 2000 := by
  cases n <;> simp [nominalOk]

theorem resolve_of_ok {a : AttrArg} {default : Nat} {d : Duplex} {p : Policy} (hd : Duplex.ofCode a.duplex = some d)
    (hp : Policy.ofCode a.policy = some p) (hb : a.bank ≤ 1) (ht : a.tolerance.getD default ≤ 50)
    (hn : a.nominal = none ∨ ∃ l, a.nominal = some l ∧ 1 ≤ l ∧ l ≤ 2000) :
    a.resolve default = some ⟨d, p, a.bank, a.nominal, a.tolerance.getD default⟩ := by
  simp only [AttrArg.resolve, hd, hp]
  rw [if_pos ⟨hb, nominalOk_iff.mpr hn, ht⟩]

theorem duplex_ofCode_none {n : Nat} (h : 1 < n) : Duplex.ofCode n = none := by
  unfold Duplex.ofCode
  split <;> first | rfl | omega

theorem policy_ofCode_none {n : Nat} (h : 2 < n) : Policy.ofCode n = none := by
  unfold Policy.ofCode
  split <;> first | rfl | omega

/-- A set with a field out of its range is not taken at all. -/
theorem resolve_of_bad {a : AttrArg} {default : Nat} (h : 1 < a.duplex ∨ 2 < a.policy ∨ 1 < a.bank ∨
    50 < a.tolerance.getD default ∨ a.nominal = some 0 ∨ ∃ l, a.nominal = some l ∧ 2000 < l) :
    a.resolve default = none := by
  unfold AttrArg.resolve
  split
  · rename_i d p hd hp
    refine if_neg ?_
    rintro ⟨hb, hn, ht⟩
    rcases h with h | h | h | h | h | ⟨l, h, hl⟩
    · rw [duplex_ofCode_none h] at hd; cases hd
    · rw [policy_ofCode_none h] at hp; cases hp
    · omega
    · omega
    · rw [h] at hn; simp [nominalOk] at hn
    · rw [h] at hn; simp [nominalOk] at hn; omega
  · rfl

/-- Settles O12: the accepted order, the entry that it takes, the checks, and the attributes. -/
theorem openBatchJudged : Obligations.OpenBatchJudged := by
  unfold Obligations.OpenBatchJudged
  refine ⟨⟨fun h b g a attrs s hc hr hres hb1 hb2 hg1 hg2 hga hbusy hdir hterm hroom => ?_, fun r l m old => ?_⟩,
    fun h b g a s hc hr => ?_, fun a default => ?_⟩
  · have hbad : ¬ s.orderCounted.openBad b g a := by
      have hres' : a.resolve s.orderCounted.oru.settings.toleranceDefault = some attrs := hres
      rw [← openBad_iff hres', batchOk_of hb1 hb2, gatewayOk_of hg1 hg2]
      simpa using hga
    have hnb : ¬ s.orderCounted.openBusy := by
      rintro ⟨r, hr, hx | hx⟩
      · exact (hbusy r hr).1 hx
      · exact (hbusy r hr).2 hx
    have hnd : ¬ s.orderCounted.openDuplicate b := by
      rintro (⟨d, hd, hx⟩ | ⟨r, hr, hx⟩)
      · exact hx (hdir d hd)
      · exact Bool.false_ne_true (hx.symm.trans (hterm r hr))
    have hnf : ¬ s.orderCounted.openFull := by
      rintro ⟨hlen, hall⟩
      rcases hroom with hroom | ⟨r, hr, hx⟩
      · exact absurd hroom (Nat.not_lt.mpr hlen)
      · exact Bool.false_ne_true ((hall r hr).symm.trans hx)
    rw [exec_openBatch hc hr, openBatch_of_accepted (s := s.orderCounted) hres hbad hnb hnd hnf]
    exact ⟨rfl, find?_placeBatch (r := newBatch b g attrs s.fli.askTag s.answerDue) hroom⟩
  · exact ⟨placeBatch_of_number, placeBatch_of_room, placeBatch_of_oldest⟩
  · rw [exec_openBatch hc hr]
    intro bad busy dup full refused
    have answered : ∀ {c}, openBatch b g a s.orderCounted = (c, s.orderCounted) →
        Host.Outcome.next (answer h (openBatch b g a s.orderCounted).1 [] (openBatch b g a s.orderCounted).2) =
          (.next (answer h c [] s.orderCounted) : Host.Outcome State Fault Refusal) := by
      intro c ho
      rw [ho]
    exact ⟨fun h => answered (openBatch_of_bad h), fun h hb => answered (openBatch_of_busy h hb),
      fun h hb hd => answered (openBatch_of_duplicate h hb hd), fun h hb hd hf => answered (openBatch_of_full h hb hd hf)⟩
  · exact ⟨fun d p hd hp hb ht hn => resolve_of_ok hd hp hb ht hn, resolve_of_bad⟩

end Sys2Proof.Machine
end

section
/-! WAIVE HOLES (O16): the five checks in their order, the holes that a waiver marks, and the accepted position that it
turns into a WAIVED hole. -/

namespace Sys2Proof.Machine

variable {s : State} {r : BatchRec} {b p : Nat}

/-! ## The checks (R155) -/

theorem mem_dedup {ps : List Nat} : p ∈ dedup ps ↔ p ∈ ps := by
  induction ps with
  | nil => exact Iff.rfl
  | cons q ps ih =>
    unfold dedup
    split
    · rename_i hq
      have hmem : q ∈ ps := List.contains_iff_mem.mp hq
      rw [ih, List.mem_cons]
      exact ⟨Or.inr, fun h => h.elim (fun e => e ▸ hmem) id⟩
    · rw [List.mem_cons, List.mem_cons, ih]

theorem waiveRefused_iff :
    r.waiveRefused = true ↔ r.state ∈ [BatchState.opening, .closing, .committed, .refused, .abandoned] := by
  unfold BatchRec.waiveRefused
  cases r.state <;> decide

theorem hole?_isNone_iff : (r.hole? p).isNone = true ↔ ∀ x ∈ r.holes, x.position ≠ p := by
  simp [BatchRec.hole?]

theorem isFill_iff {k : Binding} : k.isFill = true ↔ ∃ q, k = .fill q := by
  cases k <;> simp [Binding.isFill]

/-- A sheet in the track holds the position. -/
def State.positionHeld (s : State) (b p : Nat) : Prop :=
  ∃ e ∈ s.tsq.track, e.position = some p ∧ (e.boundTo b = true ∨
    ((∃ k, e.binding = .fill k) ∧ ∃ j, s.bct.fill = some j ∧ j.atHome = true ∧ j.batch = b))

theorem sheetHolds_iff : s.sheetHolds b p = true ↔ s.positionHeld b p := by
  simp [State.sheetHolds, State.positionHeld, State.fillsOwn, Option.any_eq_true, isFill_iff]

/-- A position that WAIVE HOLES refuses with BAD_ARGUMENT. -/
def State.waiveArgBad (s : State) (r : BatchRec) (b p : Nat) : Prop :=
  p = 0 ∨ r.scanned < p ∨ s.positionHeld b p ∨
    ((∀ x ∈ r.holes, x.position ≠ p) ∧ s.positionRecs b p ≠ [] ∧ ∀ q ∈ s.positionRecs b p, q.state ≠ .failed)

theorem waiveBad_iff (hn : r.number = b) : s.waiveBad r p = true ↔ s.waiveArgBad r b p := by
  subst hn
  simp only [State.waiveBad, State.waiveArgBad, Bool.or_eq_true, Bool.and_eq_true, sheetHolds_iff, hole?_isNone_iff,
    beq_iff_eq, decide_eq_true_eq, Bool.not_eq_true', List.isEmpty_eq_false_iff, List.all_eq_true, bne_iff_ne, or_assoc,
    and_assoc]

theorem any_waiveBad_iff (hn : r.number = b) {ps : List Nat} :
    (dedup ps).any (s.waiveBad r) = true ↔ ∃ p ∈ ps, s.waiveArgBad r b p := by
  simp only [List.any_eq_true, mem_dedup, waiveBad_iff hn]

/-- One of the positions is a CLAIMED hole. -/
def BatchRec.claimedAt (r : BatchRec) (ps : List Nat) : Prop := ∃ p ∈ ps, ∃ x, r.hole? p = some x ∧ x.state = .claimed

theorem any_claimed_iff {ps : List Nat} :
    ((dedup ps).any fun p => (r.hole? p).any (·.state == .claimed)) = true ↔ r.claimedAt ps := by
  simp [BatchRec.claimedAt, Option.any_eq_true, mem_dedup]

/-- The named positions that are no holes of the batch. -/
def BatchRec.fresh (r : BatchRec) (ps : List Nat) : List Nat := (dedup ps).filter fun p => (r.hole? p).isNone

/-- What an accepted WAIVE HOLES makes of the state. -/
def State.waived (s : State) (r : BatchRec) (b : Nat) (ps : List Nat) : State :=
  closeTest b (discardAll ((r.fresh ps).flatMap fun p => (s.positionRecs b p).map (·.id))
    (s.updBatch b fun r => (dedup ps).foldl BatchRec.waiveOne r))

/-- WAIVE HOLES of a batch that the station knows, its checks in their order. -/
theorem waiveHoles_of_some {ps : List Nat} (hb : s.findBatch b = some r) : waiveHoles b ps s =
    if r.waiveRefused then (.badState, s)
    else if (dedup ps).any (s.waiveBad r) then (.badArgument, s)
    else if (dedup ps).any fun p => (r.hole? p).any (·.state == .claimed) then (.holeClaimed, s)
    else if Config.holeEntries < r.holes.length + (r.fresh ps).length + s.holesComing b then (.tableFull, s)
    else (.accepted, s.waived r b ps) := by
  simp only [waiveHoles, hb]
  rfl

section checks
variable {ps : List Nat}

theorem waiveHoles_of_none (hb : s.findBatch b = none) : waiveHoles b ps s = (.unknownBatch, s) := by
  simp only [waiveHoles, hb]

theorem waiveHoles_of_refused (hb : s.findBatch b = some r) (h : r.waiveRefused = true) :
    waiveHoles b ps s = (.badState, s) := by
  rw [waiveHoles_of_some hb, if_pos h]

theorem waiveHoles_of_bad (hb : s.findBatch b = some r) (h : ¬ r.waiveRefused = true)
    (ha : ∃ p ∈ ps, s.waiveArgBad r b p) : waiveHoles b ps s = (.badArgument, s) := by
  rw [waiveHoles_of_some hb, if_neg h, if_pos ((any_waiveBad_iff (number_of_findBatch hb)).mpr ha)]

theorem waiveHoles_of_claimed (hb : s.findBatch b = some r) (h : ¬ r.waiveRefused = true)
    (ha : ¬ ∃ p ∈ ps, s.waiveArgBad r b p) (hc : r.claimedAt ps) : waiveHoles b ps s = (.holeClaimed, s) := by
  rw [waiveHoles_of_some hb, if_neg h, if_neg (mt (any_waiveBad_iff (number_of_findBatch hb)).mp ha),
    if_pos (any_claimed_iff.mpr hc)]

theorem waiveHoles_of_full (hb : s.findBatch b = some r) (h : ¬ r.waiveRefused = true)
    (ha : ¬ ∃ p ∈ ps, s.waiveArgBad r b p) (hc : ¬ r.claimedAt ps)
    (hf : 32 < r.holes.length + (r.fresh ps).length + s.holesComing b) : waiveHoles b ps s = (.tableFull, s) := by
  rw [waiveHoles_of_some hb, if_neg h, if_neg (mt (any_waiveBad_iff (number_of_findBatch hb)).mp ha),
    if_neg (mt any_claimed_iff.mp hc)]
  exact if_pos hf

theorem waiveHoles_of_accepted (hb : s.findBatch b = some r) (h : ¬ r.waiveRefused = true)
    (ha : ¬ ∃ p ∈ ps, s.waiveArgBad r b p) (hc : ¬ r.claimedAt ps)
    (hf : r.holes.length + (r.fresh ps).length + s.holesComing b ≤ 32) :
    waiveHoles b ps s = (.accepted, s.waived r b ps) := by
  rw [waiveHoles_of_some hb, if_neg h, if_neg (mt (any_waiveBad_iff (number_of_findBatch hb)).mp ha),
    if_neg (mt any_claimed_iff.mp hc)]
  exact if_neg (Nat.not_lt.mpr hf)

theorem exec_waiveHoles {h : Hdr} (hc : s.consoleOrder h) (hr : s.oru.role = .scanner) (h1 : 1 ≤ ps.length)
    (h32 : ps.length ≤ 32) : exec (.waiveHoles h b ps) s =
      .next (answer h (waiveHoles b ps s.orderCounted).1 [] (waiveHoles b ps s.orderCounted).2) :=
  exec_answered rfl hc (by simp [Order.argsOk, h1, h32]) (by rw [hr]; rfl) rfl

theorem exec_waiveHoles_of {h : Hdr} {c : ResultCode} {t : State} (hc : s.consoleOrder h) (hr : s.oru.role = .scanner)
    (h1 : 1 ≤ ps.length) (h32 : ps.length ≤ 32) (hw : waiveHoles b ps s.orderCounted = (c, t)) :
    exec (.waiveHoles h b ps) s = .next (answer h c [] t) := by
  rw [exec_waiveHoles hc hr h1 h32, hw]

end checks

/-! ## Holes that a waiver marks -/

/-- The record with the VACANT holes at these positions WAIVED. -/
def BatchRec.waivedAt (r : BatchRec) (ps : List Nat) : BatchRec :=
  { r with holes := r.holes.map fun x =>
      if x.position ∈ ps ∧ x.state = .vacant then { x with state := .waived } else x }

@[simp] theorem waivedAt_positions (ps : List Nat) :
    (r.waivedAt ps).holes.map (·.position) = r.holes.map (·.position) := by
  simp only [BatchRec.waivedAt, List.map_map]
  refine List.map_congr_left fun x _ => ?_
  simp only [Function.comp]
  split <;> rfl

theorem waivedAt_nil : r.waivedAt [] = r := by simp [BatchRec.waivedAt]

/-- A hole waived once is VACANT no more, so positions add up. -/
theorem waivedAt_waivedAt (p : Nat) (ps : List Nat) : (r.waivedAt [p]).waivedAt ps = r.waivedAt (p :: ps) := by
  simp only [BatchRec.waivedAt, List.map_map]
  congr 1
  refine List.map_congr_left fun x _ => ?_
  by_cases hv : x.state = .vacant <;> by_cases hp : x.position = p <;> simp [hv, hp]

/-- With one hole for a position, the first that it hits is every one that it hits. -/
theorem updFirst_vacant {l : List Hole} (hn : (l.map (·.position)).Nodup) :
    updFirst (fun h => h.position == p && h.state == .vacant) (fun h => { h with state := .waived }) l =
      l.map fun x => if x.position ∈ [p] ∧ x.state = .vacant then { x with state := .waived } else x := by
  induction l with
  | nil => rfl
  | cons x l ih =>
    rw [List.map_cons, List.nodup_cons] at hn
    obtain ⟨hx, hl⟩ := hn
    by_cases hit : x.position = p ∧ x.state = .vacant
    · have hrest : ∀ y ∈ l, y.position ≠ p := fun y hy he =>
        hx (by rw [hit.1, ← he]; exact List.mem_map_of_mem hy)
      have hsame : (l.map fun x => if x.position ∈ [p] ∧ x.state = .vacant then { x with state := .waived } else x) = l :=
        (List.map_congr_left fun y hy => if_neg fun h => hrest y hy (List.mem_singleton.mp h.1)).trans (List.map_id l)
      rw [List.map_cons, hsame, if_pos ⟨List.mem_singleton.mpr hit.1, hit.2⟩]
      exact updFirst_append_cons (l := []) (fun _ h => absurd h List.not_mem_nil) (by simp [hit])
    · have hmiss : (x.position == p && x.state == .vacant) = false := by simpa using hit
      rw [List.map_cons, ← ih hl, if_neg (by simpa using hit)]
      simp [updFirst, hmiss]

theorem hole?_of_mem (hp : p ∈ r.holes.map (·.position)) : ∃ x, r.hole? p = some x := by
  obtain ⟨x, hx, hxp⟩ := List.mem_map.mp hp
  exact Option.isSome_iff_exists.mp (List.find?_isSome.mpr ⟨x, hx, by simpa using hxp⟩)

theorem waiveOne_of_mem (hn : (r.holes.map (·.position)).Nodup) (hp : p ∈ r.holes.map (·.position)) :
    r.waiveOne p = r.waivedAt [p] := by
  obtain ⟨x, hx⟩ := hole?_of_mem hp
  simp only [BatchRec.waiveOne, hx]
  exact congrArg (fun l => { r with holes := l }) (updFirst_vacant hn)

theorem foldl_waiveOne (ps : List Nat) (r : BatchRec) (hn : (r.holes.map (·.position)).Nodup)
    (hp : ∀ p ∈ ps, p ∈ r.holes.map (·.position)) : ps.foldl BatchRec.waiveOne r = r.waivedAt ps := by
  induction ps generalizing r with
  | nil => exact waivedAt_nil.symm
  | cons p ps ih =>
    rw [List.foldl_cons, waiveOne_of_mem hn (hp p List.mem_cons_self), ← waivedAt_waivedAt p ps]
    refine ih _ ?_ fun q hq => ?_
    · rw [waivedAt_positions]; exact hn
    · rw [waivedAt_positions]; exact hp q (List.mem_cons_of_mem _ hq)

theorem waivedAt_dedup (ps : List Nat) : r.waivedAt (dedup ps) = r.waivedAt ps := by
  simp only [BatchRec.waivedAt, mem_dedup]

theorem fresh_eq_nil {ps : List Nat} (hp : ∀ p ∈ ps, p ∈ r.holes.map (·.position)) : r.fresh ps = [] := by
  refine List.filter_eq_nil_iff.mpr fun p h => ?_
  obtain ⟨x, hx⟩ := hole?_of_mem (hp p (mem_dedup.mp h))
  simp [hx]

/-- A waiver of holes frees no page. -/
theorem waived_of_holes {ps : List Nat} (hb : s.findBatch b = some r) (hn : (r.holes.map (·.position)).Nodup)
    (hp : ∀ p ∈ ps, p ∈ r.holes.map (·.position)) :
    s.waived r b ps = closeTest b (s.updBatch b fun r => r.waivedAt ps) := by
  have hfold : (dedup ps).foldl BatchRec.waiveOne r = r.waivedAt ps :=
    (foldl_waiveOne _ r hn fun p h => hp p (mem_dedup.mp h)).trans (waivedAt_dedup ps)
  unfold State.waived
  rw [fresh_eq_nil hp, updBatch_congr (g := fun r => r.waivedAt ps) hb hfold]
  rfl

/-- A position that finds a hole in a list of one hole per position finds that hole. -/
theorem hole?_eq_of_mem {x y : Hole} (hn : (r.holes.map (·.position)).Nodup) (hx : x ∈ r.holes) (hxp : x.position = p)
    (hy : r.hole? p = some y) : y = x := by
  have hyp : y.position = p := by simpa using List.find?_some hy
  exact List.inj_on_of_nodup_map hn (List.mem_of_find?_eq_some hy) hx (hyp.trans hxp.symm)

/-! ## An accepted position that becomes a hole -/

/-- The hole list with the WAIVED hole of an accepted position (R155). -/
def BatchRec.holesWith (r : BatchRec) (p : Nat) : List Hole :=
  insertHole { position := p, reason := .store, state := .waived, snap := r.attrs } r.holes

/-- The position leaves the accepted set of the record. -/
def State.unaccepted (s : State) (r : BatchRec) (b p : Nat) : State :=
  s.updBatch b fun x => { x with accepted := x.accepted - 1, holes := r.holesWith p }

theorem fresh_singleton (hp : ∀ x ∈ r.holes, x.position ≠ p) : r.fresh [p] = [p] := by
  have hf : (r.hole? p).isNone = true := hole?_isNone_iff.mpr hp
  show [p].filter (fun p => (r.hole? p).isNone) = [p]
  simp [hf]

theorem waiveOne_of_fresh (hp : ∀ x ∈ r.holes, x.position ≠ p) :
    r.waiveOne p = { r with accepted := r.accepted - 1, holes := r.holesWith p } := by
  have hf : r.hole? p = none := Option.isNone_iff_eq_none.mp (hole?_isNone_iff.mpr hp)
  simp only [BatchRec.waiveOne, hf]
  rfl

theorem waived_of_fresh (hb : s.findBatch b = some r) (hp : ∀ x ∈ r.holes, x.position ≠ p) :
    s.waived r b [p] = closeTest b (discardAll ((s.positionRecs b p).map (·.id)) (s.unaccepted r b p)) := by
  have hfold : (dedup [p]).foldl BatchRec.waiveOne r =
      { r with accepted := r.accepted - 1, holes := r.holesWith p } := waiveOne_of_fresh hp
  unfold State.waived State.unaccepted
  rw [fresh_singleton hp, List.flatMap_singleton,
    updBatch_congr (g := fun x => { x with accepted := x.accepted - 1, holes := r.holesWith p }) hb hfold]

theorem mem_positionRecs {q : PageRec} :
    q ∈ s.positionRecs b p ↔ q ∈ s.pgs.recs ∧ q.batch = some b ∧ q.position = some p := by
  simp [State.positionRecs]

/-- Of the records of a position that is discarded, those alone stay that were SENDING, with discard pending. -/
theorem discardAll_positionRecs (hn : (s.pgs.recs.map (·.id)).Nodup) {q : PageRec}
    (hq : q ∈ (discardAll ((s.positionRecs b p).map (·.id)) s).pgs.recs) (hb : q.batch = some b)
    (hp : q.position = some p) : q.state = .sending ∧ q.discardPending = true ∧
      ∃ x ∈ s.positionRecs b p, x.id = q.id ∧ x.state = .sending ∧ (x.discardPending = true ∨ s.lingers q.id) := by
  by_cases hid : q.id ∈ (s.positionRecs b p).map (·.id)
  · obtain ⟨hd, x, hx, hs, hl, he⟩ := discardAll_recs _ s hn q hq hid
    subst he
    exact ⟨hs, hd, x, mem_positionRecs.mpr ⟨hx, hb, hp⟩, rfl, hs, hl⟩
  · obtain ⟨x, hx, he⟩ := discardAll_others _ s hn q hq hid
    refine absurd ?_ hid
    rcases he with rfl | rfl
    · exact List.mem_map_of_mem (mem_positionRecs.mpr ⟨hx, hb, hp⟩)
    · exact List.mem_map.mpr ⟨x, mem_positionRecs.mpr ⟨hx, hb, hp⟩, rfl⟩

/-- The batch of a discarded position, after the close test. -/
theorem closeTest_discard_lowered (hn : (s.pgs.recs.map (·.id)).Nodup) :
    Lowered b ((s.positionRecs b p).countP (·.ownFailed)) s
      (closeTest b (discardAll ((s.positionRecs b p).map (·.id)) s)) := by
  refine Lowered.trans (m := 0) (discardAll_lowered _ s hn ?_ fun q hq => ?_) (closeTest_lowered b _)
  · exact hn.sublist (List.filter_sublist.map _)
  · obtain ⟨hm, hb, -⟩ := mem_positionRecs.mp hq
    exact ⟨hm, hb⟩

/-- The state of a batch after pages of it are freed, case by case of the state before. -/
theorem afterFrees_cases {bound : Bool} {f n : Nat} {x y : BatchState} (h : afterFrees bound f n x y) :
    (x = .halted → n = 0 ∨ n < f → y = .halted) ∧
    (x = .halted → 0 < n → f ≤ n → (bound = true → y = .ended) ∧ (bound = false → y = .reconciling ∨ y = .closing)) ∧
    (x = .reconciling → y = .reconciling ∨ y = .closing) ∧ (x ≠ .halted → x ≠ .reconciling → y = x) := by
  have hstep : 0 < n → f ≤ n → ¬ (n = 0 ∨ n < f) := by omega
  refine ⟨?_, ?_, ?_, ?_⟩
  · rintro rfl hn
    simpa only [afterFrees, if_pos hn] using h
  · rintro rfl h0 hf
    simp only [afterFrees, if_neg (hstep h0 hf)] at h
    exact ⟨fun hb => by rwa [if_pos hb] at h, fun hb => by rwa [if_neg (by simp [hb])] at h⟩
  · rintro rfl
    exact h
  · intro hh hr
    cases x <;> first | exact h | exact absurd rfl hh | exact absurd rfl hr

theorem anyBound_of_mem (h : ∃ e ∈ s.tsq.track, e.boundTo b = true) : s.anyBound b = true := List.any_eq_true.mpr h

theorem anyBound_of_none (h : ∀ e ∈ s.tsq.track, e.boundTo b = false) : s.anyBound b = false := by
  simpa [State.anyBound] using h

/-! ## The two orders that are accepted -/

theorem not_waiveArgBad (h1 : 1 ≤ p) (h2 : p ≤ r.scanned) (hh : ¬ s.positionHeld b p)
    (hq : (∃ x ∈ r.holes, x.position = p) ∨ s.positionRecs b p = [] ∨ ∃ q ∈ s.positionRecs b p, q.state = .failed) :
    ¬ s.waiveArgBad r b p := by
  rintro (h0 | hs | hx | ⟨hnone, hne, hall⟩)
  · omega
  · omega
  · exact hh hx
  · rcases hq with ⟨x, hx, hxp⟩ | he | ⟨q, hq, hqf⟩
    · exact hnone x hx hxp
    · exact hne he
    · exact hall q hq hqf

theorem not_positionHeld (h : ∀ e ∈ s.tsq.track, e.position = some p → e.boundTo b = false ∧
    ¬ ((∃ k, e.binding = .fill k) ∧ ∃ j, s.bct.fill = some j ∧ j.atHome = true ∧ j.batch = b)) :
    ¬ s.positionHeld b p := by
  rintro ⟨e, he, hep, hbound | hfill⟩
  · exact Bool.false_ne_true ((h e he hep).1.symm.trans hbound)
  · exact (h e he hep).2 hfill

/-- Positions that are VACANT, FILLED or WAIVED holes. -/
theorem waiveHoles_of_holes {ps : List Nat} (hb : s.findBatch b = some r) (hw : r.waiveRefused = false)
    (hn : (r.holes.map (·.position)).Nodup)
    (hp : ∀ p ∈ ps, 1 ≤ p ∧ p ≤ r.scanned ∧ (∃ x ∈ r.holes, x.position = p ∧ x.state ≠ .claimed) ∧
      ¬ s.positionHeld b p) (hroom : r.holes.length + s.holesComing b ≤ 32) :
    waiveHoles b ps s = (.accepted, closeTest b (s.updBatch b fun r => r.waivedAt ps)) := by
  have hmem : ∀ p ∈ ps, p ∈ r.holes.map (·.position) := fun p hps =>
    have ⟨_, _, ⟨x, hx, hxp, _⟩, _⟩ := hp p hps
    List.mem_map.mpr ⟨x, hx, hxp⟩
  have hbad : ¬ ∃ p ∈ ps, s.waiveArgBad r b p := fun ⟨p, hps, hbad⟩ =>
    have ⟨h1, h2, ⟨x, hx, hxp, _⟩, hclear⟩ := hp p hps
    not_waiveArgBad h1 h2 hclear (Or.inl ⟨x, hx, hxp⟩) hbad
  have hclaim : ¬ r.claimedAt ps := fun ⟨p, hps, y, hy, hyc⟩ =>
    have ⟨_, _, ⟨x, hx, hxp, hxc⟩, _⟩ := hp p hps
    hxc (hole?_eq_of_mem hn hx hxp hy ▸ hyc)
  have hlen : r.holes.length + (r.fresh ps).length + s.holesComing b ≤ 32 := by
    rw [fresh_eq_nil hmem]
    exact hroom
  rw [waiveHoles_of_accepted hb (by simp [hw]) hbad hclaim hlen, waived_of_holes hb hn hmem]

/-- An accepted position with a FAILED page, or with no page left. -/
theorem waiveHoles_of_position (hb : s.findBatch b = some r) (hw : r.waiveRefused = false) (h1 : 1 ≤ p)
    (h2 : p ≤ r.scanned) (hfresh : ∀ x ∈ r.holes, x.position ≠ p) (hh : ¬ s.positionHeld b p)
    (hq : s.positionRecs b p = [] ∨ ∃ q ∈ s.positionRecs b p, q.state = .failed)
    (hroom : r.holes.length + 1 + s.holesComing b ≤ 32) : waiveHoles b [p] s =
      (.accepted, closeTest b (discardAll ((s.positionRecs b p).map (·.id)) (s.unaccepted r b p))) := by
  have hbad : ¬ ∃ q ∈ [p], s.waiveArgBad r b q := by
    rintro ⟨q, hqp, hbad⟩
    cases List.mem_singleton.mp hqp
    exact not_waiveArgBad h1 h2 hh (Or.inr hq) hbad
  have hclaim : ¬ r.claimedAt [p] := by
    rintro ⟨q, hqp, x, hx, -⟩
    cases List.mem_singleton.mp hqp
    exact hfresh x (List.mem_of_find?_eq_some hx) (by simpa using List.find?_some hx)
  have hlen : r.holes.length + (r.fresh [p]).length + s.holesComing b ≤ 32 := by
    rw [fresh_singleton hfresh]
    exact hroom
  rw [waiveHoles_of_accepted hb (by simp [hw]) hbad hclaim hlen, waived_of_fresh hb hfresh]

/-- The record of the batch after the discard of a position that it no longer accepts. -/
theorem unaccepted_discard_lowered (hb : s.findBatch b = some r) (hn : (s.pgs.recs.map (·.id)).Nodup) :
    ∃ u, (closeTest b (discardAll ((s.positionRecs b p).map (·.id)) (s.unaccepted r b p))).findBatch b = some u ∧
      LoweredRec ((s.positionRecs b p).countP (·.ownFailed))
        { r with accepted := r.accepted - 1, holes := r.holesWith p } u ∧
      afterFrees (s.anyBound b) r.failedPages ((s.positionRecs b p).countP (·.ownFailed)) r.state u.state := by
  have hupd := findBatch_upd (s := s) b
    (fun x => { x with accepted := x.accepted - 1, holes := r.holesWith p }) (fun _ => rfl) hb
  obtain ⟨u, hu, hsame, hstate, -⟩ := closeTest_discard_lowered (s := s.unaccepted r b p) (p := p) hn _ hupd
  exact ⟨u, hu, hsame, hstate⟩

/-- Settles O16: what is waived, the sheets that the fifth check counts, and the refusals. -/
theorem waiveHolesJudged : Obligations.WaiveHolesJudged := by
  unfold Obligations.WaiveHolesJudged
  refine ⟨⟨fun h b ps r s hc hr h1 h32 hb hw hn hp hroom => ?_,
    fun h b p r s hc hr hb hw hp1 hp2 hfresh hheld hpages hroom => ?_⟩, fun b s => rfl, fun h b ps s hc hr h1 h32 => ?_⟩
  · refine exec_waiveHoles_of hc hr h1 h32 (waiveHoles_of_holes (s := s.orderCounted) hb hw hn (fun p hps => ?_) hroom)
    obtain ⟨hp1, hp2, hhole, hclear⟩ := hp p hps
    exact ⟨hp1, hp2, hhole, not_positionHeld hclear⟩
  · intro qs failed lingers holes t
    have hrecs : s.positionRecs b p = [] ∨ ∃ q ∈ s.positionRecs b p, q.state = .failed := by
      rcases hpages with hnone | ⟨q, hq, hqb, hqp, hqf⟩
      · exact Or.inl (List.filter_eq_nil_iff.mpr fun q hq => by simpa using hnone q hq)
      · exact Or.inr ⟨q, mem_positionRecs.mpr ⟨hq, hqb, hqp⟩, hqf⟩
    refine ⟨exec_waiveHoles_of hc hr (Nat.le_refl 1) (by simp) (waiveHoles_of_position (s := s.orderCounted) hb hw hp1
      hp2 hfresh (not_positionHeld hheld) hrecs hroom), fun hn => ⟨fun q hq => ?_, ?_⟩⟩
    · rw [closeTest_pgs] at hq
      exact discardAll_positionRecs (s := s.orderCounted.unaccepted r b p) hn hq
    · obtain ⟨u, hu, ⟨hsame, -⟩, hstate⟩ := unaccepted_discard_lowered (s := s.orderCounted) (p := p) hb hn
      obtain ⟨hstays, hended, hrec, hother⟩ := afterFrees_cases hstate
      refine ⟨u, hu, by rw [hsame], by rw [hsame]; rfl, by rw [hsame], by rw [hsame]; rfl, hstays,
        fun hh h0 hle => ⟨fun hx => (hended hh h0 hle).1 (anyBound_of_mem hx), fun hx => (hended hh h0 hle).2 ?_⟩,
        hrec, hother⟩
      exact anyBound_of_none hx
  · have answered := fun {c : ResultCode} => exec_waiveHoles_of (b := b) (c := c) (t := s.orderCounted) hc hr h1 h32
    refine ⟨fun hb => answered (waiveHoles_of_none (s := s.orderCounted) hb), fun r hb => ?_⟩
    have hb' : s.orderCounted.findBatch b = some r := hb
    intro badState pages badArgument claimed
    have hstate : badState ↔ r.waiveRefused = true := waiveRefused_iff.symm
    exact ⟨fun h => answered (waiveHoles_of_refused hb' (hstate.mp h)),
      fun h ha => answered (waiveHoles_of_bad hb' (mt hstate.mpr h) ha),
      fun h ha hc => answered (waiveHoles_of_claimed hb' (mt hstate.mpr h) ha hc),
      fun h ha hc hf => answered (waiveHoles_of_full hb' (mt hstate.mpr h) ha hc hf)⟩

end Sys2Proof.Machine
end

section
/-! The state at reset (O3), hold causes, the level test and the motor (O9), the pick test and the DRAINING test (O57). -/

namespace Sys2Proof.Machine

variable {s : State}

/-- Settles O3: at reset every block stands at Start. -/
theorem resetMeetsInv : Obligations.ResetMeetsInv :=
  ⟨inv_of_start ⟨Nat.zero_le _, Nat.zero_le _⟩ rfl rfl rfl rfl rfl rfl, inRange_default⟩

/-! ## Holds and the motor (R55, section 2.2) -/

theorem hold_of_moving {r : HoldReason} (h : s.tsq.transport ≠ .held) : hold r s = raise r.attn
    { s with tsq := { s.tsq with transport := .held, holdReason := some r, handshake := none } } := if_neg h

theorem hold_of_held {r : HoldReason} (h : s.tsq.transport = .held) : hold r s = raise r.attn s := if_pos h

@[simp] theorem hold_transport (r : HoldReason) (s : State) : (hold r s).tsq.transport = .held := by
  by_cases h : s.tsq.transport = .held
  · rw [hold_of_held h, raise_tsq, h]
  · rw [hold_of_moving h, raise_tsq]

theorem motorOf_iff {t : Transport} : motorOf t = true ↔ t = .feeding ∨ t = .paused ∨ t = .draining := by
  cases t <;> simp [motorOf]

theorem motorRuns_iff : s.motorRuns = true ↔ s.power = .running ∧ s.oru.role = .scanner ∧
    (s.tsq.transport = .feeding ∨ s.tsq.transport = .paused ∨ s.tsq.transport = .draining) := by
  simp [State.motorRuns, motorOf_iff, and_assoc]

theorem motorRuns_of_held (h : s.tsq.transport = .held) : s.motorRuns = false := by
  simp [State.motorRuns, h, motorOf]

/-! ## The level test (R92, R33) -/

theorem levelTest_of_normal (h : s.pgs.level = .normal) : levelTest s =
    if s.pgs.freeBlocks < s.oru.settings.pauseLevel ∨ s.pgs.freeRecs < 8 then
      pauseSignal (s.modPgs fun g => { g with level := .pause }) else s := by
  simp only [levelTest, h]
  rfl

theorem levelTest_of_pause (h : s.pgs.level = .pause) : levelTest s =
    if s.oru.settings.resumeLevel ≤ s.pgs.freeBlocks ∧ 16 ≤ s.pgs.freeRecs then
      resumeSignal (s.modPgs fun g => { g with level := .normal }) else s := by
  simp only [levelTest, h]
  rfl

/-- Settles O9: the hold by the state of the transport, the level test by the level and the bound it meets. -/
theorem holdsAndLevelSignals : Obligations.HoldsAndLevelSignals := by
  unfold Obligations.HoldsAndLevelSignals
  refine ⟨⟨fun r s => ⟨hold_of_moving, hold_of_held⟩, fun s => ⟨fun hl hlow => ?_, fun hl hb hr => ?_,
    fun hl hb hr => ?_, fun hl hlow => ?_⟩⟩, fun s => ⟨motorRuns_iff, fun r => motorRuns_of_held (hold_transport r s)⟩⟩
  · rw [levelTest_of_normal hl, if_pos hlow]
    rfl
  · rw [levelTest_of_pause hl, if_pos ⟨hb, hr⟩]
    rfl
  · rw [levelTest_of_normal hl, if_neg (by omega)]
  · rw [levelTest_of_pause hl, if_neg (by omega)]

/-! ## The pick test (R37 to R39, R72) -/

theorem trackReady_iff {l : List TrackEntry} :
    trackReady l = true ↔ l = [] ∨ ∃ e, l.getLast? = some e ∧ e.edges.entry.trail ≠ none := by
  unfold trackReady
  cases h : l.getLast? with
  | none => simp [List.getLast?_eq_none_iff.mp h]
  | some e =>
    have hne : l ≠ [] := by
      rintro rfl
      simp at h
    simp [hne, Option.isSome_iff_ne_none]

/-- The pick condition (R37). -/
def State.mayPick (s : State) : Prop :=
  s.tsq.transport = .feeding ∧ s.tsq.track.length < 3 ∧
    (s.tsq.track = [] ∨ ∃ e, s.tsq.track.getLast? = some e ∧ e.edges.entry.trail ≠ none)

theorem mayPick_iff : (s.tsq.transport = .feeding ∧ s.tsq.track.length < Config.trackEntries ∧
    trackReady s.tsq.track = true) ↔ s.mayPick := by
  rw [trackReady_iff]
  rfl

theorem pickTest_of_not (h : ¬ s.mayPick) : pickTest s = s := if_neg (mt mayPick_iff.mp h)

theorem pickTest_of_still (h : s.tsq.transport ≠ .feeding) : pickTest s = s := pickTest_of_not fun hp => h hp.1

theorem pickTest_batch {b : Nat} {r : BatchRec} (h : s.mayPick) (hm : s.tsq.feedMode = some .batch)
    (hf : s.tsq.fedBatch = some b) (hb : s.findBatch b = some r) (ha : r.state = .active) :
    pickTest s = pickSheet (.batch b) r.attrs s := by
  have hn := number_of_findBatch hb
  unfold pickTest
  rw [if_pos (mayPick_iff.mpr h)]
  simp only [hm, hf, Option.bind_some, hb, ha, if_true, hn]

theorem pickTest_fill {g : Grant} (h : s.mayPick) (hm : s.tsq.feedMode = some .fill) (hg : s.nextFill = some g) :
    pickTest s = pickSheet (.fill (some g.position)) g.snap s := by
  unfold pickTest
  rw [if_pos (mayPick_iff.mpr h)]
  simp only [hm, hg]

theorem pickTest_fillNone (hm : s.tsq.feedMode = some .fill) (hg : s.nextFill = none) : pickTest s = s := by
  unfold pickTest
  simp only [hm, hg, ite_self]

theorem pickTest_learn {l : Learn} (h : s.mayPick) (hm : s.tsq.feedMode = some .learn) (hl : s.dfm.learn = some l) :
    pickTest s = pickLearn l s := by
  unfold pickTest
  rw [if_pos (mayPick_iff.mpr h)]
  simp only [hm, hl]

/-- A granted position that a fill pick passes over: it is not UNUSED, or a sheet in the track reserves it. -/
theorem passedOver_iff {g : Grant} : (g.state == .unused && !s.reserves g.position) = false ↔
    (g.state = .unused → s.reserves g.position = true) := by
  simp

theorem nextFill_of_split {j : FillJob} {before after : List Grant} {g : Grant} (hj : s.bct.fill = some j)
    (hl : j.granted = before ++ g :: after) (hu : g.state = .unused) (hr : s.reserves g.position = false)
    (hb : ∀ x ∈ before, x.state = .unused → s.reserves x.position = true) : s.nextFill = some g := by
  unfold State.nextFill
  rw [hj, Option.bind_some, hl]
  exact find?_append_cons (fun x hx => passedOver_iff.mpr (hb x hx)) (by simp [hu, hr])

theorem nextFill_of_none {j : FillJob} (hj : s.bct.fill = some j)
    (ha : ∀ x ∈ j.granted, x.state = .unused → s.reserves x.position = true) : s.nextFill = none := by
  unfold State.nextFill
  rw [hj, Option.bind_some]
  exact List.find?_eq_none.mpr fun x hx => Bool.eq_false_iff.mp (passedOver_iff.mpr (ha x hx))

/-- The state after the pick of a sheet: its tag, its entry, the reset of the tag's progress and the command (R36). -/
def State.picked (s : State) (binding : Binding) (snap : AttrSet) : State :=
  { s with
    tsq := { s.tsq with
      tagCounter := if s.tsq.tagCounter = 7 then 0 else s.tsq.tagCounter + 1
      track := s.tsq.track ++ [{ tag := s.tsq.tagCounter, binding, snap, pickedAt := s.now }] }
    pgs := { s.pgs with progress := s.pgs.progress.modify s.tsq.tagCounter fun _ => {} }
    portLog := s.portLog ++ [.pick s.tsq.tagCounter] }

theorem nextTag_eq {n : Nat} (h : n ≤ 7) : (n + 1) % Config.trackTags = if n = 7 then 0 else n + 1 := by
  unfold Config.trackTags
  split <;> omega

theorem pickSheet_eq {binding : Binding} {snap : AttrSet} (h : s.tsq.tagCounter ≤ 7) :
    pickSheet binding snap s = s.picked binding snap := by
  unfold State.picked
  rw [← nextTag_eq h]
  rfl

/-! ## The DRAINING test (R35) -/

theorem drained_iff : s.drained = true ↔ s.tsq.transport = .draining ∧ s.tsq.track = [] := by
  simp [State.drained]

theorem drainTest_of_not (h : s.tsq.transport ≠ .draining ∨ s.tsq.track ≠ []) : drainTest s = s := by
  unfold drainTest
  rw [if_neg fun hd => ?_]
  obtain ⟨ht, hn⟩ := drained_iff.mp hd
  exact h.elim (absurd ht) (absurd hn)

theorem drainTest_of_drained (ht : s.tsq.transport = .draining) (hn : s.tsq.track = []) :
    drainTest s = toIdle (if s.tsq.feedMode = some .fill then feedStopped s else s) :=
  if_pos (drained_iff.mpr ⟨ht, hn⟩)

theorem feedStopped_of_empty (h : s.tsq.tray = .empty) : feedStopped s = fillEnd .trayEmpty none s := by
  simp only [feedStopped, h]

theorem feedStopped_of_loaded (h : s.tsq.tray = .loaded) : feedStopped s = fillTest 4 false s := by
  simp only [feedStopped, h]

/-- Settles O57: the pick by the feed mode, the DRAINING test by the feed mode and the tray. -/
theorem picksFollowTheFeed : Obligations.PicksFollowTheFeed := by
  unfold Obligations.PicksFollowTheFeed
  intro s room picked stopped
  refine ⟨fun h => pickTest_of_not fun hp => h.elim (absurd hp.1) (absurd hp.2), fun ht hroom htag => ?_,
    drainTest_of_not, fun ht hn => ⟨fun hm => ?_, fun hm htray => ?_, fun hm htray => ?_⟩⟩
  · have hp : s.mayPick := ⟨ht, hroom⟩
    refine ⟨fun b r hm hf hb ha => ?_, fun j before g after hm hj hl hu hr hbefore => ?_, fun j hm hj hall => ?_,
      fun l hm hl => ?_⟩
    · exact (pickTest_batch hp hm hf hb ha).trans (pickSheet_eq htag)
    · exact (pickTest_fill hp hm (nextFill_of_split hj hl hu hr hbefore)).trans (pickSheet_eq htag)
    · exact pickTest_fillNone hm (nextFill_of_none hj hall)
    · rw [pickTest_learn hp hm hl]
      unfold pickLearn
      rw [pickSheet_eq htag]
      rfl
  · rw [drainTest_of_drained ht hn, if_neg hm]
    rfl
  · rw [drainTest_of_drained ht hn, if_pos hm, feedStopped_of_empty htray]
    rfl
  · rw [drainTest_of_drained ht hn, if_pos hm, feedStopped_of_loaded htray]
    rfl

end Sys2Proof.Machine
end

section
/-! Routes (O27) and edges (O23): the tests of one entry of the track, read in the track split at it. -/

namespace Sys2Proof.Machine

variable {s : State} {older younger : List TrackEntry} {e : TrackEntry}

/-! ## The entries before one -/

theorem earlier_of_trackAt (h : s.TrackAt older e younger) : s.tsq.track.takeWhile (·.tag != e.tag) = older := by
  rw [h.track, List.takeWhile_append_of_pos fun x hx => by simpa using h.first x hx]
  simp

theorem earlierReported_iff (h : s.TrackAt older e younger) :
    earlierReported s.tsq.track e.tag = true ↔ ∀ x ∈ older, x.report ≠ none := by
  unfold earlierReported
  rw [earlier_of_trackAt h]
  simp [Option.isSome_iff_ne_none]

theorem overlaps_iff (h : s.TrackAt older e younger) {sn : Sensor} :
    s.overlaps e.tag sn = true ↔ ∃ x ∈ older, (x.edges.times sn).trail = none := by
  unfold State.overlaps
  rw [earlier_of_trackAt h]
  simp

theorem findEntry_of_absent {tag : Nat} (h : ∀ x ∈ s.tsq.track, x.tag ≠ tag) : s.findEntry tag = none :=
  List.find?_eq_none.mpr fun x hx => by simpa using h x hx

/-! ## Routes (R48) -/

/-- What calls for the reject pocket: the overrun mark, or policy DIVERT on a suspect verdict. -/
def TrackEntry.rejects (e : TrackEntry) : Prop :=
  e.overrun = true ∨ (e.snap.policy = .divert ∧ ∃ v, e.verdict = some v ∧ v.suspect = true)

/-- What calls for the main pocket: policy MARK, or a verdict that is not suspect, without the overrun mark. -/
def TrackEntry.passes (e : TrackEntry) : Prop :=
  e.overrun = false ∧ (e.snap.policy = .mark ∨ ∃ v, e.verdict = some v ∧ v.suspect = false)

theorem routeWanted_of_overrun (h : e.overrun = true) : e.routeWanted = some .reject := if_pos h

theorem routeWanted_of_kept (h : e.overrun = false) : e.routeWanted = match e.snap.policy, e.verdict with
    | .mark, _ => some .main
    | .divert, some v => if v.suspect then some .reject else some .main
    | .stop, some v => if v.suspect then none else some .main
    | _, none => none := by
  unfold TrackEntry.routeWanted
  rw [h]
  rfl

theorem routeWanted_of_passes (h : e.passes) : e.routeWanted = some .main := by
  obtain ⟨ho, h⟩ := h
  rw [routeWanted_of_kept ho]
  rcases h with h | ⟨v, hv, hs⟩
  · simp only [h]
  · cases hp : e.snap.policy <;> simp [hv, hs]

theorem routeWanted_of_rejects (h : e.rejects) : e.routeWanted = some .reject := by
  cases ho : e.overrun with
  | true => exact routeWanted_of_overrun ho
  | false =>
    obtain ⟨hp, v, hv, hs⟩ := h.resolve_left (by simp [ho])
    rw [routeWanted_of_kept ho]
    simp [hp, hv, hs]

theorem routeWanted_of_neither (hp : ¬ e.passes) (hr : ¬ e.rejects) : e.routeWanted = none := by
  have ho : e.overrun = false := Bool.eq_false_iff.mpr fun h => hr (Or.inl h)
  have hmark : e.snap.policy ≠ .mark := fun h => hp ⟨ho, Or.inl h⟩
  rw [routeWanted_of_kept ho]
  cases hv : e.verdict with
  | none => cases hq : e.snap.policy <;> simp_all
  | some v =>
    have hs : v.suspect = true := by
      by_contra hs
      exact hp ⟨ho, Or.inr ⟨v, hv, by simpa using hs⟩⟩
    have hdivert : e.snap.policy ≠ .divert := fun h => hr (Or.inr ⟨h, v, hv, hs⟩)
    cases hq : e.snap.policy <;> simp_all

theorem decideRoute_of_trackAt (h : s.TrackAt older e younger) (p : Pocket) : decideRoute e.tag p s =
    handshakeTest (s.withTrack (older ++ { e with route := some p } :: younger)) := by
  unfold decideRoute
  rw [updEntry_of_trackAt h]

theorem routeTest_of_closed (h : s.TrackAt older e younger)
    (hc : s.tsq.transport = .held ∨ e.route ≠ none ∨ ∃ x ∈ older, x.report = none) : routeTest e.tag s = s := by
  have hno : s.tsq.transport = .held ∨ e.route.isSome ∨ ¬ earlierReported s.tsq.track e.tag := by
    rw [earlierReported_iff h, Option.isSome_iff_ne_none]
    simpa using hc
  simp only [routeTest, findEntry_of_trackAt h]
  exact if_pos hno

/-- The test of an entry that can be routed. -/
theorem routeTest_of_open (h : s.TrackAt older e younger) (ht : s.tsq.transport ≠ .held) (hr : e.route = none)
    (ho : ∀ x ∈ older, x.report ≠ none) : routeTest e.tag s = match e.routeWanted with
      | none => s
      | some .main => decideRoute e.tag .main s
      | some .reject => if s.holeFits e then decideRoute e.tag .reject s else hold .holeLimit s := by
  simp only [routeTest, findEntry_of_trackAt h]
  refine if_neg ?_
  rintro (hc | hc | hc)
  · exact ht hc
  · simp [hr] at hc
  · exact hc ((earlierReported_iff h).mpr ho)

/-! ## Room in the hole list (R49) -/

theorem holeFits_of_batch {b : Nat} (hb : e.binding = .batch b) :
    s.holeFits e = (!e.mayTake b || decide (s.holesExpected b e.tag < Config.holeEntries)) := by
  simp only [State.holeFits, hb]

theorem holeFits_of_exempt {b : Nat} (hb : e.binding = .batch b) (hm : e.mayTake b = false) : s.holeFits e = true := by
  simp [holeFits_of_batch hb, hm]

theorem holeFits_iff {b : Nat} {r : BatchRec} (hb : e.binding = .batch b) (hr : s.findBatch b = some r)
    (hm : e.mayTake b = true) : s.holeFits e = true ↔ r.holes.length +
      (s.tsq.track.countP fun x => x.tag != e.tag && x.route == some .reject && x.mayTake b) < 32 := by
  simp [holeFits_of_batch hb, hm, State.holesExpected, hr, Config.holeEntries]

/-- Settles O27: the route by what the entry calls for, the room by the binding. -/
theorem routeFollowsPolicyAndVerdict : Obligations.RouteFollowsPolicyAndVerdict := by
  unfold Obligations.RouteFollowsPolicyAndVerdict
  refine ⟨fun tag older younger e s ht htag hfirst => ?_, fun e s => ⟨holeFits_of_unbound, fun b hb =>
    ⟨holeFits_of_exempt hb, fun r hr hm => holeFits_iff hb hr hm⟩⟩⟩
  subst htag
  have h : s.TrackAt older e younger := ⟨ht, hfirst⟩
  refine ⟨routeTest_of_closed h, fun hheld hr ho => ⟨fun hp => ?_, fun hj hf => ?_, fun hj hf => ?_, fun hp hj => ?_⟩⟩
  · rw [routeTest_of_open h hheld hr ho, routeWanted_of_passes hp]
    exact decideRoute_of_trackAt h .main
  · rw [routeTest_of_open h hheld hr ho, routeWanted_of_rejects hj]
    exact (if_pos hf).trans (decideRoute_of_trackAt h .reject)
  · rw [routeTest_of_open h hheld hr ho, routeWanted_of_rejects hj]
    exact if_neg (by simp [hf])
  · rw [routeTest_of_open h hheld hr ho, routeWanted_of_neither hp hj]

/-! ## Edges (R42, R51, R52, R54) -/

theorem windowsRun_iff {t : Transport} : t.windowsRun = true ↔ ¬ (t = .idle ∨ t = .held) := by
  cases t <;> simp [Transport.windowsRun]

theorem leadAwaited_iff {sn : Sensor} : leadAwaited e sn = true ↔ (e.edges.times sn).lead = none ∧
    ∀ p, sensorBefore sn = some p → (e.edges.times p).lead ≠ none := by
  cases sn <;> simp [leadAwaited, sensorBefore, Option.isSome_iff_ne_none]

theorem trailAwaited_iff {sn : Sensor} : trailAwaited e sn = true ↔ (e.edges.times sn).lead ≠ none ∧
    (e.edges.times sn).trail = none ∧ ∀ p, sensorBefore sn = some p → (e.edges.times p).trail ≠ none := by
  cases sn <;> simp [trailAwaited, sensorBefore, Option.isSome_iff_ne_none, and_assoc]

theorem leadingEdge_of_still {tag : Nat} {sn : Sensor} {p : Pocket}
    (h : s.tsq.transport = .idle ∨ s.tsq.transport = .held) : leadingEdge tag sn p s = s :=
  if_pos fun hw => windowsRun_iff.mp hw h

theorem trailingEdge_of_still {tag : Nat} {sn : Sensor} {m : Option Nat}
    (h : s.tsq.transport = .idle ∨ s.tsq.transport = .held) : trailingEdge tag sn m s = s :=
  if_pos fun hw => windowsRun_iff.mp hw h

/-- An edge of a tag that is not in the track (R42). -/
theorem leadingEdge_of_absent {tag : Nat} {sn : Sensor} {p : Pocket} (hw : s.tsq.transport.windowsRun = true)
    (h : ∀ x ∈ s.tsq.track, x.tag ≠ tag) : leadingEdge tag sn p s = hold .captureMismatch s := by
  simp [leadingEdge, hw, findEntry_of_absent h]

theorem trailingEdge_of_absent {tag : Nat} {sn : Sensor} {m : Option Nat} (hw : s.tsq.transport.windowsRun = true)
    (h : ∀ x ∈ s.tsq.track, x.tag ≠ tag) : trailingEdge tag sn m s = hold .captureMismatch s := by
  simp [trailingEdge, hw, findEntry_of_absent h]

/-- The entry with the time of an edge entered. -/
def TrackEntry.leadSeen (e : TrackEntry) (sn : Sensor) (now : Nat) : TrackEntry :=
  { e with edges := e.edges.upd sn fun t => { t with lead := some now } }

def TrackEntry.trailSeen (e : TrackEntry) (sn : Sensor) (now : Nat) : TrackEntry :=
  { e with edges := e.edges.upd sn fun t => { t with trail := some now } }

/-- The tests of a recorded leading edge, at GATE and at EXIT (R51, R52). -/
def leadTests (e : TrackEntry) (pocket : Pocket) (t : State) : Sensor → State
  | .entry | .capture => t
  | .gate => if e.routeSettled then t else if e.route.isSome then hold .diverterLate t else hold .lateDecision t
  | .exit => if e.route = some pocket then t else hold .diverter t

/-- What follows a recorded trailing edge: the verdict point, the next handshake, the settling (R43, R50, R53, R54). -/
def trailTests (e : TrackEntry) (measure : Option Nat) (t : State) : Sensor → State
  | .entry => pickTest (verdictPoint e.tag measure t)
  | .capture => t
  | .gate => handshakeTest t
  | .exit => if e.report.isSome then settle e t else hold .captureMismatch t

theorem leadTests_gate {pocket : Pocket} {t : State} : leadTests e pocket t .gate =
    if e.routeSettled then t else if e.route = none then hold .lateDecision t else hold .diverterLate t := by
  cases h : e.route <;> simp [leadTests, h]

theorem trailTests_exit {m : Option Nat} {t : State} : trailTests e m t .exit =
    if e.report = none then hold .captureMismatch t else settle e t := by
  cases h : e.report <;> simp [trailTests, h]

theorem leadingEdge_of_jam {sn : Sensor} {p : Pocket} (hw : s.tsq.transport.windowsRun = true)
    (h : s.TrackAt older e younger) (hj : ¬ leadAwaited e sn = true ∨ s.overlaps e.tag sn = true) :
    leadingEdge e.tag sn p s = hold .jam s := by
  simp only [leadingEdge, hw, findEntry_of_trackAt h, not_true_eq_false, if_false]
  exact if_pos hj

theorem leadingEdge_of_awaited {sn : Sensor} {p : Pocket} (hw : s.tsq.transport.windowsRun = true)
    (h : s.TrackAt older e younger) (ha : leadAwaited e sn = true) (ho : ¬ s.overlaps e.tag sn = true) :
    leadingEdge e.tag sn p s = leadTests e p (s.withTrack (older ++ e.leadSeen sn s.now :: younger)) sn := by
  simp only [leadingEdge, hw, findEntry_of_trackAt h, not_true_eq_false, if_false]
  rw [if_neg (by simp [ha, ho]), updEntry_of_trackAt h]
  cases sn <;> rfl

theorem trailingEdge_of_jam {sn : Sensor} {m : Option Nat} (hw : s.tsq.transport.windowsRun = true)
    (h : s.TrackAt older e younger) (hj : ¬ trailAwaited e sn = true) : trailingEdge e.tag sn m s = hold .jam s := by
  simp only [trailingEdge, hw, findEntry_of_trackAt h, not_true_eq_false, if_false]
  exact if_pos hj

theorem trailingEdge_of_awaited {sn : Sensor} {m : Option Nat} (hw : s.tsq.transport.windowsRun = true)
    (h : s.TrackAt older e younger) (ha : trailAwaited e sn = true) :
    trailingEdge e.tag sn m s = trailTests e m (s.withTrack (older ++ e.trailSeen sn s.now :: younger)) sn := by
  simp only [trailingEdge, hw, findEntry_of_trackAt h, not_true_eq_false, if_false]
  rw [if_neg (by simp [ha]), updEntry_of_trackAt h]
  cases sn <;> rfl

/-- Settles O23: each edge by whether the transport moves, the tag is in the track and the edge is awaited, then by the
sensor. -/
theorem edgesJudged : Obligations.EdgesJudged := by
  unfold Obligations.EdgesJudged
  refine ⟨fun tag sn pocket s hs => ?_, fun tag sn pocket m s hs => ?_⟩
  · have runs : exec (.leadingEdge tag sn pocket) s = .next (leadingEdge tag sn pocket s) := scanner_next _ hs
    rw [runs]
    refine ⟨fun hstill => congrArg _ (leadingEdge_of_still hstill), fun hmove habsent => congrArg _
      (leadingEdge_of_absent (windowsRun_iff.mpr hmove) habsent), fun older younger e hmove ht htag hfirst => ?_⟩
    subst htag
    have h : s.TrackAt older e younger := ⟨ht, hfirst⟩
    have hw := windowsRun_iff.mpr hmove
    intro awaited overlap seen t
    have hjam : ¬ awaited ∨ overlap ↔ ¬ leadAwaited e sn = true ∨ s.overlaps e.tag sn = true :=
      or_congr (not_congr leadAwaited_iff.symm) (overlaps_iff h).symm
    refine ⟨fun hj => congrArg _ (leadingEdge_of_jam hw h (hjam.mp hj)), fun ha ho => ?_⟩
    rw [leadingEdge_of_awaited hw h (leadAwaited_iff.mpr ha) (mt (overlaps_iff h).mp ho)]
    refine ⟨fun hsn => ?_, fun hsn => ?_, fun hsn => ?_⟩
    · rcases hsn with rfl | rfl <;> rfl
    · subst hsn
      rw [leadTests_gate]
      rfl
    · subst hsn
      rfl
  · have runs : exec (.trailingEdge tag sn pocket m) s = .next (trailingEdge tag sn m s) := scanner_next _ hs
    rw [runs]
    refine ⟨fun hstill => congrArg _ (trailingEdge_of_still hstill), fun hmove habsent => congrArg _
      (trailingEdge_of_absent (windowsRun_iff.mpr hmove) habsent), fun older younger e hmove ht htag hfirst => ?_⟩
    subst htag
    have h : s.TrackAt older e younger := ⟨ht, hfirst⟩
    have hw := windowsRun_iff.mpr hmove
    intro awaited seen t
    refine ⟨fun hj => congrArg _ (trailingEdge_of_jam hw h (mt trailAwaited_iff.mp hj)), fun ha => ?_⟩
    rw [trailingEdge_of_awaited hw h (trailAwaited_iff.mpr ha)]
    refine ⟨fun hsn => ?_, fun hsn => ?_, fun hsn => ?_, fun hsn => ?_⟩ <;> subst hsn
    · rfl
    · rfl
    · rfl
    · rw [trailTests_exit]
      rfl

end Sys2Proof.Machine
end

section
/-! A capture report (O33): the sheet that it is for, the position that it gives, the end that it makes. -/

namespace Sys2Proof.Machine

variable {s : State} {older younger : List TrackEntry} {e : TrackEntry}

/-! ## The sheet of a report (R44) -/

theorem captureReport_of_idle {tag : Nat} {front back : Bool} {patch : Patch} (h : s.tsq.transport = .idle) :
    captureReport tag front back patch s = s := if_pos h

theorem captureReport_of_allReported {tag : Nat} {front back : Bool} {patch : Patch} (ht : s.tsq.transport ≠ .idle)
    (h : ∀ x ∈ s.tsq.track, x.report ≠ none) : captureReport tag front back patch s = hold .captureMismatch s := by
  have hfind : s.tsq.track.find? (·.report.isNone) = none := List.find?_eq_none.mpr fun x hx => by simpa using h x hx
  unfold captureReport
  rw [if_neg ht, hfind]

theorem reportEnded_iff {p : Progress} {front back : Bool} : reportEnded p front back = true ↔
    (front = true → p.ended .front = true) ∧ (back = true → p.ended .back = true) := by
  cases front <;> cases back <;> simp [reportEnded]

/-- The oldest sheet without a report is another, or a side that the report lists has not ended. -/
theorem captureReport_of_mismatch {tag : Nat} {front back : Bool} {patch : Patch} (ht : s.tsq.transport ≠ .idle)
    (h : s.tsq.track = older ++ e :: younger) (hr : ∀ x ∈ older, x.report ≠ none) (hn : e.report = none)
    (hm : e.tag ≠ tag ∨ ¬ reportEnded (s.progressOf tag) front back = true) :
    captureReport tag front back patch s = hold .captureMismatch s := by
  have hfind : s.tsq.track.find? (·.report.isNone) = some e := by
    rw [h]
    exact find?_append_cons (fun x hx => by simpa using Option.isSome_iff_ne_none.mpr (hr x hx)) (by simp [hn])
  unfold captureReport
  rw [if_neg ht]
  simp only [hfind]
  exact if_pos hm

/-- No patch code, or none on a suspect sheet (R47). -/
theorem patchSuspectTest_of_quiet {patch : Patch} (h : patch = .none ∨ e.suspect = false) :
    patchSuspectTest e patch s = s := by
  unfold patchSuspectTest
  rw [if_neg]
  rintro ⟨hp, hs⟩
  exact h.elim hp fun h => Bool.false_ne_true (h.symm.trans hs)

/-! ## The position of a sheet (R14, R16) -/

theorem reportEffect_placed {b : Nat} {front back : Bool} (hb : e.binding = .batch b) (ha : e.abandoned = false)
    (ho : e.overrun = false) : reportEffect e front back .none s = assignPosition e b front back s := by
  simp [reportEffect, hb, ha, ho]

theorem reportEffect_overrun {b : Nat} {front back : Bool} (hb : e.binding = .batch b) (ha : e.abandoned = false)
    (ho : e.overrun = true) : reportEffect e front back .none s = s := by
  simp [reportEffect, hb, ha, ho]

theorem assigns_iff {st : BatchState} :
    BatchState.assigns st = true ↔ st = .active ∨ st = .ended ∨ st = .halted := by
  cases st <;> simp [BatchState.assigns]

theorem assignPosition_of_refused {b : Nat} {r : BatchRec} {front back : Bool} (hb : s.findBatch b = some r)
    (h : ¬ BatchState.assigns r.state = true ∨ 4095 ≤ r.scanned) : assignPosition e b front back s = s := by
  simp only [assignPosition, hb]
  refine if_neg ?_
  rintro ⟨ha, hs⟩
  exact h.elim (absurd ha) (Nat.not_le_of_gt hs)

/-- A sheet takes the next position of its batch; position 4095 is the last and ends the batch (R14, R16). -/
theorem assignPosition_of_taken {b : Nat} {r : BatchRec} {front back : Bool} (hb : s.findBatch b = some r)
    (ha : BatchState.assigns r.state = true) (hs : r.scanned < 4095) : assignPosition e b front back s =
      let t := placeSheet e (r.scanned + 1) front back (s.updBatch b fun x => { x with scanned := r.scanned + 1 })
      if r.scanned + 1 = 4095 then markOverrun e (drainFeed (endActive b t)) else t := by
  simp only [assignPosition, hb]
  exact if_pos ⟨ha, hs⟩

/-! ## Records and batch records changed by key (R85, R19) -/

/-- In a table without two elements of one key, a keyed change is a change of every element of the key. -/
theorem updFirst_eq_map {α : Type} (key : α → Nat) (f : α → α) (n : Nat) (l : List α) (hn : (l.map key).Nodup) :
    updFirst (key · == n) f l = l.map fun x => if key x = n then f x else x := by
  induction l with
  | nil => rfl
  | cons x l ih =>
    obtain ⟨hx, hl⟩ := List.nodup_cons.mp hn
    by_cases h : key x = n
    · have hrest : (l.map fun y => if key y = n then f y else y) = l :=
        (List.map_congr_left fun y hy => if_neg fun hc => hx (List.mem_map.mpr ⟨y, hy, hc.trans h.symm⟩)).trans
          (List.map_id' l)
      simp [updFirst, h, hrest]
    · simp [updFirst, h, ih hl]

/-- One change of the records of several identifiers, which the change keeps and which may be named twice. -/
theorem foldl_updRec (f : PageRec → PageRec) (hid : ∀ r, (f r).id = r.id) (hf : ∀ r, f (f r) = f r) (ids : List Nat) :
    ∀ s : State, (s.pgs.recs.map (·.id)).Nodup → ids.foldl (fun s id => s.updRec id f) s =
      { s with pgs := { s.pgs with recs := s.pgs.recs.map fun r => if r.id ∈ ids then f r else r } } := by
  induction ids with
  | nil =>
    intro s _
    simp
  | cons id ids ih =>
    intro s hn
    have hrecs : (s.updRec id f).pgs.recs = s.pgs.recs.map fun r => if r.id = id then f r else r :=
      updFirst_eq_map PageRec.id f id _ hn
    have hids : ((s.updRec id f).pgs.recs.map (·.id)).Nodup := by
      rw [updRec_pgs, updFirst_map _ _ _ fun r _ => hid r]
      exact hn
    have hmap : ((s.updRec id f).pgs.recs.map fun r => if r.id ∈ ids then f r else r) =
        s.pgs.recs.map fun r => if r.id ∈ id :: ids then f r else r := by
      rw [hrecs, List.map_map]
      refine List.map_congr_left fun r _ => ?_
      by_cases h : r.id = id <;> by_cases hm : r.id ∈ ids <;> simp_all
    rw [List.foldl_cons, ih _ hids, hmap]
    rfl

theorem placePages_eq (ids : List Nat) (p : Nat) (s : State) (hn : (s.pgs.recs.map (·.id)).Nodup) :
    placePages ids p s = { s with pgs := { s.pgs with
      recs := s.pgs.recs.map fun r => if r.id ∈ ids then { r with position := some p } else r } } :=
  foldl_updRec (fun r => { r with position := some p }) (fun _ => rfl) (fun _ => rfl) ids s hn

theorem endActive_of_absent {b : Nat} (h : ∀ r ∈ s.bct.batches, r.number ≠ b) : endActive b s = s :=
  congrArg s.withBatches (updFirst_of_none fun r hr => by simpa using h r hr)

theorem endActive_of_split {b : Nat} {before after : List BatchRec} {r : BatchRec}
    (hl : s.bct.batches = before ++ r :: after) (hr : r.number = b) (hb : ∀ x ∈ before, x.number ≠ b) :
    endActive b s =
      s.withBatches (before ++ { r with state := if r.state = .active then .ended else r.state } :: after) := by
  unfold endActive
  rw [updBatch_eq, hl, updFirst_append_cons (fun x hx => by simpa using hb x hx) (by simpa using hr)]

/-- The state with the transport in another state. -/
def State.withTransport (s : State) (t : Transport) : State := { s with tsq := { s.tsq with transport := t } }

theorem drainFeed_of_feeding (h : s.tsq.transport = .feeding ∨ s.tsq.transport = .paused) :
    drainFeed s = s.withTransport .draining := congrArg s.withTransport (if_pos h)

theorem drainFeed_of_other (hf : s.tsq.transport ≠ .feeding) (hp : s.tsq.transport ≠ .paused) : drainFeed s = s :=
  congrArg s.withTransport (if_neg (by simp [hf, hp]))

/-- Settles O33: the report by its sheet, then by its patch code and the batch; the operations that it names each by
their cases. -/
theorem captureReportTaken : Obligations.CaptureReportTaken := by
  unfold Obligations.CaptureReportTaken
  refine ⟨fun tag front back patch s hs => ?_, placePages_eq, fun b s => ⟨endActive_of_absent,
    fun before r after hl hr hb => ⟨fun hact => ?_, fun hact => ?_⟩⟩,
    fun s => ⟨drainFeed_of_feeding, drainFeed_of_other⟩⟩
  · have runs : exec (.captureReport tag front back patch) s = .next (captureReport tag front back patch s) :=
      scanner_next _ hs
    rw [runs]
    refine ⟨fun hidle => congrArg _ (captureReport_of_idle hidle), fun hidle hall => congrArg _
      (captureReport_of_allReported hidle hall), fun older younger e hidle ht hold hrep => ?_⟩
    intro sides
    refine ⟨fun hm => congrArg _ (captureReport_of_mismatch hidle ht (fun x hx => (hold x hx).1) hrep
      (hm.imp_right (mt reportEnded_iff.mp))), fun b r htag hsides hb ha hr => ?_⟩
    subst htag
    have h : s.TrackAt older e younger := ⟨ht, fun x hx => (hold x hx).2⟩
    intro reported t followed takes missing placed
    have hrt : t.TrackAt older reported younger := ⟨rfl, h.first⟩
    have taken : ∀ u, reportEffect e front back patch t = u → patch = .none ∨ e.suspect = false →
        Host.Outcome.next (captureReport e.tag front back patch s) =
          (.next (followed u) : Host.Outcome State Fault Refusal) := by
      rintro u rfl hq
      rw [captureReport_of_trackAt hidle h (fun x hx => (hold x hx).1) hrep hsides.1 hsides.2,
        patchSuspectTest_of_quiet hq]
      rfl
    have hplaced : placeSheet e (r.scanned + 1) front back
        (t.updBatch b fun x => { x with scanned := r.scanned + 1 }) = placed :=
      placeSheet_of_trackAt (x := reported) ⟨rfl, h.first⟩ rfl
    refine ⟨fun hp hno => ?_, fun hp ho htk hlt => ?_, fun hp ho htk hlast => ?_, fun a hc hq hres => ?_,
      fun a attrs hc hq hy hres => ?_, fun hp hq => ?_⟩
    · subst hp
      refine taken _ ?_ (Or.inl rfl)
      cases ho : e.overrun with
      | true => exact reportEffect_overrun hb ha ho
      | false =>
        refine (reportEffect_placed hb ha ho).trans (assignPosition_of_refused (s := t) hr ?_)
        exact (hno.resolve_left (by simp [ho])).imp_left (mt assigns_iff.mp)
    · subst hp
      refine taken _ ((reportEffect_placed hb ha ho).trans ?_) (Or.inl rfl)
      rw [assignPosition_of_taken (s := t) hr (assigns_iff.mpr htk) (by omega), hplaced]
      exact if_neg (by omega)
    · subst hp
      refine taken _ ((reportEffect_placed hb ha ho).trans ?_) (Or.inl rfl)
      rw [assignPosition_of_taken (s := t) hr (assigns_iff.mpr htk) (by omega), hplaced]
      exact if_pos (by omega)
    · exact taken _ ((reportEffect_attrs hb ha hc).trans (patchAttrs_of_none hres)) (Or.inr hq)
    · subst hy
      exact taken _ ((reportEffect_attrs hb ha hc).trans (patchAttrs_of_some hrt rfl hres)) (Or.inr hq)
    · subst hp
      exact taken _ (reportEffect_stop hb ha) (Or.inr hq)
  · rw [endActive_of_split hl hr hb, if_pos hact]
    rfl
  · rw [endActive_of_split hl hr hb, if_neg hact, ← hl]
    rfl

end Sys2Proof.Machine
end

section
/-! The capture port (O31): a store loss, and side-begin, data and side-end by the progress of the sheet and by the record
that it holds for the side. -/

namespace Sys2Proof.Machine

variable {s : State} {e : TrackEntry} {tag : Nat} {side : Side} {bytes : List Byte} {r : PageRec}

theorem tag_of_findEntry (h : s.findEntry tag = some e) : e.tag = tag := by
  simpa using List.find?_some h

/-! ## Store loss (R84, R56) -/

/-- The state with the progress of a sheet at DROP and a store loss counted under its cause. -/
def State.lossCounted (s : State) (c : LossCause) (tag : Nat) : State :=
  { s with pgs := { s.pgs with
    progress := s.pgs.progress.modify tag fun p => { p with mode := .drop }
    lossNoRecord := if c = .noRecord then min 65535 (s.pgs.lossNoRecord + 1) else s.pgs.lossNoRecord
    lossOversize := if c = .oversize then min 65535 (s.pgs.lossOversize + 1) else s.pgs.lossOversize
    lossNoBlock := if c = .noBlock then min 65535 (s.pgs.lossNoBlock + 1) else s.pgs.lossNoBlock } }

theorem countLoss_eq (c : LossCause) (tag : Nat) (s : State) :
    countLoss c (s.updProgress tag fun p => { p with mode := .drop }) = s.lossCounted c tag := by
  cases c <;> rfl

/-- The state in which an entry lists no page and the records that it listed are freed. -/
def State.pagesLost (s : State) (e : TrackEntry) : State :=
  e.pages.foldl (fun u id => freeRec id u) (s.updEntry e.tag fun e => { e with pages := [] })

theorem storeLoss_eq (c : LossCause) (e : TrackEntry) (s : State) : storeLoss c e s =
    hold .storeExhausted (((s.pagesLost e).lossCounted c e.tag).updEntry e.tag fun e => { e with storeLost := true }) := by
  rw [← countLoss_eq]
  rfl

theorem storeLoss_of_bare {c : LossCause} (hp : e.pages = []) : storeLoss c e s = hold .storeExhausted
    ((s.lossCounted c e.tag).updEntry e.tag fun e => { e with pages := [], storeLost := true }) := by
  have htrack : ((s.lossCounted c e.tag).updEntry e.tag fun e => { e with pages := [] }).updEntry e.tag
      (fun e => { e with storeLost := true }) =
      (s.lossCounted c e.tag).updEntry e.tag fun e => { e with pages := [], storeLost := true } :=
    congrArg (s.lossCounted c e.tag).withTrack (updFirst_updFirst (p := (·.tag == e.tag))
      (f := fun e : TrackEntry => { e with pages := [] }) (fun _ h => h) s.tsq.track)
  rw [storeLoss_eq, ← htrack, State.pagesLost, hp]
  rfl

theorem storeLoss_recs (c : LossCause) (hn : (s.pgs.recs.map (·.id)).Nodup) :
    (storeLoss c e s).pgs.recs = s.pgs.recs.filter fun r => !e.pages.contains r.id := by
  rw [storeLoss_eq, hold_pgs]
  exact freeAll_recs e.pages (s.updEntry e.tag fun e => { e with pages := [] }) hn

/-! ## Events of no use and of a dropped sheet (R80) -/

theorem sideBegin_of_absent (h : s.findEntry tag = none) : sideBegin tag side s = strayCapture s := by
  simp only [sideBegin, h]

theorem dataEvent_of_absent (h : s.findEntry tag = none) : dataEvent tag side bytes s = strayCapture s := by
  simp only [dataEvent, h]

theorem sideEnd_of_absent (h : s.findEntry tag = none) : sideEnd tag side s = strayCapture s := by
  simp only [sideEnd, h]

theorem sideBegin_of_drop (h : s.findEntry tag = some e) (hm : (s.progressOf tag).mode = .drop) :
    sideBegin tag side s = s.updProgress tag (·.markBegun side) := by
  simp only [sideBegin, h, hm]

theorem dataEvent_of_drop (h : s.findEntry tag = some e) (hm : (s.progressOf tag).mode = .drop) :
    dataEvent tag side bytes s = s := by
  simp only [dataEvent, h, hm]

theorem sideEnd_of_drop (h : s.findEntry tag = some e) (hm : (s.progressOf tag).mode = .drop) :
    sideEnd tag side s = s.updProgress tag (·.markEnded side) := by
  simp only [sideEnd, h, hm]

theorem fillingRec_of_none (h : s.sideRec e side = none) : s.fillingRec e side = none := by
  simp only [State.fillingRec, h]

theorem fillingRec_of_other (h : s.sideRec e side = some r) (hs : r.state ≠ .filling) : s.fillingRec e side = none := by
  simp only [State.fillingRec, h, hs, if_false]

theorem fillingRec_of_filling (h : s.sideRec e side = some r) (hs : r.state = .filling) :
    s.fillingRec e side = some r := by
  simp only [State.fillingRec, h, hs, if_true]

theorem dataEvent_of_unfilled (h : s.findEntry tag = some e) (hm : (s.progressOf tag).mode = .keep)
    (hr : s.fillingRec e side = none) : dataEvent tag side bytes s = strayCapture s := by
  simp only [dataEvent, h, hm, hr]

theorem sideEnd_of_unfilled (h : s.findEntry tag = some e) (hm : (s.progressOf tag).mode = .keep)
    (hr : s.fillingRec e side = none) : sideEnd tag side s = strayCapture s := by
  simp only [sideEnd, h, hm, hr]

/-! ## Side-begin (R81) -/

theorem sideBegin_of_fresh (h : s.findEntry tag = some e) (hm : (s.progressOf tag).mode = .keep)
    (hr : s.sideRec e side = none) : sideBegin tag side s =
      if s.pgs.freeRecs = 0 then storeLoss .noRecord e s
      else (allocRec e side s).updProgress tag (·.begin side) := by
  simp only [sideBegin, h, hm, hr]

/-- A side begun again gives up the record of its first begin. -/
theorem sideBegin_of_again (h : s.findEntry tag = some e) (hm : (s.progressOf tag).mode = .keep)
    (hr : s.sideRec e side = some r) : sideBegin tag side s =
      if (freeSheetRec e r.id s).pgs.freeRecs = 0 then storeLoss .noRecord e (freeSheetRec e r.id s)
      else (allocRec e side (freeSheetRec e r.id s)).updProgress tag (·.begin side) := by
  simp only [sideBegin, h, hm, hr]

theorem allocRec_of_pool {id : Nat} {pool : List Nat} (h : s.pgs.recPool = id :: pool) : allocRec e side s =
    levelTest ((s.modPgs fun g => { g with
      recs := g.recs ++ [{ id, side, tag := e.tag, position := e.position, mark := e.marked
                           batch := (s.sheetBatch e).1, fillFlag := (s.sheetBatch e).2 }]
      recPool := pool, freeRecs := g.freeRecs - 1 }).updEntry e.tag fun e => { e with pages := e.pages ++ [id] }) := by
  simp only [allocRec, h]

/-! ## Data and side-end (R82, R83) -/

theorem dataEvent_of_filling (h : s.findEntry tag = some e) (hm : (s.progressOf tag).mode = .keep)
    (hr : s.fillingRec e side = some r) : dataEvent tag side bytes s =
      let n := blocksFor (r.size + bytes.length) - r.blocks.length
      if Config.maxPage < r.size + bytes.length then storeLoss .oversize e s
      else if s.pgs.freeBlocks < n then storeLoss .noBlock e s else appendData r bytes n s := by
  simp only [dataEvent, h, hm, hr]

theorem sideEnd_of_filling (h : s.findEntry tag = some e) (hm : (s.progressOf tag).mode = .keep)
    (hr : s.fillingRec e side = some r) : sideEnd tag side s =
      if r.size = 0 then freeSheetRec e r.id s
      else (s.updRec r.id fun r => { r with state := .heldForSheet }).updProgress tag (·.markEnded side) := by
  simp only [sideEnd, h, hm, hr]

/-- Settles O31: a store loss by its steps, each event by the mode of the sheet's progress and by the record of the
side. -/
theorem captureFillsARecord : Obligations.CaptureFillsARecord := by
  unfold Obligations.CaptureFillsARecord
  refine ⟨fun c e s _ hp => storeLoss_of_bare hp, fun c e s _ => ⟨storeLoss_eq c e s, storeLoss_recs c⟩,
    fun tag side bytes s hs => ?_⟩
  intro begins comes ends stray marked begun ended
  have hbegins : begins = .next (sideBegin tag side s) := scanner_next _ hs
  have hcomes : comes = .next (dataEvent tag side bytes s) := scanner_next _ hs
  have hends : ends = .next (sideEnd tag side s) := scanner_next _ hs
  rw [hbegins, hcomes, hends]
  refine ⟨fun h => ⟨congrArg _ (sideBegin_of_absent h), congrArg _ (dataEvent_of_absent h),
    congrArg _ (sideEnd_of_absent h)⟩, fun e h => ⟨fun hm => ⟨congrArg _ (sideBegin_of_drop h hm),
    congrArg _ (dataEvent_of_drop h hm), congrArg _ (sideEnd_of_drop h hm)⟩, fun hm hr => ?_, fun r hm hr => ?_⟩⟩
  · have hn := fillingRec_of_none hr
    refine ⟨fun h0 => ?_, fun id pool h0 hpool => ?_, congrArg _ (dataEvent_of_unfilled h hm hn),
      congrArg _ (sideEnd_of_unfilled h hm hn)⟩
    · rw [sideBegin_of_fresh h hm hr, if_pos h0]
    · rw [sideBegin_of_fresh h hm hr, if_neg h0, allocRec_of_pool hpool, tag_of_findEntry h]
      rfl
  · refine ⟨?_, fun hf => ?_, fun hf => ?_⟩
    · rw [sideBegin_of_again h hm hr, apply_ite Host.Outcome.next]
      rfl
    · have hn := fillingRec_of_other hr hf
      exact ⟨congrArg _ (dataEvent_of_unfilled h hm hn), congrArg _ (sideEnd_of_unfilled h hm hn)⟩
    · have hf := fillingRec_of_filling hr hf
      rw [dataEvent_of_filling h hm hf, sideEnd_of_filling h hm hf]
      refine ⟨fun hbig => congrArg _ (if_pos hbig), fun hfit hfull => ?_, fun hfit hroom => ?_,
        fun h0 => congrArg _ (if_pos h0), fun h0 => congrArg _ (if_neg h0)⟩
      · exact congrArg _ ((if_neg (Nat.not_lt.mpr hfit)).trans (if_pos hfull))
      · exact congrArg _ ((if_neg (Nat.not_lt.mpr hfit)).trans (if_neg (Nat.not_lt.mpr hroom)))

end Sys2Proof.Machine
end

section
/-! The keys and the tray (O22): START, STOP and the tray events by the state of the transport, and CLEAR, whose pulls,
discards and tests leave the books of a batch but for the holes that the pulls add. -/

namespace Sys2Proof.Machine

variable {s : State} {e : TrackEntry}

/-! ## START (R30) -/

theorem fillReady_iff : s.fillReady = true ↔ ∃ j, s.bct.fill = some j ∧ ∃ g ∈ j.granted, g.state = .unused := by
  simp [State.fillReady, Option.any_eq_true]

theorem startPressed_of_moving (h : s.tsq.transport ≠ .idle) : startPressed s = s := if_pos h

theorem startPressed_of_idle (h : s.tsq.transport = .idle) : startPressed s =
    if s.dfm.learn.isSome then armFeed .learn none s
    else if s.fillReady then armFeed .fill none s
    else match s.bct.batches.find? (·.state == .active) with
      | some r => armFeed .batch (some r.number) s
      | none => s := if_neg (by simp [h])

theorem startPressed_of_learn (h : s.tsq.transport = .idle) (hl : s.dfm.learn ≠ none) :
    startPressed s = armFeed .learn none s := by
  rw [startPressed_of_idle h, if_pos (Option.isSome_iff_ne_none.mpr hl)]

theorem startPressed_of_fill (h : s.tsq.transport = .idle) (hl : s.dfm.learn = none) (hf : s.fillReady = true) :
    startPressed s = armFeed .fill none s := by
  rw [startPressed_of_idle h, if_neg (by simp [hl]), if_pos hf]

theorem startPressed_of_none (h : s.tsq.transport = .idle) (hl : s.dfm.learn = none) (hf : ¬ s.fillReady = true)
    (ha : ∀ r ∈ s.bct.batches, r.state ≠ .active) : startPressed s = s := by
  have hfind : s.bct.batches.find? (·.state == .active) = none :=
    List.find?_eq_none.mpr fun r hr => by simpa using ha r hr
  rw [startPressed_of_idle h, if_neg (by simp [hl]), if_neg hf, hfind]

theorem startPressed_of_batch {r : BatchRec} (h : s.tsq.transport = .idle) (hl : s.dfm.learn = none)
    (hf : ¬ s.fillReady = true) (hr : r ∈ s.bct.batches) (ha : r.state = .active)
    (hu : ∀ x ∈ s.bct.batches, x.state = .active → x = r) : startPressed s = armFeed .batch (some r.number) s := by
  have hfind : s.bct.batches.find? (·.state == .active) = some r := by
    cases hx : s.bct.batches.find? (·.state == .active) with
    | none => exact absurd (List.find?_eq_none.mp hx r hr) (by simp [ha])
    | some x => rw [hu x (List.mem_of_find?_eq_some hx) (by simpa using List.find?_some hx)]
  rw [startPressed_of_idle h, if_neg (by simp [hl]), if_neg hf, hfind]

/-! ## STOP and the tray (R32, R31) -/

theorem stopPressed_of_still (h : s.tsq.transport = .idle ∨ s.tsq.transport = .draining ∨ s.tsq.transport = .held) :
    stopPressed s = s := by
  rcases h with h | h | h <;> simp only [stopPressed, h]

theorem stopPressed_of_feed (h : s.tsq.transport = .armed ∨ s.tsq.transport = .feeding ∨ s.tsq.transport = .paused) :
    stopPressed s =
      drainTest (feedStops (if s.tsq.feedMode = some .fill then fillEnd .stopKey none s else s)) := by
  rcases h with h | h | h <;> simp only [stopPressed, h]

theorem feedStops_of_armed (h : s.tsq.transport = .armed) : feedStops s = toIdle s := by
  simp only [feedStops, h]

/-- A feed that stops outside FILL mode drains, and passes through DRAINING at once with an empty track. -/
theorem stopPressed_of_feeding (hm : s.tsq.feedMode ≠ some .fill)
    (h : s.tsq.transport = .feeding ∨ s.tsq.transport = .paused) :
    stopPressed s = if s.tsq.track = [] then toIdle s else s.withTransport .draining := by
  have hdrain : feedStops s = s.withTransport .draining := feedStops_of_fed h
  rw [stopPressed_of_feed (Or.inr h), if_neg hm, hdrain]
  by_cases hn : s.tsq.track = []
  · have hmode : (s.withTransport .draining).tsq.feedMode ≠ some .fill := hm
    rw [if_pos hn, drainTest_of_drained (s := s.withTransport .draining) rfl hn, if_neg hmode]
    rfl
  · rw [if_neg hn, drainTest_of_not (s := s.withTransport .draining) (Or.inr hn)]

theorem stopPressed_of_armed (hm : s.tsq.feedMode ≠ some .fill) (h : s.tsq.transport = .armed) :
    stopPressed s = toIdle s := by
  rw [stopPressed_of_feed (Or.inl h), if_neg hm, feedStops_of_armed h, drainTest_of_not (Or.inl (by simp [toIdle]))]

theorem trayLoaded_of_other (h : s.tsq.transport ≠ .armed) :
    trayLoaded s = { s with tsq := { s.tsq with tray := .loaded } } := if_neg h

theorem trayLoaded_of_armed (h : s.tsq.transport = .armed) : trayLoaded s = pickTest { s with tsq := { s.tsq with
    tray := .loaded, transport := match s.tsq.storeLevel with | .normal => .feeding | .pause => .paused } } := if_pos h

/-! ## The sheets that CLEAR pulls (R57, R58, R74) -/

theorem pullEntry_placed {b p : Nat} (hb : e.binding = .batch b) (hp : e.position = some p) :
    pullEntry e s = addHole b p (if e.storeLost then .store else .pulled) e.snap s := by
  simp only [pullEntry, hb, hp]
  rfl

theorem pullEntry_bare {b : Nat} (hb : e.binding = .batch b) (hp : e.position = none) : pullEntry e s = s := by
  simp only [pullEntry, hb, hp]

theorem pullEntry_fillPlaced {k : Option Nat} {p : Nat} (hb : e.binding = .fill k) (hp : e.position = some p) :
    pullEntry e s = fillRefused p (releaseReservation e.tag s) := by
  simp only [pullEntry, hb, hp]

theorem pullEntry_fillBare {k : Option Nat} (hb : e.binding = .fill k) (hp : e.position = none) :
    pullEntry e s = fillChanged (releaseReservation e.tag s) := by
  simp only [pullEntry, hb, hp]

theorem pullEntry_learn (hb : e.binding = .learn) : pullEntry e s =
    if s.dfm.learn.any (·.phase == .picked) then raise .learnFailed (s.modDfm fun d => { d with learn := none })
    else s := by
  simp only [pullEntry, hb]

theorem pullEntry_learnPicked {l : Learn} (hb : e.binding = .learn) (hl : s.dfm.learn = some l)
    (hp : l.phase = .picked) : pullEntry e s = raise .learnFailed { s with dfm := { s.dfm with learn := none } } := by
  rw [pullEntry_learn hb, if_pos (by simp [hl, hp])]
  rfl

theorem pullEntry_learnWaiting (hb : e.binding = .learn) (hl : ∀ l, s.dfm.learn = some l → l.phase = .waiting) :
    pullEntry e s = s := by
  rw [pullEntry_learn hb, if_neg]
  rw [Option.any_eq_true]
  rintro ⟨l, hs, hp⟩
  simp [hl l hs] at hp

/-- The hole of a pulled sheet with a position (R57, R153). -/
def TrackEntry.hole (e : TrackEntry) (p : Nat) : Hole :=
  { position := p, reason := if e.storeLost then .store else .pulled, state := .vacant, snap := e.snap }

/-- A hole list after the pull of one sheet of its batch. -/
def TrackEntry.pulledInto (e : TrackEntry) (hs : List Hole) : List Hole :=
  match e.position with
  | some p => insertHole (e.hole p) hs
  | none => hs

/-- A hole list after the pull of the sheets of its batch. -/
def pulledHoles (track : List TrackEntry) (hs : List Hole) : List Hole := track.foldl (fun hs e => e.pulledInto hs) hs

theorem updFirst_self {α : Type} {p : α → Bool} {f : α → α} (hf : ∀ x, f x = x) (l : List α) : updFirst p f l = l := by
  induction l with
  | nil => rfl
  | cons x l ih => by_cases h : p x = true <;> simp [updFirst, h, hf, ih]

theorem pullEntry_of_batch {b : Nat} (hb : e.binding = .batch b) :
    pullEntry e s = s.updBatch b fun r => { r with holes := e.pulledInto r.holes } := by
  unfold TrackEntry.pulledInto
  cases hp : e.position with
  | some p => exact pullEntry_placed hb hp
  | none =>
    rw [pullEntry_bare hb hp]
    exact (congrArg s.withBatches (updFirst_self (fun _ => rfl) s.bct.batches)).symm

theorem pulled_of_batch {b : Nat} (l : List TrackEntry) : ∀ s : State, (∀ e ∈ l, e.binding = .batch b) →
    l.foldl (fun t e => pullEntry e t) s = s.updBatch b fun r => { r with holes := pulledHoles l r.holes } := by
  induction l with
  | nil => exact fun s _ => (congrArg s.withBatches (updFirst_self (fun _ => rfl) s.bct.batches)).symm
  | cons e l ih =>
    intro s hb
    rw [List.foldl_cons, ih _ fun x hx => hb x (List.mem_cons_of_mem _ hx), pullEntry_of_batch (hb e List.mem_cons_self),
      updBatch_updBatch b (fun r => { r with holes := e.pulledInto r.holes }) _ fun _ => rfl]
    rfl

theorem length_insertHole (h : Hole) (l : List Hole) : (insertHole h l).length = l.length + 1 := by
  induction l with
  | nil => rfl
  | cons x l ih =>
    unfold insertHole
    split <;> simp [ih]

theorem length_pulledInto (e : TrackEntry) (hs : List Hole) :
    (e.pulledInto hs).length = hs.length + if e.position.isSome then 1 else 0 := by
  unfold TrackEntry.pulledInto
  cases e.position <;> simp [length_insertHole]

theorem length_pulledHoles (l : List TrackEntry) : ∀ hs : List Hole,
    (pulledHoles l hs).length = hs.length + l.countP (·.position.isSome) := by
  induction l with
  | nil => simp [pulledHoles]
  | cons e l ih =>
    intro hs
    have := ih (e.pulledInto hs)
    rw [length_pulledInto] at this
    rw [List.countP_cons]
    exact this.trans (by omega)

theorem mem_pulledInto {e : TrackEntry} {hs : List Hole} {x : Hole} :
    x ∈ e.pulledInto hs ↔ x ∈ hs ∨ ∃ p, e.position = some p ∧ x = e.hole p := by
  unfold TrackEntry.pulledInto
  cases e.position with
  | none => simp
  | some p => simp [mem_insertHole, or_comm]

theorem mem_pulledHoles (l : List TrackEntry) (x : Hole) : ∀ hs : List Hole,
    x ∈ pulledHoles l hs ↔ x ∈ hs ∨ ∃ e ∈ l, ∃ p, e.position = some p ∧ x = e.hole p := by
  induction l with
  | nil => simp [pulledHoles]
  | cons e l ih =>
    intro hs
    refine (ih (e.pulledInto hs)).trans ?_
    simp only [mem_pulledInto, or_assoc, List.mem_cons, exists_eq_or_imp]

/-! ## What discards in HELD leave (R90) -/

/-- The books of a batch: its counts of sheets and its hole list. -/
def BatchRec.books (r : BatchRec) : Nat × Nat × Nat × List Hole := (r.number, r.scanned, r.accepted, r.holes)

/-- The books of every batch, the transport, the tray, the tag counter and the port log stay. -/
structure Rests (s t : State) : Prop where
  transport : t.tsq.transport = s.tsq.transport
  tray      : t.tsq.tray = s.tsq.tray
  tags      : t.tsq.tagCounter = s.tsq.tagCounter
  ports     : t.portLog = s.portLog
  books     : t.bct.batches.map (·.books) = s.bct.batches.map (·.books)

theorem Rests.refl (s : State) : Rests s s := ⟨rfl, rfl, rfl, rfl, rfl⟩

theorem Rests.trans {s t u : State} (h : Rests s t) (k : Rests t u) : Rests s u :=
  ⟨k.transport.trans h.transport, k.tray.trans h.tray, k.tags.trans h.tags, k.ports.trans h.ports,
    k.books.trans h.books⟩

/-- A batch keeps its books in the table of a state that keeps them all. -/
theorem Rests.findBatch {s t : State} {b : Nat} {r : BatchRec} (h : Rests s t) (hb : s.findBatch b = some r) :
    ∃ u, t.findBatch b = some u ∧ u.scanned = r.scanned ∧ u.accepted = r.accepted ∧ u.holes = r.holes := by
  have found : ∀ v : State, (v.bct.batches.map (·.books)).find? (·.1 == b) = (v.findBatch b).map (·.books) :=
    fun v => List.find?_map
  have hu := found t
  rw [h.books, found s, hb, Option.map_some] at hu
  obtain ⟨u, hu, hbooks⟩ := Option.map_eq_some_iff.mp hu.symm
  simp only [BatchRec.books, Prod.mk.injEq] at hbooks
  obtain ⟨-, hscanned, haccepted, hholes⟩ := hbooks
  exact ⟨u, hu, hscanned, haccepted, hholes⟩

variable {u : State}

theorem rests_ite {c : Prop} [Decidable c] {x y : State} (hx : Rests s x) (hy : Rests s y) :
    Rests s (if c then x else y) := by
  split <;> assumption

theorem rests_foldl {α : Type} {f : State → α → State} (l : List α) (h : Rests s u)
    (hf : ∀ v a, Rests s v → Rests s (f v a)) : Rests s (l.foldl f u) := by
  induction l generalizing u with
  | nil => exact h
  | cons a l ih => exact ih (hf u a h)

@[simp] theorem hand_portLog (d t : Nat) (p : Payload) (s : State) : (hand d t p s).portLog = s.portLog := by
  unfold hand
  split
  iterate 2 (split <;> rfl)
  all_goals rfl

theorem rests_ask (d : Nat) (p : Payload) (h : Rests s u) : Rests s (ask d p u) :=
  h.trans ⟨by simp [ask], by simp [ask], by simp [ask], by simp [ask], by simp [ask]⟩

theorem rests_updBatch (b : Nat) (f : BatchRec → BatchRec) (hf : ∀ r, (f r).books = r.books) (h : Rests s u) :
    Rests s (u.updBatch b f) :=
  h.trans ⟨rfl, rfl, rfl, rfl, updFirst_map _ _ _ (fun r _ => hf r) _⟩

theorem rests_modPgs (f : Pgs → Pgs) (h : Rests s u) : Rests s (u.modPgs f) := h.trans ⟨rfl, rfl, rfl, rfl, rfl⟩

theorem rests_modTxe (f : Txe → Txe) (h : Rests s u) : Rests s (u.modTxe f) := h.trans ⟨rfl, rfl, rfl, rfl, rfl⟩

theorem rests_updChan (c : ChanId) (f : Channel → Channel) (h : Rests s u) : Rests s (u.updChan c f) := by
  cases c
  · exact rests_modTxe (fun t => { t with chanA := f t.chanA }) h
  · exact rests_modTxe (fun t => { t with chanB := f t.chanB }) h

theorem rests_updEntry (tag : Nat) (f : TrackEntry → TrackEntry) (h : Rests s u) : Rests s (u.updEntry tag f) :=
  h.trans ⟨rfl, rfl, rfl, rfl, rfl⟩

theorem rests_closeTest (b : Nat) (h : Rests s u) : Rests s (closeTest b u) := by
  unfold closeTest
  split
  · exact rests_ite (rests_ask _ _ (rests_updBatch _ _ (fun _ => rfl) h)) h
  · exact h

theorem rests_endedTest (b : Nat) (h : Rests s u) : Rests s (endedTest b u) := by
  unfold endedTest
  split
  · exact rests_ite (rests_closeTest _ (rests_updBatch _ _ (fun _ => rfl) h)) h
  · exact h

theorem rests_haltEndTest (b : Nat) (h : Rests s u) : Rests s (haltEndTest b u) := by
  unfold haltEndTest
  split
  · exact rests_ite (rests_endedTest _ (rests_updBatch _ _ (fun _ => rfl) h)) h
  · exact h

theorem rests_offerOne (c : ChanId) (h : Rests s u) : Rests s (offerOne c u) := by
  unfold offerOne
  refine rests_ite ?_ h
  split
  · exact rests_ask _ _ (rests_modTxe _ (rests_updChan _ _ (rests_modPgs _ (rests_modPgs _ h))))
  · exact h

theorem rests_offerTest (h : Rests s u) : Rests s (offerTest u) := rests_offerOne _ (rests_offerOne _ h)

/-- In HELD a level test gives no pick: its signals leave the transport. -/
theorem rests_levelTest (hs : s.tsq.transport = .held) (h : Rests s u) : Rests s (levelTest u) := by
  have hu : u.tsq.transport = .held := h.transport.trans hs
  cases hl : u.pgs.level with
  | normal =>
    rw [levelTest_of_normal hl]
    exact rests_ite (h.trans ⟨by simp [pauseSignal, hu], rfl, rfl, rfl, rfl⟩) h
  | pause =>
    rw [levelTest_of_pause hl]
    refine rests_ite ?_ h
    unfold resumeSignal
    rw [pickTest_of_still (by simp [hu])]
    exact h.trans ⟨by simp [hu], rfl, rfl, rfl, rfl⟩

theorem rests_freeRec (hs : s.tsq.transport = .held) (id : Nat) (h : Rests s u) : Rests s (freeRec id u) := by
  unfold freeRec
  split
  · exact h
  · rename_i r _
    have hfree := rests_levelTest hs (rests_modPgs (u := u) (fun g => unqueue id { g with
      recs := g.recs.eraseP (·.id == id)
      recPool := g.recPool ++ [id]
      freeRecs := g.freeRecs + 1
      freeBlocks := g.freeBlocks + r.blocks.length }) h)
    dsimp only
    split
    · exact hfree
    · rename_i b _
      have hlowered := rests_ite (c := r.state = .failed ∧ ¬ r.fillFlag)
        (rests_haltEndTest b (rests_updBatch b (fun r => { r with failedPages := r.failedPages - 1 }) (fun _ => rfl) hfree))
        hfree
      exact rests_ite (rests_closeTest _ hlowered) hlowered

theorem rests_detachRec (id : Nat) (h : Rests s u) : Rests s (detachRec id u) := by
  unfold detachRec
  split
  · exact rests_modPgs _ (rests_updEntry _ _ h)
  · exact h

theorem rests_txeDiscard (hs : s.tsq.transport = .held) (id : Nat) (h : Rests s u) : Rests s (txeDiscard id u) := by
  unfold txeDiscard
  split
  · exact rests_freeRec hs id (rests_updChan _ _ h)
  · split
    · exact rests_ite (rests_updChan _ _ h) (rests_freeRec hs id (rests_updChan _ _ h))
    · exact h

theorem rests_discardRec (hs : s.tsq.transport = .held) (id : Nat) (h : Rests s u) : Rests s (discardRec id u) := by
  have hd := rests_detachRec id h
  unfold discardRec
  split
  · exact h
  · dsimp only
    -- By the state of the record: SENT, SENDING, and the four in which it is freed at once.
    split
    case h_5 => exact rests_freeRec hs id (rests_modTxe _ hd)
    case h_6 => exact rests_ite hd (rests_txeDiscard hs id (rests_modPgs _ hd))
    all_goals exact rests_freeRec hs id hd

theorem rests_discardAll (hs : s.tsq.transport = .held) (ids : List Nat) (h : Rests s u) : Rests s (discardAll ids u) :=
  rests_ite h (rests_offerTest (rests_foldl ids h fun _ id hv => rests_discardRec hs id hv))

/-! ## CLEAR (R57, R58) -/

/-- The state with every sheet of the track pulled, before its pages are discarded. -/
def State.pulled (s : State) : State := s.tsq.track.foldl (fun t e => pullEntry e t) s

/-- The state with the pages of the pulled sheets discarded. -/
def State.pagesDropped (s : State) : State := discardAll (s.pulled.tsq.track.flatMap (·.pages)) s.pulled

/-- The state that CLEAR leaves, before what follows in the feed mode. -/
def State.cleared (s : State) : State :=
  { s.pagesDropped with
    tsq := { s.pagesDropped.tsq with
      track := [], holdReason := none, handshake := none, diverter := .main, diverterConfirmed := false
      transport := .idle, feedMode := none, fedBatch := none }
    portLog := s.pagesDropped.portLog ++ [.diverter .main] }

theorem clearPath_eq (s : State) : clearPath s = match s.tsq.feedMode, s.tsq.fedBatch with
    | some .batch, some b => endedTest b s.cleared
    | some .fill, _ => feedStopped s.cleared
    | _, _ => s.cleared := rfl

theorem clearPath_of_batch {b : Nat} (hm : s.tsq.feedMode = some .batch) (hf : s.tsq.fedBatch = some b) :
    clearPath s = endedTest b s.cleared := by
  rw [clearPath_eq, hm, hf]

theorem clearPath_of_fill (hm : s.tsq.feedMode = some .fill) : clearPath s = feedStopped s.cleared := by
  rw [clearPath_eq, hm]

theorem clearPath_of_learn (hm : s.tsq.feedMode = some .learn) : clearPath s = s.cleared := by
  rw [clearPath_eq, hm]

theorem clearPressed_of_moving (h : s.tsq.transport ≠ .held) : clearPressed s = s := if_pos h

theorem clearPressed_of_other (h : s.tsq.transport = .held) (hm : s.tsq.feedMode ≠ some .batch) :
    clearPressed s = clearPath s := by
  unfold clearPressed
  rw [if_neg (by simp [h])]
  split
  · exact absurd ‹_› hm
  · rfl

/-- The sheets of a batch in the track that have a position. -/
def State.placedCount (s : State) (b : Nat) : Nat := s.tsq.track.countP fun e => e.boundTo b && e.position.isSome

theorem clearPressed_of_batch {b : Nat} {r : BatchRec} (h : s.tsq.transport = .held)
    (hm : s.tsq.feedMode = some .batch) (hf : s.tsq.fedBatch = some b) (hb : s.findBatch b = some r) :
    clearPressed s = if 32 < r.holes.length + s.placedCount b then raise .holeLimit s else endedTest b s.cleared := by
  have hcount : s.holesAtClear b = r.holes.length + s.placedCount b := by
    simp only [State.holesAtClear, hb, Option.map_some, Option.getD_some]
    rfl
  rw [← clearPath_of_batch hm hf, ← hcount]
  unfold clearPressed
  rw [if_neg (by simp [h]), hm, hf]
  rfl

/-- A CLEAR that pulls sheets of the fed batch alone: its hole list takes their positions, its counts stay. -/
theorem cleared_of_batch {b : Nat} {r : BatchRec} (hs : s.tsq.transport = .held) (hb : s.findBatch b = some r)
    (ht : ∀ e ∈ s.tsq.track, e.binding = .batch b) :
    s.cleared.tsq.tray = s.tsq.tray ∧ s.cleared.tsq.tagCounter = s.tsq.tagCounter ∧
      s.cleared.portLog = s.portLog ++ [.diverter .main] ∧ ∃ u, s.cleared.findBatch b = some u ∧
        u.scanned = r.scanned ∧ u.accepted = r.accepted ∧ u.holes = pulledHoles s.tsq.track r.holes := by
  have hpulled : s.pulled = s.updBatch b fun x => { x with holes := pulledHoles s.tsq.track x.holes } :=
    pulled_of_batch s.tsq.track s ht
  have hfound : s.pulled.findBatch b = some { r with holes := pulledHoles s.tsq.track r.holes } := by
    rw [hpulled]
    exact findBatch_upd b (fun x => { x with holes := pulledHoles s.tsq.track x.holes }) (fun _ => rfl) hb
  have hheld : s.pulled.tsq.transport = .held := by
    rw [hpulled]
    exact hs
  have hrests : Rests s.pulled s.pagesDropped := rests_discardAll hheld _ (Rests.refl _)
  refine ⟨hrests.tray.trans ?_, hrests.tags.trans ?_, congrArg (· ++ [PortOut.diverter .main]) (hrests.ports.trans ?_),
    hrests.findBatch hfound⟩ <;> rw [hpulled] <;> rfl

theorem placedCount_of_bound {b : Nat} (h : ∀ e ∈ s.tsq.track, e.binding = .batch b ∧ e.abandoned = false) :
    s.placedCount b = s.tsq.track.countP (·.position.isSome) :=
  List.countP_congr fun e he => by simp [TrackEntry.boundTo, h e he]

/-- Settles O22: each key and tray event by the state of the transport, the pull of one sheet by its binding, CLEAR by
the feed mode. -/
theorem keysAndTrayMoveTheTransport : Obligations.KeysAndTrayMoveTheTransport := by
  unfold Obligations.KeysAndTrayMoveTheTransport
  refine ⟨⟨fun s hs => ?_, fun s hs => ?_⟩, fun e s => ?_, fun s hs hheld => ?_⟩
  · have starts : exec .startKey s = .next (startPressed s) := scanner_next _ hs
    have stops : exec .stopKey s = .next (stopPressed s) := scanner_next _ hs
    have loads : exec .trayReady s = .next (trayLoaded s) := scanner_next _ hs
    have empties : exec .trayEmpty s = .next (trayEmptied s) := scanner_next _ hs
    rw [starts, stops, loads, empties]
    intro feed moves stopped fillable
    have hready : ∀ h : ¬ fillable, ¬ s.fillReady = true := fun h hf => h (fillReady_iff.mp hf)
    refine ⟨fun h => congrArg _ (startPressed_of_moving h), fun h => ⟨fun hl => congrArg _ (startPressed_of_learn h hl),
      fun hl hf => congrArg _ (startPressed_of_fill h hl (fillReady_iff.mpr hf)),
      fun hl hf ha => congrArg _ (startPressed_of_none h hl (hready hf) ha),
      fun hl hf r hr ha hu => congrArg _ (startPressed_of_batch h hl (hready hf) hr ha hu)⟩,
      fun h => congrArg _ (stopPressed_of_still h), fun hm => ⟨fun h => congrArg _ (stopPressed_of_armed hm h),
      fun h => congrArg _ (stopPressed_of_feeding hm h)⟩, fun hm h => ?_, fun h => congrArg _ (trayLoaded_of_other h),
      fun h => ⟨fun hl => ?_, fun hl => ?_⟩, rfl⟩
    · rw [stopPressed_of_feed h, if_pos hm]
    · rw [trayLoaded_of_armed h, hl]
    · rw [trayLoaded_of_armed h, hl]
      exact congrArg _ (pickTest_of_still (by simp))
  · have clears : exec .clearKey s = .next (clearPressed s) := scanner_next _ hs
    rw [clears]
    refine ⟨fun h => congrArg _ (clearPressed_of_moving h), fun b r hheld hm hf hb => ?_⟩
    intro placed
    rw [clearPressed_of_batch hheld hm hf hb]
    refine ⟨fun hfull => congrArg _ (if_pos hfull), fun hroom hbound => ?_⟩
    obtain ⟨htray, htags, hports, u, hu, hscanned, haccepted, hholes⟩ :=
      cleared_of_batch hheld hb fun e he => (hbound e he).1
    have hended := tested_endedTest b (Tested.refl s.cleared)
    have hrests := rests_endedTest b (Rests.refl s.cleared)
    obtain ⟨v, hv, hvs, hva, hvh⟩ := hrests.findBatch hu
    refine ⟨endedTest b s.cleared, v, congrArg _ (if_neg (Nat.not_lt.mpr hroom)), hv, ?_⟩
    have hlen : placed = s.tsq.track.countP (·.position.isSome) := placedCount_of_bound hbound
    rw [hended.tsq, hrests.ports, hvh.trans hholes, length_pulledHoles, hlen]
    exact ⟨rfl, rfl, rfl, rfl, rfl, rfl, rfl, rfl, htray, htags, hports, hvs.trans hscanned, hva.trans haccepted, rfl,
      fun x hx => (mem_pulledHoles _ _ _).mpr (Or.inl hx),
      fun e he p hp => (mem_pulledHoles _ _ _).mpr (Or.inr ⟨e, he, p, hp, rfl⟩)⟩
  · exact ⟨fun b p hb hp => pullEntry_placed hb hp, fun b hb hp => pullEntry_bare hb hp,
      fun k hb => ⟨fun p hp => pullEntry_fillPlaced hb hp, fun hp => pullEntry_fillBare hb hp⟩,
      fun hb => ⟨fun l hl hp => pullEntry_learnPicked hb hl hp, pullEntry_learnWaiting hb⟩⟩
  · have clears : exec .clearKey s = .next (clearPressed s) := scanner_next _ hs
    rw [clears]
    intro pulled t idle
    have hidle : s.cleared = idle := rfl
    rw [← hidle]
    have hfill : s.tsq.feedMode = some .fill → clearPressed s = feedStopped s.cleared := fun hm =>
      (clearPressed_of_other hheld (by simp [hm])).trans (clearPath_of_fill hm)
    refine ⟨fun b r hm hf hb hroom => ?_, fun hm htray => ?_, fun hm htray => ?_, fun hm => ?_⟩
    · rw [clearPressed_of_batch hheld hm hf hb]
      exact congrArg _ (if_neg (Nat.not_lt.mpr hroom))
    · rw [hfill hm, feedStopped_of_empty (s := s.cleared) htray]
    · rw [hfill hm, feedStopped_of_loaded (s := s.cleared) htray]
    · rw [clearPressed_of_other hheld (by simp [hm]), clearPath_of_learn hm]

end Sys2Proof.Machine
end

section
/-! The two tests of a sheet, the match of an exemption entry, the search of a bank and the verdict (O25, O26), and the
zone readings of a profile (O30). -/

namespace Sys2Proof.Machine

/-! ## Length and layer suspicion (R63, R64) -/

/-- Settles O25, by the nominal length of the snapshot and by the measure. -/
theorem lengthSuspicionByNominal : Obligations.LengthSuspicionByNominal := by
  unfold Obligations.LengthSuspicionByNominal
  intro snap length
  cases hn : snap.nominal with
  | none => simp [lengthSuspicion, hn]
  | some n => cases length <;> simp [lengthSuspicion, hn]

theorem replicate_prefix_cons_self {α : Type} {a : α} {n : Nat} {l : List α} :
    List.replicate n a <+: a :: l ↔ List.replicate (n - 1) a <+: l := by
  cases n with
  | zero => simp
  | succ n => simp [List.replicate_succ, List.cons_prefix_cons]

theorem replicate_prefix_cons_other {α : Type} {a b : α} (h : a ≠ b) {n : Nat} {l : List α} :
    List.replicate n a <+: b :: l ↔ n = 0 := by
  cases n with
  | zero => simp
  | succ n => simp [List.replicate_succ, List.cons_prefix_cons, h]

theorem replicate_prefix_of_le {α : Type} {a : α} {m n : Nat} {l : List α} (h : m ≤ n)
    (hn : List.replicate n a <+: l) : List.replicate m a <+: l :=
  List.IsPrefix.trans ⟨List.replicate (n - m) a, by rw [List.replicate_append_replicate, Nat.add_sub_cancel' h]⟩ hn

/-- With `run` LAYERED readings before it, a profile has a run as long as the threshold when it begins with what that
run lacks or holds a whole run itself. -/
theorem hasRun_iff (threshold : Nat) (profile : List Bool) : ∀ run, hasRun threshold run profile = true ↔
    List.replicate (threshold - run) true <+: profile ∨ List.replicate threshold true <:+: profile := by
  induction profile with
  | nil =>
    intro run
    simp only [hasRun, decide_eq_true_eq, List.prefix_nil, List.infix_nil, List.replicate_eq_nil_iff]
    omega
  | cons b rest ih =>
    intro run
    rw [List.infix_cons_iff]
    cases b with
    | true =>
      -- A whole run that begins here is one that the readings before it only lengthen.
      have hlonger : List.replicate (threshold - 1) true <+: rest → List.replicate (threshold - run - 1) true <+: rest :=
        replicate_prefix_of_le (by omega)
      rw [hasRun, ih (run + 1), ← Nat.sub_sub, replicate_prefix_cons_self, replicate_prefix_cons_self]
      tauto
    | false =>
      -- A CLEAR reading ends the run before it: it was long enough, or the rest holds a whole one.
      have hwhole : List.replicate threshold true <+: rest → List.replicate threshold true <:+: rest :=
        List.IsPrefix.isInfix
      have hnone : threshold = 0 → threshold - run = 0 := by omega
      rw [hasRun, Bool.or_eq_true, decide_eq_true_eq, ih 0, Nat.sub_zero, replicate_prefix_cons_other (by decide),
        replicate_prefix_cons_other (by decide), ← Nat.sub_eq_zero_iff_le]
      tauto

/-- A profile has layer suspicion when it holds a run of LAYERED readings as long as the threshold. -/
theorem hasRun_zero_iff (threshold : Nat) (profile : List Bool) : hasRun threshold 0 profile = true ↔
    List.replicate threshold true <:+: profile := by
  rw [hasRun_iff, Nat.sub_zero]
  exact or_iff_right_of_imp List.IsPrefix.isInfix

/-! ## The match of an exemption entry (R66) -/

theorem getLsbD_zoneSetFrom (l : List Bool) : ∀ {k i : Nat}, k + l.length ≤ 64 → i < 64 →
    (zoneSetFrom k l).getLsbD (63 - i) = (decide (k ≤ i) && l.getD (i - k) false) := by
  induction l with
  | nil => simp [zoneSetFrom]
  | cons b l ih =>
    intro k i hl hi
    rw [List.length_cons] at hl
    have hbit : (if b then 1#64 <<< (63 - k) else 0).getLsbD (63 - i) = (b && decide (i = k)) := by
      cases b with
      | false => simp
      | true =>
        rw [if_pos rfl, BitVec.getLsbD_shiftLeft, BitVec.getLsbD_one, Bool.true_and, Bool.eq_iff_iff]
        simp only [Bool.and_eq_true, decide_eq_true_eq, Bool.not_eq_true', decide_eq_false_iff_not]
        omega
    rw [zoneSetFrom, BitVec.getLsbD_or, hbit, ih (by omega) hi]
    rcases Nat.lt_trichotomy i k with hlt | rfl | hgt
    · simp [show ¬ k ≤ i by omega, show ¬ k + 1 ≤ i by omega, show i ≠ k by omega]
    · simp
    · obtain ⟨j, rfl⟩ : ∃ j, i = k + 1 + j := ⟨i - (k + 1), by omega⟩
      simp [show k + 1 + j - k = j + 1 by omega, show k ≤ k + 1 + j by omega, show k + 1 + j ≠ k by omega]

/-- Zone `k + 1` is the bit `63 - k` of a zone set, and counts as CLEAR without a reading. -/
theorem getLsbD_zoneSet (profile : List Bool) {k : Nat} (hk : k < 64) :
    (zoneSet profile).getLsbD (63 - k) = profile.getD k false := by
  unfold zoneSet
  rw [getLsbD_zoneSetFrom _ (by simp [Config.zones]) hk]
  simp [Config.zones, hk]

theorem fits_iff {x : Exemption} {profile : List Bool} : x.fits profile = true ↔ x.valid = true ∧ x.mask ≠ 0 ∧
    zoneCount (x.mask &&& (zoneSet profile ^^^ x.pattern)) ≤ unequalAllowed x.mode := by
  simp [Exemption.fits, and_assoc]

/-- The masked zones in which a profile and a pattern differ. -/
theorem zoneCount_masked_xor (mask a b : ZoneSet) : zoneCount (mask &&& (a ^^^ b)) =
    (List.range 64).countP fun k => mask.getLsbD k && (a.getLsbD k != b.getLsbD k) := by
  simp [zoneCount]

/-! ## The search and the verdict (R65, R67) -/

theorem searchBank_eq_some_iff {d : Dfm} {bank k : Nat} {profile : List Bool} :
    searchBank d bank profile = some k ↔ k < 6 ∧
      (d.exemptions.getD (6 * bank + k) {}).fits profile = true ∧
      ∀ j < k, (d.exemptions.getD (6 * bank + j) {}).fits profile = false := by
  unfold searchBank
  rw [List.find?_range_eq_some, List.mem_range, and_left_comm]
  simp only [Bool.not_eq_true', exemptionIndex, Config.bankEntries]

variable {s : State} {e : TrackEntry}

/-- Without layer suspicion no bank is searched. -/
theorem judge_of_flat (h : hasRun s.oru.settings.runThreshold 0 e.profile = false) :
    judge s e = (verdictTable (lengthSuspicion e.snap e.length) false false, none) := by
  simp [judge, h]

theorem judge_of_layered (h : hasRun s.oru.settings.runThreshold 0 e.profile = true) :
    judge s e = (verdictTable (lengthSuspicion e.snap e.length) true (searchBank s.dfm e.snap.bank e.profile).isSome,
      searchBank s.dfm e.snap.bank e.profile) := by
  simp [judge, h]

/-- Settles O26: the run by the readings, the match zone by zone, the search by the index, the verdict by the two tests
and the match. -/
theorem verdictByBothTests : Obligations.VerdictByBothTests := by
  unfold Obligations.VerdictByBothTests
  refine ⟨fun threshold profile _ => ?_, fun profile k hk => getLsbD_zoneSet profile hk, fun x profile => ?_,
    fun d bank k profile => searchBank_eq_some_iff, fun s e => ?_⟩
  · rw [hasRun_zero_iff]
    exact exists₂_congr fun _ _ => eq_comm
  · rw [fits_iff, zoneCount_masked_xor]
    cases x.mode <;> rfl
  · intro long layered found
    have hflat : layered = false → judge s e = (verdictTable long false false, none) := judge_of_flat
    have hmatch : layered = true → found ≠ none → judge s e = (verdictTable long true true, found) := fun hl hf => by
      rw [judge_of_layered hl, Option.isSome_iff_ne_none.mpr hf]
    have hmiss : layered = true → found = none → judge s e = (verdictTable long true false, none) := fun hl hf => by
      rw [judge_of_layered hl, show searchBank s.dfm e.snap.bank e.profile = none from hf]
      rfl
    refine ⟨fun h hl => ?_, fun h hl => ?_, fun h hl hf => ?_, fun h hl hf => ?_, fun h hl hf => ?_,
      fun h hl hf => ?_⟩
    · rw [hflat hl, h]; rfl
    · rw [hflat hl, h]; rfl
    · rw [hmatch hl hf, h]; rfl
    · rw [hmatch hl hf, h]; rfl
    · rw [hmiss hl hf, h]; rfl
    · rw [hmiss hl hf, h]; rfl

/-! ## Zone readings (R61) -/

variable {tag : Nat} {layered : Bool}

/-- A reading that joins no profile is counted (R61). -/
def State.strayCounted (s : State) : State := s.modDfm fun d => { d with strayReadings := bump16 d.strayReadings }

theorem zoneReading_of_still (h : s.tsq.transport = .idle ∨ s.tsq.transport = .held) :
    zoneReading tag layered s = s :=
  if_neg fun hw => windowsRun_iff.mp hw h

theorem zoneReading_of_empty (hw : s.tsq.transport.windowsRun = true) (ht : s.tsq.track = []) :
    zoneReading tag layered s = s.strayCounted := by
  simp [zoneReading, hw, ht, State.strayCounted]

/-- A reading of a moving transport is judged by the youngest sheet of the track. -/
theorem zoneReading_of_youngest {older : List TrackEntry} (hw : s.tsq.transport.windowsRun = true)
    (h : s.TrackAt older e []) : zoneReading tag layered s =
      if e.tag = tag ∧ e.edges.entry.trail = none then
        if e.profile.length < 64 then s.withTrack (older ++ [{ e with profile := e.profile ++ [layered] }]) else s
      else s.strayCounted := by
  have hlast : s.tsq.track.getLast? = some e := by simp [h.track]
  unfold zoneReading
  simp only [hw, hlast, if_true]
  split
  · rename_i hjoins
    rw [← hjoins.1, updEntry_of_trackAt h]
    rfl
  · rfl

/-- Settles O30: the reading by the transport, the track and the youngest sheet. -/
theorem zoneReadingJoinsTheProfile : Obligations.ZoneReadingJoinsTheProfile := by
  unfold Obligations.ZoneReadingJoinsTheProfile
  intro tag layered s hs
  have reads : exec (.zoneReading tag layered) s = .next (zoneReading tag layered s) := scanner_next _ hs
  rw [reads]
  intro run still stray
  refine ⟨fun h => congrArg _ (zoneReading_of_still h),
    fun hmove ht => congrArg _ (zoneReading_of_empty (windowsRun_iff.mpr hmove) ht), fun older e hmove ht hfirst => ?_⟩
  have hread := zoneReading_of_youngest (tag := tag) (layered := layered) (windowsRun_iff.mpr hmove) ⟨ht, hfirst⟩
  refine ⟨fun hstray => congrArg _ (hread.trans (if_neg ?_)), fun htag hopen hfull => congrArg _ ?_,
    fun htag hopen hroom => congrArg _ ?_⟩
  · rintro ⟨htag, hopen⟩
    exact hstray.elim (· htag) (· hopen)
  · rw [hread, if_pos ⟨htag, hopen⟩, if_neg (Nat.not_lt.mpr hfull)]
  · rw [hread, if_pos ⟨htag, hopen⟩, if_pos hroom]
    rfl

end Sys2Proof.Machine
end

section
/-! LOAD EXEMPTION and LEARN EXEMPTION (O18): the checks in their order and the entry or the pending learn that they
write. -/

namespace Sys2Proof.Machine

/-! ## Mode codes (section 11.1) -/

theorem ofCode_of_large {m : Nat} (h : 1 < m) : ExMode.ofCode m = none := by
  unfold ExMode.ofCode
  split
  · omega
  · omega
  · rfl

theorem ofCode_of_listed {m : Nat} (h : ¬ 1 < m) : ExMode.ofCode m = some (if m = 0 then .strict else .loose) := by
  obtain rfl | rfl : m = 0 ∨ m = 1 := by omega
  · rfl
  · rfl

variable {s : State} {h : Hdr} {k e v m : Nat} {mask pattern : ZoneSet}

/-! ## LOAD EXEMPTION (R70) -/

theorem exec_loadExemption (hc : s.consoleOrder h) (hr : s.oru.role = .scanner) (hv : v ≤ 1) :
    exec (.loadExemption h k e v m mask pattern) s =
      .next (answer h (loadExemption k e v m mask pattern s.orderCounted).1 []
        (loadExemption k e v m mask pattern s.orderCounted).2) :=
  exec_answered rfl hc (decide_eq_true hv) (by rw [hr]; rfl) rfl

theorem learns_iff {d : Dfm} : d.learns k e = true ↔ ∃ l, d.learn = some l ∧ l.bank = k ∧ l.entry = e := by
  simp [Dfm.learns, Option.any_eq_true]

theorem loadExemption_of_bad (hb : 1 < k ∨ 5 < e ∨ 1 < m) : loadExemption k e v m mask pattern s = (.badArgument, s) := by
  unfold loadExemption
  by_cases hm : 1 < m
  · rw [ofCode_of_large hm]
  · rw [ofCode_of_listed hm]
    have hbad : 1 < k ∨ 6 ≤ e := by tauto
    exact if_pos hbad

/-- With arguments in range the transport and the pending learn decide. -/
theorem loadExemption_of_good (hg : ¬ (1 < k ∨ 5 < e ∨ 1 < m)) : loadExemption k e v m mask pattern s =
    if s.tsq.transport ≠ .idle then (.notIdle, s)
    else if s.dfm.learns k e then (.busy, s)
    else (.accepted, writeExemption k e { valid := v == 1, mask, pattern, mode := if m = 0 then .strict else .loose } s) := by
  simp only [not_or] at hg
  obtain ⟨hk, he, hm⟩ := hg
  unfold loadExemption
  rw [ofCode_of_listed hm]
  exact if_neg (not_or.mpr ⟨hk, he⟩)

/-! ## LEARN EXEMPTION (R71) -/

theorem exec_learnExemption (hc : s.consoleOrder h) (hr : s.oru.role = .scanner) :
    exec (.learnExemption h k e m mask) s =
      .next (answer h (learnExemption k e m mask s.orderCounted).1 [] (learnExemption k e m mask s.orderCounted).2) :=
  exec_answered rfl hc rfl (by rw [hr]; rfl) rfl

theorem learnExemption_of_bad (hb : 1 < k ∨ 5 < e ∨ 1 < m ∨ mask = 0) :
    learnExemption k e m mask s = (.badArgument, s) := by
  unfold learnExemption
  by_cases hm : 1 < m
  · rw [ofCode_of_large hm]
  · rw [ofCode_of_listed hm]
    have hbad : 1 < k ∨ 6 ≤ e ∨ mask = 0 := by tauto
    exact if_pos hbad

theorem learnExemption_of_good (hg : ¬ (1 < k ∨ 5 < e ∨ 1 < m ∨ mask = 0)) : learnExemption k e m mask s =
    if s.tsq.transport ≠ .idle then (.notIdle, s)
    else (.accepted, s.modDfm fun d => { d with
      learn := some ⟨k, e, mask, if m = 0 then .strict else .loose, .waiting⟩ }) := by
  simp only [not_or] at hg
  obtain ⟨hk, he, hm, hz⟩ := hg
  unfold learnExemption
  rw [ofCode_of_listed hm]
  exact if_neg (not_or.mpr ⟨hk, not_or.mpr ⟨he, hz⟩⟩)

/-- Settles O18: each order by its arguments, the transport and the pending learn. -/
theorem exemptionOrders : Obligations.ExemptionOrders := by
  unfold Obligations.ExemptionOrders
  constructor
  · intro h k e v m mask pattern s hc hr hv bad learns run
    have hrun : run = .next _ := exec_loadExemption hc hr hv
    have hlearns : learns ↔ s.orderCounted.dfm.learns k e = true := learns_iff.symm
    rw [hrun]
    refine ⟨fun hb => ?_, fun hg hm => ?_, fun hg hi hl => ?_, fun hg hi hl => ?_⟩
    · rw [loadExemption_of_bad hb]
    · rw [loadExemption_of_good hg, orderCounted_tsq, if_pos hm]
    · rw [loadExemption_of_good hg, orderCounted_tsq, if_neg (not_not.mpr hi), if_pos (hlearns.mp hl)]
    · rw [loadExemption_of_good hg, orderCounted_tsq, if_neg (not_not.mpr hi), if_neg (mt hlearns.mpr hl)]
      rfl
  · intro h k e m mask s hc hr bad run
    have hrun : run = .next _ := exec_learnExemption hc hr
    rw [hrun]
    refine ⟨fun hb => ?_, fun hg hm => ?_, fun hg hi => ?_⟩
    · rw [learnExemption_of_bad hb]
    · rw [learnExemption_of_good hg, orderCounted_tsq, if_pos hm]
    · rw [learnExemption_of_good hg, orderCounted_tsq, if_neg (not_not.mpr hi)]
      rfl

end Sys2Proof.Machine
end

section
/-! The settings load (O6): the settings and the exemption entries that an image gives byte by byte, and the state that
the load leaves. -/

namespace Sys2Proof.Machine

/-! ## The fields of an image (section 11.5) -/

variable {bytes : List Byte} {k : Nat} {v w : Byte}

theorem drop_of_getElem? (hv : bytes[k]? = some v) : bytes.drop k = v :: bytes.drop (k + 1) := by
  obtain ⟨hk, rfl⟩ := List.getElem?_eq_some_iff.mp hv
  exact List.drop_eq_getElem_cons hk

theorem imageField_byte (hv : bytes[k]? = some v) : imageField bytes k 1 = v.toNat := by
  simp [imageField, drop_of_getElem? hv, num]

theorem imageField_word (hv : bytes[k]? = some v) (hw : bytes[k + 1]? = some w) :
    imageField bytes k 2 = 256 * v.toNat + w.toNat := by
  simp [imageField, drop_of_getElem? hv, drop_of_getElem? hw, num, Nat.mul_comm]

theorem imageOk_iff : imageOk bytes = true ↔
    231 ≤ bytes.length ∧ (imageCheck (bytes.take 229)).toNat = imageField bytes 229 2 := by
  unfold imageOk
  rw [Bool.and_eq_true, decide_eq_true_eq, beq_iff_eq]
  rfl

/-! ## Settings (R191) -/

/-- A setting whose range is `lo` to `hi`. -/
theorem setting_within (lo hi v d : Nat) : setting (within lo hi v) v d = if lo ≤ v ∧ v ≤ hi then v else d := by
  unfold setting
  exact if_congr within_iff rfl rfl

theorem setting_atMost (hi v d : Nat) : setting (within 0 hi v) v d = if v ≤ hi then v else d := by
  rw [setting_within]
  exact if_congr (and_iff_right (Nat.zero_le v)) rfl rfl

theorem setting_presence (n : Nat) : setting (decide (n ≤ 2)) (250 * 2 ^ n) 500 =
    if n = 0 then 250 else if n = 1 then 500 else if n = 2 then 1000 else 500 := by
  match n with
  | 0 | 1 | 2 => rfl
  | n + 3 => simp [setting]

theorem setting_silence (n : Nat) : setting (decide (n ≤ 3)) (2 * 2 ^ n) 4 =
    if n = 0 then 2 else if n = 1 then 4 else if n = 2 then 8 else if n = 3 then 16 else 4 := by
  match n with
  | 0 | 1 | 2 | 3 => rfl
  | n + 4 => simp [setting]

/-- Every setting of the image lies in its range. -/
def imageInRange (bytes : List Byte) : Prop :=
  let f := imageField bytes
  f 0 1 ≤ 2 ∧ f 1 1 ≤ 3 ∧ (50 ≤ f 2 2 ∧ f 2 2 ≤ 1000) ∧ (10 ≤ f 4 2 ∧ f 4 2 ≤ 500) ∧ (5 ≤ f 6 1 ∧ f 6 1 ≤ 120) ∧
    (256 ≤ f 7 2 ∧ f 7 2 ≤ 4096) ∧ ((settingsOf bytes).pauseLevel + 256 ≤ f 9 2 ∧ f 9 2 ≤ 16384) ∧
    (1 ≤ f 11 1 ∧ f 11 1 ≤ 8) ∧ f 12 1 ≤ 50

theorem source_settingsOf (bytes : List Byte) :
    ((settingsOf bytes).source = .image ∨ (settingsOf bytes).source = .partialImage) ∧
      ((settingsOf bytes).source = .image ↔ imageInRange bytes) := by
  have hpause : (settingsOf bytes).pauseLevel =
      setting (within 256 4096 (imageField bytes 7 2)) (imageField bytes 7 2) 1024 := rfl
  unfold imageInRange
  rw [hpause]
  unfold settingsOf
  constructor
  · dsimp only
    split
    · exact Or.inl rfl
    · exact Or.inr rfl
  · simp [within_iff, and_assoc]

/-! ## Exemption entries (R75) -/

theorem imageExemption_eq (bytes : List Byte) (free k : Nat) : imageExemption bytes free k =
    { valid := imageField bytes (13 + 18 * k) 1 == 1 && imageField bytes (14 + 18 * k) 1 ≤ 1
      mode := imageMode (imageField bytes (14 + 18 * k) 1) (free + k)
      mask := BitVec.ofNat 64 (imageField bytes (15 + 18 * k) 8)
      pattern := BitVec.ofNat 64 (imageField bytes (23 + 18 * k) 8) } := by
  unfold imageExemption
  rw [show 14 + 18 * k = 13 + 18 * k + 1 by omega, show 15 + 18 * k = 13 + 18 * k + 2 by omega,
    show 23 + 18 * k = 13 + 18 * k + 10 by omega]

theorem imageMode_of_strict {byte free : Nat} (h : byte = 0) : imageMode byte free = .strict := h ▸ rfl

theorem imageMode_of_loose {byte free : Nat} (h : byte = 1) : imageMode byte free = .loose := h ▸ rfl

theorem imageMode_of_large {byte free : Nat} (h : 1 < byte) :
    imageMode byte free = if Config.freeBit free then .loose else .strict := by
  unfold imageMode
  rw [ofCode_of_large h]

/-! ## The load (R192, R197) -/

variable {s : State}

theorem loadImage_of_ok (free : Nat) (h : imageOk bytes = true) :
    loadImage (some bytes) free = (settingsOf bytes, (List.range 12).map (imageExemption bytes free)) :=
  if_pos h

/-- Without a memory or with an image whose check fails, every default (R191, R75). -/
theorem loadImage_of_none {image : Option (List Byte)} (free : Nat)
    (h : ∀ bytes, image = some bytes → imageOk bytes = false) : loadImage image free = ({}, List.replicate 12 {}) := by
  cases image with
  | none => rfl
  | some bytes => exact if_neg (by rw [h bytes rfl]; decide)

@[simp] theorem startState_role (image : Option (List Byte)) : (startState image s).oru.role = s.oru.role := rfl

/-- The Start state, the diverter port driven at a scanner. -/
theorem startState_eq {image : Option (List Byte)} {c : Settings} {xs : List Exemption}
    (hi : loadImage image s.freeNext = (c, xs)) :
    (s.oru.role = .scanner → (startState image s).drive (.diverter .main) = loadedState c xs s) ∧
      (s.oru.role = .gateway → startState image s = loadedState c xs s) := by
  unfold startState loadedState
  rw [hi]
  by_cases ha : s.oru.address = 0
  · constructor <;> intro hr <;> simp [State.drive, hr, ha]
  · constructor <;> intro hr <;> simp [State.drive, hr, ha, Nat.one_le_iff_ne_zero, Config.joinIntervals]

theorem loadSettings_of_loading {image : Option (List Byte)} {c : Settings} {xs : List Exemption}
    (hp : s.power = .loading) (hi : loadImage image s.freeNext = (c, xs)) : loadSettings image s =
      if c.source = .image then loadedState c xs s else raise .configDefault (loadedState c xs s) := by
  obtain ⟨hscanner, hgateway⟩ := startState_eq hi
  unfold loadSettings
  rw [if_pos hp]
  cases hr : s.oru.role with
  | scanner =>
    simp only [startState_role, hr]
    rw [hscanner hr]
    rfl
  | gateway =>
    simp only [startState_role, hr]
    rw [hgateway hr]
    rfl

/-- Settles O6: the load by the check of the image, each setting by its range, each exemption entry by its bytes. -/
theorem settingsLoadEndsStart : Obligations.SettingsLoadEndsStart := by
  unfold Obligations.SettingsLoadEndsStart
  refine ⟨fun image s hp hbad => ?_, fun bytes s hp hok => ?_, fun bytes => ?_⟩
  · exact congrArg _ ((loadSettings_of_loading hp (loadImage_of_none _ hbad)).trans (if_neg (by decide)))
  · exact congrArg _ (loadSettings_of_loading hp (loadImage_of_ok _ hok))
  · intro c f
    obtain ⟨hsource, himage⟩ := source_settingsOf bytes
    refine ⟨setting_presence _, setting_silence _, setting_within _ _ _ _, setting_within _ _ _ _,
      setting_within _ _ _ _, setting_within _ _ _ _, setting_within _ _ _ _, setting_within _ _ _ _,
      setting_atMost _ _ _, hsource, himage, fun k v => imageField_byte, fun k v w => imageField_word, imageOk_iff,
      fun k free hk => ?_⟩
    intro x
    have hx : x = _ := imageExemption_eq bytes free k
    rw [hx]
    exact ⟨by simp [f], imageMode_of_strict, imageMode_of_loose, imageMode_of_large, rfl, rfl, rfl⟩

end Sys2Proof.Machine
end

section
/-! Bytes stored in a block list read back (O32). -/

namespace Sys2Proof.Machine

/-- Offsets inside a list of distinct blocks have distinct addresses. -/
theorem blockAddr_inj {blocks : List Nat} {i j : Nat} (hn : blocks.Nodup) (hi : i < 16384 * blocks.length)
    (hj : j < 16384 * blocks.length) (h : blockAddr blocks i = blockAddr blocks j) : i = j := by
  have hi' : i / 16384 < blocks.length := Nat.div_lt_of_lt_mul hi
  have hj' : j / 16384 < blocks.length := Nat.div_lt_of_lt_mul hj
  simp only [blockAddr, Config.blockBytes, List.getD_eq_getElem _ _ hi', List.getD_eq_getElem _ _ hj'] at h
  have hblock : blocks[i / 16384] = blocks[j / 16384] := by omega
  have hplace : i / 16384 = j / 16384 := (hn.getElem_inj_iff).mp hblock
  omega

theorem readRun_succ (m : Memory) (blocks : List Nat) (off n : Nat) :
    Memory.readRun m blocks off (n + 1) =
      m.read (blockAddr blocks off) :: Memory.readRun m blocks (off + 1) n := by
  simp [Memory.readRun, List.range_succ_eq_map, Function.comp_def, Nat.add_assoc, Nat.add_comm 1]

/-- A run of writes reads back: each byte at its own address, which no later byte of the run takes. -/
theorem readRun_writeRun (vs : List Byte) : ∀ (m : Memory) (blocks : List Nat) (off : Nat), blocks.Nodup → m.wf →
    off + vs.length ≤ 16384 * blocks.length →
    Memory.readRun (Memory.writeRun m blocks off vs) blocks off vs.length = vs := by
  induction vs with
  | nil => exact fun _ _ _ _ _ _ => rfl
  | cons v vs ih =>
    intro m blocks off hn hm hl
    rw [List.length_cons] at hl ⊢
    have hhead : (Memory.writeRun (m.write (blockAddr blocks off) v) blocks (off + 1) vs).read
        (blockAddr blocks off) = v := by
      rw [read_writeRun_other, read_write_same m hm]
      intro k hk hc
      have : off = off + 1 + k := blockAddr_inj hn (by omega) (by omega) hc
      omega
    rw [readRun_succ, Memory.writeRun, hhead, ih _ _ _ hn (write_wf m hm _ v) (by omega)]

/-- Settles O32: the bytes read back, and the frame of a run of writes. -/
theorem bytesStoredReadBack : Obligations.BytesStoredReadBack := by
  unfold Obligations.BytesStoredReadBack
  intro m blocks off vs hn hm hl
  exact ⟨readRun_writeRun vs m blocks off hn hm hl, fun a => read_writeRun_other vs m blocks off a⟩

end Sys2Proof.Machine
end

section
/-! The offer test of a channel (O58): which head of a queue may be offered, and the page that the channel takes. -/

namespace Sys2Proof.Machine

variable {s : State} {c : ChanId} {r : PageRec} {g : Nat} {queue : List Nat}

/-! ## The head of a queue (R114) -/

/-- The gateway of a page: the fill job's for a fill page, the batch record's for an own page. -/
def State.gatewayOf (s : State) (r : PageRec) (g : Nat) : Prop :=
  (r.fillFlag = true ∧ ∃ j, s.bct.fill = some j ∧ j.gateway = g) ∨
    (r.fillFlag = false ∧ ∃ b x, r.batch = some b ∧ s.findBatch b = some x ∧ x.gateway = g)

/-- The head of the queue is the page `r`, whose gateway `g` is PRESENT. -/
def State.mayOffer (s : State) (queue : List Nat) (r : PageRec) (g : Nat) : Prop :=
  ∃ id rest, queue = id :: rest ∧ s.findRec id = some r ∧ s.gatewayOf r g ∧ (s.peer g).state = .present

theorem pageGateway_iff : s.pageGateway r = some g ↔ s.gatewayOf r g := by
  unfold State.pageGateway State.gatewayOf
  cases hf : r.fillFlag with
  | true => simp
  | false => simp [Option.bind_eq_some_iff]

theorem offerable_cons (id : Nat) (rest : List Nat) : s.offerable (id :: rest) =
    (s.findRec id).bind fun x => (s.pageGateway x).bind fun k => if s.isPresent k then some (x, k) else none := by
  simp only [State.offerable, List.head?_cons, Option.bind_some]
  cases s.findRec id with
  | none => rfl
  | some x =>
    rw [Option.bind_some]
    dsimp only
    cases s.pageGateway x <;> rfl

theorem isPresent_iff : s.isPresent g = true ↔ (s.peer g).state = .present := by simp [State.isPresent]

theorem offerable_iff : s.offerable queue = some (r, g) ↔ s.mayOffer queue r g := by
  unfold State.mayOffer
  cases queue with
  | nil => simp [State.offerable]
  | cons id rest =>
    simp only [offerable_cons, Option.bind_eq_some_iff, List.cons.injEq, ← pageGateway_iff, ← isPresent_iff]
    constructor
    · rintro ⟨x, hx, k, hk, h⟩
      obtain ⟨hp, hxk⟩ := Option.ite_none_right_eq_some.mp h
      cases hxk
      exact ⟨id, rest, ⟨rfl, rfl⟩, hx, hk, hp⟩
    · rintro ⟨_, _, ⟨rfl, rfl⟩, hr, hg, hp⟩
      exact ⟨r, hr, g, hg, if_pos hp⟩

theorem offerable_eq_none : s.offerable queue = none ↔ ∀ r g, ¬ s.mayOffer queue r g := by
  simp only [← offerable_iff, Option.eq_none_iff_forall_ne_some, Prod.forall, ne_eq]

/-! ## The page that a channel takes (R114) -/

/-- The first queue whose head may be offered gives the page. -/
theorem ownPage_of_split {before after : List BatchQueue} {q : BatchQueue} (hs : s.pgs.queues = before ++ q :: after)
    (hb : ∀ x ∈ before, s.offerable x.pages = none) (hq : s.offerable q.pages = some (r, g)) :
    s.ownPage = some (r, g) := by
  unfold State.ownPage
  rw [hs, List.findSome?_append, List.findSome?_eq_none_iff.mpr hb, Option.none_or, List.findSome?_cons, hq]

theorem pageFor_of_fill (h : s.offerable s.pgs.fillQueue = some (r, g)) : s.pageFor .b = some (r, g) := by
  simp only [State.pageFor, h, Option.orElse_some]

theorem pageFor_of_own (h : c = .a ∨ s.offerable s.pgs.fillQueue = none) : s.pageFor c = s.ownPage := by
  cases c with
  | a => rfl
  | b =>
    have hf : s.offerable s.pgs.fillQueue = none := h.resolve_left nofun
    simp only [State.pageFor, hf, Option.orElse_none]

/-! ## The offer (R115) -/

theorem offerOne_of_busy (h : (s.chan c).staged.phase ≠ .empty ∨ (s.chan c).retryDue ≠ none) : offerOne c s = s :=
  if_neg fun hc => h.elim (absurd hc.1) (absurd hc.2)

theorem offerOne_of_free (he : (s.chan c).staged.phase = .empty) (hr : (s.chan c).retryDue = none) :
    offerOne c s = match s.pageFor c with
      | some (r, g) => offerPage c r g s
      | none => s :=
  if_pos ⟨he, hr⟩

/-- The state in which a channel has taken a page and asked its gateway. -/
def State.pageOffered (s : State) (c : ChanId) (r : PageRec) (g : Nat) : State :=
  ask g (.pageOffer ⟨r.batch.getD 0, r.position.getD 0, r.side⟩ (r.pagesOfSheet.getD 0) r.size r.mark)
    (State.updChan { s with
      pgs := { s.pgs with
        recs := updFirst (·.id == r.id) (fun x => { x with state := .sending }) s.pgs.recs
        queues := s.pgs.queues.map fun q => { q with pages := q.pages.filter (· != r.id) }
        fillQueue := s.pgs.fillQueue.filter (· != r.id) }
      txe := { s.txe with offers := min 65535 (s.txe.offers + 1) } } c
      fun ch => { ch with staged := { ch.staged with
        phase := .offered, page := some r.id, gateway := some g, askTag := some s.fli.askTag
        askDue := s.now + s.oru.settings.answerMs } })

theorem offerPage_eq : offerPage c r g s = s.pageOffered c r g := by
  cases c <;> rfl

theorem offerOne_of_page (he : (s.chan c).staged.phase = .empty) (hr : (s.chan c).retryDue = none)
    (h : s.pageFor c = some (r, g)) : offerOne c s = s.pageOffered c r g := by
  rw [offerOne_of_free he hr, h]
  exact offerPage_eq

/-- Settles O58, by the channel's staged descriptor and the first head that may be offered. -/
theorem offersFollowTheQueues : Obligations.OffersFollowTheQueues := by
  unfold Obligations.OffersFollowTheQueues
  intro c s
  refine ⟨rfl, offerOne_of_busy, fun he hr => ⟨fun r g hc hf => ?_, fun before q after r g hc hs hb hq => ?_,
    fun hc hb => ?_⟩⟩
  · subst hc
    exact offerOne_of_page he hr (pageFor_of_fill (offerable_iff.mpr hf))
  · have hown : s.pageFor c = s.ownPage := pageFor_of_own (hc.imp_right offerable_eq_none.mpr)
    exact offerOne_of_page he hr (hown.trans
      (ownPage_of_split hs (fun x hx => offerable_eq_none.mpr (hb x hx)) (offerable_iff.mpr hq)))
  · have hown : s.pageFor c = s.ownPage := pageFor_of_own (hc.imp_right offerable_eq_none.mpr)
    have hnone : s.ownPage = none := List.findSome?_eq_none_iff.mpr fun x hx => offerable_eq_none.mpr (hb x hx)
    rw [offerOne_of_free he hr, hown, hnone]

end Sys2Proof.Machine
end

section
/-! Pages that enter READY in order, and pages discarded by the state of their record (O60). -/

namespace Sys2Proof.Machine

variable {s : State} {id : Nat} {r : PageRec} {c : ChanId}

/-! ## The order of a queue (R87, R88) -/

/-- A key of two numbers does not come after another. -/
def keyLe (a b : Nat × Nat) : Prop := a.1 < b.1 ∨ (a.1 = b.1 ∧ a.2 ≤ b.2)

theorem keyLe_trans {a b k : Nat × Nat} (h : keyLe a b) (hk : keyLe b k) : keyLe a k := by
  unfold keyLe at *
  omega

theorem keyLe_of_before {a b : Nat × Nat} (h : keyBefore a b = true) : keyLe a b := by
  simp only [keyBefore, Bool.or_eq_true, Bool.and_eq_true, decide_eq_true_eq, beq_iff_eq] at h
  unfold keyLe
  omega

theorem keyLe_of_not_before {a b : Nat × Nat} (h : ¬ keyBefore a b = true) : keyLe b a := by
  simp only [keyBefore, Bool.or_eq_true, Bool.and_eq_true, decide_eq_true_eq, beq_iff_eq] at h
  unfold keyLe
  omega

theorem insertBy_perm (key : Nat → Nat × Nat) (id : Nat) (queue : List Nat) :
    (insertBy key id queue).Perm (id :: queue) := by
  induction queue with
  | nil => exact List.Perm.refl _
  | cons x xs ih =>
    unfold insertBy
    split
    · exact List.Perm.refl _
    · exact (ih.cons x).trans (List.Perm.swap id x xs)

/-- A page stands after every page whose key is not greater, and before the others. -/
theorem insertBy_sorted (key : Nat → Nat × Nat) (id : Nat) (queue : List Nat)
    (h : queue.Pairwise fun a b => keyLe (key a) (key b)) :
    (insertBy key id queue).Pairwise fun a b => keyLe (key a) (key b) := by
  induction queue with
  | nil => exact List.pairwise_singleton _ _
  | cons x xs ih =>
    obtain ⟨hx, hxs⟩ := List.pairwise_cons.mp h
    unfold insertBy
    split
    · next hb =>
      refine List.pairwise_cons.mpr ⟨fun y hy => ?_, h⟩
      rcases List.mem_cons.mp hy with rfl | hy
      · exact keyLe_of_before hb
      · exact keyLe_trans (keyLe_of_before hb) (hx y hy)
    · next hb =>
      refine List.pairwise_cons.mpr ⟨fun y hy => ?_, ih hxs⟩
      rcases List.mem_cons.mp ((insertBy_perm key id xs).mem_iff.mp hy) with rfl | hy
      · exact keyLe_of_not_before hb
      · exact hx y hy

theorem pageKey_of_some {p : Nat} (h : s.findRec id = some r) (hp : r.position = some p) :
    s.pageKey id = (p, sideOrder r.side) := by
  simp only [State.pageKey, h, hp, Option.getD_some]

theorem fillKey_of_split {j : FillJob} {p : Nat} {before after : List Grant} {g : Grant} (h : s.findRec id = some r)
    (hj : s.bct.fill = some j) (hs : j.SplitAt p before g after) (hp : r.position = some p) :
    s.fillKey id = (before.length, sideOrder r.side) := by
  have hidx : (before ++ g :: after).findIdx (fun x => some x.position == some p) = before.length := by
    have hno : before.findIdx (fun x => some x.position == some p) = before.length :=
      List.findIdx_eq_length.mpr fun x hx => by simpa using hs.first x hx
    rw [List.findIdx_append, if_neg (by omega)]
    simp [List.findIdx_cons, hs.here]
  simp only [State.fillKey, h, hj, Option.map_some, Option.getD_some, hs.list, hp, hidx]

/-! ## Entering READY (R86, R89) -/

theorem toReady_of_some (h : s.findRec id = some r) :
    toReady id s = if r.discardPending then freeRec id s else enterReady id s := by
  simp only [toReady, h]

theorem enterReady_of_fill (h : s.findRec id = some r) (hf : r.fillFlag = true) :
    enterReady id s =
      let t := s.updRec id fun r => { r with state := .ready }
      t.modPgs fun g => { g with fillQueue := insertBy t.fillKey id g.fillQueue } := by
  simp only [enterReady, h, hf, if_true]

theorem enterReady_of_own (h : s.findRec id = some r) (hf : r.fillFlag = false) :
    enterReady id s =
      let t := s.updRec id fun r => { r with state := .ready }
      let join (q : BatchQueue) : BatchQueue := { q with pages := insertBy t.pageKey id q.pages }
      t.modPgs fun g => { g with queues := updFirst (fun q => some q.batch == r.batch) join g.queues } := by
  simp only [enterReady, h, hf, Bool.false_eq_true, if_false]

/-! ## The track entry of a discarded page (R90) -/

theorem detachRec_of_unlisted (h : ∀ e ∈ s.tsq.track, id ∉ e.pages) : detachRec id s = s := by
  have hf : s.tsq.track.find? (·.pages.contains id) = none :=
    List.find?_eq_none.mpr fun e he => by simpa using h e he
  simp only [detachRec, hf]

theorem detachRec_of_listed {older younger : List TrackEntry} {e : TrackEntry} (h : s.TrackAt older e younger)
    (hl : ∀ x ∈ older, id ∉ x.pages) (he : id ∈ e.pages) :
    detachRec id s = (s.withTrack (older ++ { e with pages := e.pages.filter (· != id) } :: younger)).updProgress e.tag
      fun p => { p with mode := .drop } := by
  have hf : s.tsq.track.find? (·.pages.contains id) = some e := by
    rw [h.track]
    exact find?_append_cons (fun x hx => by simpa using hl x hx) (by simpa using he)
  simp only [detachRec, hf]
  rw [updEntry_of_trackAt h fun e => { e with pages := e.pages.filter (· != id) }]

/-! ## A discard by the state of the record (R90, R131) -/

theorem discardRec_of_kept (h : s.findRec id = some r)
    (hs : r.state = .filling ∨ r.state = .heldForSheet ∨ r.state = .ready ∨ r.state = .failed) :
    discardRec id s = freeRec id (detachRec id s) := by
  rcases hs with hs | hs | hs | hs <;> simp only [discardRec, h, hs]

theorem discardRec_of_sent (h : s.findRec id = some r) (hs : r.state = .sent) :
    discardRec id s = freeRec id (dropOutstanding id (detachRec id s)) := by
  simp only [discardRec, h, hs]

theorem discardRec_of_pending (h : s.findRec id = some r) (hs : r.state = .sending) (hd : r.discardPending = true) :
    discardRec id s = detachRec id s := by
  simp only [discardRec, h, hs, hd, if_true]

theorem discardRec_of_sending (h : s.findRec id = some r) (hs : r.state = .sending) (hd : r.discardPending = false) :
    discardRec id s = txeDiscard id ((detachRec id s).updRec id fun r => { r with discardPending := true }) := by
  simp only [discardRec, h, hs, hd, Bool.false_eq_true, if_false]

theorem stagedChan_of_page (h : (s.chan c).staged.page = some id)
    (ha : c = .b → s.txe.chanA.staged.page ≠ some id) : s.stagedChan id = some c := by
  cases c with
  | a => exact if_pos h
  | b => exact (if_neg (ha rfl)).trans (if_pos h)

theorem stagedChan_of_none (ha : s.txe.chanA.staged.page ≠ some id) (hb : s.txe.chanB.staged.page ≠ some id) :
    s.stagedChan id = none := (if_neg ha).trans (if_neg hb)

theorem activeChan_of_page (h : (s.chan c).active.page = some id)
    (ha : c = .b → s.txe.chanA.active.page ≠ some id) : s.activeChan id = some c := by
  cases c with
  | a => exact if_pos h
  | b => exact (if_neg (ha rfl)).trans (if_pos h)

theorem txeDiscard_of_staged (h : s.stagedChan id = some c) : txeDiscard id s = freeRec id (emptyStaged c s) := by
  simp only [txeDiscard, h]

/-- A page in an active descriptor is given up at once, or after its burst in transmission. -/
theorem txeDiscard_of_active (hs : s.stagedChan id = none) (h : s.activeChan id = some c) :
    txeDiscard id s =
      if s.bursting c then s.updChan c fun ch => { ch with active := { ch.active with giveUp := .discard } }
      else freeRec id (emptyActive c s) := by
  simp only [txeDiscard, hs, h]

/-- The state with discard pending set in a page that has left its track entry. -/
def State.pendingDiscard (s : State) (id : Nat) : State :=
  (detachRec id s).updRec id fun r => { r with discardPending := true }

theorem pendingDiscard_txe (s : State) (id : Nat) : (s.pendingDiscard id).txe = s.txe := (detachRec_channels id s).1

theorem pendingDiscard_bursting (s : State) (id : Nat) (c : ChanId) :
    (s.pendingDiscard id).bursting c = s.bursting c := by
  have hf : (s.pendingDiscard id).fli = s.fli := (detachRec_channels id s).2
  unfold State.bursting
  rw [hf]

theorem pendingDiscard_stagedChan (s : State) (id : Nat) : (s.pendingDiscard id).stagedChan id = s.stagedChan id := by
  unfold State.stagedChan
  rw [pendingDiscard_txe]

theorem pendingDiscard_activeChan (s : State) (id : Nat) : (s.pendingDiscard id).activeChan id = s.activeChan id := by
  unfold State.activeChan
  rw [pendingDiscard_txe]

/-- Settles O60: the order that an insertion keeps, the keys of the two orders, and a discard by the state of the record
and the descriptor that holds it. -/
theorem readyAndDiscardedPages : Obligations.ReadyAndDiscardedPages := by
  unfold Obligations.ReadyAndDiscardedPages
  refine ⟨fun key id queue => ⟨insertBy_perm key id queue, insertBy_sorted key id queue⟩,
    fun id r s h => ⟨fun p hp => pageKey_of_some h hp, fun j before g after hj hl hp hb =>
      fillKey_of_split h hj ⟨hl, rfl, hb⟩ hp⟩,
    fun id r s h => ⟨fun hd => ?_, fun hd => ?_, fun hf => enterReady_of_fill h hf,
      fun hf => enterReady_of_own h hf, fun ids hn => if_neg hn, fun u hu => ?_⟩⟩
  · rw [toReady_of_some h, if_pos hd]
  · rw [toReady_of_some h, if_neg (by simp [hd])]
  · have hdet : detachRec id s = u := by
      rcases hu with ⟨hno, rfl⟩ | ⟨older, e, younger, ht, he, ho, rfl⟩
      · exact detachRec_of_unlisted hno
      · exact detachRec_of_listed ⟨ht, fun x hx => (ho x hx).2⟩ (fun x hx => (ho x hx).1) he
    subst hdet
    refine ⟨discardRec_of_kept h, discardRec_of_sent h, discardRec_of_pending h, fun c hs hd hab => ⟨fun hst => ?_,
      fun ha hb hac hact => ⟨fun hbu => ?_, fun hbu => ?_⟩⟩⟩
    · have hchan : (s.pendingDiscard id).stagedChan id = some c :=
        (pendingDiscard_stagedChan s id).trans (stagedChan_of_page hst hab)
      exact (discardRec_of_sending h hs hd).trans (txeDiscard_of_staged hchan)
    all_goals
      have hchan : txeDiscard id (s.pendingDiscard id) = _ := txeDiscard_of_active
        ((pendingDiscard_stagedChan s id).trans (stagedChan_of_none ha hb))
        ((pendingDiscard_activeChan s id).trans (activeChan_of_page hact hac))
      rw [pendingDiscard_bursting, hbu] at hchan
      exact (discardRec_of_sending h hs hd).trans hchan

end Sys2Proof.Machine
end

section
/-! The verdict point of a sheet (O24): what the verdict writes and counts, and how the policy acts on a suspect
verdict. -/

namespace Sys2Proof.Machine

variable {s : State} {e : TrackEntry} {older younger : List TrackEntry} {v : Verdict} {measure : Option Nat}

/-! ## What the verdict point writes (R43, R65) -/

/-- The entry of a sheet with its length, its verdict and the exemption index. -/
def TrackEntry.judged (e : TrackEntry) (s : State) (measure : Option Nat) : TrackEntry :=
  let measured := { e with length := measure }
  { measured with verdict := some (judge s measured).1, exemption := (judge s measured).2 }

/-- The state in which the sheet's entry is judged and the match of its exemption entry counted. -/
def State.judgedAt (s : State) (older : List TrackEntry) (e : TrackEntry) (younger : List TrackEntry)
    (measure : Option Nat) : State :=
  { s with
    tsq := { s.tsq with track := older ++ e.judged s measure :: younger }
    dfm := { s.dfm with exemptions := match (judge s { e with length := measure }).2 with
      | none => s.dfm.exemptions
      | some k => s.dfm.exemptions.modify (6 * e.snap.bank + k) fun x =>
          { x with matched := min 65535 (x.matched + 1) } } }

/-- The state in which the sheet's length is written. -/
def State.measuredAt (s : State) (older : List TrackEntry) (e : TrackEntry) (younger : List TrackEntry)
    (measure : Option Nat) : State := s.withTrack (older ++ { e with length := measure } :: younger)

theorem measuredAt_trackAt (h : s.TrackAt older e younger) :
    (s.measuredAt older e younger measure).TrackAt older { e with length := measure } younger := ⟨rfl, h.first⟩

theorem countMatch_eq (bank : Nat) (index : Option Nat) (s : State) :
    countMatch bank index s = { s with dfm := { s.dfm with exemptions := match index with
      | none => s.dfm.exemptions
      | some k => s.dfm.exemptions.modify (6 * bank + k) fun x =>
          { x with matched := min 65535 (x.matched + 1) } } } := by
  cases index <;> rfl

/-- The verdict point by the binding of its sheet. -/
theorem verdictPoint_of_trackAt (h : s.TrackAt older e younger) (measure : Option Nat) :
    verdictPoint e.tag measure s = match e.binding with
      | .learn => completeLearn e.profile (s.judgedAt older e younger measure)
      | _ => actOnVerdict (e.judged s measure) (judge s { e with length := measure }).1
          (s.judgedAt older e younger measure) := by
  have hat := measuredAt_trackAt (measure := measure) h
  have hmeasured : s.updEntry e.tag (fun e => { e with length := measure }) = s.measuredAt older e younger measure :=
    updEntry_of_trackAt h _
  have hfind : (s.measuredAt older e younger measure).findEntry e.tag = some { e with length := measure } :=
    findEntry_of_trackAt hat
  have hjudged : countMatch e.snap.bank (judge s { e with length := measure }).2
      ((s.measuredAt older e younger measure).updEntry e.tag fun _ => e.judged s measure) =
      s.judgedAt older e younger measure :=
    (congrArg _ (updEntry_of_trackAt hat _)).trans (countMatch_eq _ _ _)
  rw [← hjudged]
  unfold verdictPoint
  rw [hmeasured]
  dsimp only
  rw [hfind]
  rfl

/-! ## How the policy acts (R69) -/

/-- The state in which the pages of a sheet under MARK bear the mark. -/
def State.marksFor (s : State) (e : TrackEntry) : State :=
  if e.snap.policy = .mark ∧ e.overrun = false then markPages e.pages s else s

/-- The policy stops the transport on a suspect verdict of the sheet. -/
def TrackEntry.stops (e : TrackEntry) : Prop := e.snap.policy = .stop ∧ e.overrun = false

theorem actOnVerdict_of_clear (h : e.suspect = false) : actOnVerdict e v s = routeTest e.tag (countVerdict e v s) := by
  simp [actOnVerdict, TrackEntry.marked, h]

theorem actOnVerdict_of_kept (h : e.suspect = true) (hn : ¬ e.stops) :
    actOnVerdict e v s = if e.patched then hold .patchSuspect ((countVerdict e v s).marksFor e)
      else routeTest e.tag ((countVerdict e v s).marksFor e) := by
  have hs : (e.snap.policy == .stop && !e.overrun) = false := by simpa [TrackEntry.stops] using hn
  cases hp : e.patched <;> simp [actOnVerdict, TrackEntry.marked, State.marksFor, h, hs, hp]

theorem actOnVerdict_of_stops (h : e.suspect = true) (hs : e.stops) :
    actOnVerdict e v s = if e.patched then hold .patchSuspect (hold .doubleFeedStop (countVerdict e v s))
      else hold .doubleFeedStop (countVerdict e v s) := by
  obtain ⟨hp, ho⟩ := hs
  simp [actOnVerdict, TrackEntry.marked, h, hp, ho]

theorem marksFor_of_mark (hp : e.snap.policy = .mark) (ho : e.overrun = false) : s.marksFor e = markPages e.pages s :=
  if_pos ⟨hp, ho⟩

theorem marksFor_of_divert (h : e.snap.policy = .divert ∨ e.overrun = true) : s.marksFor e = s :=
  if_neg fun hc => h.elim (by simp [hc.1]) (by simp [hc.2])

theorem not_stops_of_divert (h : e.snap.policy = .divert ∨ e.overrun = true) : ¬ e.stops :=
  fun hc => h.elim (by simp [hc.1]) (by simp [hc.2])

theorem not_stops_of_mark (h : e.snap.policy = .mark) : ¬ e.stops := fun hc => by simp [hc.1] at h

theorem countVerdict_of_batch {b : Nat} (hb : e.binding = .batch b) (ha : e.abandoned = false) :
    countVerdict e v s = s.updBatch b fun r => { r with verdicts := r.verdicts.count v } := by
  simp only [countVerdict, hb, ha, Bool.false_eq_true, if_false]

theorem countVerdict_of_other (h : (∃ k, e.binding = .fill k) ∨ ∃ b, e.binding = .batch b ∧ e.abandoned = true) :
    countVerdict e v s = s := by
  rcases h with ⟨k, hk⟩ | ⟨b, hb, ha⟩
  · simp only [countVerdict, hk]
  · simp only [countVerdict, hb, ha, if_true]

theorem markPages_eq (ids : List Nat) (s : State) (hn : (s.pgs.recs.map (·.id)).Nodup) :
    markPages ids s = { s with pgs := { s.pgs with
      recs := s.pgs.recs.map fun r => if r.id ∈ ids then { r with mark := true } else r } } :=
  foldl_updRec (fun r => { r with mark := true }) (fun _ => rfl) (fun _ => rfl) ids s hn

/-! ## The learn (R73) -/

theorem completeLearn_of_picked {profile : List Bool} {l : Learn} (hl : s.dfm.learn = some l) (hp : l.phase = .picked) :
    completeLearn profile s = raise .learnDone { s with
      dfm := { s.dfm with
        learn := none
        exemptions := s.dfm.exemptions.set (6 * l.bank + l.entry)
          { valid := true, mask := l.mask, pattern := zoneSet profile, mode := l.mode, matched := 0 } } } := by
  simp only [completeLearn, hl, hp, if_true]
  rfl

theorem completeLearn_of_waiting {profile : List Bool} (h : ∀ l, s.dfm.learn = some l → l.phase = .waiting) :
    completeLearn profile s = s := by
  cases hl : s.dfm.learn with
  | none => simp only [completeLearn, hl]
  | some l =>
    have hp : l.phase ≠ .picked := by simp [h l hl]
    simp only [completeLearn, hl, hp, if_false]

/-- The verdict point of a sheet of a batch or a fill, in the state that the count of the verdict leaves. -/
theorem verdictPoint_acts (h : s.TrackAt older e younger) (hb : e.binding ≠ .learn) :
    let v := (judge s { e with length := measure }).1
    let t := countVerdict (e.judged s measure) v (s.judgedAt older e younger measure)
    (v.suspect = false → verdictPoint e.tag measure s = routeTest e.tag t) ∧
    (v.suspect = true → ¬ e.stops → verdictPoint e.tag measure s =
      if e.patched then hold .patchSuspect (t.marksFor e) else routeTest e.tag (t.marksFor e)) ∧
    (v.suspect = true → e.stops → verdictPoint e.tag measure s =
      if e.patched then hold .patchSuspect (hold .doubleFeedStop t) else hold .doubleFeedStop t) := by
  have hrun := verdictPoint_of_trackAt h measure
  have hact : verdictPoint e.tag measure s = actOnVerdict (e.judged s measure)
      (judge s { e with length := measure }).1 (s.judgedAt older e younger measure) := by
    cases hk : e.binding with
    | learn => exact absurd hk hb
    | _ => rw [hrun, hk]
  exact ⟨fun hv => hact.trans (actOnVerdict_of_clear hv), fun hv hn => hact.trans (actOnVerdict_of_kept hv hn),
    fun hv hs => hact.trans (actOnVerdict_of_stops hv hs)⟩

/-- Settles O24, by the binding of the sheet, the verdict, the patch code and the policy. -/
theorem verdictPointActsByPolicy : Obligations.VerdictPointActsByPolicy := by
  unfold Obligations.VerdictPointActsByPolicy
  refine ⟨fun tag b measure older younger e s ht htag hf hb ha => ?_,
    fun tag measure older younger e s ht htag hf hk => ?_,
    fun tag measure older younger e s ht htag hf hb => ?_, markPages_eq,
    fun profile s => ⟨fun l => completeLearn_of_picked, completeLearn_of_waiting⟩⟩
  · subst htag
    obtain ⟨clear, kept, stopped⟩ := verdictPoint_acts (measure := measure) ⟨ht, hf⟩ (by simp [hb])
    rw [countVerdict_of_batch (e := e.judged s measure) hb ha] at clear kept stopped
    refine ⟨clear, fun hv hp => ⟨fun hd => ?_, fun hm ho => ?_, fun hs ho => ?_⟩,
      fun hv hp => ⟨fun hd => ?_, fun hm ho => ?_, fun hs ho => ?_⟩⟩
    · have := kept hv (not_stops_of_divert hd)
      rwa [hp, marksFor_of_divert hd] at this
    · have := kept hv (not_stops_of_mark hm)
      rwa [hp, marksFor_of_mark hm ho] at this
    · have := stopped hv ⟨hs, ho⟩
      rwa [hp] at this
    · have := kept hv (not_stops_of_divert hd)
      rwa [hp, marksFor_of_divert hd] at this
    · have := kept hv (not_stops_of_mark hm)
      rwa [hp, marksFor_of_mark hm ho] at this
    · have := stopped hv ⟨hs, ho⟩
      rwa [hp] at this
  · subst htag
    have hne : e.binding ≠ .learn := by
      rcases hk with ⟨k, hk⟩ | ⟨b, hb, _⟩
      · simp [hk]
      · simp [hb]
    obtain ⟨clear, kept, stopped⟩ := verdictPoint_acts (measure := measure) ⟨ht, hf⟩ hne
    rw [countVerdict_of_other (e := e.judged s measure) hk] at clear kept stopped
    refine ⟨clear, fun hv hp => ⟨fun hn => ?_, fun hs => ?_⟩, fun hv hp => ⟨fun hn => ?_, fun hs => ?_⟩⟩
    · have := kept hv hn
      rwa [hp] at this
    · have := stopped hv hs
      rwa [hp] at this
    · have := kept hv hn
      rwa [hp] at this
    · have := stopped hv hs
      rwa [hp] at this
  · subst htag
    have hrun := verdictPoint_of_trackAt ⟨ht, hf⟩ measure
    rwa [hb] at hrun

end Sys2Proof.Machine
end

section
/-! What discards and the end of a fill leave of a batch in a terminal state (R1). -/

namespace Sys2Proof.Machine

variable {s t u : State} {b k : Nat} {r x : BatchRec}

/-! ## A batch record in a terminal state -/

/-- The record of the batch is `r` but for its failed page count. -/
def State.standsAs (s : State) (b : Nat) (r : BatchRec) : Prop := ∃ n, s.findBatch b = some { r with failedPages := n }

theorem standsAs_of_findBatch (h : s.findBatch b = some r) : s.standsAs b r := ⟨r.failedPages, h⟩

theorem standsAs_of_batches (h : u.standsAs b r) (he : t.bct.batches = u.bct.batches) : t.standsAs b r := by
  unfold State.standsAs State.findBatch at *
  rwa [he]

theorem standsAs_of_bct (h : u.standsAs b r) (he : t.bct = u.bct) : t.standsAs b r :=
  standsAs_of_batches h (congrArg Bct.batches he)

/-- An update of one key changes no element found under another. -/
theorem find?_updFirst_other {α : Type} {p q : α → Bool} {f : α → α}
    (h : ∀ x, p x = true → q x = false ∧ q (f x) = false) (l : List α) : (updFirst p f l).find? q = l.find? q := by
  induction l with
  | nil => rfl
  | cons x l ih =>
    by_cases hx : p x = true
    · simp [updFirst, hx, h x hx]
    · simp [updFirst, hx, List.find?_cons, ih]

theorem standsAs_updBatch_other {f : BatchRec → BatchRec} (hf : ∀ x, (f x).number = x.number) (hk : k ≠ b)
    (h : u.standsAs b r) : (u.updBatch k f).standsAs b r := by
  have hsame : (u.updBatch k f).findBatch b = u.findBatch b := by
    refine find?_updFirst_other (fun x hx => ?_) _
    have hx : x.number = k := by simpa using hx
    simp [hf, hx, hk]
  unfold State.standsAs
  rwa [hsame]

/-- A batch found in another state is another batch. -/
theorem ne_of_live (hr : r.state.terminal = true) (h : u.standsAs b r) (hk : u.findBatch k = some x)
    (hx : x.state.terminal = false) : k ≠ b := by
  rintro rfl
  obtain ⟨n, hn⟩ := h
  rw [hk] at hn
  cases hn
  exact Bool.false_ne_true (hx.symm.trans hr)

/-! ## Discards of pages (R90, R22, R170) -/

theorem standsAs_closeTest (hr : r.state.terminal = true) (k : Nat) (h : u.standsAs b r) :
    (closeTest k u).standsAs b r := by
  unfold closeTest
  split
  · next x hx =>
    split
    · next hc =>
      have hk : k ≠ b := ne_of_live hr h hx (by rw [hc.1]; rfl)
      rw [← number_of_findBatch hx] at hk
      unfold sendClose
      refine standsAs_of_bct ?_ (ask_same _ _ _).1
      exact standsAs_updBatch_other (fun _ => rfl) hk h
    · exact h
  · exact h

theorem standsAs_endedTest (hr : r.state.terminal = true) (k : Nat) (h : u.standsAs b r) :
    (endedTest k u).standsAs b r := by
  unfold endedTest
  split
  · next x hx =>
    split
    · next hc =>
      have hk : k ≠ b := ne_of_live hr h hx (by rw [hc.1]; rfl)
      exact standsAs_closeTest hr k (standsAs_updBatch_other (fun _ => rfl) hk h)
    · exact h
  · exact h

theorem standsAs_haltEndTest (hr : r.state.terminal = true) (k : Nat) (h : u.standsAs b r) :
    (haltEndTest k u).standsAs b r := by
  unfold haltEndTest
  split
  · next x hx =>
    split
    · next hc =>
      have hk : k ≠ b := ne_of_live hr h hx (by rw [hc.1]; rfl)
      exact standsAs_endedTest hr k (standsAs_updBatch_other (fun _ => rfl) hk h)
    · exact h
  · exact h

theorem standsAs_lowerFailed (k : Nat) (h : u.standsAs b r) : (lowerFailed k u).standsAs b r := by
  by_cases hk : k = b
  · subst hk
    obtain ⟨n, hn⟩ := h
    exact ⟨n - 1, findBatch_upd k (fun x => { x with failedPages := x.failedPages - 1 }) (fun _ => rfl) hn⟩
  · exact standsAs_updBatch_other (fun _ => rfl) hk h

theorem standsAs_ite {c : Prop} [Decidable c] (h : s.standsAs b r) (hu : u.standsAs b r) :
    (if c then s else u).standsAs b r := by
  split <;> assumption

theorem standsAs_freeRec (hr : r.state.terminal = true) (id : Nat) (h : u.standsAs b r) :
    (freeRec id u).standsAs b r := by
  cases hq : u.findRec id with
  | none =>
    simp only [freeRec, hq]
    exact h
  | some q =>
    have hfreed : (u.recFreed id q).standsAs b r := standsAs_of_bct h (levelTest_levelled _).bct
    rw [freeRec_of_some hq]
    split
    · exact hfreed
    · next k _ =>
      have hfailed := standsAs_ite (c := q.state = .failed ∧ ¬ q.fillFlag)
        (standsAs_haltEndTest hr k (standsAs_lowerFailed k hfreed)) hfreed
      exact standsAs_ite (standsAs_closeTest hr k hfailed) hfailed

theorem detachRec_bct (id : Nat) (s : State) : (detachRec id s).bct = s.bct := by
  unfold detachRec
  split <;> rfl

theorem standsAs_txeDiscard (hr : r.state.terminal = true) (id : Nat) (h : u.standsAs b r) :
    (txeDiscard id u).standsAs b r := by
  unfold txeDiscard
  split
  · exact standsAs_freeRec hr id (standsAs_of_bct h (updChan_bct _ _ _))
  · split
    · exact standsAs_ite (standsAs_of_bct h (updChan_bct _ _ _))
        (standsAs_freeRec hr id (standsAs_of_bct h (updChan_bct _ _ _)))
    · exact h

theorem standsAs_discardRec (hr : r.state.terminal = true) (id : Nat) (h : u.standsAs b r) :
    (discardRec id u).standsAs b r := by
  have hdet : (detachRec id u).standsAs b r := standsAs_of_bct h (detachRec_bct id u)
  unfold discardRec
  split
  · exact h
  · dsimp only
    split
    iterate 4 exact standsAs_freeRec hr id hdet
    · exact standsAs_freeRec hr id hdet
    · exact standsAs_ite hdet (standsAs_txeDiscard hr id hdet)

theorem standsAs_discardAll (hr : r.state.terminal = true) (ids : List Nat) (h : u.standsAs b r) :
    (discardAll ids u).standsAs b r := by
  refine standsAs_ite h (standsAs_of_bct ?_ (offerTest_same _).1)
  induction ids generalizing u with
  | nil => exact h
  | cons id ids ih => exact ih (standsAs_discardRec hr id h)

/-! ## The end of a fill (R163, R164, R166) -/

/-- The end of a fill leaves the sheets in the track, the pages, the directory, and the records of batches in a terminal
state. -/
structure EndsFillOnly (s t : State) : Prop where
  track     : t.tsq.track = s.tsq.track
  pages     : t.pgs = s.pgs
  directory : t.bct.directory = s.bct.directory
  terminal  : ∀ b r, r.state.terminal = true → s.standsAs b r → t.standsAs b r

theorem EndsFillOnly.refl (s : State) : EndsFillOnly s s := ⟨rfl, rfl, rfl, fun _ _ _ h => h⟩

theorem EndsFillOnly.trans (h : EndsFillOnly s t) (hu : EndsFillOnly t u) : EndsFillOnly s u :=
  ⟨hu.track.trans h.track, hu.pages.trans h.pages, hu.directory.trans h.directory,
    fun b r hr hs => hu.terminal b r hr (h.terminal b r hr hs)⟩

/-- An operation outside the batch table, the directory, the track and the pages. -/
theorem endsFillOnly_of_eq (ht : t.tsq.track = s.tsq.track) (hp : t.pgs = s.pgs)
    (hd : t.bct.directory = s.bct.directory) (hb : t.bct.batches = s.bct.batches) : EndsFillOnly s t :=
  ⟨ht, hp, hd, fun _ _ _ h => standsAs_of_batches h hb⟩

theorem endsFillOnly_ite {c : Prop} [Decidable c] (h : EndsFillOnly s t) (hu : EndsFillOnly s u) :
    EndsFillOnly s (if c then t else u) := by
  split <;> assumption

theorem endsFillOnly_updJob (f : FillJob → FillJob) (s : State) : EndsFillOnly s (s.updJob f) :=
  endsFillOnly_of_eq rfl rfl rfl rfl

theorem endsFillOnly_toIdle (s : State) : EndsFillOnly s (toIdle s) := endsFillOnly_of_eq rfl rfl rfl rfl

theorem endsFillOnly_tell (d : Nat) (p : Payload) (s : State) : EndsFillOnly s (tell d p s) :=
  endsFillOnly_of_eq (congrArg Tsq.track (hand_tsq d 0 p s)) (hand_pgs _ _ _ _) (by simp) (by simp)

theorem endsFillOnly_raise (c : Attn) (s : State) : EndsFillOnly s (raise c s) :=
  endsFillOnly_of_eq (by simp) (by simp) (by simp) (by simp)

theorem endsFillOnly_feedStops (s : State) : EndsFillOnly s (feedStops s) := by
  unfold feedStops
  split
  iterate 2 exact endsFillOnly_of_eq rfl rfl rfl rfl
  · exact endsFillOnly_toIdle s
  all_goals exact EndsFillOnly.refl s

theorem endsFillOnly_withdrawBatch (b : Nat) (s : State) : EndsFillOnly s (withdrawBatch b s) :=
  endsFillOnly_ite
    (endsFillOnly_ite ((endsFillOnly_feedStops s).trans (endsFillOnly_toIdle _)) (endsFillOnly_feedStops s))
    (EndsFillOnly.refl s)

theorem endsFillOnly_withdrawEnding (s : State) : EndsFillOnly s (withdrawEnding s) := by
  have h : EndsFillOnly s (withdrawFill s) := endsFillOnly_ite (endsFillOnly_feedStops s) (EndsFillOnly.refl s)
  exact endsFillOnly_ite (h.trans (endsFillOnly_toIdle _)) h

theorem endsFillOnly_ownerRelease (a k : Nat) (final : Bool) (ps : List Nat) (s : State) :
    EndsFillOnly s (ownerRelease a k final ps s) := by
  unfold ownerRelease
  split
  · exact EndsFillOnly.refl s
  · next x hx =>
    split
    · exact EndsFillOnly.refl s
    · next hl =>
      exact ⟨rfl, rfl, rfl, fun b r hr h =>
        standsAs_updBatch_other (fun _ => rfl) (ne_of_live hr h hx (by simpa using hl)) h⟩

theorem endsFillOnly_sendRelease (j : FillJob) (final : Bool) (s : State) : EndsFillOnly s (sendRelease j final s) :=
  endsFillOnly_ite (endsFillOnly_ownerRelease _ _ _ _ s) (endsFillOnly_tell _ _ s)

theorem endsFillOnly_removeJob (j : FillJob) (s : State) : EndsFillOnly s (removeJob j s) := by
  have hgone : EndsFillOnly s ((sendRelease j true s).modBct fun b => { b with fill := none }) :=
    (endsFillOnly_sendRelease j true s).trans (endsFillOnly_of_eq rfl rfl rfl rfl)
  exact hgone.trans (endsFillOnly_raise .fillEnded _)

theorem endsFillOnly_fillEnd (c : EndCause) (refusal : Option HoleRefusal) (s : State) :
    EndsFillOnly s (fillEnd c refusal s) := by
  unfold fillEnd
  split
  · split
    · dsimp only
      have h : EndsFillOnly s (collectReleases (withdrawEnding (s.updJob fun j => { j with
          phase := .ending, endCause := some c, refusal := refusal, claimTag := none }))) :=
        ((endsFillOnly_updJob _ s).trans (endsFillOnly_withdrawEnding _)).trans (endsFillOnly_updJob _ _)
      split
      · next j _ =>
        have hsent := (h.trans (endsFillOnly_sendRelease j false _)).trans
          (endsFillOnly_updJob (fun j => { j with releaseSet := [] }) _)
        exact endsFillOnly_ite (endsFillOnly_ite h hsent) (h.trans (endsFillOnly_removeJob _ _))
      · exact h
    · exact EndsFillOnly.refl s
  · exact EndsFillOnly.refl s

theorem endsFillOnly_ownerGone (b : Nat) (s : State) : EndsFillOnly s (ownerGone b s) := by
  unfold ownerGone
  split
  · exact endsFillOnly_ite (endsFillOnly_fillEnd _ _ s) (EndsFillOnly.refl s)
  · exact EndsFillOnly.refl s

end Sys2Proof.Machine
end

section
/-! A batch abandoned (O15): ABANDON BATCH at a scanner and what it leaves of the batch, and the commit entry of the
batch at a gateway. -/

namespace Sys2Proof.Machine

variable {s : State} {b : Nat} {r : BatchRec}

/-! ## ABANDON BATCH at a scanner (R24, R25) -/

theorem exec_abandonBatch {h : Hdr} (hc : s.consoleOrder h) (hr : s.oru.role = .scanner) :
    exec (.abandonBatch h b) s =
      .next (answer h (abandonBatch b s.orderCounted).1 [] (abandonBatch b s.orderCounted).2) :=
  exec_answered rfl hc rfl rfl (by simp only [runOrder, orderCounted_role, hr])

theorem abandonBatch_of_none (hb : s.findBatch b = none) : abandonBatch b s = (.unknownBatch, s) := by
  simp only [abandonBatch, hb]

theorem abandonBatch_of_terminal (hb : s.findBatch b = some r) (ht : r.state.terminal = true) :
    abandonBatch b s = (.badState, s) := by
  simp only [abandonBatch, hb, ht, if_true]

/-- The own pages of a batch. -/
def State.ownPages (s : State) (b : Nat) : List PageRec := s.pgs.recs.filter fun q => q.batch == some b && !q.fillFlag

/-- The state in which the record has become ABANDONED and its queue is gone. -/
def State.abandonEntered (s : State) (b : Nat) : State :=
  { s with
    bct := { s.bct with
      terminalNext := s.bct.terminalNext + 1
      batches := updFirst (·.number == b) (fun r => { r with
        state := .abandoned, terminalOrder := some s.bct.terminalNext, openAsk := none
        closeAsk := none }) s.bct.batches }
    pgs := { s.pgs with queues := s.pgs.queues.filter (·.batch != b) } }

theorem abandonEntered_eq (b : Nat) (s : State) :
    (enterTerminal b .abandoned s).updBatch b (fun r => { r with openAsk := none, closeAsk := none }) =
      s.abandonEntered b :=
  congrArg (fun l => ({ s with
    bct := { s.bct with terminalNext := s.bct.terminalNext + 1, batches := l }
    pgs := { s.pgs with queues := s.pgs.queues.filter (·.batch != b) } } : State))
    (updFirst_updFirst (p := (·.number == b))
      (f := fun r : BatchRec => { r with state := .abandoned, terminalOrder := some s.bct.terminalNext })
      (g := fun r : BatchRec => { r with openAsk := none, closeAsk := none })
      (fun _ h => h) s.bct.batches)

/-- The state in which the pages of the batch are discarded and its feed is withdrawn. -/
def State.abandonFreed (s : State) (b : Nat) : State :=
  withdrawBatch b (discardAll ((s.ownPages b).map (·.id)) (s.abandonEntered b))

/-- The state in which the sheets of the batch are marked, their capture progress set to DROP, and its holes gone. -/
def State.sheetsAbandoned (s : State) (b : Nat) : State :=
  let tags := (s.tsq.track.filter (·.boundTo b)).map (·.tag)
  { s with
    tsq := { s.tsq with
      track := s.tsq.track.map fun e => if e.boundTo b then { e with abandoned := true, position := none } else e }
    pgs := { s.pgs with
      progress := tags.foldl (fun l tag => l.modify tag fun p => { p with mode := .drop }) s.pgs.progress }
    bct := { s.bct with batches := updFirst (·.number == b) (fun r => { r with holes := [] }) s.bct.batches } }

theorem foldl_updProgress (f : Progress → Progress) (tags : List Nat) (s : State) :
    tags.foldl (fun s tag => s.updProgress tag f) s =
      { s with pgs := { s.pgs with progress := tags.foldl (fun l tag => l.modify tag f) s.pgs.progress } } := by
  induction tags generalizing s with
  | nil => rfl
  | cons tag tags ih => exact ih _

theorem markAbandoned_eq (b : Nat) (s : State) :
    (markAbandoned b s).updBatch b (fun r => { r with holes := [] }) = s.sheetsAbandoned b :=
  congrArg (State.updBatch · b fun r => { r with holes := [] })
    (foldl_updProgress (fun p => { p with mode := .drop }) _ _)

/-- The state in which the gateway and the room have been told, and the directory entry is gone. -/
def State.abandonTold (s : State) (b : Nat) (r : BatchRec) : State :=
  removeDir b s.oru.address
    (tell 255 (.batchGone b) (tell r.gateway (.abandon b) ((s.abandonFreed b).sheetsAbandoned b)))

theorem abandonBatch_of_live (hb : s.findBatch b = some r) (ht : r.state.terminal = false) :
    abandonBatch b s = (.accepted, ownerGone b (s.abandonTold b r)) := by
  have haddress : (tell r.gateway (.abandon b) ((s.abandonFreed b).sheetsAbandoned b)).oru.address = s.oru.address := by
    rw [tell_oru]
    exact (keeps_withdrawBatch b (keeps_discardAll _ (Keeps.refl (s.abandonEntered b)))).address
  simp only [abandonBatch, hb, ht, abandonEntered_eq, markAbandoned_eq]
  rw [State.abandonTold, ← haddress]
  rfl

/-! ## What ABANDON BATCH leaves of the batch -/

/-- The record that an abandoned one has become. -/
def BatchRec.abandonedAt (r : BatchRec) (order : Nat) : BatchRec :=
  { r with state := .abandoned, terminalOrder := some order, openAsk := none, closeAsk := none, holes := [] }

/-- Neither the discards nor the end of a fill change the record of the batch but in its failed page count. -/
theorem ownerGone_abandonTold_standsAs (hb : s.findBatch b = some r) :
    (ownerGone b (s.abandonTold b r)).standsAs b (r.abandonedAt s.bct.terminalNext) := by
  have hentered : (s.abandonEntered b).standsAs b { r.abandonedAt s.bct.terminalNext with holes := r.holes } :=
    standsAs_of_findBatch (findBatch_upd b (fun r => { r with
      state := .abandoned, terminalOrder := some s.bct.terminalNext, openAsk := none, closeAsk := none })
      (fun _ => rfl) hb)
  have hfreed : (s.abandonFreed b).standsAs b { r.abandonedAt s.bct.terminalNext with holes := r.holes } :=
    (endsFillOnly_withdrawBatch b _).terminal b _ rfl (standsAs_discardAll rfl _ hentered)
  have hmarked : ((s.abandonFreed b).sheetsAbandoned b).standsAs b (r.abandonedAt s.bct.terminalNext) := by
    obtain ⟨n, hn⟩ := hfreed
    exact ⟨n, findBatch_upd b (fun r => { r with holes := [] }) (fun _ => rfl) hn⟩
  have htold : (s.abandonTold b r).standsAs b (r.abandonedAt s.bct.terminalNext) :=
    standsAs_of_batches hmarked (by simp [State.abandonTold, removeDir])
  exact (endsFillOnly_ownerGone b _).terminal b _ rfl htold

theorem ownerGone_abandonTold_directory :
    ∀ d ∈ (ownerGone b (s.abandonTold b r)).bct.directory, ¬ (d.batch = b ∧ d.owner = s.oru.address) := by
  rw [(endsFillOnly_ownerGone b _).directory]
  rintro d hd ⟨hb, ho⟩
  simpa [hb, ho] using (List.mem_filter.mp hd).2

/-- Every sheet of the batch is marked abandoned, and so is bound to none. -/
theorem ownerGone_abandonTold_track : ∀ e ∈ (ownerGone b (s.abandonTold b r)).tsq.track, e.boundTo b = false := by
  have htrack : (s.abandonTold b r).tsq.track = ((s.abandonFreed b).sheetsAbandoned b).tsq.track :=
    congrArg Tsq.track ((hand_tsq _ _ _ _).trans (hand_tsq _ _ _ _))
  rw [(endsFillOnly_ownerGone b _).track, htrack]
  intro e he
  obtain ⟨x, -, rfl⟩ := List.mem_map.mp he
  split
  · simp [TrackEntry.boundTo]
  · next hx => simpa using hx

theorem ownerGone_abandonTold_recs : (ownerGone b (s.abandonTold b r)).pgs.recs =
    (discardAll ((s.ownPages b).map (·.id)) (s.abandonEntered b)).pgs.recs := by
  have htold : (s.abandonTold b r).pgs = ((s.abandonFreed b).sheetsAbandoned b).pgs :=
    (hand_pgs _ _ _ _).trans (hand_pgs _ _ _ _)
  have hfreed : (s.abandonFreed b).pgs = (discardAll ((s.ownPages b).map (·.id)) (s.abandonEntered b)).pgs :=
    (endsFillOnly_withdrawBatch b _).pages
  rw [(endsFillOnly_ownerGone b _).pages, htold, ← hfreed]
  rfl

/-- Of the own pages of the batch those alone stay that TXE still gives up: SENDING, with discard pending. -/
theorem ownPages_discarded (hn : (s.pgs.recs.map (·.id)).Nodup) {q : PageRec}
    (hq : q ∈ (ownerGone b (s.abandonTold b r)).pgs.recs) (hb : q.batch = some b) (hf : q.fillFlag = false) :
    q.state = .sending ∧ q.discardPending = true ∧
      ∃ x ∈ s.ownPages b, x.id = q.id ∧ x.state = .sending ∧ (x.discardPending = true ∨ s.lingers q.id) := by
  rw [ownerGone_abandonTold_recs] at hq
  have own : ∀ p ∈ s.pgs.recs, p.batch = some b → p.fillFlag = false → p ∈ s.ownPages b :=
    fun p hp hpb hpf => List.mem_filter.mpr ⟨hp, by simp [hpb, hpf]⟩
  have hid : q.id ∈ (s.ownPages b).map (·.id) := by
    by_contra hno
    obtain ⟨p, hp, rfl | rfl⟩ := discardAll_others _ (s.abandonEntered b) hn q hq hno
    · exact hno (List.mem_map_of_mem (own q hp hb hf))
    · exact hno (List.mem_map.mpr ⟨p, own p hp hb hf, rfl⟩)
  obtain ⟨hd, p, hp, hs, hl, rfl⟩ := discardAll_recs _ (s.abandonEntered b) hn q hq hid
  exact ⟨hs, hd, p, own p hp hb hf, rfl, hs, hl⟩

/-- A batch without page, sheet and feed is told of and forgotten. -/
theorem abandonTold_of_bare (hp : ∀ p ∈ s.pgs.recs, p.batch ≠ some b) (ht : ∀ e ∈ s.tsq.track, e.boundTo b = false)
    (hf : s.tsq.fedBatch ≠ some b) :
    s.abandonTold b r = removeDir b s.oru.address (tell 255 (.batchGone b) (tell r.gateway (.abandon b)
      { s with
        bct := { s.bct with
          terminalNext := s.bct.terminalNext + 1
          batches := updFirst (·.number == b) (fun r => { r with
            state := .abandoned, terminalOrder := some s.bct.terminalNext
            openAsk := none, closeAsk := none, holes := [] }) s.bct.batches }
        pgs := { s.pgs with queues := s.pgs.queues.filter (·.batch != b) } })) := by
  have hown : s.ownPages b = [] := List.filter_eq_nil_iff.mpr fun p hm => by simp [hp p hm]
  have hfreed : s.abandonFreed b = s.abandonEntered b := by
    unfold State.abandonFreed
    rw [hown]
    exact withdrawBatch_of_other fun h => hf h.2
  have htags : s.tsq.track.filter (·.boundTo b) = [] := List.filter_eq_nil_iff.mpr fun e he => by simp [ht e he]
  have hmap : (s.tsq.track.map fun e => if e.boundTo b then { e with abandoned := true, position := none } else e) =
      s.tsq.track :=
    (List.map_congr_left fun e he => if_neg (by simp [ht e he])).trans (List.map_id' _)
  have hrec := updFirst_updFirst (p := (·.number == b))
    (f := fun r : BatchRec => { r with
      state := .abandoned, terminalOrder := some s.bct.terminalNext, openAsk := none, closeAsk := none })
    (g := fun r : BatchRec => { r with holes := [] }) (fun _ h => h) s.bct.batches
  rw [State.abandonTold, hfreed]
  simp only [State.sheetsAbandoned, State.abandonEntered, htags, hmap, hrec, List.map_nil, List.foldl_nil]

/-! ## A commit entry abandoned at a gateway (R149) -/

/-- The state in which a commit entry is gone: its slots freed, but one being written, which is disowned. -/
def State.entryAbandoned (s : State) (b : Nat) : State :=
  { s with ict := { s.ict with
    commits := s.ict.commits.filter (·.batch != b)
    slots := s.ict.slots.map fun sl =>
      if sl.ofBatch b then (if sl.state = .storing then { sl with disowned := true } else sl.freed s.now) else sl
    freeBlocks := s.ict.freeBlocks + (s.ict.slots.map fun sl =>
      if sl.ofBatch b ∧ sl.state ≠ .storing then (sl.hold.map (·.blocks.length)).getD 0 else 0).sum
    storeQueue := s.ict.storeQueue.filter fun n =>
      !(s.ict.slots[n]?).any fun sl => sl.ofBatch b && sl.state != .storing } }

theorem ofBatch_freed (b : Nat) (sl : Slot) (now : Nat) : (sl.freed now).ofBatch b = false := rfl

/-- A slot of the batch freed, unless it is being written. -/
def Slot.leave (b now : Nat) (sl : Slot) : Slot := if sl.ofBatch b && sl.state != .storing then sl.freed now else sl

/-- A slot of the batch that is being written disowned. -/
def Slot.disown (b : Nat) (sl : Slot) : Slot :=
  if sl.ofBatch b && sl.state == .storing then { sl with disowned := true } else sl

theorem disown_leave (b now : Nat) (sl : Slot) : (sl.leave b now).disown b =
    if sl.ofBatch b then (if sl.state = .storing then { sl with disowned := true } else sl.freed now) else sl := by
  cases hb : sl.ofBatch b with
  | false => simp [Slot.leave, Slot.disown, hb]
  | true =>
    by_cases hs : sl.state = .storing
    · simp [Slot.leave, Slot.disown, hb, hs]
    · simp [Slot.leave, Slot.disown, hb, hs, ofBatch_freed]

theorem abandonEntry_eq (b : Nat) (s : State) : abandonEntry b s = s.entryAbandoned b := by
  have hslots : (s.ict.slots.map (Slot.leave b s.now)).map (Slot.disown b) = s.ict.slots.map fun sl =>
      if sl.ofBatch b then (if sl.state = .storing then { sl with disowned := true } else sl.freed s.now) else sl := by
    rw [List.map_map]
    exact List.map_congr_left fun sl _ => disown_leave b s.now sl
  have hsum : (s.ict.slots.map fun sl =>
      if sl.ofBatch b && sl.state != .storing then (sl.hold.map (·.blocks.length)).getD 0 else 0) =
      s.ict.slots.map fun sl =>
        if sl.ofBatch b ∧ sl.state ≠ .storing then (sl.hold.map (·.blocks.length)).getD 0 else 0 := by
    simp only [Bool.and_eq_true, bne_iff_ne]
  unfold abandonEntry abandonSlots freeBatchSlots
  rw [freeSlots_slotsWhere, hsum]
  unfold State.entryAbandoned
  rw [← hslots]
  rfl

theorem exec_abandonBatch_gateway {h : Hdr} (hc : s.consoleOrder h) (hr : s.oru.role = .gateway) :
    exec (.abandonBatch h b) s =
      .next (answer h (abandonAtGateway b s.orderCounted).1 [] (abandonAtGateway b s.orderCounted).2) :=
  exec_answered rfl hc rfl rfl (by simp only [runOrder, orderCounted_role, hr])

theorem exec_abandon {h : Hdr} (hr : s.oru.role = .gateway) (hl : s.listens) (hh : s.reached h) (h1 : 1 ≤ b)
    (h2 : b ≤ 16777215) : exec (.abandon h b) s = .next (takeAbandon h b s) :=
  exec_taken (f := ⟨h, .abandon b⟩) rfl hl hh (batchOk_of h1 h2) (by rw [hr]; rfl) (by simp)

theorem takeAbandon_of_none {h : Hdr} (hc : s.findCommit b = none) : takeAbandon h b s = s := by
  simp [takeAbandon, hc]

theorem takeAbandon_of_owner {h : Hdr} {c : CommitRec} (hc : s.findCommit b = some c) (ho : c.owner = h.src) :
    takeAbandon h b s = s.entryAbandoned b := by
  simp [takeAbandon, hc, ho, abandonEntry_eq]

theorem takeAbandon_of_other {h : Hdr} {c : CommitRec} (hc : s.findCommit b = some c) (ho : c.owner ≠ h.src) :
    takeAbandon h b s = s := by
  simp [takeAbandon, hc, ho]

theorem abandonAtGateway_of_none (hc : s.findCommit b = none) : abandonAtGateway b s = (.unknownBatch, s) := by
  simp [abandonAtGateway, hc]

theorem abandonAtGateway_of_some {c : CommitRec} (hc : s.findCommit b = some c) :
    abandonAtGateway b s = (.accepted, s.entryAbandoned b) := by
  simp [abandonAtGateway, hc, abandonEntry_eq]

/-- Settles O15: the order at a scanner by the state of the record and what the abandonment leaves, then the entry at a
gateway. -/
theorem abandonedInBothRoles : Obligations.AbandonedInBothRoles := by
  unfold Obligations.AbandonedInBothRoles
  refine ⟨fun h b s hc hr => ?_, fun h b s hr hn => ⟨fun hc => ?_, fun hl hh h1 h2 => ?_⟩,
    fun h b r s hr hs => ⟨fun hc => ?_, fun hl hh h1 h2 ho => ?_, fun hl hh h1 h2 ho => ?_⟩⟩
  · rw [exec_abandonBatch hc hr]
    refine ⟨fun hb => ?_, fun r hb => ⟨fun ht => ?_, fun ht => ⟨?_, ?_, fun hn q hq hqb hqf => ?_,
      ownerGone_abandonTold_track (s := s.orderCounted) (r := r),
      ownerGone_abandonTold_directory (s := s.orderCounted) (r := r)⟩, fun ht hp he hj hf => ?_⟩⟩
    · rw [abandonBatch_of_none (s := s.orderCounted) hb]
    · rw [abandonBatch_of_terminal (s := s.orderCounted) hb ht]
    · rw [abandonBatch_of_live (s := s.orderCounted) hb ht]
      rfl
    · obtain ⟨n, hu⟩ := ownerGone_abandonTold_standsAs (s := s.orderCounted) hb
      exact ⟨_, hu, rfl, rfl, rfl, rfl, rfl, rfl, rfl⟩
    · exact ownPages_discarded (s := s.orderCounted) (r := r) hn hq hqb hqf
    · have hbare := abandonTold_of_bare (s := s.orderCounted) (r := r) hp he hf
      have hfill : (s.orderCounted.abandonTold b r).bct.fill = none := by
        rw [hbare]
        simpa [removeDir] using hj
      have hgone : ownerGone b (s.orderCounted.abandonTold b r) = s.orderCounted.abandonTold b r :=
        ownerGone_of_other fun j hjt => by rw [hfill] at hjt; cases hjt
      rw [abandonBatch_of_live (s := s.orderCounted) hb ht, hgone, hbare]
      rfl
  · rw [exec_abandonBatch_gateway hc hr, abandonAtGateway_of_none (s := s.orderCounted) hn]
  · rw [exec_abandon hr hl hh h1 h2, takeAbandon_of_none hn]
  · rw [exec_abandonBatch_gateway hc hr, abandonAtGateway_of_some (s := s.orderCounted) hs]
    rfl
  · rw [exec_abandon hr hl hh h1 h2, takeAbandon_of_owner hs ho]
    rfl
  · rw [exec_abandon hr hl hh h1 h2, takeAbandon_of_other hs ho]

end Sys2Proof.Machine
end

section
/-! Frames handed to the line (O7): they join the transmit control queue, are dropped or are unsent, and an ask takes
the next tag. With it the two timers of the line, the join listen and the presence timer (O39). -/

namespace Sys2Proof.Machine

variable {s : State} {d t due : Nat} {p : Payload}

/-! ## Frames handed (R103, R104) -/

theorem hand_of_room (hl : s.fli.line = .joined ∨ s.fli.line = .listening) (hr : s.fli.txQueue.length < 16) :
    hand d t p s = s.modFli fun l => { l with txQueue := l.txQueue ++ [⟨⟨d, s.oru.address, t⟩, p⟩] } := by
  have hq : s.fli.txQueue.length < Config.queueFrames := hr
  unfold hand
  obtain h | h := hl <;> rw [h] <;> exact if_pos hq

theorem hand_of_full (hl : s.fli.line = .joined ∨ s.fli.line = .listening) (hf : 16 ≤ s.fli.txQueue.length) :
    hand d t p s = s.modFli fun l => { l with txDrops := bump16 l.txDrops } := by
  have hq : ¬ s.fli.txQueue.length < Config.queueFrames := Nat.not_lt.mpr hf
  unfold hand
  obtain h | h := hl <;> rw [h] <;> exact if_neg hq

theorem hand_of_off (hl : s.fli.line = .unaddressed ∨ s.fli.line = .conflict) :
    hand d t p s = s.modFli fun l => { l with unsent := bump16 l.unsent } := by
  unfold hand
  obtain h | h := hl <;> rw [h]

@[simp] theorem hand_line (d t : Nat) (p : Payload) (s : State) : (hand d t p s).fli.line = s.fli.line := by
  unfold hand
  split
  iterate 2 (split <;> rfl)
  all_goals rfl

/-- The counter of the asks goes on by one, from 255 back to 0 (R104). -/
theorem nextAskTag_eq {n : Nat} (h : n ≤ 255) : (n + 1) % 256 = if n = 255 then 0 else n + 1 := by
  split <;> omega

/-- Settles O7: a frame handed by line state and room, and the tag of an ask. -/
theorem handedFrameJoinsOrIsLost : Obligations.HandedFrameJoinsOrIsLost := by
  unfold Obligations.HandedFrameJoinsOrIsLost
  refine ⟨fun d t p s => ⟨hand_of_room, hand_of_full, hand_of_off⟩, fun d p s => rfl, fun d p s h => ?_⟩
  rw [← nextAskTag_eq h]
  rfl

/-! ## What an offer test leaves of the station (R115) -/

theorem offerOne_station (c : ChanId) (s : State) :
    (offerOne c s).oru = s.oru ∧ (offerOne c s).fli.line = s.fli.line := by
  unfold offerOne
  split
  · split
    · rw [offerPage_eq]
      simp [State.pageOffered, ask]
    · exact ⟨rfl, rfl⟩
  · exact ⟨rfl, rfl⟩

@[simp] theorem offerTest_oru (s : State) : (offerTest s).oru = s.oru :=
  (offerOne_station .b _).1.trans (offerOne_station .a s).1

@[simp] theorem offerTest_line (s : State) : (offerTest s).fli.line = s.fli.line :=
  (offerOne_station .b _).2.trans (offerOne_station .a s).2

/-! ## The join listen (R107) -/

theorem joinOver_of_other (h : s.fli.line ≠ .listening) : joinOver s = s := by
  unfold joinOver
  split
  · exact absurd ‹_› h
  · rfl

theorem joinOver_of_listening (hl : s.fli.line = .listening) (hd : s.fli.joinDue = some due) :
    joinOver s = startPresence (handPresence ((s.advanceTo due).modFli fun l => { l with
      line := .joined, joinDue := none, turnHolder := if l.heardAny then l.turnHolder else some 15 })) := by
  simp only [joinOver, hl, hd]

/-! ## The presence timer (R109) -/

theorem presenceWaits_iff {l : Fli} : l.presenceWaits = true ↔ ∃ f ∈ l.txQueue, ∃ r, f.payload = .presence r := by
  have waits : ∀ f : Frame, (match f.payload with | .presence _ => true | _ => false) = true ↔
      ∃ r, f.payload = .presence r := fun f => by cases f.payload <;> simp
  unfold Fli.presenceWaits
  rw [List.any_eq_true]
  exact exists_congr fun f => and_congr_right fun _ => waits f

theorem presenceOver_of_still (h : s.fli.presenceDue = none) : presenceOver s = s := by
  simp only [presenceOver, h]

theorem presenceOver_of_waiting (h : s.fli.presenceDue = some due) (hw : s.fli.presenceWaits = true) :
    presenceOver s = startPresence (s.advanceTo due) := by
  simp only [presenceOver, h, advanceTo_fli, hw, if_true]

theorem presenceOver_of_none_waiting (h : s.fli.presenceDue = some due) (hw : s.fli.presenceWaits = false) :
    presenceOver s = startPresence (handPresence (s.advanceTo due)) := by
  simp [presenceOver, h, hw]

theorem handPresence_eq : handPresence s =
    hand 255 0 (.presence (match s.oru.role with | .scanner => .scanner | .gateway => .gateway)) s := rfl

/-- Settles O39: the end of the join listen, and the presence timer with and without a PRESENCE that waits. -/
theorem joinListenAndPresenceTimer : Obligations.JoinListenAndPresenceTimer := by
  unfold Obligations.JoinListenAndPresenceTimer
  intro s hp
  have join : exec .joinListenExpiry s = .next (joinOver s) := running_next _ hp
  have timer : exec .presenceTimerExpiry s = .next (presenceOver s) := running_next _ hp
  rw [join, timer]
  refine ⟨fun hl => ?_, fun due hl hd => ?_, fun hn => ?_, fun due hd => ⟨fun hw => ?_, fun hw => ?_⟩⟩
  · rw [joinOver_of_other hl]
  · rw [joinOver_of_listening hl hd, handPresence_eq]
    rfl
  · rw [presenceOver_of_still hn]
  · rw [presenceOver_of_waiting hd (presenceWaits_iff.mpr hw)]
    rfl
  · have hnone : s.fli.presenceWaits = false := by
      rw [Bool.eq_false_iff, ne_eq, presenceWaits_iff]
      rintro ⟨f, hf, r, hr⟩
      exact hw f hf r hr
    rw [presenceOver_of_none_waiting hd hnone, handPresence_eq]
    rfl

end Sys2Proof.Machine
end

section
/-! The station's own turn and what leaves with a frame that has been sent (O35): the burst of a channel, the
descriptors that empty and are promoted, and the give-ups that wait for the frame in transmission. -/

namespace Sys2Proof.Machine

variable {s : State} {c : ChanId} {f : Frame}

/-! ## Bursts (R97, R123) -/

/-- A burst ends at the page's end or at the next boundary of 4096 bytes. -/
theorem burstLength_bounds {next remaining : Nat} (h : 0 < remaining) :
    0 < burstLength next remaining ∧ burstLength next remaining ≤ remaining ∧ burstLength next remaining ≤ 4096 ∧
      next % 4096 + burstLength next remaining ≤ 4096 ∧
      (burstLength next remaining = remaining ∨ (next + burstLength next remaining) % 4096 = 0) := by
  have hn : burstLength next remaining = min (4096 - next % 4096) remaining := rfl
  omega

theorem burstFrame_of_page {id g k : Nat} {r : PageRec} (hp : (s.chan c).active.page = some id)
    (hg : (s.chan c).active.gateway = some g) (hk : (s.chan c).active.slot = some k) (hr : s.findRec id = some r) :
    s.burstFrame c = ⟨⟨g, s.oru.address, 0⟩, .pageData k (s.chan c).active.next
      (Memory.readRun s.pgs.mem r.blocks ((s.chan c).active.next - (s.chan c).active.start)
        (burstLength (s.chan c).active.next (s.chan c).active.remaining))⟩ := by
  simp [State.burstFrame, hp, hg, hk, hr]

theorem bursting_eq_false_iff : s.bursting c = false ↔ ∀ f, s.fli.inFlight ≠ some ⟨f, .data c⟩ := by
  unfold State.bursting
  cases s.fli.inFlight with
  | none => simp
  | some x =>
    obtain ⟨f, o⟩ := x
    simp

theorem burstReady_iff : s.burstReady c = true ↔ (s.chan c).active.phase = .streaming ∧
    0 < (s.chan c).active.remaining ∧ (s.chan c).active.giveUp = .none ∧ ∀ f, s.fli.inFlight ≠ some ⟨f, .data c⟩ := by
  simp [State.burstReady, ← bursting_eq_false_iff, and_assoc]

theorem nextBurst_of_ready (hc : s.burstReady c = true)
    (hd : (∀ d, d ≠ c → s.burstReady d = false) ∨ s.fli.lastData ≠ c) : s.nextBurst = some c := by
  unfold State.nextBurst
  cases c with
  | a =>
    cases hb : s.burstReady .b with
    | false => rw [hc]
    | true =>
      have hl : s.fli.lastData ≠ .a := hd.resolve_left fun h => by simp [h .b] at hb
      cases hlast : s.fli.lastData with
      | a => exact absurd hlast hl
      | b => rw [hc]
  | b =>
    cases ha : s.burstReady .a with
    | false => rw [hc]
    | true =>
      have hl : s.fli.lastData ≠ .b := hd.resolve_left fun h => by simp [h .a] at ha
      cases hlast : s.fli.lastData with
      | a => rw [hc]
      | b => exact absurd hlast hl

theorem nextBurst_of_none (h : ∀ c, s.burstReady c = false) : s.nextBurst = none := by
  simp only [State.nextBurst, h]

/-! ## The turn (R96) -/

/-- The turn, counted from the turn holder, comes to this station. -/
def State.turnMine (s : State) : Prop :=
  ∃ t, s.fli.turnHolder = some t ∧ ∃ quiet < 16, (t + quiet + 1) % 16 = s.oru.address

theorem turnComes_iff : s.turnComes = true ↔ s.turnMine := by
  unfold State.turnComes State.turnMine Fli.turn
  cases s.fli.turnHolder <;> simp

theorem turnMine_of_known (ha : s.oru.address ≤ 15) (ht : s.fli.turnHolder ≠ none) : s.turnMine := by
  obtain ⟨t, ht⟩ := Option.ne_none_iff_exists'.mp ht
  exact ⟨t, ht, (s.oru.address + 15 * (t + 1)) % 16, by omega, by omega⟩

theorem ownTurn_of_idle (h : s.fli.line ≠ .joined ∨ s.fli.inFlight ≠ none ∨ ¬ s.turnMine) : ownTurn s = s :=
  if_neg fun ⟨hl, hf, ht⟩ => h.elim (absurd hl) fun h => h.elim (absurd hf) (absurd (turnComes_iff.mp ht))

/-- What the station sends in its turn. -/
theorem ownTurn_of_mine (hl : s.fli.line = .joined) (hf : s.fli.inFlight = none) (hm : s.turnMine) :
    ownTurn s = match s.fli.txQueue with
      | f :: _ => beginFrame f .control s
      | [] => match s.nextBurst with
        | some c => beginFrame (s.burstFrame c) (.data c) s
        | none => s :=
  if_pos ⟨hl, hf, turnComes_iff.mpr hm⟩

/-! ## Descriptors that empty (R122) -/

/-- Two changes that agree on the channel are one change. -/
theorem updChan_congr {f g : Channel → Channel} (h : f (s.chan c) = g (s.chan c)) : s.updChan c f = s.updChan c g := by
  cases c
  · exact congrArg (fun x => s.modTxe fun t => { t with chanA := x }) h
  · exact congrArg (fun x => s.modTxe fun t => { t with chanB := x }) h

theorem emptyActive_of_ungranted (h : (s.chan c).staged.phase ≠ .granted) :
    emptyActive c s = s.updChan c fun ch => { ch with active := emptyDesc ch.active } :=
  updChan_congr (if_neg fun hc => h hc.1)

theorem emptyActive_of_granted (h : (s.chan c).staged.phase = .granted) :
    emptyActive c s = s.updChan c fun ch => { ch with
      active := { ch.staged with phase := .streaming, lastBurst := none, giveUp := .none }
      staged := emptyDesc ch.staged } :=
  updChan_congr (if_pos ⟨h, rfl⟩)

/-! ## A frame sent (R94, R97, R124) -/

/-- The line when the frame in transmission has left it. -/
def State.lineFreed (s : State) : Fli := { s.fli with
  inFlight := none, framesSent := min 4294967295 (s.fli.framesSent + 1)
  presenceDue := some (s.now + s.oru.settings.presenceMs) }

/-- A RESTART that waited for the frame is finished (R112, R193). -/
def State.restartFinished (u : State) : State := match u.oru.restartDue with
  | none => u
  | some h => answer h .accepted [] { u with
      oru := { u.oru with restartDue := none }
      fli := { u.fli with
        txQueue := [], rxQueue := []
        presenceDue := if u.fli.line = .joined then some (u.now + u.oru.settings.presenceMs)
          else u.fli.presenceDue } }

theorem restartFinished_of_some {u : State} {h : Hdr} (hd : u.oru.restartDue = some h) :
    u.restartFinished = restartLine h u := by
  simp only [State.restartFinished, hd]
  rfl

theorem restartFinished_of_none {u : State} (h : u.oru.restartDue = none) : u.restartFinished = u := by
  simp only [State.restartFinished, h]

theorem sent_of_none (h : s.fli.inFlight = none) : sent s = s := by
  simp only [sent, h]

theorem sent_of_flight {x : Flight} (h : s.fli.inFlight = some x) :
    sent s = (sentEffect x { s with fli := s.lineFreed }).restartFinished := by
  have freed : (s.modFli fun l => { l with
      inFlight := none, framesSent := bump32 l.framesSent
      presenceDue := some (s.now + s.oru.settings.presenceMs) }) = { s with fli := s.lineFreed } := rfl
  simp only [sent, h, freed]
  split
  · exact (restartFinished_of_some ‹_›).symm
  · exact (restartFinished_of_none ‹_›).symm

/-- The state in which a channel's burst has left the line. -/
def State.burstLeft (s : State) (c : ChanId) : State := { s with fli := { s.lineFreed with lastData := c } }

theorem burstLeft_chan (d : ChanId) : (s.burstLeft c).chan d = s.chan d := by cases d <;> rfl

/-- The same state with the burst counted in its descriptor. -/
def State.burstCounted (s : State) (c : ChanId) (n : Nat) : State :=
  (s.burstLeft c).updChan c fun ch => { ch with active := { ch.active with
    next := ch.active.next + n, remaining := ch.active.remaining - n, lastBurst := some n } }

theorem sent_of_control (h : s.fli.inFlight = some ⟨f, .control⟩) :
    sent s = State.restartFinished { s with fli := { s.lineFreed with txQueue := s.fli.txQueue.drop 1 } } :=
  sent_of_flight h

theorem sent_of_orphan (h : s.fli.inFlight = some ⟨f, .orphan c⟩) : sent s = (s.burstLeft c).restartFinished :=
  sent_of_flight h

theorem sent_of_data (h : s.fli.inFlight = some ⟨f, .data c⟩) :
    sent s = (burstSent c f.payload.dataLength (s.burstLeft c)).restartFinished :=
  sent_of_flight h

theorem burstSent_of_part {n : Nat} (hg : (s.chan c).active.giveUp = .none) (hn : n < (s.chan c).active.remaining) :
    burstSent c n (s.burstLeft c) = s.burstCounted c n := by
  have hleft : ¬ (s.chan c).active.remaining - n = 0 := by omega
  unfold burstSent
  simp only [burstLeft_chan, hg, updChan_chan, hleft, if_true, if_false]
  rfl

theorem burstSent_of_whole {n : Nat} (hg : (s.chan c).active.giveUp = .none) (hn : (s.chan c).active.remaining = n) :
    burstSent c n (s.burstLeft c) = pageSent c (s.burstCounted c n) := by
  unfold burstSent
  simp only [burstLeft_chan, hg, updChan_chan, hn, Nat.sub_self, if_true]
  rfl

theorem burstSent_of_giveUp {n : Nat} (hg : (s.chan c).active.giveUp ≠ .none) :
    burstSent c n (s.burstLeft c) = giveUpNow c (s.chan c).active (s.burstLeft c) := by
  unfold burstSent
  simp only [burstLeft_chan, hg, if_false]

/-- A page sent whole stands in SENT and in the outstanding-sent list (R124, R125). -/
theorem pageSent_of_page {u : State} {id g k : Nat} (hp : (u.chan c).active.page = some id)
    (hg : (u.chan c).active.gateway = some g) (hk : (u.chan c).active.slot = some k) :
    pageSent c u = offerTest (emptyActive c { u with
      pgs := { u.pgs with recs := updFirst (·.id == id) (fun r => { r with state := .sent }) u.pgs.recs }
      txe := { u.txe with outstanding := u.txe.outstanding ++
        [⟨id, g, k, u.now + 1000 * u.oru.settings.storeSeconds⟩] } }) := by
  simp only [pageSent, hp, hg, hk, Option.getD_some]
  rfl

theorem burstCounted_restartDue (n : Nat) : (s.burstCounted c n).oru.restartDue = s.oru.restartDue := by
  cases c <;> rfl

theorem pageSent_of_counted {n id g k : Nat} (hp : (s.chan c).active.page = some id)
    (hg : (s.chan c).active.gateway = some g) (hk : (s.chan c).active.slot = some k) :
    pageSent c (s.burstCounted c n) = offerTest (emptyActive c { s.burstCounted c n with
      pgs := { s.pgs with recs := updFirst (·.id == id) (fun r => { r with state := .sent }) s.pgs.recs }
      txe := { (s.burstCounted c n).txe with outstanding := s.txe.outstanding ++
        [⟨id, g, k, s.now + 1000 * s.oru.settings.storeSeconds⟩] } }) := by
  have hchan : ((s.burstCounted c n).chan c).active = { (s.chan c).active with
      next := (s.chan c).active.next + n, remaining := (s.chan c).active.remaining - n, lastBurst := some n } := by
    rw [State.burstCounted, updChan_chan, burstLeft_chan]
  rw [pageSent_of_page (by rw [hchan]; exact hp) (by rw [hchan]; exact hg) (by rw [hchan]; exact hk)]
  cases c <;> rfl

/-- What becomes of the page of a descriptor whose give-up waited for the frame (R124). -/
def Desc.givenUp (d : Desc) (id : Nat) (s : State) : State := match d.giveUp with
  | .none => s
  | .ret => toReady id s
  | .restart => if d.fatal then pageFailed id none s else toReady id s
  | .discard => if d.stored then finishStored id s else freeRec id s

theorem giveUpNow_of_page {d : Desc} {id : Nat} (hp : d.page = some id) :
    giveUpNow c d s = offerTest (d.givenUp id (emptyActive c s)) := by
  simp only [giveUpNow, hp, Option.getD_some]
  rfl

theorem sent_of_giveUp {id : Nat} (h : s.fli.inFlight = some ⟨f, .data c⟩) (hp : (s.chan c).active.page = some id)
    (hg : (s.chan c).active.giveUp ≠ .none) :
    sent s = (offerTest ((s.chan c).active.givenUp id (emptyActive c (s.burstLeft c)))).restartFinished := by
  rw [sent_of_data h, burstSent_of_giveUp hg, giveUpNow_of_page hp]

/-! ## The statement -/

/-- Settles O35: the burst, the own turn and the frame sent; the descriptors; the give-ups that wait for the frame. -/
theorem ownTurnSendsAndSentFrameLeaves : Obligations.OwnTurnSendsAndSentFrameLeaves := by
  unfold Obligations.OwnTurnSendsAndSentFrameLeaves
  refine ⟨⟨fun next remaining => burstLength_bounds, fun c id g k r s => burstFrame_of_page, fun s hp => ?_⟩,
    fun c s => ⟨burstReady_iff, rfl, emptyActive_of_ungranted, emptyActive_of_granted⟩, fun f s hp => ?_⟩
  · have turn : exec .turnInterval s = .next (ownTurn s) := running_next _ hp
    have run : exec .frameSent s = .next (sent s) := running_next _ hp
    rw [turn, run]
    refine ⟨⟨turnMine_of_known, fun h => congrArg _ (ownTurn_of_idle h), fun hl hf hm => ?_⟩,
      fun h => congrArg _ (sent_of_none h), fun hd => ⟨fun f h => ?_, fun f c h hg => ⟨fun hn => ?_,
      fun hn id g k hpage hgate hslot => ?_⟩⟩⟩
    · rw [ownTurn_of_mine hl hf hm]
      refine ⟨fun f q hq => ?_, fun hq => ⟨fun c hc hd => ?_, fun hc => ?_⟩⟩
      · rw [hq]
        rfl
      · rw [hq, nextBurst_of_ready hc hd]
        rfl
      · rw [hq, nextBurst_of_none hc]
    · rw [sent_of_control h]
      exact congrArg _ (restartFinished_of_none hd)
    · rw [sent_of_data h, burstSent_of_part hg hn]
      exact congrArg _ (restartFinished_of_none ((burstCounted_restartDue _).trans hd))
    · rw [sent_of_data h, burstSent_of_whole hg hn, pageSent_of_counted hpage hgate hslot, restartFinished_of_none]
      · rfl
      · rw [offerTest_oru, emptyActive, updChan_oru]
        exact (burstCounted_restartDue _).trans hd
  · have run : exec .frameSent s = .next (sent s) := running_next _ hp
    rw [run]
    refine ⟨fun h => congrArg _ (sent_of_control h), fun c h => congrArg _ (sent_of_orphan h),
      fun c id h hpage => ⟨fun hg => ?_, fun hg hfatal => ?_, fun hg hs => ?_, fun hg hs => ?_⟩⟩
    · obtain hg | ⟨hg, hfatal⟩ := hg
      · rw [sent_of_giveUp h hpage (by rw [hg]; decide), Desc.givenUp, hg]
        rfl
      · rw [sent_of_giveUp h hpage (by rw [hg]; decide), Desc.givenUp, hg, hfatal]
        rfl
    · rw [sent_of_giveUp h hpage (by rw [hg]; decide), Desc.givenUp, hg, hfatal]
      rfl
    · rw [sent_of_giveUp h hpage (by rw [hg]; decide), Desc.givenUp, hg, hs]
      rfl
    · rw [sent_of_giveUp h hpage (by rw [hg]; decide), Desc.givenUp, hg, hs]
      rfl

end Sys2Proof.Machine
end

section
/-! A frame accepted (O37): the station's own address heard as a source, delivery by line state, range, role and room,
and the frame command of each kind. -/

namespace Sys2Proof.Machine

variable {s : State} {f : Frame} {c : Instr}

/-! ## Conflict (R108) -/

theorem conflict_of_on (h : s.fli.line = .listening ∨ s.fli.line = .joined) :
    conflict s = raise .lineConflict (s.modFli fun l => { l with
      line := .conflict, txQueue := [], unsent := min 65535 (l.unsent + l.txQueue.length)
      presenceDue := none, joinDue := none }) := by
  unfold conflict
  obtain h | h := h <;> rw [h]

theorem conflict_of_off (h : s.fli.line = .unaddressed ∨ s.fli.line = .conflict) : conflict s = s := by
  unfold conflict
  obtain h | h := h <;> rw [h]

/-! ## Frame commands (R99, steps 3 and 5) -/

theorem commandFrame_of_order {h : Hdr} {o : Order} (hc : commandOrder c = some (h, o)) :
    commandFrame c = some ⟨h, .order o⟩ := by
  cases c <;> cases hc <;> rfl

theorem exec_of_own (hf : commandFrame c = some f) (hp : s.power = .running) (hs : f.hdr.src = s.oru.address) :
    exec c s = .next (conflict s) := by
  rw [exec_of_commandFrame c f hf, frameIn, running_next _ hp, if_pos hs]

theorem exec_of_reached (hf : commandFrame c = some f) (hp : s.power = .running) (hh : s.reached f.hdr) :
    exec c s = .next (accept f s) := by
  rw [exec_of_commandFrame c f hf, frameIn, running_next _ hp, if_neg hh.2, arrive, if_pos hh.1]

/-- The orders that a command spells: a QUERY names a batch only where its subject has one. -/
def Order.spelled : Order → Prop
  | .undecodable => False
  | .query q b _ => q = .batch ∨ q = .holes ∨ q = .commit ∨ b = 0
  | _ => True

/-- The payloads that a frame command spells: neither what ORU sends nor PRESENCE, which the peer table takes first. -/
def Payload.spelled : Payload → Prop
  | .order o => o.spelled
  | .orderAnswer _ _ | .attention _ | .presence _ => False
  | _ => True

theorem spelled_of_commandFrame (hf : commandFrame c = some f) : f.payload.spelled := by
  cases c <;> cases hf <;> simp [Payload.spelled, Order.spelled]

theorem exists_query (h : Hdr) (q : Subject) (b i : Nat) (hs : (Order.query q b i).spelled) :
    ∃ c, commandFrame c = some ⟨h, .order (.query q b i)⟩ := by
  have unbatched (hb : q ≠ .batch) (hh : q ≠ .holes) (hc : q ≠ .commit) : b = 0 :=
    ((hs.resolve_left hb).resolve_left hh).resolve_left hc
  cases q with
  | batch => exact ⟨.queryBatch h b i, rfl⟩
  | holes => exact ⟨.queryHoles h b i, rfl⟩
  | commit => exact ⟨.queryCommit h b i, rfl⟩
  | station => exact ⟨.queryStation h i, by rw [unbatched nofun nofun nofun]; rfl⟩
  | fill => exact ⟨.queryFill h i, by rw [unbatched nofun nofun nofun]; rfl⟩
  | channels => exact ⟨.queryChannels h i, by rw [unbatched nofun nofun nofun]; rfl⟩
  | peers => exact ⟨.queryPeers h i, by rw [unbatched nofun nofun nofun]; rfl⟩
  | slots => exact ⟨.querySlots h i, by rw [unbatched nofun nofun nofun]; rfl⟩
  | counters => exact ⟨.queryCounters h i, by rw [unbatched nofun nofun nofun]; rfl⟩
  | attention => exact ⟨.queryAttention h i, by rw [unbatched nofun nofun nofun]; rfl⟩

theorem exists_order (h : Hdr) (o : Order) (hs : o.spelled) :
    ∃ c, commandFrame c = some ⟨h, .order o⟩ := by
  cases o with
  | openBatch b g a => exact ⟨.openBatch h b g a, rfl⟩
  | endBatch b => exact ⟨.endBatch h b, rfl⟩
  | abandonBatch b => exact ⟨.abandonBatch h b, rfl⟩
  | waiveHoles b ps => exact ⟨.waiveHoles h b ps, rfl⟩
  | closeAgain b => exact ⟨.closeAgain h b, rfl⟩
  | fill b => exact ⟨.fill h b, rfl⟩
  | fillCancel => exact ⟨.fillCancel h, rfl⟩
  | loadExemption k e v m mask pat => exact ⟨.loadExemption h k e v m mask pat, rfl⟩
  | learnExemption k e m mask => exact ⟨.learnExemption h k e m mask, rfl⟩
  | query q b i => exact exists_query h q b i hs
  | ackAttention cs => exact ⟨.ackAttention h cs, rfl⟩
  | restart => exact ⟨.restart h, rfl⟩
  | undecodable => exact hs.elim

theorem exists_commandFrame (h : Hdr) (p : Payload) (hs : p.spelled) : ∃ c, commandFrame c = some ⟨h, p⟩ := by
  cases p with
  | order o => exact exists_order h o hs
  | orderAnswer code body => exact hs.elim
  | attention cs => exact hs.elim
  | presence r => exact hs.elim
  | batchOpen b g => exact ⟨.batchOpen h b g, rfl⟩
  | openAccept b => exact ⟨.openAccept h b, rfl⟩
  | openRefuse b r => exact ⟨.openRefuse h b r, rfl⟩
  | batchGone b => exact ⟨.batchGone h b, rfl⟩
  | abandon b => exact ⟨.abandon h b, rfl⟩
  | close b n ps => exact ⟨.close h b n ps, rfl⟩
  | committed b => exact ⟨.committed h b, rfl⟩
  | incomplete b t e ps => exact ⟨.incomplete h b t e ps, rfl⟩
  | unknown b => exact ⟨.unknown h b, rfl⟩
  | holeClaim b w ps => exact ⟨.holeClaim h b w ps, rfl⟩
  | holeGrant b g gs => exact ⟨.holeGrant h b g gs, rfl⟩
  | holeNone b => exact ⟨.holeNone h b, rfl⟩
  | holeRefuse b r => exact ⟨.holeRefuse h b r, rfl⟩
  | filled b p => exact ⟨.filled h b p, rfl⟩
  | release b final ps => exact ⟨.release h b final ps, rfl⟩
  | pageOffer p k size mark => exact ⟨.pageOffer h p k size mark, rfl⟩
  | slotGrant slot start => exact ⟨.slotGrant h slot start, rfl⟩
  | slotWait => exact ⟨.slotWait h, rfl⟩
  | pageRefuse r => exact ⟨.pageRefuse h r, rfl⟩
  | pageStored p slot => exact ⟨.pageStored h p slot, rfl⟩
  | pageFail p slot => exact ⟨.pageFail h p slot, rfl⟩
  | pageFault p slot => exact ⟨.pageFault h p slot, rfl⟩
  | pageData slot off bytes => exact ⟨.pageData h slot off bytes, rfl⟩

theorem exists_commandFrame_iff : (∃ c, commandFrame c = some f) ↔ f.payload.spelled :=
  ⟨fun ⟨_, hf⟩ => spelled_of_commandFrame hf, exists_commandFrame f.hdr f.payload⟩

/-! ## A frame accepted, by line state and range (R100, R195) -/

/-- The line state lets the frame reach the block that owns its kind (R100). -/
def State.delivers (s : State) (f : Frame) : Prop :=
  (s.fli.line = .joined ∨ s.fli.line = .conflict) ∨
    (s.fli.line = .listening ∧ s.oru.role = .scanner ∧ directoryFrame f.payload = true)

theorem accept_of_unaddressed (h : s.fli.line = .unaddressed) : accept f s = s := if_pos h

theorem accept_of_unfit (hl : s.fli.line ≠ .unaddressed) (hr : ¬ f.payload.inRange f.hdr.src = true) :
    accept f s = malformedFrame s := by
  rw [accept, if_neg hl, if_pos hr]

theorem accept_of_listening (hl : s.fli.line = .listening) (hr : f.payload.inRange f.hdr.src = true)
    (hd : ¬ (s.oru.role = .scanner ∧ directoryFrame f.payload = true)) :
    accept f s = s.modFli fun l => { l with listeningDiscards := bump16 l.listeningDiscards } := by
  rw [accept, if_neg (by simp [hl]), if_neg (not_not_intro hr), hl]
  exact if_neg hd

theorem accept_of_delivers (hd : s.delivers f) (hr : f.payload.inRange f.hdr.src = true) :
    accept f s = deliver f s := by
  unfold accept
  obtain (hl | hl) | ⟨hl, hdir⟩ := hd
  · simp [hl, hr]
  · simp [hl, hr]
  · simp [hl, hr, hdir]

/-! ## Delivery by role and room (R101, R102) -/

theorem canTake_iff : canTake f s = true ↔ (∀ o, f.payload ≠ .order o) ∨ s.oru.restartDue = none := by
  unfold canTake
  split
  · rename_i o h
    simp [h, Option.isNone_iff_eq_none]
  · rename_i h
    simpa using Or.inl h

theorem deliver_of_unowned (ho : ¬ f.payload.owned s.oru.role = true) :
    deliver f s = s.modFli fun l => { l with roleDiscards := bump16 l.roleDiscards } := if_pos ho

theorem deliver_of_presence (hp : ∃ r, f.payload = .presence r) : deliver f s = s := by
  obtain ⟨r, hr⟩ := hp
  simp [deliver, hr, Payload.owned]

theorem deliver_of_data (ho : f.payload.owned s.oru.role = true)
    (hd : ∃ n off bytes, f.payload = .pageData n off bytes) :
    deliver f s = take f s := by
  obtain ⟨n, off, bytes, hd⟩ := hd
  rw [deliver, if_neg (not_not_intro ho), hd]

theorem deliver_of_other (ho : f.payload.owned s.oru.role = true) (hp : ¬ ∃ r, f.payload = .presence r)
    (hd : ¬ ∃ n off bytes, f.payload = .pageData n off bytes) : deliver f s = receive f s := by
  rw [deliver, if_neg (not_not_intro ho)]
  split
  · exact absurd ⟨_, ‹_›⟩ hp
  · exact absurd ⟨_, _, _, ‹_›⟩ hd
  · rfl

theorem receive_of_full (h : 16 ≤ s.fli.rxQueue.length) :
    receive f s = s.modFli fun l => { l with rxOverflows := bump16 l.rxOverflows } := if_pos h

theorem receive_of_waiting (hr : s.fli.rxQueue.length < 16) (hw : s.fli.rxQueue ≠ [] ∨ ¬ canTake f s = true) :
    receive f s = s.modFli fun l => { l with rxQueue := l.rxQueue ++ [f] } := by
  have hroom : ¬ Config.queueFrames ≤ s.fli.rxQueue.length := Nat.not_le.mpr hr
  rw [receive, if_neg hroom, if_neg fun hc => hw.elim (absurd hc.1) (absurd hc.2)]

theorem receive_of_ready (hq : s.fli.rxQueue = []) (hc : canTake f s = true) : receive f s = take f s := by
  rw [receive, if_neg (by rw [hq]; decide), if_pos ⟨hq, hc⟩]

/-! ## Orders that no command spells (R182, R196) -/

theorem accept_order {h : Hdr} (o : Order) (hl : s.listens) (hd : s.oru.restartDue = none) :
    accept ⟨h, .order o⟩ s = takeOrder h o s := by
  have hc : canTake ⟨h, .order o⟩ s = true := canTake_iff.mpr (Or.inr hd)
  rw [accept_of_delivers (Or.inl hl.2.1) rfl, deliver_of_other rfl (by simp) (by simp), receive_of_ready hl.2.2 hc]
  rfl

theorem takeOrder_of_broadcast {h : Hdr} (o : Order) (hd : h.dst = 255) : takeOrder h o s =
    s.modOru fun u => { u with broadcastOrders := bump16 u.broadcastOrders } := if_pos hd

theorem takeOrder_of_stranger {h : Hdr} (o : Order) (ht : s.takesOrder h) (hs : h.src ≠ 0) : takeOrder h o s =
    answer h .notConsole [] (s.orderCounted.modOru fun u => { u with refusedSource := bump16 u.refusedSource }) := by
  obtain ⟨-, -, -, hb, -⟩ := ht
  rw [takeOrder, if_neg hb]
  exact if_pos hs

theorem takeOrder_of_badArgument {h : Hdr} (o : Order) (ht : s.consoleOrder h) (ha : ¬ o.argsOk = true) :
    takeOrder h o s = answer h .badArgument [] s.orderCounted := by
  obtain ⟨⟨-, -, -, hb, -⟩, hs⟩ := ht
  rw [takeOrder, if_neg hb]
  simp only [hs, ne_eq, not_true_eq_false, if_false, ha]
  rfl

theorem answerQuery_of_unbatched {q : Subject} (b i : Nat) (hb : q ≠ .batch) (hh : q ≠ .holes) (hc : q ≠ .commit) :
    answerQuery q b i s = answerQuery q 0 i s := by
  cases q <;> first | rfl | contradiction

theorem takeOrder_of_unbatched {h : Hdr} {q : Subject} (b i : Nat) (hb : q ≠ .batch) (hh : q ≠ .holes)
    (hc : q ≠ .commit) : takeOrder h (.query q b i) s = takeOrder h (.query q 0 i) s := by
  have run : ∀ u : State, runOrder h (.query q b i) u = runOrder h (.query q 0 i) u := fun u => by
    simp only [runOrder, answerQuery_of_unbatched b i hb hh hc]
  simp only [takeOrder, run]
  rfl

/-! ## The ranges of R195 and the owners of R101 -/

theorem batchOk_iff {b : Nat} : batchOk b = true ↔ 1 ≤ b ∧ b ≤ 16777215 := by
  rw [batchOk, Bool.and_eq_true, decide_eq_true_eq, decide_eq_true_eq]
  rfl

theorem positionOk_iff {p : Nat} : positionOk p = true ↔ 1 ≤ p ∧ p ≤ 4095 := by
  rw [positionOk, Bool.and_eq_true, decide_eq_true_eq, decide_eq_true_eq]
  rfl

theorem gatewayOk_iff {g : Nat} : gatewayOk g = true ↔ 1 ≤ g ∧ g ≤ 15 := by
  rw [gatewayOk, Bool.and_eq_true, decide_eq_true_eq, decide_eq_true_eq]

theorem grantOk_iff {x : Nat × AttrSet} : grantOk x = true ↔
    (1 ≤ x.1 ∧ x.1 ≤ 4095) ∧ (∀ l, x.2.nominal = some l → l ≤ 2000) ∧ x.2.tolerance ≤ 50 := by
  unfold grantOk
  cases x.2.nominal <;> simp [positionOk_iff, and_assoc]

theorem presence_inRange {src : Nat} {r : PresenceRole} :
    (Payload.presence r).inRange src = true ↔ (r = .console → src = 0) := by
  cases r <;> simp [Payload.inRange]

theorem all_positionOk_iff {ps : List Nat} : ps.all positionOk = true ↔ ∀ p ∈ ps, 1 ≤ p ∧ p ≤ 4095 := by
  simp only [List.all_eq_true, positionOk_iff]

theorem all_grantOk_iff {gs : List (Nat × AttrSet)} : gs.all grantOk = true ↔ ∀ x ∈ gs,
    (1 ≤ x.1 ∧ x.1 ≤ 4095) ∧ (∀ l, x.2.nominal = some l → l ≤ 2000) ∧ x.2.tolerance ≤ 50 := by
  simp only [List.all_eq_true, grantOk_iff]

/-- Settles O37: conflict; a frame accepted, by line state, range, role and room; the orders that no command spells; the
ranges and the owner of each kind. -/
theorem framesByAddressLineAndRole : Obligations.FramesByAddressLineAndRole := by
  unfold Obligations.FramesByAddressLineAndRole
  refine ⟨⟨fun s => ⟨conflict_of_on, conflict_of_off,
      fun c h o hc hp hs => exec_of_own (commandFrame_of_order hc) hp hs⟩,
    fun f s => ?_⟩, fun h s => ⟨fun hl hd hb => ?_, fun ht hs => ?_, fun ht => ?_, fun q b i hl hd hb hh hc => ?_⟩,
    fun src p => ?_, fun role p => ?_⟩
  · intro owned fits directory delivers presence data able effect
    have reached : effect := fun c hc hp hh => exec_of_reached hc hp hh
    have delivered (hd : delivers) (hf : fits) : accept f s = deliver f s := accept_of_delivers hd hf
    refine ⟨accept_of_unaddressed, accept_of_unfit, accept_of_listening, fun hd hf ho => ?_, fun hd hf hp => ?_,
      fun hd hf ho hp hn hr => ?_, fun hd hf ho hp hn hr hw => ?_, fun hd hf ho hp hn hq ha => ⟨?_, reached⟩,
      fun hd hf ho hn => ⟨?_, reached⟩, reached, ?_⟩
    · exact (delivered hd hf).trans (deliver_of_unowned ho)
    · exact (delivered hd hf).trans (deliver_of_presence hp)
    · exact (delivered hd hf).trans ((deliver_of_other ho hp hn).trans (receive_of_full hr))
    · have hwait : s.fli.rxQueue ≠ [] ∨ ¬ canTake f s = true := hw.imp_right (mt canTake_iff.mp)
      exact (delivered hd hf).trans ((deliver_of_other ho hp hn).trans (receive_of_waiting hr hwait))
    · exact (delivered hd hf).trans ((deliver_of_other ho hp hn).trans (receive_of_ready hq (canTake_iff.mpr ha)))
    · exact (delivered hd hf).trans (deliver_of_data ho hn)
    · rw [exists_commandFrame_iff]
      cases f.payload with
      | order o => cases o <;> rfl
      | _ => rfl
  · rw [accept_order _ hl hd, takeOrder_of_broadcast _ hb]
    rfl
  · obtain ⟨hl, hd, -⟩ := id ht
    rw [accept_order _ hl hd, takeOrder_of_stranger _ ht hs]
    rfl
  · obtain ⟨⟨hl, hd, -⟩, -⟩ := id ht
    rw [accept_order _ hl hd, takeOrder_of_badArgument _ ht (by decide)]
  · rw [accept_order _ hl hd, accept_order _ hl hd, takeOrder_of_unbatched b i hb hh hc]
  · cases p with
    | presence r => exact presence_inRange
    | close b n ps =>
      simp only [Payload.inRange, Bool.and_eq_true, decide_eq_true_eq, batchOk_iff, all_positionOk_iff, and_assoc]
      rfl
    | incomplete b t e ps =>
      simp only [Payload.inRange, Bool.and_eq_true, decide_eq_true_eq, batchOk_iff, all_positionOk_iff, and_assoc]
      rfl
    | holeGrant b g gs =>
      simp only [Payload.inRange, Bool.and_eq_true, decide_eq_true_eq, batchOk_iff, gatewayOk_iff, all_grantOk_iff,
        and_assoc]
    | pageData n off bytes =>
      simp only [Payload.inRange, Bool.and_eq_true, decide_eq_true_eq]
      rfl
    | _ => simp [Payload.inRange, batchOk_iff, gatewayOk_iff, positionOk_iff, and_assoc]
  · cases p <;> simp [Payload.owned]

end Sys2Proof.Machine
end

section
/-! A frame heard (O36): the check, the header, the station's own address, the peer table and delivery. -/

namespace Sys2Proof.Machine

variable {s : State} {f : RawFrame} {src quiet : Nat} {role : Option PresenceRole}

/-! ## The peer table (R110, R130) -/

/-- The role that a frame gives its source. -/
theorem peerRoleOf_eq (src : Nat) (held : PeerRole) (role : Option PresenceRole) : peerRoleOf src held role =
    if src = 0 then .console else match role with
      | some .scanner => .scanner | some .gateway => .gateway | some .console => .console | none => held := by
  obtain _ | r := role
  · rfl
  · cases r with
    | console => exact (ite_self _).symm
    | _ => rfl

/-- The entry after a frame that gives its source the role `r`. -/
theorem heard_of_role {p : Peer} {now : Nat} {r : PeerRole} (h : peerRoleOf src p.role role = r) :
    p.heard src now role = { state := .present, role := r, heardAt := some now
                             changed := p.changed || p.state != .present || r != p.role } := by
  subst h
  rfl

/-- The state with one entry of the peer table written. -/
def State.withPeer (s : State) (a : Nat) (p : Peer) : State :=
  { s with fli := { s.fli with peers := s.fli.peers.set a p } }

theorem modFli_modify_peers {a : Nat} (f : Peer → Peer) (h : a < s.fli.peers.length) :
    (s.modFli fun l => { l with peers := l.peers.modify a f }) = s.withPeer a (f (s.peer a)) := by
  have hset : s.fli.peers.modify a f = s.fli.peers.set a (f (s.peer a)) := by
    rw [List.modify_eq_set_getElem?, List.getElem?_eq_getElem h, State.peer, List.getD_eq_getElem _ _ h]
    rfl
  rw [State.modFli, hset]
  rfl

/-- The entry of a source after a frame from it (R110). -/
def State.peerAfter (s : State) (src : Nat) (role : Option PresenceRole) : Peer := (s.peer src).heard src s.now role

theorem peerUpdate_eq (hs : src < s.fli.peers.length) : peerUpdate src role s =
    if (s.peer src).state ≠ .present ∧ s.oru.role = .scanner then offerTest (s.withPeer src (s.peerAfter src role))
    else s.withPeer src (s.peerAfter src role) := by
  have back : (!s.isPresent src) = true ↔ (s.peer src).state ≠ .present := by
    rw [Bool.not_eq_true', Bool.eq_false_iff]
    exact not_congr isPresent_iff
  unfold peerUpdate
  rw [modFli_modify_peers _ hs]
  simp only [back]
  rfl

theorem peerUpdate_of_same (hs : src < s.fli.peers.length)
    (hn : s.oru.role = .gateway ∨ (s.peer src).state = .present) :
    peerUpdate src role s = s.withPeer src (s.peerAfter src role) :=
  (peerUpdate_eq hs).trans (if_neg fun ⟨hp, hr⟩ => hn.elim (fun hg => by simp [hg] at hr) hp)

theorem peerUpdate_of_back (hs : src < s.fli.peers.length) (hr : s.oru.role = .scanner)
    (hp : (s.peer src).state ≠ .present) :
    peerUpdate src role s = offerTest (s.withPeer src (s.peerAfter src role)) :=
  (peerUpdate_eq hs).trans (if_pos ⟨hp, hr⟩)

theorem peerUpdate_line (src : Nat) (role : Option PresenceRole) (s : State) :
    (peerUpdate src role s).fli.line = s.fli.line := by
  unfold peerUpdate
  dsimp only
  split
  · exact offerTest_line _
  · rfl

theorem peerUpdate_station (src : Nat) (role : Option PresenceRole) (s : State) :
    (peerUpdate src role s).power = s.power ∧ (peerUpdate src role s).oru.address = s.oru.address :=
  have h := keeps_peerUpdate src role (Keeps.refl s)
  ⟨h.power, h.address⟩

/-! ## The turn after a frame, and the role that it carries (R96, R110) -/

theorem turnAfter_of_first {l : Fli} {a : Nat} (h : l.heardAny = false) : turnAfter l quiet (some a) = some a := by
  simp only [turnAfter, h]

theorem turnAfter_of_other {l : Fli} {a : Option Nat} (h : l.heardAny = true ∨ a = none) :
    turnAfter l quiet a = l.turnHolder.map fun t => (t + quiet + 1) % 16 := by
  obtain h | rfl := h
  · cases a <;> simp only [turnAfter, h] <;> rfl
  · cases hl : l.heardAny <;> simp only [turnAfter, hl] <;> rfl

theorem presenceRoleOf_of_presence {r : PresenceRole} (h : Payload.ofBytes f.kind f.payload = some (.presence r)) :
    presenceRoleOf f = some r := by
  simp only [presenceRoleOf, h]

theorem presenceRoleOf_of_other (h : ∀ r, Payload.ofBytes f.kind f.payload ≠ some (.presence r)) :
    presenceRoleOf f = none := by
  unfold presenceRoleOf
  split
  · exact absurd ‹_› (h _)
  · rfl

/-! ## The check and the header (R99, steps 1 to 3) -/

/-- The state once a whole frame from `src` has been heard. -/
def State.inStep (s : State) (quiet src : Nat) : State :=
  { s with fli := { s.fli with turnHolder := turnAfter s.fli quiet (some src), heardAny := true } }

theorem hear_of_deaf {bytes : List Byte} (h : s.fli.inFlight ≠ none ∨ s.fli.line = .unaddressed) :
    hear quiet bytes s = s := by
  rw [hear, if_pos (h.imp_left Option.isSome_iff_ne_none.mpr)]

theorem not_deaf (hf : s.fli.inFlight = none) (hl : s.fli.line ≠ .unaddressed) :
    ¬ (s.fli.inFlight.isSome = true ∨ s.fli.line = .unaddressed) := by
  simp [hf, hl]

theorem hear_of_unchecked {bytes : List Byte} (hf : s.fli.inFlight = none) (hl : s.fli.line ≠ .unaddressed)
    (hb : RawFrame.ofBytes bytes = none) : hear quiet bytes s = s.modFli fun l => { l with
      turnHolder := turnAfter l quiet none, checkFailures := bump16 l.checkFailures } := by
  rw [hear, if_neg (not_deaf hf hl), hb]

theorem hear_of_frame {bytes : List Byte} (hf : s.fli.inFlight = none) (hl : s.fli.line ≠ .unaddressed)
    (hb : RawFrame.ofBytes bytes = some f) : hear quiet bytes s = hearFrame f (s.inStep quiet f.hdr.src) := by
  rw [hear, if_neg (not_deaf hf hl), hb]
  rfl

theorem headerOk_iff : headerOk f = true ↔ f.hdr.src ≤ 15 ∧ (f.hdr.dst ≤ 15 ∨ f.hdr.dst = 255) ∧
    f.payload.length ≤ (if f.kind = 27 then 4101 else 128) := by
  simp only [headerOk, Bool.and_eq_true, Bool.or_eq_true, decide_eq_true_eq, beq_iff_eq, and_assoc]
  rfl

theorem hearFrame_of_badHeader (h : ¬ headerOk f = true) : hearFrame f s = malformedFrame s := if_pos h

theorem hearFrame_of_own (h : headerOk f = true) (hs : f.hdr.src = s.oru.address) : hearFrame f s = conflict s := by
  rw [hearFrame, if_neg (not_not_intro h), if_pos hs]

/-! ## Steps 4 to 6 of R99 -/

/-- The frame is for this station or for every station (R99, step 5). -/
def State.here (s : State) (h : Hdr) : Prop := h.dst = s.oru.address ∨ h.dst = 255

theorem arrive_of_here {x : Frame} (h : s.here x.hdr) : arrive x s = accept x s := if_pos h

theorem arrive_of_elsewhere {x : Frame} (h : ¬ s.here x.hdr) : arrive x s = s := if_neg h

theorem here_peerUpdate {h : Hdr} : (peerUpdate src role s).here h ↔ s.here h := by
  rw [State.here, (peerUpdate_station src role s).2]
  rfl

theorem hearFrame_of_elsewhere (h : headerOk f = true) (hs : f.hdr.src ≠ s.oru.address) (hh : ¬ s.here f.hdr) :
    hearFrame f s = peerUpdate f.hdr.src (presenceRoleOf f) s := by
  rw [hearFrame, if_neg (not_not_intro h), if_neg hs]
  exact if_neg (mt here_peerUpdate.mp hh)

theorem hearFrame_of_unread (h : headerOk f = true) (hs : f.hdr.src ≠ s.oru.address) (hh : s.here f.hdr)
    (hp : Payload.ofBytes f.kind f.payload = none) :
    hearFrame f s = malformedFrame (peerUpdate f.hdr.src (presenceRoleOf f) s) := by
  rw [hearFrame, if_neg (not_not_intro h), if_neg hs, hp]
  exact if_pos (here_peerUpdate.mpr hh)

theorem hearFrame_of_payload {p : Payload} (h : headerOk f = true) (hs : f.hdr.src ≠ s.oru.address) (hh : s.here f.hdr)
    (hp : Payload.ofBytes f.kind f.payload = some p) :
    hearFrame f s = accept ⟨f.hdr, p⟩ (peerUpdate f.hdr.src (presenceRoleOf f) s) := by
  rw [hearFrame, if_neg (not_not_intro h), if_neg hs, hp]
  exact if_pos (here_peerUpdate.mpr hh)

/-- A frame for this station, of another, is what its command does once the peer table has taken it. -/
theorem exec_of_peerUpdate {c : Instr} {x : Frame} (hc : commandFrame c = some x) (hp : s.power = .running)
    (hs : x.hdr.src ≠ s.oru.address) (hh : s.here x.hdr) :
    exec c (peerUpdate src role s) = .next (accept x (peerUpdate src role s)) := by
  obtain ⟨hpower, haddr⟩ := peerUpdate_station src role s
  exact exec_of_reached hc (hpower.trans hp) ⟨here_peerUpdate.mpr hh, haddr ▸ hs⟩

theorem hearPresence_of_other {h : Hdr} {r : PresenceRole} (hl : s.fli.line ≠ .unaddressed)
    (hs : h.src ≠ s.oru.address) :
    hearPresence h r s = arrive ⟨h, .presence r⟩ (peerUpdate h.src (some r) s) := by
  rw [hearPresence, if_neg hl, if_neg hs]

theorem hearFrame_of_presence {r : PresenceRole} (h : headerOk f = true) (hl : s.fli.line ≠ .unaddressed)
    (hs : f.hdr.src ≠ s.oru.address) (hp : Payload.ofBytes f.kind f.payload = some (.presence r)) :
    hearFrame f s = hearPresence f.hdr r s := by
  rw [hearPresence_of_other hl hs]
  by_cases hh : s.here f.hdr
  · rw [hearFrame_of_payload h hs hh hp, presenceRoleOf_of_presence hp, arrive_of_here (here_peerUpdate.mpr hh)]
  · rw [hearFrame_of_elsewhere h hs hh, presenceRoleOf_of_presence hp,
      arrive_of_elsewhere (mt here_peerUpdate.mp hh)]

/-- Settles O36: the tests of R99 in their order, the turn, the role of a PRESENCE and the peer table. -/
theorem frameHeardJudged : Obligations.FrameHeardJudged := by
  unfold Obligations.FrameHeardJudged
  refine ⟨fun quiet bytes s hp => ?_, fun l quiet src => ⟨fun a hl hs => ?_, turnAfter_of_other⟩,
    fun f => ⟨fun r => presenceRoleOf_of_presence, presenceRoleOf_of_other⟩, fun src role s hs => ?_⟩
  · have run : exec (.frameHeard quiet bytes) s = .next (hear quiet bytes s) := running_next _ hp
    rw [run]
    refine ⟨fun h => congrArg _ (hear_of_deaf h), fun hf hl => ⟨fun hb => congrArg _ (hear_of_unchecked hf hl hb),
      fun f hb => ?_⟩⟩
    rw [hear_of_frame hf hl hb, ← headerOk_iff]
    refine ⟨fun h => congrArg _ (hearFrame_of_badHeader h), fun h hs => congrArg _ (hearFrame_of_own h hs), fun h hs =>
      ⟨fun hh => congrArg _ (hearFrame_of_elsewhere h hs hh), fun hh hn => congrArg _ (hearFrame_of_unread h hs hh hn),
      fun p hh hn => ?_, fun r hn => ?_⟩⟩
    · have heard := hearFrame_of_payload (s := s.inStep quiet f.hdr.src) h hs hh hn
      have told (c : Instr) (hc : commandFrame c = some ⟨f.hdr, p⟩) :=
        exec_of_peerUpdate (s := s.inStep quiet f.hdr.src) (src := f.hdr.src) (role := presenceRoleOf f) hc hp hs hh
      exact ⟨congrArg _ heard, fun c hc => (congrArg _ heard).trans (told c hc).symm⟩
    · have heard := hearFrame_of_presence (s := s.inStep quiet f.hdr.src) h hl hs hn
      have told : exec (.presence f.hdr r) (s.inStep quiet f.hdr.src) =
          .next (hearPresence f.hdr r (s.inStep quiet f.hdr.src)) := running_next _ hp
      exact (congrArg _ heard).trans told.symm
  · subst hs
    exact turnAfter_of_first hl
  · have entry : s.peerAfter src role = _ := heard_of_role (peerRoleOf_eq src (s.peer src).role role)
    refine ⟨fun hn => ?_, fun hr hn => ?_⟩
    · rw [peerUpdate_of_same hs hn, entry]
      rfl
    · rw [peerUpdate_of_back hs hr hn, entry]
      rfl

end Sys2Proof.Machine
end

section
/-! A PRESENCE heard and a peer that falls silent (O38), with what the Transfer Engine, the Batch Controller and the
Intake Controller do on the notice. -/

namespace Sys2Proof.Machine

variable {s : State} {a g : Nat} {c : ChanId}

/-! ## A PRESENCE heard (R99, R109, R110) -/

section Presence

variable {h : Hdr} {role : PresenceRole}

theorem peerRoleOf_presence (src : Nat) (held : PeerRole) (role : PresenceRole) : peerRoleOf src held (some role) =
    if src = 0 then .console else match role with
      | .scanner => .scanner | .gateway => .gateway | .console => .console := by
  rw [peerRoleOf_eq]
  cases role <;> rfl

/-- The state in which the peer table has taken the PRESENCE. -/
def State.presenceTaken (s : State) (h : Hdr) (role : PresenceRole) : State := peerUpdate h.src (some role) s

theorem presenceTaken_line : (s.presenceTaken h role).fli.line = s.fli.line := peerUpdate_line _ _ _

theorem hearPresence_of_elsewhere (hl : s.fli.line ≠ .unaddressed) (hs : h.src ≠ s.oru.address) (hh : ¬ s.here h) :
    hearPresence h role s = s.presenceTaken h role := by
  rw [hearPresence_of_other hl hs, arrive_of_elsewhere (mt here_peerUpdate.mp hh)]
  rfl

theorem hearPresence_of_here (hl : s.fli.line ≠ .unaddressed) (hs : h.src ≠ s.oru.address) (hh : s.here h) :
    hearPresence h role s = accept ⟨h, .presence role⟩ (s.presenceTaken h role) := by
  rw [hearPresence_of_other hl hs, arrive_of_here (here_peerUpdate.mpr hh)]
  rfl

theorem accept_presence_of_bad (hl : s.fli.line ≠ .unaddressed) (hb : role = .console ∧ h.src ≠ 0) :
    accept ⟨h, .presence role⟩ s = malformedFrame s :=
  accept_of_unfit hl fun hr => hb.2 (presence_inRange.mp hr hb.1)

theorem accept_presence_of_listening (hl : s.fli.line = .listening) (hb : ¬ (role = .console ∧ h.src ≠ 0)) :
    accept ⟨h, .presence role⟩ s = s.modFli fun l => { l with listeningDiscards := bump16 l.listeningDiscards } :=
  accept_of_listening hl (presence_inRange.mpr fun hr => by_contra fun h0 => hb ⟨hr, h0⟩) fun hd => nomatch hd.2

theorem accept_presence_of_on (hu : s.fli.line ≠ .unaddressed) (hl : s.fli.line ≠ .listening)
    (hb : ¬ (role = .console ∧ h.src ≠ 0)) : accept ⟨h, .presence role⟩ s = s := by
  have hon : s.fli.line = .joined ∨ s.fli.line = .conflict := by
    cases hline : s.fli.line with
    | unaddressed => exact absurd hline hu
    | listening => exact absurd hline hl
    | joined => exact Or.inl rfl
    | conflict => exact Or.inr rfl
  rw [accept_of_delivers (Or.inl hon) (presence_inRange.mpr fun hr => by_contra fun h0 => hb ⟨hr, h0⟩)]
  exact deliver_of_presence ⟨role, rfl⟩

end Presence

/-! ## A silence limit reached (R111) -/

/-- The state in which a peer has been marked SILENT. -/
def State.silenced (s : State) (a heard : Nat) : State := raise .peerSilent { s with
  now := max s.now (heard + s.oru.settings.silenceMultiple * s.oru.settings.presenceMs)
  fli := { s.fli with peers := s.fli.peers.set a { s.peer a with state := .silent, changed := true } } }

theorem silenced_role (s : State) (a heard : Nat) : (s.silenced a heard).oru.role = s.oru.role :=
  (keeps_raise .peerSilent (Keeps.refl _)).role

theorem silenceOver_of_present {heard : Nat} (hl : s.fli.line ≠ .unaddressed) (ha : a < s.fli.peers.length)
    (hp : (s.peer a).state = .present) (hh : (s.peer a).heardAt = some heard) :
    silenceOver a s = match s.oru.role with
      | .scanner => txeSilence a (bctSilence a (s.silenced a heard))
      | .gateway => ictSilence a (s.silenced a heard) := by
  have marked := modFli_modify_peers (s := s.advanceTo (heard + silenceMs s.oru.settings))
    (fun p => { p with state := .silent, changed := true }) ha
  unfold silenceOver
  split
  · exact absurd ‹_› hl
  · rename_i t ht _
    obtain rfl : t = heard := Option.some.inj (ht.symm.trans hh)
    rw [if_pos (isPresent_iff.mpr hp), ← silenced_role s a t]
    simp only [marked]
    rfl
  · rename_i ht _
    rw [hh] at ht
    cases ht

/-! ## What TXE does (R129) -/

/-- The state in which a channel's staged page for a silent gateway has gone back. -/
def State.stagedReturned (s : State) (g : Nat) (c : ChanId) : State :=
  if (s.chan c).staged.phase ≠ .empty ∧ (s.chan c).staged.gateway = some g then
    toReady ((s.chan c).staged.page.getD 0) (emptyStaged c s)
  else s

/-- The channel streams its active page to the gateway. -/
def State.streamsTo (s : State) (g : Nat) (c : ChanId) : Prop :=
  (s.chan c).active.phase = .streaming ∧ (s.chan c).active.gateway = some g

theorem silenceChan_of_other (h : ¬ (s.stagedReturned g c).streamsTo g c) : silenceChan g c s = s.stagedReturned g c :=
  if_neg h

theorem silenceChan_of_quiet (h : (s.stagedReturned g c).streamsTo g c)
    (hb : (s.stagedReturned g c).bursting c = false) : silenceChan g c s =
      toReady (((s.stagedReturned g c).chan c).active.page.getD 0) (emptyActive c (s.stagedReturned g c)) :=
  (if_pos h).trans (if_neg (Bool.eq_false_iff.mp hb))

theorem withReturn_eq (x : GiveUp) : GiveUp.withReturn x = if x = .none then .ret else x := by cases x <;> rfl

theorem silenceChan_of_bursting (h : (s.stagedReturned g c).streamsTo g c)
    (hb : (s.stagedReturned g c).bursting c = true) : silenceChan g c s = (s.stagedReturned g c).updChan c fun ch =>
      { ch with active := { ch.active with
        giveUp := if ch.active.giveUp = .none then .ret else ch.active.giveUp } } := by
  simp only [← withReturn_eq]
  exact (if_pos h).trans (if_pos hb)

/-! ## What BCT does (R7, R167) -/

theorem released_of_silent (a : Nat) (x : Hole) : x.released a true [] =
    if x.state = .claimed ∧ x.claimant = some a then
      { x with state := .vacant, claimant := none, retries := min 255 (x.retries + 1) }
    else x := by
  simp only [Hole.released, Hole.claimedBy, Bool.true_or, Bool.and_true, Bool.and_eq_true, beq_iff_eq]
  rfl

theorem terminal_iff {b : BatchState} : b.terminal = true ↔ b = .committed ∨ b = .refused ∨ b = .abandoned := by
  cases b <;> simp [BatchState.terminal]

theorem ownerSilent_eq (a : Nat) (s : State) : ownerSilent a s =
    { s with bct := { s.bct with batches := s.bct.batches.map fun r =>
      if r.state = .committed ∨ r.state = .refused ∨ r.state = .abandoned then r
      else { r with holes := r.holes.map fun x =>
        if x.state = .claimed ∧ x.claimant = some a then
          { x with state := .vacant, claimant := none, retries := min 255 (x.retries + 1) }
        else x } } } := by
  have reopened : Hole.released a true [] = fun x => if x.state = .claimed ∧ x.claimant = some a then
      { x with state := .vacant, claimant := none, retries := min 255 (x.retries + 1) } else x :=
    funext (released_of_silent a)
  simp only [ownerSilent, terminal_iff, reopened]
  rfl

theorem bctSilence_eq (a : Nat) (s : State) : bctSilence a s = ownerSilent a
    (((s.bct.batches.filter fun r => r.state == .opening && r.gateway == a).map (·.number)).foldl
      (fun s b => refuseBatch b .gatewaySilent true s) s) := by
  rw [List.foldl_map]
  rfl

/-! ## What ICT does (R141) -/

theorem filling_ofSender (a : Nat) (sl : Slot) : (sl.filling && sl.ofSender a) =
    ((sl.state == .granted || sl.state == .receiving) && sl.hold.any fun x => x.sender == a) := by
  unfold Slot.filling Slot.ofSender Slot.inUse
  cases sl.state <;> rfl

theorem ictSilence_eq (a : Nat) (s : State) : ictSilence a s = freeSlots (s.slotsWhere fun sl =>
    (sl.state == .granted || sl.state == .receiving) && sl.hold.any fun x => x.sender == a) s := by
  simp only [ictSilence, filling_ofSender]

/-- Settles O38: a PRESENCE by its address and range and by line state, the silence limit, and what each block does. -/
theorem presenceAndSilence : Obligations.PresenceAndSilence := by
  unfold Obligations.PresenceAndSilence
  refine ⟨⟨fun h role s hp hl hs hlen => ?_, fun a heard s hp hl ha hpres hheard => ⟨fun hr => ?_, fun hr => ?_⟩⟩,
    fun g c s => ⟨rfl, silenceChan_of_other, silenceChan_of_quiet, silenceChan_of_bursting⟩, fun a s => ?_,
    fun a s => ?_⟩
  · intro held r now t u here bad run
    have told : run = .next (hearPresence h role s) := running_next _ hp
    have entry : s.peerAfter h.src (some role) = now :=
      heard_of_role (peerRoleOf_presence h.src held.role role)
    have taken : s.presenceTaken h role = u := by
      rw [State.presenceTaken, peerUpdate_eq hlen, entry]
      rfl
    have hline : u.fli.line = s.fli.line := taken ▸ presenceTaken_line
    have hon : u.fli.line ≠ .unaddressed := hline ▸ hl
    have reached (hh : here) : hearPresence h role s = accept ⟨h, .presence role⟩ u :=
      taken ▸ hearPresence_of_here hl hs hh
    rw [told]
    refine ⟨fun hh => ?_, fun hh hb => ?_, fun hh hb hn => ?_, fun hh hb hn => ?_⟩
    · rw [hearPresence_of_elsewhere hl hs hh, taken]
    · rw [reached hh]
      exact congrArg _ (accept_presence_of_bad hon hb)
    · rw [reached hh]
      exact congrArg _ (accept_presence_of_on hon (hline ▸ hn) hb)
    · rw [reached hh]
      exact congrArg _ (accept_presence_of_listening (hline.trans hn) hb)
  · have run : exec (.silenceLimitExpiry a) s = .next (silenceOver a s) := running_next _ hp
    rw [run, silenceOver_of_present hl ha hpres hheard, hr]
    rfl
  · have run : exec (.silenceLimitExpiry a) s = .next (silenceOver a s) := running_next _ hp
    rw [run, silenceOver_of_present hl ha hpres hheard, hr]
    rfl
  · rw [bctSilence_eq, ownerSilent_eq]
  · rw [ictSilence_eq, freeSlots_slotsWhere]

end Sys2Proof.Machine
end

section
/-! The answers to a PAGE OFFER and their timers (O51): the channel whose offer waits, and what a grant in range, a
grant out of range, a wait and a refusal make of it. -/

namespace Sys2Proof.Machine

variable {s : State} {c : ChanId} {h : Hdr} {id slot start : Nat} {r : PageRec}

/-! ## The offer that an answer is for (R116) -/

/-- The descriptor's offer waits for an answer of this tag and source. -/
def Desc.asked (d : Desc) (h : Hdr) : Prop :=
  d.phase = .offered ∧ d.askTag = some h.tag ∧ d.gateway = some h.src

theorem asked_iff {d : Desc} :
    (d.phase == .offered && d.askTag == some h.tag && d.gateway == some h.src) = true ↔ d.asked h := by
  simp [Desc.asked, and_assoc]

theorem offerAnswered_of_none (ha : ¬ s.txe.chanA.staged.asked h) (hb : ¬ s.txe.chanB.staged.asked h) :
    s.offerAnswered h = none :=
  (if_neg (mt asked_iff.mp ha)).trans (if_neg (mt asked_iff.mp hb))

theorem offerAnswered_of_asked (hc : (s.chan c).staged.asked h) (ha : c = .b → ¬ s.txe.chanA.staged.asked h) :
    s.offerAnswered h = some c := by
  cases c with
  | a => exact if_pos (asked_iff.mpr hc)
  | b => exact (if_neg (mt asked_iff.mp (ha rfl))).trans (if_pos (asked_iff.mpr hc))

/-- The three answers as a scanner that listens takes them. -/
theorem offerAnswers_taken (hs : s.scans) (hl : s.listens) (hh : s.reached h) (slot start : Nat) (reason : PageRefusal) :
    exec (.slotGrant h slot start) s = .next (takeSlotGrant h slot start s) ∧
      exec (.slotWait h) s = .next (takeSlotWait h s) ∧
      exec (.pageRefuse h reason) s = .next (takePageRefuse h reason s) :=
  ⟨exec_taken (f := ⟨h, .slotGrant slot start⟩) rfl hl hh rfl (by rw [hs.2]; rfl) (by simp),
    exec_taken (f := ⟨h, .slotWait⟩) rfl hl hh rfl (by rw [hs.2]; rfl) (by simp),
    exec_taken (f := ⟨h, .pageRefuse reason⟩) rfl hl hh rfl (by rw [hs.2]; rfl) (by simp)⟩

/-! ## SLOT GRANT (R117, R122) -/

theorem grantOkay_iff : grantOkay slot start = true ↔ slot < 48 ∧ start % 16 = 0 ∧ start ≤ 4080 := by
  have hn : Config.slots = 48 := rfl
  simp [grantOkay, hn, and_assoc]

/-- The channel with its staged page given a slot. -/
def Channel.given (ch : Channel) (slot start size : Nat) : Channel :=
  { ch with staged := ch.staged.granted slot start size }

theorem promoteChan_given_of_free {ch : Channel} {size : Nat} (he : ch.active.phase = .empty) :
    promoteChan (ch.given slot start size) = { ch with
      active := { ch.staged.granted slot start size with phase := .streaming, lastBurst := none, giveUp := .none }
      staged := emptyDesc (ch.staged.granted slot start size) } :=
  if_pos ⟨rfl, he⟩

theorem promoteChan_given_of_busy {ch : Channel} {size : Nat} (he : ch.active.phase ≠ .empty) :
    promoteChan (ch.given slot start size) = ch.given slot start size :=
  if_neg fun hc => he hc.2

/-- The state with a grant counted. -/
def State.grantCounted (s : State) : State := s.modTxe fun t => { t with grants := bump16 t.grants }

theorem grantCounted_chan (c : ChanId) : s.grantCounted.chan c = s.chan c := by cases c <;> rfl

/-- The state in which the page of a granted offer has its slot, and is promoted where the channel is free. -/
def State.slotGiven (s : State) (c : ChanId) (slot start size : Nat) : State :=
  s.grantCounted.updChan c fun ch => promoteChan (ch.given slot start size)

theorem slotGiven_chan (size : Nat) :
    (s.slotGiven c slot start size).chan c = promoteChan ((s.chan c).given slot start size) := by
  rw [State.slotGiven, updChan_chan, grantCounted_chan]

theorem slotGiven_of_free {size : Nat} (he : (s.chan c).active.phase = .empty) :
    s.slotGiven c slot start size =
      let d := (s.chan c).staged.granted slot start size
      s.grantCounted.updChan c fun ch => { ch with
        active := { d with phase := .streaming, lastBurst := none, giveUp := .none }, staged := emptyDesc d } := by
  refine updChan_congr ?_
  rw [grantCounted_chan]
  exact promoteChan_given_of_free he

theorem slotGiven_of_busy {size : Nat} (he : (s.chan c).active.phase ≠ .empty) :
    s.slotGiven c slot start size =
      s.grantCounted.updChan c fun ch => { ch with staged := (s.chan c).staged.granted slot start size } := by
  refine updChan_congr ?_
  rw [grantCounted_chan]
  exact promoteChan_given_of_busy he

theorem takeSlotGrant_of_okay (hc : s.offerAnswered h = some c) (hp : (s.chan c).staged.page = some id)
    (hr : s.findRec id = some r) (hok : grantOkay slot start = true) :
    takeSlotGrant h slot start s =
      if (promoteChan ((s.chan c).given slot start r.size)).staged.phase = .empty then
        offerTest (s.slotGiven c slot start r.size)
      else s.slotGiven c slot start r.size := by
  rw [← slotGiven_chan]
  simp only [takeSlotGrant, hc, hp, hok, Option.getD_some, hr, Option.map_some, if_true]
  rfl

/-- A page that finds its channel's active descriptor EMPTY is promoted, and the channels make an offer test. -/
theorem takeSlotGrant_of_free (hc : s.offerAnswered h = some c) (hp : (s.chan c).staged.page = some id)
    (hr : s.findRec id = some r) (hok : grantOkay slot start = true) (he : (s.chan c).active.phase = .empty) :
    takeSlotGrant h slot start s = offerTest (s.slotGiven c slot start r.size) := by
  rw [takeSlotGrant_of_okay hc hp hr hok, promoteChan_given_of_free he]
  exact if_pos rfl

theorem takeSlotGrant_of_busy (hc : s.offerAnswered h = some c) (hp : (s.chan c).staged.page = some id)
    (hr : s.findRec id = some r) (hok : grantOkay slot start = true) (he : (s.chan c).active.phase ≠ .empty) :
    takeSlotGrant h slot start s = s.slotGiven c slot start r.size := by
  rw [takeSlotGrant_of_okay hc hp hr hok, promoteChan_given_of_busy he]
  exact if_neg (by simp [Channel.given, Desc.granted])

theorem takeSlotGrant_of_bad (hc : s.offerAnswered h = some c) (hp : (s.chan c).staged.page = some id)
    (hok : ¬ grantOkay slot start = true) : takeSlotGrant h slot start s =
      offerTest (startRetry c (staleAnswer (toReady id (emptyStaged c s)))) := by
  simp only [takeSlotGrant, hc, hp, Option.getD_some]
  exact if_neg hok

/-! ## The other answers and the timers (R118, R119, R121) -/

theorem takeSlotWait_of_asked (hc : s.offerAnswered h = some c) (hp : (s.chan c).staged.page = some id) :
    takeSlotWait h s = offerTest (startRetry c
      ((toReady id (emptyStaged c s)).modTxe fun t => { t with waits := bump16 t.waits })) := by
  simp only [takeSlotWait, hc, hp, Option.getD_some]

theorem takePageRefuse_of_asked (reason : PageRefusal) (hc : s.offerAnswered h = some c)
    (hp : (s.chan c).staged.page = some id) : takePageRefuse h reason s = offerTest (pageFailed id (some reason)
      ((emptyStaged c s).modTxe fun t => { t with refusals := bump16 t.refusals })) := by
  simp only [takePageRefuse, hc, hp, Option.getD_some]

theorem offerAnswers_of_none (hn : s.offerAnswered h = none) (reason : PageRefusal) :
    takeSlotGrant h slot start s = staleAnswer s ∧ takeSlotWait h s = staleAnswer s ∧
      takePageRefuse h reason s = staleAnswer s := by
  simp only [takeSlotGrant, takeSlotWait, takePageRefuse, hn, and_self]

theorem offerExpired_of_other (hp : (s.chan c).staged.phase ≠ .offered) : offerExpired c s = s := if_neg hp

theorem offerExpired_of_offered (ho : (s.chan c).staged.phase = .offered) (hp : (s.chan c).staged.page = some id) :
    offerExpired c s = offerTest ((toReady id (emptyStaged c (s.advanceTo (s.chan c).staged.askDue))).modTxe fun t =>
      { t with offerTimeouts := bump16 t.offerTimeouts }) := by
  simp only [offerExpired, ho, hp, Option.getD_some, if_true]

theorem retryExpired_of_none (hd : (s.chan c).retryDue = none) : retryExpired c s = s := by
  simp only [retryExpired, hd]

theorem retryExpired_of_some {due : Nat} (hd : (s.chan c).retryDue = some due) : retryExpired c s =
    offerOne c ((s.advanceTo due).updChan c fun ch => { ch with retryDue := none }) := by
  simp only [retryExpired, hd]

/-- Settles O51: the answers by the channel whose offer waits, then the two timers. -/
theorem offerAnswersTaken : Obligations.OfferAnswersTaken := by
  unfold Obligations.OfferAnswersTaken
  intro h slot start reason c s hs
  have expires : exec (.offerTimeout c) s = .next (offerExpired c s) := scanner_next _ hs
  have retries : exec (.retryWaitExpiry c) s = .next (retryExpired c s) := scanner_next _ hs
  refine ⟨fun hl hh ha hb => ?_, fun id r hl hh hc ha hp hr => ?_, fun hp => ?_, fun id ho hp => ?_, fun hd => ?_,
    fun due hd => ?_⟩
  · obtain ⟨grants, waits, refuses⟩ := offerAnswers_taken hs hl hh slot start reason
    obtain ⟨hg, hw, hf⟩ := offerAnswers_of_none (slot := slot) (start := start) (offerAnswered_of_none ha hb) reason
    rw [grants, waits, refuses, hg, hw, hf]
    exact ⟨rfl, rfl, rfl⟩
  · obtain ⟨grants, waits, refuses⟩ := offerAnswers_taken hs hl hh slot start reason
    have ho := offerAnswered_of_asked hc ha
    rw [grants, waits, refuses]
    refine ⟨fun h1 h2 h3 => ⟨fun he => ?_, fun he => ?_⟩, fun hbad => ?_, ?_, ?_⟩
    · rw [takeSlotGrant_of_free ho hp hr (grantOkay_iff.mpr ⟨h1, h2, h3⟩) he, slotGiven_of_free he]
      rfl
    · rw [takeSlotGrant_of_busy ho hp hr (grantOkay_iff.mpr ⟨h1, h2, h3⟩) he, slotGiven_of_busy he]
      rfl
    · rw [takeSlotGrant_of_bad ho hp (by rw [grantOkay_iff]; omega)]
      rfl
    · rw [takeSlotWait_of_asked ho hp]
      rfl
    · rw [takePageRefuse_of_asked reason ho hp]
      rfl
  · rw [expires, offerExpired_of_other hp]
  · rw [expires, offerExpired_of_offered ho hp]
    rfl
  · rw [retries, retryExpired_of_none hd]
  · rw [retries, retryExpired_of_some hd]
    rfl

end Sys2Proof.Machine
end

section
/-! Completions (O53): the page that a PAGE STORED, a PAGE FAIL, a PAGE FAULT or a store timer finds, and what becomes of
it in the descriptor or the outstanding-sent entry where it stands. -/

namespace Sys2Proof.Machine

variable {s : State} {c : ChanId} {h : Hdr} {p : PageId} {id slot g : Nat} {r : PageRec} {o : Outstanding}

/-! ## The identity of a page (R120, R131) -/

theorem findRec_id (hr : s.findRec id = some r) : r.id = id := by simpa using List.find?_some hr

/-- The record bears the identity, and no discard has given it up. -/
def PageRec.bears (r : PageRec) (p : PageId) : Prop :=
  r.discardPending = false ∧ r.batch = some p.batch ∧ r.position = some p.position ∧ r.side = p.side

theorem named_iff : r.named p = true ↔ r.bears p := by simp [PageRec.named, PageRec.bears, and_assoc]

theorem activeChan_of_none (ha : s.txe.chanA.active.page ≠ some id) (hb : s.txe.chanB.active.page ≠ some id) :
    s.activeChan id = none := (if_neg ha).trans (if_neg hb)

/-- The commands of R120 and R126 as a scanner that listens takes them. -/
theorem completions_taken (hs : s.scans) (hl : s.listens) (hh : s.reached h) (h1 : 1 ≤ p.batch)
    (h2 : p.batch ≤ 16777215) (slot : Nat) :
    exec (.pageStored h p slot) s = .next (takePageStored h p s) ∧
      exec (.pageFail h p slot) s = .next (takeSetback .fail h p slot s) ∧
      exec (.pageFault h p slot) s = .next (takeSetback .fault h p slot s) :=
  ⟨exec_taken (f := ⟨h, .pageStored p slot⟩) rfl hl hh (batchOk_of h1 h2) (by rw [hs.2]; rfl) (by simp),
    exec_taken (f := ⟨h, .pageFail p slot⟩) rfl hl hh (batchOk_of h1 h2) (by rw [hs.2]; rfl) (by simp),
    exec_taken (f := ⟨h, .pageFault p slot⟩) rfl hl hh rfl (by rw [hs.2]; rfl) (by simp)⟩

/-! ## The page that a PAGE STORED names (R120) -/

/-- The gateway that a page is offered to or was sent to, else the one that it would be offered to: staged before
active before outstanding, channel A before B. -/
def State.heldBy (s : State) (r : PageRec) (g : Nat) : Prop :=
  if s.txe.chanA.staged.page = some r.id then s.txe.chanA.staged.gateway = some g
  else if s.txe.chanB.staged.page = some r.id then s.txe.chanB.staged.gateway = some g
  else if s.txe.chanA.active.page = some r.id then s.txe.chanA.active.gateway = some g
  else if s.txe.chanB.active.page = some r.id then s.txe.chanB.active.gateway = some g
  else match s.txe.outstanding.find? (·.page == r.id) with
    | some o => o.gateway = g
    | none => s.gatewayOf r g

theorem holderGateway_iff : s.holderGateway r = some g ↔ s.heldBy r g := by
  unfold State.holderGateway State.heldBy State.stagedChan State.activeChan
  by_cases hsa : s.txe.chanA.staged.page = some r.id
  · rw [if_pos hsa, if_pos hsa]
    rfl
  rw [if_neg hsa, if_neg hsa]
  by_cases hsb : s.txe.chanB.staged.page = some r.id
  · rw [if_pos hsb, if_pos hsb]
    rfl
  rw [if_neg hsb, if_neg hsb]
  by_cases haa : s.txe.chanA.active.page = some r.id
  · rw [if_pos haa, if_pos haa]
    rfl
  rw [if_neg haa, if_neg haa]
  by_cases hab : s.txe.chanB.active.page = some r.id
  · rw [if_pos hab, if_pos hab]
    rfl
  rw [if_neg hab, if_neg hab]
  dsimp only
  cases s.txe.outstanding.find? (·.page == r.id) with
  | some o => exact Option.some_inj
  | none => exact pageGateway_iff

/-- A PAGE STORED of this source finds the record. -/
def State.storedHit (s : State) (src : Nat) (p : PageId) (r : PageRec) : Prop :=
  r.bears p ∧ (r.state = .ready ∨ r.state = .sending ∨ r.state = .sent) ∧ s.heldBy r src

theorem storedHit_iff {src : Nat} : (r.named p && (r.state == .ready || r.state == .sending || r.state == .sent) &&
    s.holderGateway r == some src) = true ↔ s.storedHit src p r := by
  simp [State.storedHit, named_iff, holderGateway_iff, and_assoc, or_assoc]

theorem storedRec_of_none {src : Nat} (hn : ∀ r ∈ s.pgs.recs, ¬ s.storedHit src p r) : s.storedRec src p = none :=
  List.find?_eq_none.mpr fun r hr hh => hn r hr (storedHit_iff.mp hh)

theorem storedRec_of_first {src : Nat} {before after : List PageRec} (hl : s.pgs.recs = before ++ r :: after)
    (hb : ∀ x ∈ before, ¬ s.storedHit src p x) (hr : s.storedHit src p r) : s.storedRec src p = some r := by
  unfold State.storedRec
  rw [hl]
  exact find?_append_cons (fun x hx => Bool.eq_false_iff.mpr (mt storedHit_iff.mp (hb x hx))) (storedHit_iff.mpr hr)

theorem storedRec_of_only {src : Nat} (hm : r ∈ s.pgs.recs) (hr : s.storedHit src p r)
    (hu : ∀ q ∈ s.pgs.recs, s.storedHit src p q → q = r) : s.storedRec src p = some r := by
  unfold State.storedRec
  cases hq : s.pgs.recs.find? _ with
  | none => exact absurd (storedHit_iff.mpr hr) (List.find?_eq_none.mp hq r hm)
  | some q =>
    have hit := List.find?_some hq
    rw [hu q (List.mem_of_find?_eq_some hq) (storedHit_iff.mp hit)]

theorem takePageStored_of_none (hn : s.storedRec h.src p = none) : takePageStored h p s = staleAnswer s := by
  simp only [takePageStored, hn]

theorem takePageStored_of_staged (hr : s.storedRec h.src p = some r) (hc : s.stagedChan r.id = some c) :
    takePageStored h p s = offerTest (finishStored r.id (emptyStaged c s)) := by
  simp only [takePageStored, hr, hc]

/-- A page in an active descriptor is freed at once, or after its burst in transmission. -/
theorem takePageStored_of_active (hr : s.storedRec h.src p = some r) (hs : s.stagedChan r.id = none)
    (hc : s.activeChan r.id = some c) : takePageStored h p s =
      if s.bursting c then
        s.updChan c fun ch => { ch with active := { ch.active with giveUp := .discard, stored := true } }
      else offerTest (finishStored r.id (emptyActive c s)) := by
  simp only [takePageStored, hr, hs, hc]

theorem takePageStored_of_unheld (hr : s.storedRec h.src p = some r) (hs : s.stagedChan r.id = none)
    (hc : s.activeChan r.id = none) :
    takePageStored h p s = offerTest (finishStored r.id (dropOutstanding r.id s)) := by
  simp only [takePageStored, hr, hs, hc]

/-- A page freed and counted as stored. -/
def State.storedCounted (s : State) : State := s.modTxe fun t => { t with storedPages := bump16 t.storedPages }

theorem finishStored_of_own (hr : s.findRec id = some r) (hf : r.fillFlag = false) :
    finishStored id s = (freeRec id s).storedCounted := by
  simp only [finishStored, hr, hf, Bool.false_eq_true, if_false]
  rfl

theorem finishStored_of_fill {position : Nat} (hr : s.findRec id = some r) (hf : r.fillFlag = true)
    (hp : r.position = some position) :
    finishStored id s = (freeRec id (fillStored position s)).storedCounted := by
  simp only [finishStored, hr, hf, hp, Option.getD_some, if_true]
  rfl

/-! ## The page that a PAGE FAIL or a PAGE FAULT names (R126) -/

/-- The channel's active descriptor holds a page under this identity, gateway and slot. -/
def State.activeHit (s : State) (src : Nat) (p : PageId) (slot : Nat) (c : ChanId) : Prop :=
  ∃ id r, (s.chan c).active.page = some id ∧ s.findRec id = some r ∧ r.bears p ∧
    (s.chan c).active.gateway = some src ∧ (s.chan c).active.slot = some slot

/-- The record of the page in a channel's active descriptor that a completion names. -/
def State.activeFound (s : State) (src : Nat) (p : PageId) (slot : Nat) (c : ChanId) : Option (ChanId × PageRec) :=
  match (s.chan c).active.page.bind s.findRec with
  | some r =>
    if r.named p ∧ (s.chan c).active.gateway = some src ∧ (s.chan c).active.slot = some slot then some (c, r) else none
  | none => none

theorem activeNamed_eq (src slot : Nat) : s.activeNamed src p slot =
    (s.activeFound src p slot .a).orElse fun _ => s.activeFound src p slot .b := rfl

theorem activeFound_of_hit {src : Nat} (hp : (s.chan c).active.page = some id) (hr : s.findRec id = some r)
    (hh : s.activeHit src p slot c) : s.activeFound src p slot c = some (c, r) := by
  obtain ⟨id', r', hp', hr', hn, hg, hs⟩ := hh
  cases hp.symm.trans hp'
  cases hr.symm.trans hr'
  simp only [State.activeFound, hp, Option.bind_some, hr]
  exact if_pos ⟨named_iff.mpr hn, hg, hs⟩

theorem activeFound_of_none {src : Nat} (hn : ¬ s.activeHit src p slot c) : s.activeFound src p slot c = none := by
  unfold State.activeFound
  cases hr : (s.chan c).active.page.bind s.findRec with
  | none => rfl
  | some r =>
    obtain ⟨id, hp, hf⟩ := Option.bind_eq_some_iff.mp hr
    exact if_neg fun ⟨hb, hg, hs⟩ => hn ⟨id, r, hp, hf, named_iff.mp hb, hg, hs⟩

theorem activeNamed_of_hit {src : Nat} (hp : (s.chan c).active.page = some id) (hr : s.findRec id = some r)
    (hh : s.activeHit src p slot c) (ha : c = .b → ¬ s.activeHit src p slot .a) :
    s.activeNamed src p slot = some (c, r) := by
  rw [activeNamed_eq]
  cases c with
  | a => rw [activeFound_of_hit hp hr hh, Option.orElse_some]
  | b => rw [activeFound_of_none (ha rfl), Option.orElse_none, activeFound_of_hit hp hr hh]

theorem activeNamed_of_none {src : Nat} (ha : ¬ s.activeHit src p slot .a) (hb : ¬ s.activeHit src p slot .b) :
    s.activeNamed src p slot = none := by
  rw [activeNamed_eq, activeFound_of_none ha, Option.orElse_none, activeFound_of_none hb]

/-- The outstanding-sent entry is of a page under this identity, gateway and slot. -/
def State.sentHit (s : State) (src : Nat) (p : PageId) (slot : Nat) (o : Outstanding) : Prop :=
  ∃ r, s.findRec o.page = some r ∧ r.bears p ∧ o.gateway = src ∧ o.slot = slot

/-- The record of an outstanding-sent entry that a completion names. -/
def State.sentFound (s : State) (src : Nat) (p : PageId) (slot : Nat) (o : Outstanding) : Option PageRec :=
  match s.findRec o.page with
  | some r => if r.named p ∧ o.gateway = src ∧ o.slot = slot then some r else none
  | none => none

theorem outstandingNamed_eq (src slot : Nat) :
    s.outstandingNamed src p slot = s.txe.outstanding.findSome? (s.sentFound src p slot) := rfl

theorem sentFound_of_hit {src : Nat} (hr : s.findRec o.page = some r) (hh : s.sentHit src p slot o) :
    s.sentFound src p slot o = some r := by
  obtain ⟨r', hr', hn, hg, hs⟩ := hh
  cases hr.symm.trans hr'
  simp only [State.sentFound, hr]
  exact if_pos ⟨named_iff.mpr hn, hg, hs⟩

theorem sentFound_of_none {src : Nat} (hn : ¬ s.sentHit src p slot o) : s.sentFound src p slot o = none := by
  unfold State.sentFound
  cases hr : s.findRec o.page with
  | none => rfl
  | some r => exact if_neg fun ⟨hb, hg, hs⟩ => hn ⟨r, hr, named_iff.mp hb, hg, hs⟩

theorem outstandingNamed_of_first {src : Nat} {before after : List Outstanding}
    (hl : s.txe.outstanding = before ++ o :: after) (hb : ∀ x ∈ before, ¬ s.sentHit src p slot x)
    (hh : s.sentHit src p slot o) (hr : s.findRec o.page = some r) : s.outstandingNamed src p slot = some r := by
  have hnone : before.findSome? (s.sentFound src p slot) = none :=
    List.findSome?_eq_none_iff.mpr fun x hx => sentFound_of_none (hb x hx)
  rw [outstandingNamed_eq, hl, List.findSome?_append, hnone, Option.none_or, List.findSome?_cons,
    sentFound_of_hit hr hh]

theorem outstandingNamed_of_none {src : Nat} (hn : ∀ o ∈ s.txe.outstanding, ¬ s.sentHit src p slot o) :
    s.outstandingNamed src p slot = none :=
  List.findSome?_eq_none_iff.mpr fun o ho => sentFound_of_none (hn o ho)

theorem withRestart_eq (x : GiveUp) : GiveUp.withRestart x = if x = .discard then .discard else .restart := by
  cases x <;> rfl

/-- A page whose burst is in transmission restarts when the frame has left, another one at once. -/
theorem takeSetback_of_active {k : Setback} (hn : s.activeNamed h.src p slot = some (c, r)) :
    takeSetback k h p slot s =
      if s.bursting c then
        (raiseRestarts r.id (countRestart k s)).updChan c fun ch => { ch with active := { ch.active with
          giveUp := if ch.active.giveUp = .discard then .discard else .restart
          fatal := ch.active.fatal || 3 ≤ r.restarts } }
      else offerTest (restartPage r (emptyActive c (countRestart k s))) := by
  simp only [takeSetback, hn, ← withRestart_eq]
  rfl

theorem takeSetback_of_sent {k : Setback} (ha : s.activeNamed h.src p slot = none)
    (hn : s.outstandingNamed h.src p slot = some r) :
    takeSetback k h p slot s = offerTest (restartPage r (dropOutstanding r.id (countRestart k s))) := by
  simp only [takeSetback, ha, hn]

theorem takeSetback_of_none {k : Setback} (ha : s.activeNamed h.src p slot = none)
    (hn : s.outstandingNamed h.src p slot = none) :
    takeSetback k h p slot s = s.modTxe fun t => { t with staleCompletions := bump16 t.staleCompletions } := by
  simp only [takeSetback, ha, hn]

theorem updRec_congr {f f' : PageRec → PageRec} (hr : s.findRec id = some r) (hf : f r = f' r) :
    s.updRec id f = s.updRec id f' :=
  congrArg (fun l => s.modPgs fun g => { g with recs := l }) (updFirst_congr_found hr hf)

theorem restartPage_eq (r : PageRec) (s : State) : restartPage r s =
    if r.restarts < 3 then toReady r.id (raiseRestarts r.id s) else pageFailed r.id none s := rfl

theorem restartPage_of_more (hr : s.findRec r.id = some r) (hd : r.discardPending = false) (hl : r.restarts < 3) :
    restartPage r s = enterReady r.id (s.updRec r.id fun r => { r with restarts := r.restarts + 1 }) := by
  have hraise : raiseRestarts r.id s = s.updRec r.id fun r => { r with restarts := r.restarts + 1 } :=
    updRec_congr hr (by rw [show bump Config.maxRestarts r.restarts = r.restarts + 1 from min_eq_right hl])
  have hfound := findRec_upd r.id (fun r => { r with restarts := r.restarts + 1 }) (fun _ => rfl) hr
  rw [restartPage_eq, if_pos hl, hraise, toReady_of_some hfound, if_neg (by simp [hd])]

theorem restartPage_of_last (hl : r.restarts = 3) : restartPage r s = pageFailed r.id none s :=
  if_neg (by rw [hl]; decide)

/-! ## The store timer (R127) -/

/-- The outstanding-sent entry is of a record under this identity. -/
def State.timerHit (s : State) (p : PageId) (o : Outstanding) : Prop :=
  ∃ r, s.findRec o.page = some r ∧ r.bears p

theorem timerHit_iff : (s.findRec o.page).any (·.named p) = true ↔ s.timerHit p o := by
  simp [State.timerHit, Option.any_eq_true, named_iff]

theorem storeTimerExpired_of_none (hn : ∀ o ∈ s.txe.outstanding, ¬ s.timerHit p o) : storeTimerExpired p s = s := by
  have hf : (s.txe.outstanding.find? fun o => (s.findRec o.page).any (·.named p)) = none :=
    List.find?_eq_none.mpr fun o ho hh => hn o ho (timerHit_iff.mp hh)
  simp only [storeTimerExpired, hf]

theorem storeTimerExpired_of_first {before after : List Outstanding} (hl : s.txe.outstanding = before ++ o :: after)
    (hb : ∀ x ∈ before, ¬ s.timerHit p x) (ho : s.timerHit p o) : storeTimerExpired p s =
      offerTest ((toReady o.page (dropOutstanding o.page (s.advanceTo o.due))).modTxe fun t =>
        { t with storeTimeouts := bump16 t.storeTimeouts }) := by
  have hf : (s.txe.outstanding.find? fun o => (s.findRec o.page).any (·.named p)) = some o := by
    rw [hl]
    exact find?_append_cons (fun x hx => Bool.eq_false_iff.mpr (mt timerHit_iff.mp (hb x hx))) (timerHit_iff.mpr ho)
  simp only [storeTimerExpired, hf]

/-! ## A sole page that has been sent whole -/

/-- The page `r` under the identity `p` has been sent whole, its entry `o` is the one in the outstanding-sent list, and
no channel holds it or has another in its active descriptor. -/
structure State.SoleSent (s : State) (p : PageId) (r : PageRec) (o : Outstanding) : Prop where
  found : s.findRec o.page = some r
  list : s.txe.outstanding = [o]
  sent : r.state = .sent
  bears : r.bears p
  own : r.fillFlag = false
  only : ∀ q ∈ s.pgs.recs, q.bears p → q = r
  unheld : ∀ c, (s.chan c).staged.page ≠ some o.page
  idle : ∀ c, (s.chan c).active.page = none

/-- The state without outstanding-sent entries. -/
def State.nothingOut (s : State) : State := { s with txe := { s.txe with outstanding := [] } }

theorem dropOutstanding_of_sole (hl : s.txe.outstanding = [o]) : dropOutstanding o.page s = s.nothingOut := by
  have hf : [o].filter (fun x => x.page != o.page) = [] := by simp
  rw [dropOutstanding, State.modTxe, hl, hf]
  rfl

section Sole

variable (hw : s.SoleSent p r o)

include hw

theorem State.SoleSent.unstaged : s.stagedChan r.id = none := by
  rw [findRec_id hw.found]
  exact stagedChan_of_none (hw.unheld .a) (hw.unheld .b)

theorem State.SoleSent.inactive : s.activeChan r.id = none := by
  have hn (c : ChanId) : (s.chan c).active.page ≠ some r.id := by simp [hw.idle c]
  exact activeChan_of_none (hn .a) (hn .b)

theorem State.SoleSent.heldBy_iff : s.heldBy r g ↔ o.gateway = g := by
  have hf : s.txe.outstanding.find? (·.page == r.id) = some o := by
    rw [hw.list, findRec_id hw.found]
    exact List.find?_cons_of_pos (beq_self_eq_true o.page)
  rw [← holderGateway_iff]
  simp only [State.holderGateway, hw.unstaged, hw.inactive, hf, Option.some_inj]

theorem State.SoleSent.takePageStored_of_gateway (hg : h.src = o.gateway) :
    takePageStored h p s = offerTest (freeRec o.page s.nothingOut).storedCounted := by
  have hit : s.storedHit h.src p r := ⟨hw.bears, Or.inr (Or.inr hw.sent), hw.heldBy_iff.mpr hg.symm⟩
  have hstored : s.storedRec h.src p = some r :=
    storedRec_of_only (List.mem_of_find?_eq_some hw.found) hit fun q hq hh => hw.only q hq hh.1
  rw [takePageStored_of_unheld hstored hw.unstaged hw.inactive, findRec_id hw.found, dropOutstanding_of_sole hw.list,
    finishStored_of_own (s := s.nothingOut) hw.found hw.own]

theorem State.SoleSent.takePageStored_of_other (hg : h.src ≠ o.gateway) : takePageStored h p s = staleAnswer s := by
  refine takePageStored_of_none (storedRec_of_none fun q hq hh => ?_)
  obtain ⟨hn, -, hheld⟩ := hh
  rw [hw.only q hq hn] at hheld
  exact hg (hw.heldBy_iff.mp hheld).symm

theorem State.SoleSent.activeNamed (src slot : Nat) : s.activeNamed src p slot = none :=
  have hn (c : ChanId) : ¬ s.activeHit src p slot c := by
    rintro ⟨id, r, hp, -⟩
    rw [hw.idle c] at hp
    cases hp
  activeNamed_of_none (hn .a) (hn .b)

theorem State.SoleSent.takeSetback_of_other (k : Setback) (hn : ¬ (h.src = o.gateway ∧ slot = o.slot)) :
    takeSetback k h p slot s = s.modTxe fun t => { t with staleCompletions := bump16 t.staleCompletions } := by
  refine takeSetback_of_none (hw.activeNamed h.src slot) (outstandingNamed_of_none fun x hx hh => ?_)
  rw [hw.list, List.mem_singleton] at hx
  subst hx
  obtain ⟨-, -, -, hg, hk⟩ := hh
  exact hn ⟨hg.symm, hk.symm⟩

theorem State.SoleSent.takeSetback_of_named (k : Setback) (hn : h.src = o.gateway ∧ slot = o.slot) :
    takeSetback k h p slot s = offerTest (restartPage r (countRestart k s).nothingOut) := by
  have hnamed : s.outstandingNamed h.src p slot = some r :=
    outstandingNamed_of_first (before := []) hw.list (by simp) ⟨r, hw.found, hw.bears, hn.1.symm, hn.2.symm⟩ hw.found
  have hl : (countRestart k s).txe.outstanding = [o] := by cases k <;> exact hw.list
  rw [takeSetback_of_sent (hw.activeNamed h.src slot) hnamed, findRec_id hw.found, dropOutstanding_of_sole hl]

theorem State.SoleSent.takeSetback_of_more (k : Setback) (hn : h.src = o.gateway ∧ slot = o.slot)
    (hm : r.restarts < 3) : takeSetback k h p slot s = offerTest (enterReady o.page
      ((countRestart k s).nothingOut.updRec o.page fun r => { r with restarts := r.restarts + 1 })) := by
  have hid := findRec_id hw.found
  have hr : (countRestart k s).nothingOut.findRec r.id = some r := by rw [hid]; exact hw.found
  rw [hw.takeSetback_of_named k hn, restartPage_of_more hr hw.bears.1 hm, hid]

theorem State.SoleSent.takeSetback_of_last (k : Setback) (hn : h.src = o.gateway ∧ slot = o.slot)
    (hm : r.restarts = 3) :
    takeSetback k h p slot s = offerTest (pageFailed o.page none (countRestart k s).nothingOut) := by
  rw [hw.takeSetback_of_named k hn, restartPage_of_last hm, findRec_id hw.found]

theorem State.SoleSent.storeTimerExpired_eq : storeTimerExpired p s =
    offerTest ((enterReady o.page (s.advanceTo o.due).nothingOut).modTxe fun t =>
      { t with storeTimeouts := bump16 t.storeTimeouts }) := by
  have hr : (s.advanceTo o.due).nothingOut.findRec o.page = some r := hw.found
  rw [storeTimerExpired_of_first (before := []) hw.list (by simp) ⟨r, hw.found, hw.bears⟩,
    dropOutstanding_of_sole (s := s.advanceTo o.due) hw.list, toReady_of_some hr, if_neg (by simp [hw.bears.1])]

end Sole

/-! ## The statement -/

/-- Settles O53: a sole page that has been sent whole, what a stored page leaves, and then each completion by where the
page stands. -/
theorem completionsOfSentPages : Obligations.CompletionsOfSentPages := by
  unfold Obligations.CompletionsOfSentPages
  refine ⟨fun h p slot r o s hs h1 h2 hf ho hst hb hp hside hown hd hu hc => ?_,
    fun id r s hr => ⟨finishStored_of_own hr, fun p hf hp => finishStored_of_fill hr hf hp⟩, fun h p slot s hs => ?_⟩
  · have hw : s.SoleSent p r o := ⟨hf, ho, hst, ⟨hd, hb, hp, hside⟩, hown,
      fun q hq ⟨_, hqb, hqp, hqs⟩ => hu q hq hqb hqp hqs, fun c => (hc c).2.1, fun c => (hc c).2.2⟩
    have expires : exec (.storeTimerExpiry p) s = .next (storeTimerExpired p s) := scanner_next _ hs
    refine ⟨fun hl hh => ?_, ?_⟩
    · obtain ⟨stores, fails, faults⟩ := completions_taken hs hl hh h1 h2 slot
      exact ⟨fun hg => stores.trans (congrArg _ (hw.takePageStored_of_gateway hg)),
        fun hg => stores.trans (congrArg _ (hw.takePageStored_of_other hg)),
        ⟨fun hn => fails.trans (congrArg _ (hw.takeSetback_of_other .fail hn)),
          fun hn hm => fails.trans (congrArg _ (hw.takeSetback_of_more .fail hn hm)),
          fun hn hm => fails.trans (congrArg _ (hw.takeSetback_of_last .fail hn hm))⟩,
        ⟨fun hn => faults.trans (congrArg _ (hw.takeSetback_of_other .fault hn)),
          fun hn hm => faults.trans (congrArg _ (hw.takeSetback_of_more .fault hn hm)),
          fun hn hm => faults.trans (congrArg _ (hw.takeSetback_of_last .fault hn hm))⟩⟩
    · rw [expires, hw.storeTimerExpired_eq]
      rfl
  · have expires : exec (.storeTimerExpiry p) s = .next (storeTimerExpired p s) := scanner_next _ hs
    refine ⟨fun hl hh h1 h2 => ?_, fun hl hh h1 h2 fault => ?_,
      fun hn => expires.trans (congrArg _ (storeTimerExpired_of_none hn)),
      fun before o after ho hb hit => expires.trans (congrArg _ (storeTimerExpired_of_first ho hb hit))⟩
    · obtain ⟨stores, -, -⟩ := completions_taken hs hl hh h1 h2 slot
      refine ⟨fun hn => stores.trans (congrArg _ (takePageStored_of_none (storedRec_of_none hn))),
        fun before r after hr hb hit => ?_⟩
      have hstored : s.storedRec h.src p = some r := storedRec_of_first hr hb hit
      refine ⟨fun c hc hab => stores.trans (congrArg _ (takePageStored_of_staged hstored (stagedChan_of_page hc hab))),
        fun c hsa hsb hc hab => ?_, fun hsa hsb haa hab => stores.trans (congrArg _
          (takePageStored_of_unheld hstored (stagedChan_of_none hsa hsb) (activeChan_of_none haa hab)))⟩
      have taken := takePageStored_of_active hstored (stagedChan_of_none hsa hsb) (activeChan_of_page hc hab)
      exact ⟨fun hbu => stores.trans (congrArg _ (taken.trans (if_pos hbu))),
        fun hbu => stores.trans (congrArg _ (taken.trans (if_neg (Bool.eq_false_iff.mp hbu))))⟩
    · obtain ⟨-, fails, faults⟩ := completions_taken hs hl hh h1 h2 slot
      intro run counted raised again active out
      obtain ⟨k, taken, hcount⟩ : ∃ k, run = .next (takeSetback k h p slot s) ∧ ∀ u, counted u = countRestart k u := by
        cases fault
        · exact ⟨.fail, fails, fun _ => rfl⟩
        · exact ⟨.fault, faults, fun _ => rfl⟩
      rw [taken, hcount]
      refine ⟨fun c id r hc hab hp hr => ?_, fun before o after r ha hb ho hbefore hout hr => ?_, fun ha hb hn => ?_⟩
      · rw [takeSetback_of_active (activeNamed_of_hit hp hr hc hab), restartPage_eq, findRec_id hr]
        exact ⟨fun hbu => congrArg _ (if_pos hbu), fun hbu => congrArg _ (if_neg (Bool.eq_false_iff.mp hbu))⟩
      · rw [takeSetback_of_sent (activeNamed_of_none ha hb) (outstandingNamed_of_first ho hbefore hout hr),
          restartPage_eq, findRec_id hr]
        rfl
      · rw [takeSetback_of_none (activeNamed_of_none ha hb) (outstandingNamed_of_none hn)]
        rfl

end Sys2Proof.Machine
end

section
/-! The intake slots read at one place of their list (R133 to R135): the slot that a number names, the first slot that
meets a test, and a slot freed. -/

namespace Sys2Proof.Machine

variable {s : State} {before after : List Slot} {sl : Slot} {x : SlotHold}

/-! ## The slot table at one slot -/

/-- The slots as those before one, that one and those after it. -/
def State.SlotAt (s : State) (before : List Slot) (sl : Slot) (after : List Slot) : Prop :=
  s.ict.slots = before ++ sl :: after

theorem slot?_of_slotAt (h : s.SlotAt before sl after) : s.slot? before.length = some sl := by
  rw [State.slot?, h]
  simp

theorem slot?_of_beyond {n : Nat} (h : s.ict.slots.length ≤ n) : s.slot? n = none :=
  List.getElem?_eq_none h

theorem set_append_cons {α : Type} (l m : List α) (x y : α) : (l ++ x :: m).set l.length y = l ++ y :: m := by
  simp

theorem modify_append_cons {α : Type} (l m : List α) (x : α) (f : α → α) :
    (l ++ x :: m).modify l.length f = l ++ f x :: m := by
  induction l with
  | nil => rfl
  | cons y l ih => exact congrArg (y :: ·) ih

/-- The state with another slot table. -/
def State.withSlots (s : State) (l : List Slot) : State := { s with ict := { s.ict with slots := l } }

theorem updSlot_of_slotAt (f : Slot → Slot) (h : s.SlotAt before sl after) :
    s.updSlot before.length f = s.withSlots (before ++ f sl :: after) := by
  have hmod : s.ict.slots.modify before.length f = before ++ f sl :: after := by
    rw [h]
    exact modify_append_cons before after sl f
  exact congrArg s.withSlots hmod

/-- The first slot that meets a test is found by its number. -/
theorem find?_range_of_first {p : Slot → Bool} (h : s.SlotAt before sl after) (hb : ∀ y ∈ before, p y = false)
    (hx : p sl = true) :
    ((List.range s.ict.slots.length).find? fun n => (s.slot? n).any p) = some before.length := by
  rw [List.find?_range_eq_some]
  refine ⟨?_, ?_, fun j hj => ?_⟩
  · rw [slot?_of_slotAt h]
    exact hx
  · rw [h]
    simp
  · have hget : s.slot? j = some before[j] := by
      rw [State.slot?, h, List.getElem?_append_left hj, List.getElem?_eq_getElem hj]
    rw [hget, Option.any_some, hb _ (List.getElem_mem hj)]
    rfl

theorem find?_range_of_none {p : Slot → Bool} (h : ∀ y ∈ s.ict.slots, p y = false) :
    ((List.range s.ict.slots.length).find? fun n => (s.slot? n).any p) = none := by
  rw [List.find?_eq_none]
  intro n hn
  have hlt : n < s.ict.slots.length := List.mem_range.mp hn
  have hget : s.slot? n = some s.ict.slots[n] := List.getElem?_eq_getElem hlt
  rw [hget, Option.any_some, h _ (List.getElem_mem hlt)]
  exact Bool.false_ne_true

/-! ## A slot freed (R135) -/

theorem freed_of_hold (now : Nat) (hx : sl.hold = some x) : sl.freed now =
    { state := .free, idleSince := sl.idleSince, former := some (x.sender, x.page)
      idleStop := some (min 2000 (sl.idleStop.getD (now - sl.idleSince))) } := by
  rw [Slot.freed, hx]
  rfl

/-- A freed slot's blocks return to the pool and its place in the store queue goes. -/
theorem freeSlot_of_slotAt (h : s.SlotAt before sl after) (hx : sl.hold = some x) :
    freeSlot before.length s = { s with ict := { s.ict with
      slots := before ++ { state := .free, idleSince := sl.idleSince, former := some (x.sender, x.page)
                           idleStop := some (min 2000 (sl.idleStop.getD (s.now - sl.idleSince))) } :: after
      freeBlocks := s.ict.freeBlocks + x.blocks.length
      storeQueue := s.ict.storeQueue.filter (· != before.length) } } := by
  rw [← freed_of_hold s.now hx]
  have hset : s.ict.slots.set before.length (sl.freed s.now) = before ++ sl.freed s.now :: after := by
    rw [h]
    exact set_append_cons before after sl _
  simp only [freeSlot, slot?_of_slotAt h, hx, Option.map_some, Option.getD_some, State.modIct, hset]

end Sys2Proof.Machine
end

section
/-! PAGE OFFER at a gateway (O49): the checks of R136 in their order, and the slot that is granted. -/

namespace Sys2Proof.Machine

variable {s : State} {h : Hdr} {p : PageId} {k size : Nat} {mark : Bool} {r : CommitRec}

/-! ## What an open batch's offer finds in the slots (R136) -/

theorem pageInSlot_iff : s.pageInSlot p = true ↔
    ∃ sl ∈ s.ict.slots, sl.state ≠ .free ∧ ∃ x, sl.hold = some x ∧ x.page = p := by
  simp [State.pageInSlot, Slot.inUse, Option.any_eq_true]

theorem inUse_iff {sl : Slot} : sl.inUse = true ↔ sl.state ≠ .free := by simp [Slot.inUse]

theorem lowestFree_of_none (hu : ∀ sl ∈ s.ict.slots, sl.state ≠ .free) : s.lowestFree = none :=
  find?_range_of_none fun sl hsl => by simp [inUse_iff.mpr (hu sl hsl)]

theorem lowestFree_of_first {before after : List Slot} {sl : Slot} (hs : s.SlotAt before sl after)
    (hf : sl.state = .free) (hb : ∀ x ∈ before, x.state ≠ .free) : s.lowestFree = some before.length :=
  find?_range_of_first hs (fun x hx => by simp [inUse_iff.mpr (hb x hx)]) (by simp [Slot.inUse, hf])

/-- No slot can be granted to the sender for the page now. -/
def State.offerWaits (s : State) (a : Nat) (p : PageId) (size : Nat) : Prop :=
  s.pageInSlot p = true ∨ 4 ≤ s.slotsHeld a ∨ s.lowestFree = none ∨ s.ict.freeBlocks < slotBlocks size

/-! ## The six cases (R136, R137) -/

theorem takePageOffer_of_none (hc : s.findCommit p.batch = none) :
    takePageOffer h p k size mark s = answerRefuse h .unknownBatch s := by
  simp only [takePageOffer, hc]

theorem takePageOffer_of_stored (hc : s.findCommit p.batch = some r) (hs : r.stored p = true) :
    takePageOffer h p k size mark s = answerStored h p s := by
  simp only [takePageOffer, hc, hs, if_true]

theorem takePageOffer_of_committed (hc : s.findCommit p.batch = some r) (hs : r.stored p = false)
    (hr : r.state = .committed) : takePageOffer h p k size mark s = answerRefuse h .batchClosed s := by
  simp only [takePageOffer, hc, hs, hr, Bool.false_eq_true, if_false, if_true]

theorem takePageOffer_of_tooLarge (hc : s.findCommit p.batch = some r) (hs : r.stored p = false)
    (hr : r.state = .opened) (hz : 16776704 < size) :
    takePageOffer h p k size mark s = answerRefuse h .tooLarge s := by
  have hmax : Config.maxPage < size := hz
  simp [takePageOffer, hc, hs, hr, hmax]

theorem takePageOffer_of_waits (hc : s.findCommit p.batch = some r) (hs : r.stored p = false)
    (hr : r.state = .opened) (hz : size ≤ 16776704) (hw : s.offerWaits h.src p size) :
    takePageOffer h p k size mark s = answerWait h s := by
  have hmax : ¬ Config.maxPage < size := Nat.not_lt.mpr hz
  simp only [takePageOffer, hc, hs, hr, hmax, Bool.false_eq_true, reduceCtorEq, if_false]
  rcases hw with hp | hf | hn | hb
  · exact if_pos hp
  · have hfour : Config.slotsPerSender ≤ s.slotsHeld h.src := hf
    simp only [hfour, if_true, ite_self]
  · simp only [hn, ite_self]
  · cases s.lowestFree with
    | none => simp only [ite_self]
    | some n => simp only [hb, if_true, ite_self]

theorem takePageOffer_of_room {n : Nat} (hc : s.findCommit p.batch = some r) (hs : r.stored p = false)
    (hr : r.state = .opened) (hz : size ≤ 16776704) (hp : ¬ s.pageInSlot p = true) (hf : ¬ 4 ≤ s.slotsHeld h.src)
    (hn : s.lowestFree = some n) (hb : slotBlocks size ≤ s.ict.freeBlocks) :
    takePageOffer h p k size mark s = grantSlot h n p k size mark s := by
  have hmax : ¬ Config.maxPage < size := Nat.not_lt.mpr hz
  have hfour : ¬ Config.slotsPerSender ≤ s.slotsHeld h.src := hf
  have hroom : ¬ s.ict.freeBlocks < slotBlocks size := Nat.not_lt.mpr hb
  simp only [takePageOffer, hc, hs, hr, hmax, hp, hfour, hn, hroom, Bool.false_eq_true, reduceCtorEq, if_false]

/-- The slot as a grant leaves it. -/
def State.granted (s : State) (h : Hdr) (p : PageId) (k size : Nat) (mark : Bool) : Slot :=
  { state := .granted, idleSince := s.now, idleStop := none
    hold := some { sender := h.src, page := p, pagesOfSheet := k, mark, size, expected := 512
                   blocks := freshBlocks s.ict.reserved (slotBlocks size) } }

theorem grantSlot_of_slotAt {before after : List Slot} {sl : Slot} (hs : s.SlotAt before sl after) :
    grantSlot h before.length p k size mark s = hand h.src h.tag (.slotGrant before.length 512)
      { s with ict := { s.ict with
        slots := before ++ s.granted h p k size mark :: after
        freeBlocks := s.ict.freeBlocks - (freshBlocks s.ict.reserved (slotBlocks size)).length
        offersGranted := bump16 s.ict.offersGranted } } := by
  have hset : s.ict.slots.set before.length (s.granted h p k size mark) =
      before ++ s.granted h p k size mark :: after := by
    rw [hs]
    exact set_append_cons before after sl _
  rw [← hset]
  rfl

theorem exec_pageOffer (ha : s.archives) (hl : s.listens) (hh : s.reached h) (hb1 : 1 ≤ p.batch)
    (hb2 : p.batch ≤ 16777215) (hp1 : 1 ≤ p.position) (hp2 : p.position ≤ 4095) (hk : k = 1 ∨ k = 2)
    (hz : 1 ≤ size) : exec (.pageOffer h p k size mark) s = .next (takePageOffer h p k size mark s) :=
  exec_taken (f := ⟨h, .pageOffer p k size mark⟩) rfl hl hh
    (by simp [Payload.inRange, batchOk_of hb1 hb2, positionOk_iff.mpr ⟨hp1, hp2⟩, hk, hz])
    (by rw [ha.2]; rfl) (by simp)

/-- Settles O49: the six cases of R136, then the slot of R137. -/
theorem offerAnsweredByTheGateway : Obligations.OfferAnsweredByTheGateway := by
  unfold Obligations.OfferAnsweredByTheGateway
  intro h p k size mark s ha hl hh hb1 hb2 hp1 hp2 hk hz run up refuses waits
  have taken : run = .next (takePageOffer h p k size mark s) := exec_pageOffer ha hl hh hb1 hb2 hp1 hp2 hk hz
  refine ⟨fun hc => taken.trans (congrArg _ (takePageOffer_of_none hc)), fun r hc => ?_⟩
  intro held four blocks
  refine ⟨fun hs => taken.trans (congrArg _ (takePageOffer_of_stored hc hs)),
    fun hs hr => taken.trans (congrArg _ (takePageOffer_of_committed hc hs hr)),
    fun hs hr hm => taken.trans (congrArg _ (takePageOffer_of_tooLarge hc hs hr hm)), fun hs hr hm => ⟨fun hw => ?_, ?_⟩⟩
  · have hwaits : s.offerWaits h.src p size := by
      rcases hw with hheld | hfour | hused | hfew
      · exact .inl (pageInSlot_iff.mpr hheld)
      · exact .inr (.inl hfour)
      · exact .inr (.inr (.inl (lowestFree_of_none hused)))
      · exact .inr (.inr (.inr hfew))
    exact taken.trans (congrArg _ (takePageOffer_of_waits hc hs hr hm hwaits))
  · intro hheld hfour hroom before sl after hat hfree hbefore
    have room := takePageOffer_of_room (k := k) (mark := mark) hc hs hr hm (mt pageInSlot_iff.mp hheld) hfour
      (lowestFree_of_first hat hfree hbefore) hroom
    exact taken.trans (congrArg _ (room.trans (grantSlot_of_slotAt hat)))

end Sys2Proof.Machine
end

section
/-! A stored side recorded and the idle store port (O55). -/

namespace Sys2Proof.Machine

variable {s : State} {r : CommitRec} {x : SlotHold} {p : PosRec} {q : Nat}

/-! ## Position records (R147) -/

theorem positionRec_position (r : CommitRec) (q : Nat) : (r.positionRec q).position = q := by
  unfold CommitRec.positionRec
  cases hf : r.positions.find? (·.position == q) with
  | none => rfl
  | some y => simpa using List.find?_some hf

theorem mem_setPosition {y : PosRec} {l : List PosRec} (h : y ∈ setPosition p l) : y = p ∨ y ∈ l := by
  induction l with
  | nil => exact .inl (List.mem_singleton.mp h)
  | cons z l ih =>
    unfold setPosition at h
    split at h
    · exact List.mem_cons.mp h
    · split at h
      · exact (List.mem_cons.mp h).imp_right (List.mem_cons_of_mem z)
      · rcases List.mem_cons.mp h with rfl | h
        · exact .inr List.mem_cons_self
        · exact (ih h).imp_right (List.mem_cons_of_mem z)

theorem find?_position_cons_of_ne {z : PosRec} (h : z.position ≠ q) (l : List PosRec) :
    (z :: l).find? (·.position == q) = l.find? (·.position == q) :=
  List.find?_cons_of_neg (by simpa using h)

theorem find?_setPosition_same (l : List PosRec) : (setPosition p l).find? (·.position == p.position) = some p := by
  induction l with
  | nil => simp [setPosition]
  | cons z l ih =>
    unfold setPosition
    split
    · simp
    · split
      · simp
      · rename_i hne
        rw [find?_position_cons_of_ne (Ne.symm hne), ih]

theorem find?_setPosition_other (hq : p.position ≠ q) (l : List PosRec) :
    (setPosition p l).find? (·.position == q) = l.find? (·.position == q) := by
  induction l with
  | nil => exact find?_position_cons_of_ne hq []
  | cons z l ih =>
    unfold setPosition
    split
    · exact find?_position_cons_of_ne hq (z :: l)
    · split
      · rename_i heq
        rw [find?_position_cons_of_ne hq, find?_position_cons_of_ne (heq ▸ hq)]
      · rw [List.find?_cons, List.find?_cons, ih]

/-- A position set in a list that rises leaves it rising. -/
theorem setPosition_rising {l : List PosRec} (h : l.Pairwise fun y z => y.position < z.position) :
    (setPosition p l).Pairwise fun y z => y.position < z.position := by
  induction l with
  | nil => exact List.pairwise_singleton _ _
  | cons z l ih =>
    obtain ⟨hz, hl⟩ := List.pairwise_cons.mp h
    unfold setPosition
    split
    · rename_i hlt
      refine List.pairwise_cons.mpr ⟨fun y hy => ?_, h⟩
      rcases List.mem_cons.mp hy with rfl | hy
      · exact hlt
      · exact hlt.trans (hz y hy)
    · split
      · rename_i heq
        exact List.pairwise_cons.mpr ⟨fun y hy => heq ▸ hz y hy, hl⟩
      · rename_i hge hne
        refine List.pairwise_cons.mpr ⟨fun y hy => ?_, ih hl⟩
        rcases mem_setPosition hy with rfl | hy
        · omega
        · exact hz y hy

/-! ## A stored side (R144) -/

theorem positionRec_record_same : (r.record x).positionRec x.page.position =
    (r.positionRec x.page.position).store x := by
  have hpos : ((r.positionRec x.page.position).store x).position = x.page.position := positionRec_position r _
  have hfind := find?_setPosition_same (p := (r.positionRec x.page.position).store x) r.positions
  rw [hpos] at hfind
  exact congrArg (Option.getD · _) hfind

theorem positionRec_record_other (hq : q ≠ x.page.position) : (r.record x).positionRec q = r.positionRec q := by
  have hpos : ((r.positionRec x.page.position).store x).position = x.page.position := positionRec_position r _
  exact congrArg (Option.getD · _) (find?_setPosition_other (fun e => hq (e.symm.trans hpos)) r.positions)

theorem record_present : (r.record x).present = r.present +
    (if (r.positionRec x.page.position).isPresent = false ∧
      ((r.positionRec x.page.position).store x).isPresent = true then 1 else 0) := by
  cases ho : (r.positionRec x.page.position).isPresent <;>
    cases hn : ((r.positionRec x.page.position).store x).isPresent <;> simp [CommitRec.record, ho, hn]

theorem store_front_iff : (p.store x).front = true ↔ p.front = true ∨ x.page.side = .front := by
  simp [PosRec.store]

theorem store_back_iff : (p.store x).back = true ↔ p.back = true ∨ x.page.side = .back := by
  simp [PosRec.store]

theorem store_mark_iff : (p.store x).mark = true ↔ p.mark = true ∨ x.mark = true := by
  simp [PosRec.store]

theorem store_pagesOfSheet_first (hf : p.front = false) (hb : p.back = false) :
    (p.store x).pagesOfSheet = some x.pagesOfSheet := by
  simp [PosRec.store, hf, hb]

theorem store_pagesOfSheet_later (h : p.front = true ∨ p.back = true) : (p.store x).pagesOfSheet = p.pagesOfSheet := by
  have hany : (p.front || p.back) = true := by simpa using h
  exact if_pos hany

/-! ## The store port (R142, R143) -/

theorem storeTest_of_idle (h : s.ict.portBusy = true ∨ s.ict.storeQueue = []) : storeTest s = s := by
  rcases h with hb | hq
  · simp only [storeTest, hb]
  · cases hb : s.ict.portBusy <;> simp only [storeTest, hb, hq]

theorem storeTest_of_head {before after : List Slot} {sl : Slot} {rest : List Nat} (hb : s.ict.portBusy = false)
    (hq : s.ict.storeQueue = before.length :: rest) (hs : s.SlotAt before sl after) (hx : sl.hold = some x) :
    storeTest s = { s with
      ict := { s.ict with
        storeQueue := rest, portBusy := true, slots := before ++ { sl with state := .storing } :: after }
      portLog := s.portLog ++ [.storeWrite before.length x (Memory.readRun s.ict.mem x.blocks 512 x.size)] } := by
  have hbind : (s.slot? before.length).bind (·.hold) = some x := by rw [slot?_of_slotAt hs, Option.bind_some, hx]
  have hwrite := updSlot_of_slotAt (s := s.modIct fun i => { i with storeQueue := rest, portBusy := true })
    (fun sl => { sl with state := .storing }) hs
  simp only [storeTest, hb, hq, hbind, hwrite]
  rfl

/-- Settles O55: the record's position by its fields, then the port. -/
theorem storedSidesAndTheStorePort : Obligations.StoredSidesAndTheStorePort := by
  unfold Obligations.StoredSidesAndTheStorePort
  refine ⟨fun r x hrise => ?_, fun s => ⟨storeTest_of_idle, fun before sl after x rest hb hq hs hx =>
    storeTest_of_head hb hq hs hx⟩⟩
  intro old new
  have hnew : new = old.store x := positionRec_record_same
  have hrising := setPosition_rising (p := old.store x) (List.pairwise_map.mp hrise)
  refine ⟨?_, ?_, ?_, ?_, ?_, ?_, List.pairwise_map.mpr hrising, fun q hq => positionRec_record_other hq⟩
  · rw [hnew]; exact store_front_iff
  · rw [hnew]; exact store_back_iff
  · rw [hnew]; exact store_mark_iff
  · rw [hnew]; exact store_pagesOfSheet_first
  · rw [hnew]; exact store_pagesOfSheet_later
  · rw [hnew]; exact record_present

end Sys2Proof.Machine
end

section
/-! PAGE DATA at a gateway (O50): a burst taken into its slot (R138), and the faults of any other (R139). -/

namespace Sys2Proof.Machine

variable {s : State} {before after : List Slot} {sl : Slot} {x : SlotHold} {h : Hdr} {p : PageId} {src n off : Nat}
  {bytes : List Byte}

/-! ## A burst taken (R138) -/

/-- The burst follows on what the slot holds. -/
def SlotHold.follows (x : SlotHold) (st : SlotState) (src off len : Nat) : Prop :=
  (st = .granted ∨ st = .receiving) ∧ x.sender = src ∧ off = x.expected ∧ off % 4096 + len ≤ 4096 ∧
    off + len ≤ 512 + x.size

theorem burstFits_iff {len : Nat} (hx : sl.hold = some x) :
    burstFits src off len sl = true ↔ x.follows sl.state src off len := by
  have hspan : Config.span = 4096 := rfl
  have hstart : Config.startOffset = 512 := rfl
  simp [burstFits, Slot.filling, SlotHold.follows, hx, hspan, hstart, and_assoc]

/-- The state with a burst written and its slot brought on. -/
def State.burstTaken (s : State) (before : List Slot) (sl : Slot) (after : List Slot) (x : SlotHold)
    (bytes : List Byte) (st : SlotState) (stop : Option Nat) : State :=
  { s with ict := { s.ict with
    mem := Memory.writeRun s.ict.mem x.blocks x.expected bytes
    burstsTaken := bump16 s.ict.burstsTaken
    slots := before ++ { sl with
      state := st, idleSince := s.now, idleStop := stop
      hold := some { x with expected := x.expected + bytes.length } } :: after } }

/-- The slot table after a burst, whether it is the page's last or not. -/
theorem updSlot_burst (hs : s.SlotAt before sl after) (st : SlotState) (stop : Option Nat) :
    ((s.modIct fun i => { i with
      mem := Memory.writeRun i.mem x.blocks x.expected bytes
      burstsTaken := bump16 i.burstsTaken }).updSlot before.length fun sl => { sl with
        hold := some { x with expected := x.expected + bytes.length }
        state := st, idleSince := s.now, idleStop := stop }) = s.burstTaken before sl after x bytes st stop :=
  updSlot_of_slotAt (s := s.modIct fun i => { i with
    mem := Memory.writeRun i.mem x.blocks x.expected bytes
    burstsTaken := bump16 i.burstsTaken }) _ hs

theorem takeBurst_of_more (hs : s.SlotAt before sl after) (hm : x.expected + bytes.length < 512 + x.size) :
    takeBurst before.length x bytes s = s.burstTaken before sl after x bytes .receiving none := by
  have hfull : (x.expected + bytes.length == Config.startOffset + x.size) = false := beq_false_of_ne (Nat.ne_of_lt hm)
  rw [← updSlot_burst hs]
  simp only [takeBurst, hfull]
  rfl

theorem takeBurst_of_last (hs : s.SlotAt before sl after) (hm : x.expected + bytes.length = 512 + x.size) :
    takeBurst before.length x bytes s = storeTest ((s.burstTaken before sl after x bytes .complete (some 0)).modIct
      fun i => { i with storeQueue := i.storeQueue ++ [before.length] }) := by
  have hfull : (x.expected + bytes.length == Config.startOffset + x.size) = true := beq_iff_eq.mpr hm
  rw [← updSlot_burst hs]
  simp only [takeBurst, hfull]
  rfl

/-! ## Faults (R139) -/

theorem burstFault_of_absent (hn : s.slot? n = none) : burstFault src n s = faultNoPage src n s := by
  simp only [burstFault, hn]

theorem burstFault_of_unheld (hn : s.slot? n = some sl) (hx : sl.hold = none) (hf : sl.former = none) :
    burstFault src n s = faultNoPage src n s := by
  cases hst : sl.state <;> simp only [burstFault, hn, hst, hx, hf]

theorem burstFault_of_former (hn : s.slot? n = some sl) (hst : sl.state = .free) (hf : sl.former = some (src, p)) :
    burstFault src n s = faultPage src n p s := by
  simp only [burstFault, hn, hst, hf, if_true]

theorem burstFault_of_stranger {a : Nat} (hn : s.slot? n = some sl) (hst : sl.state = .free)
    (hf : sl.former = some (a, p)) (ha : a ≠ src) : burstFault src n s = faultNoPage src n s := by
  simp only [burstFault, hn, hst, hf, ha, if_false]

theorem burstFault_of_other (hn : s.slot? n = some sl) (hst : sl.state ≠ .free) (hx : sl.hold = some x)
    (ha : x.sender ≠ src) : burstFault src n s = faultNoPage src n s := by
  cases hc : sl.state
  case free => exact absurd hc hst
  all_goals simp only [burstFault, hn, hc, hx, ha, if_false]

theorem burstFault_of_storing (hn : s.slot? n = some sl) (hst : sl.state = .storing) (hx : sl.hold = some x)
    (ha : x.sender = src) : burstFault src n s = faultPage src n x.page s := by
  simp only [burstFault, hn, hst, hx, ha, if_true]

theorem burstFault_of_sender (hn : s.slot? n = some sl) (hf : sl.state ≠ .free) (hst : sl.state ≠ .storing)
    (hx : sl.hold = some x) (ha : x.sender = src) : burstFault src n s = faultPage src n x.page (freeSlot n s) := by
  cases hc : sl.state
  case free => exact absurd hc hf
  case storing => exact absurd hc hst
  all_goals simp only [burstFault, hn, hc, hx, ha, if_true]

/-! ## PAGE DATA by what its slot holds -/

theorem takePageData_of_absent (hn : s.slot? n = none) : takePageData h n off bytes s = burstFault h.src n s := by
  simp only [takePageData, hn]

theorem takePageData_of_unheld (hn : s.slot? n = some sl) (hx : sl.hold = none) :
    takePageData h n off bytes s = burstFault h.src n s := by
  simp only [takePageData, hn, hx]

theorem takePageData_of_follows (hn : s.slot? n = some sl) (hx : sl.hold = some x)
    (hf : x.follows sl.state h.src off bytes.length) : takePageData h n off bytes s = takeBurst n x bytes s := by
  simp only [takePageData, hn, hx, burstFits_iff hx |>.mpr hf, if_true]

theorem takePageData_of_unfit (hn : s.slot? n = some sl) (hx : sl.hold = some x)
    (hf : ¬ x.follows sl.state h.src off bytes.length) :
    takePageData h n off bytes s = burstFault h.src n s := by
  simp only [takePageData, hn, hx, mt (burstFits_iff hx).mp hf, Bool.false_eq_true, if_false]

theorem exec_pageData (ha : s.archives) (hl : s.listens) (hh : s.reached h) (h1 : 1 ≤ bytes.length)
    (h2 : bytes.length ≤ 4096) : exec (.pageData h n off bytes) s = .next (takePageData h n off bytes s) :=
  exec_taken (f := ⟨h, .pageData n off bytes⟩) rfl hl hh (by simp [Payload.inRange, Config.span, h1, h2])
    (by rw [ha.2]; rfl) (by simp)

/-- Settles O50: a slot that does not exist, a slot that holds nothing, and then a held slot by whether the burst
follows on. -/
theorem burstTakenOrFaulted : Obligations.BurstTakenOrFaulted := by
  unfold Obligations.BurstTakenOrFaulted
  intro h n off bytes s ha hl hh h1 h2 run faults free unnamed
  have taken : run = .next (takePageData h n off bytes s) := exec_pageData ha hl hh h1 h2
  refine ⟨fun hn => ?_, fun before sl after hs hlen => ?_⟩
  · have hn := slot?_of_beyond hn
    exact taken.trans (congrArg _ ((takePageData_of_absent hn).trans (burstFault_of_absent hn)))
  · subst hlen
    have hn := slot?_of_slotAt hs
    refine ⟨fun hx hf => ?_, fun p hst hx hf => ?_, fun a p hst hx hf hne => ?_, fun x hx => ?_⟩
    · exact taken.trans (congrArg _ ((takePageData_of_unheld hn hx).trans (burstFault_of_unheld hn hx hf)))
    · exact taken.trans (congrArg _ ((takePageData_of_unheld hn hx).trans (burstFault_of_former hn hst hf)))
    · exact taken.trans (congrArg _ ((takePageData_of_unheld hn hx).trans (burstFault_of_stranger hn hst hf hne)))
    · intro fits into
      refine ⟨fun hf hm => ?_, fun hf hm => ?_, fun hf hst => ⟨fun hne => ?_, fun he hw => ?_, fun he hw => ?_⟩⟩
      · have hoff : off = x.expected := hf.2.2.1
        subst hoff
        exact taken.trans (congrArg _ ((takePageData_of_follows hn hx hf).trans (takeBurst_of_more hs hm)))
      · have hoff : off = x.expected := hf.2.2.1
        subst hoff
        exact taken.trans (congrArg _ ((takePageData_of_follows hn hx hf).trans (takeBurst_of_last hs hm)))
      · exact taken.trans (congrArg _ ((takePageData_of_unfit hn hx hf).trans (burstFault_of_other hn hst hx hne)))
      · exact taken.trans (congrArg _ ((takePageData_of_unfit hn hx hf).trans (burstFault_of_storing hn hw hx he)))
      · have fault := (takePageData_of_unfit hn hx hf).trans (burstFault_of_sender hn hst hw hx he)
        rw [freeSlot_of_slotAt hs hx] at fault
        exact taken.trans (congrArg _ fault)

end Sys2Proof.Machine
end

section
/-! STORE DONE, STORE ERROR and the grant lifetime (O54): the slot that is being written, what its completion comes to
by whose the write still is, and a slot that has waited too long. -/

namespace Sys2Proof.Machine

variable {s : State} {before after : List Slot} {sl : Slot} {x : SlotHold} {r : CommitRec}

/-! ## The slot being written -/

theorem storingSlot_of_none (h : ∀ y ∈ s.ict.slots, y.state ≠ .storing) : s.storingSlot = none :=
  find?_range_of_none fun y hy => beq_false_of_ne (h y hy)

theorem storingSlot_of_first (hs : s.SlotAt before sl after) (hb : ∀ y ∈ before, y.state ≠ .storing)
    (hst : sl.state = .storing) : s.storingSlot = some before.length :=
  find?_range_of_first hs (fun y hy => beq_false_of_ne (hb y hy)) (beq_iff_eq.mpr hst)

/-- The first slot that is being written, and what it holds. -/
structure State.Writing (s : State) (before : List Slot) (sl : Slot) (after : List Slot) (x : SlotHold) : Prop where
  place : s.SlotAt before sl after
  first : ∀ y ∈ before, y.state ≠ .storing
  state : sl.state = .storing
  held : sl.hold = some x

/-- The state with the store port idle. -/
abbrev State.portFreed (s : State) : State := s.modIct fun i => { i with portBusy := false }

theorem State.Writing.slot?_portFreed (w : s.Writing before sl after x) : s.portFreed.slot? before.length = some sl :=
  slot?_of_slotAt (s := s.portFreed) w.place

/-! ## Whose the write still is (R144 to R146) -/

theorem writeBelongs_of_opened (hd : sl.disowned = false) (hc : s.findCommit x.page.batch = some r)
    (hr : r.state = .opened) : s.writeBelongs sl x = .open_ := by
  simp [State.writeBelongs, hd, hc, hr]

theorem writeBelongs_of_committed (hd : sl.disowned = false) (hc : s.findCommit x.page.batch = some r)
    (hr : r.state = .committed) : s.writeBelongs sl x = .committed (r.stored x.page) := by
  simp [State.writeBelongs, hd, hc, hr]

theorem writeBelongs_of_lost (hl : sl.disowned = true ∨ s.findCommit x.page.batch = none) :
    s.writeBelongs sl x = .disowned := by
  rcases hl with hd | hc
  · simp [State.writeBelongs, hd]
  · simp [State.writeBelongs, hc]

/-! ## Completions -/

theorem completion_of_none (h : ∀ y ∈ s.ict.slots, y.state ≠ .storing) :
    storeDone s = storeTest (strayCompletion s) ∧ storeError s = storeTest (strayCompletion s) := by
  have hn := storingSlot_of_none h
  exact ⟨by simp only [storeDone, hn], by simp only [storeError, hn]⟩

/-- What STORE DONE makes of the slot, by whose the write still is (R144, R146). -/
def doneAs (n : Nat) (x : SlotHold) : Belongs → State → State
  | .open_, s => (freeSlot n (tell x.sender (.pageStored x.page n)
      (s.updCommit x.page.batch fun r => r.record x))).modIct fun i => { i with storedPages := bump16 i.storedPages }
  | .committed stored, s => lateCompletion n x (some stored) s
  | .disowned, s => lateCompletion n x none s

/-- What STORE ERROR makes of the slot, by whose the write still is (R145, R146). -/
def errorAs (n : Nat) (x : SlotHold) : Belongs → State → State
  | .open_, s => raise .storePortError ((freeSlot n (tell x.sender (.pageFail x.page n) s)).modIct
      fun i => { i with storeErrors := bump16 i.storeErrors })
  | .committed stored, s => lateCompletion n x (some stored) s
  | .disowned, s => lateCompletion n x none s

theorem State.Writing.completion_eq (w : s.Writing before sl after x) :
    storeDone s = storeTest (doneAs before.length x (s.writeBelongs sl x) s.portFreed) ∧
      storeError s = storeTest (errorAs before.length x (s.writeBelongs sl x) s.portFreed) := by
  have hf := storingSlot_of_first w.place w.first w.state
  have hn := w.slot?_portFreed
  cases hw : s.writeBelongs sl x
  all_goals
    have hb : s.portFreed.writeBelongs sl x = _ := hw
    exact ⟨by simp only [storeDone, hf, hn, w.held, hb, doneAs],
      by simp only [storeError, hf, hn, w.held, hb, errorAs]⟩

theorem lateCompletion_of_committed (n : Nat) (x : SlotHold) (stored : Bool) (s : State) :
    lateCompletion n x (some stored) s =
      if stored = true then freeSlot n (tell x.sender (.pageStored x.page n) s)
      else freeSlot n (faultPage x.sender n x.page s) := by
  cases stored <;> rfl

/-! ## The grant lifetime (R140) -/

theorem filling_iff : sl.filling = true ↔ sl.state = .granted ∨ sl.state = .receiving := by simp [Slot.filling]

theorem lifetimeOver_of_other {n : Nat} (hn : s.slot? n = some sl) (hg : sl.state ≠ .granted)
    (hr : sl.state ≠ .receiving) : lifetimeOver n s = s := by
  have hf : ¬ sl.filling = true := fun h => (filling_iff.mp h).elim hg hr
  simp only [lifetimeOver, hn, hf, Bool.false_eq_true, if_false]

theorem lifetimeOver_of_filling {n : Nat} (hn : s.slot? n = some sl) (hf : sl.state = .granted ∨ sl.state = .receiving) :
    lifetimeOver n s = (freeSlot n (s.advanceTo (sl.idleSince + 2000))).modIct
      fun i => { i with expiredSlots := bump16 i.expiredSlots } := by
  simp only [lifetimeOver, hn, filling_iff.mpr hf, if_true]
  rfl

/-- Settles O54: a stray completion, a completion by whose the write still is, and the grant lifetime. -/
theorem storePortAndGrantLifetime : Obligations.StorePortAndGrantLifetime := by
  unfold Obligations.StorePortAndGrantLifetime
  intro s ha up idle
  have stores : exec .storeDone s = .next (storeDone s) := gateway_next _ ha
  have fails : exec .storeError s = .next (storeError s) := gateway_next _ ha
  rw [stores, fails]
  refine ⟨fun hn => ?_, fun before sl after x hs hb hst hx => ?_, fun before sl after hs => ?_⟩
  · obtain ⟨hd, he⟩ := completion_of_none hn
    rw [hd, he]
    exact ⟨rfl, rfl⟩
  · have w : s.Writing before sl after x := ⟨hs, hb, hst, hx⟩
    obtain ⟨hd, he⟩ := w.completion_eq
    rw [hd, he]
    intro n counted
    refine ⟨fun r hdis hc hr => ?_, fun r hdis hc hr => ?_, fun hlost => ?_⟩
    · rw [writeBelongs_of_opened hdis hc hr]
      exact ⟨rfl, rfl⟩
    · rw [writeBelongs_of_committed hdis hc hr]
      exact ⟨congrArg _ (congrArg _ (lateCompletion_of_committed _ _ _ _)),
        congrArg _ (congrArg _ (lateCompletion_of_committed _ _ _ _))⟩
    · rw [writeBelongs_of_lost hlost]
      exact ⟨rfl, rfl⟩
  · have expires : exec (.grantLifetimeExpiry before.length) s = .next (lifetimeOver before.length s) :=
      gateway_next _ ha
    have hn := slot?_of_slotAt hs
    intro run
    refine ⟨fun hg hr => expires.trans (congrArg _ (lifetimeOver_of_other hn hg hr)), fun x hf hx => ?_⟩
    have ends := lifetimeOver_of_filling hn hf
    rw [freeSlot_of_slotAt (s := s.advanceTo (sl.idleSince + 2000)) hs hx] at ends
    exact expires.trans (congrArg _ ends)

end Sys2Proof.Machine
end

section
/-! BATCH OPEN and CLOSE at a gateway (O56): the entry that a BATCH OPEN makes, keeps or takes over, what a CLOSE finds
missing and in excess, and the slots that a committed batch gives back. -/

namespace Sys2Proof.Machine

variable {s : State} {h : Hdr} {b g count : Nat} {waived : List Nat} {r : CommitRec}

/-! ## The oldest committed entry (R148) -/

theorem oldestCommitted_committed {l : List CommitRec} (ho : oldestCommitted l = some r) : r.state = .committed := by
  induction l with
  | nil => cases ho
  | cons x l ih =>
    unfold oldestCommitted at ho
    split at ho
    · split at ho
      · cases ho
        assumption
      · cases ho
    · rename_i y hy
      split at ho
      · rename_i hx
        cases ho
        exact hx.1
      · cases ho
        exact ih hy

theorem oldestCommitted_of_opened {l : List CommitRec} (ho : ∀ x ∈ l, x.state = .opened) : oldestCommitted l = none := by
  cases hl : oldestCommitted l with
  | none => rfl
  | some x =>
    have hopen := ho x (oldestCommitted_mem l x hl)
    rw [oldestCommitted_committed hl] at hopen
    cases hopen

/-- The committed entry of the least order, wherever it stands. -/
theorem oldestCommitted_of_least {l : List CommitRec} (hr : r ∈ l) (hc : r.state = .committed)
    (hleast : ∀ x ∈ l, x ≠ r → x.state = .committed → r.order.getD 0 < x.order.getD 0) :
    oldestCommitted l = some r := by
  induction l with
  | nil => cases hr
  | cons x l ih =>
    have htail : ∀ y ∈ l, y ≠ r → y.state = .committed → r.order.getD 0 < y.order.getD 0 :=
      fun y hy => hleast y (List.mem_cons_of_mem x hy)
    by_cases hx : x = r
    · subst hx
      cases hl : oldestCommitted l with
      | none => simp only [oldestCommitted, hl, hc, if_true]
      | some y =>
        have hle : x.order.getD 0 ≤ y.order.getD 0 := by
          by_cases hy : y = x
          · rw [hy]
          · exact (htail y (oldestCommitted_mem l y hl) hy (oldestCommitted_committed hl)).le
        simp only [oldestCommitted, hl, hc, hle, and_self, if_true]
    · have hmem : r ∈ l := (List.mem_cons.mp hr).resolve_left (Ne.symm hx)
      have hlater : ¬ (x.state = .committed ∧ x.order.getD 0 ≤ r.order.getD 0) := fun ⟨hxc, hle⟩ =>
        absurd (hleast x List.mem_cons_self hx hxc) (Nat.not_lt.mpr hle)
      simp only [oldestCommitted, ih hmem htail, hlater, if_false]

/-! ## BATCH OPEN (R148) -/

theorem takeBatchOpen_of_elsewhere (hg : g ≠ s.oru.address) : takeBatchOpen h b g s = s := if_pos hg

theorem takeBatchOpen_of_committed (hg : g = s.oru.address) (hc : s.findCommit b = some r)
    (hr : r.state = .committed) : takeBatchOpen h b g s =
      hand h.src h.tag (.openAccept b) (makeEntry b h.src (abandonEntry b s)) := by
  simp [takeBatchOpen, hg, hc, hr]

theorem takeBatchOpen_of_own (hg : g = s.oru.address) (hc : s.findCommit b = some r) (hr : r.state = .opened)
    (ho : r.owner = h.src) : takeBatchOpen h b g s = hand h.src h.tag (.openAccept b) s := by
  simp [takeBatchOpen, hg, hc, hr, ho]

theorem takeBatchOpen_of_duplicate (hg : g = s.oru.address) (hc : s.findCommit b = some r) (hr : r.state = .opened)
    (ho : r.owner ≠ h.src) : takeBatchOpen h b g s = hand h.src h.tag (.openRefuse b .duplicate) s := by
  simp [takeBatchOpen, hg, hc, hr, ho]

theorem takeBatchOpen_of_room (hg : g = s.oru.address) (hc : s.findCommit b = none)
    (hn : s.ict.commits.length < 32) : takeBatchOpen h b g s =
      hand h.src h.tag (.openAccept b) (makeEntry b h.src s) := by
  have hroom : s.ict.commits.length < Config.commitEntries := hn
  simp [takeBatchOpen, hg, hc, hroom]

theorem takeBatchOpen_of_full (hg : g = s.oru.address) (hc : s.findCommit b = none)
    (hn : 32 ≤ s.ict.commits.length) (ho : oldestCommitted s.ict.commits = none) : takeBatchOpen h b g s =
      hand h.src h.tag (.openRefuse b .tableFull) s := by
  have hfull : ¬ s.ict.commits.length < Config.commitEntries := Nat.not_lt.mpr hn
  simp [takeBatchOpen, hg, hc, hfull, ho]

theorem takeBatchOpen_of_oldest (hg : g = s.oru.address) (hc : s.findCommit b = none)
    (hn : 32 ≤ s.ict.commits.length) (ho : oldestCommitted s.ict.commits = some r) : takeBatchOpen h b g s =
      hand h.src h.tag (.openAccept b) (makeEntry b h.src (abandonEntry r.batch s)) := by
  have hfull : ¬ s.ict.commits.length < Config.commitEntries := Nat.not_lt.mpr hn
  simp [takeBatchOpen, hg, hc, hfull, ho]

theorem exec_batchOpen (ha : s.archives) (hl : s.listens) (hh : s.reached h) (h1 : 1 ≤ b) (h2 : b ≤ 16777215)
    (g1 : 1 ≤ g) (g2 : g ≤ 15) : exec (.batchOpen h b g) s = .next (takeBatchOpen h b g s) := by
  have taken : take ⟨h, .batchOpen b g⟩ s = takeBatchOpen h b g s := by simp only [take, ha.2]
  rw [← taken]
  exact exec_taken (f := ⟨h, .batchOpen b g⟩) rfl hl hh
    (by simp [Payload.inRange, batchOk_of h1 h2, gatewayOk_of g1 g2]) rfl (by simp)

/-! ## What a CLOSE finds (R150) -/

theorem mem_presentList {p : Nat} : p ∈ r.presentList ↔ ∃ x ∈ r.positions, x.position = p ∧ x.isPresent = true := by
  simp only [CommitRec.presentList, List.mem_map, List.mem_filter]
  exact exists_congr fun x => and_assoc.trans (and_congr_right' and_comm)

theorem mem_missing {p : Nat} : p ∈ r.missing count waived ↔
    1 ≤ p ∧ p ≤ count ∧ p ∉ waived ∧ ¬ ∃ x ∈ r.positions, x.position = p ∧ x.isPresent = true := by
  have hrange : 1 ≤ p ∧ p < 1 + count ↔ 1 ≤ p ∧ p ≤ count := by omega
  rw [← mem_presentList, CommitRec.missing, List.mem_filter, List.mem_range'_1, hrange]
  simp [and_assoc]

theorem missing_rising : (r.missing count waived).Pairwise (· < ·) :=
  List.Pairwise.filter _ List.pairwise_lt_range'

theorem excess_eq : r.excess count =
    (r.positions.filter fun x => x.isPresent && decide (count < x.position)).length := by
  rw [CommitRec.excess, CommitRec.presentList, List.countP_map, List.countP_filter, List.countP_eq_length_filter]
  simp only [Function.comp_apply, Bool.and_comm]

theorem excess_eq_zero_iff : r.excess count = 0 ↔
    ∀ p, (∃ x ∈ r.positions, x.position = p ∧ x.isPresent = true) → p ≤ count := by
  simp only [CommitRec.excess, List.countP_eq_zero, ← mem_presentList, decide_eq_true_eq, Nat.not_lt]

/-! ## CLOSE (R150) -/

theorem takeClose_of_unknown (hu : ∀ r, s.findCommit b = some r → r.owner ≠ h.src) :
    takeClose h b count waived s = hand h.src h.tag (.unknown b) s := by
  cases hc : s.findCommit b with
  | none => simp only [takeClose, hc]
  | some r => simp only [takeClose, hc, ne_eq, hu r hc, not_false_eq_true, if_true]

theorem takeClose_of_incomplete (hc : s.findCommit b = some r) (ho : r.owner = h.src)
    (hm : r.missing count waived ≠ [] ∨ r.excess count ≠ 0) : takeClose h b count waived s =
      hand h.src h.tag (.incomplete b (r.missing count waived).length (r.excess count)
        ((r.missing count waived).take 8)) s := by
  have hopen : ¬ (r.missing count waived = [] ∧ r.excess count = 0) := fun ⟨hn, hx⟩ => hm.elim (· hn) (· hx)
  simp only [takeClose, hc, ho, ne_eq, not_true_eq_false, hopen, if_false]

theorem takeClose_of_committed (hc : s.findCommit b = some r) (ho : r.owner = h.src)
    (hm : r.missing count waived = []) (hx : r.excess count = 0) (hr : r.state = .committed) :
    takeClose h b count waived s = hand h.src h.tag (.committed b) s := by
  simp [takeClose, hc, ho, hm, hx, hr]

theorem takeClose_of_opened (hc : s.findCommit b = some r) (ho : r.owner = h.src)
    (hm : r.missing count waived = []) (hx : r.excess count = 0) (hr : r.state = .opened) :
    takeClose h b count waived s = commitBatch b (hand h.src h.tag (.committed b) s) := by
  simp [takeClose, hc, ho, hm, hx, hr]

theorem hand_ict (d t : Nat) (p : Payload) (s : State) : (hand d t p s).ict = s.ict := by
  unfold hand
  repeat' split
  all_goals rfl

/-- The entry of the batch takes the next committed order, and the slots of the batch are freed. -/
theorem commitBatch_of_ict {t : State} (ht : t.ict = s.ict) : commitBatch b t =
    freeBatchSlots b { t with ict := { t.ict with
      commitNext := s.ict.commitNext + 1
      commits := updFirst (·.batch == b)
        (fun r => { r with state := .committed, order := some s.ict.commitNext }) s.ict.commits } } := by
  rw [← ht]
  rfl

theorem exec_close (ha : s.archives) (hl : s.listens) (hh : s.reached h) (h1 : 1 ≤ b) (h2 : b ≤ 16777215)
    (hc : count ≤ 4095) (hw : waived.length ≤ 32) (hp : ∀ p ∈ waived, 1 ≤ p ∧ p ≤ 4095) :
    exec (.close h b count waived) s = .next (takeClose h b count waived s) := by
  have hall : waived.all positionOk = true := all_positionOk_iff.mpr hp
  exact exec_taken (f := ⟨h, .close b count waived⟩) rfl hl hh
    (by simp [Payload.inRange, batchOk_of h1 h2, hall, Config.maxPosition, hc, hw])
    (by rw [ha.2]; rfl) (by simp)

/-! ## The slots of a batch (R135, R150) -/

theorem ofBatch_unwritten (b : Nat) (sl : Slot) : (sl.ofBatch b && sl.state != .storing) =
    ((sl.state == .granted || sl.state == .receiving || sl.state == .complete) &&
      sl.hold.any fun x => x.page.batch == b) := by
  unfold Slot.ofBatch Slot.inUse
  cases sl.state <;> cases (sl.hold.any fun x => x.page.batch == b) <;> rfl

theorem freeBatchSlots_eq (b : Nat) (s : State) : freeBatchSlots b s = freeSlots (s.slotsWhere fun sl =>
    (sl.state == .granted || sl.state == .receiving || sl.state == .complete) &&
      sl.hold.any fun x => x.page.batch == b) s := by
  simp only [freeBatchSlots, ofBatch_unwritten]

/-- Settles O56: BATCH OPEN by the entry that it finds, CLOSE by what it finds missing, and the slots freed. -/
theorem gatewayEntryAndClose : Obligations.GatewayEntryAndClose := by
  unfold Obligations.GatewayEntryAndClose
  refine ⟨fun h b g s ha hl hh h1 h2 g1 g2 => ?_, fun h b count waived s ha hl hh h1 h2 hcount hlen hpos => ?_,
    fun b s => ?_⟩
  · intro run made accepts refuses
    have taken : run = .next (takeBatchOpen h b g s) := exec_batchOpen ha hl hh h1 h2 g1 g2
    refine ⟨fun hg => taken.trans (congrArg _ (takeBatchOpen_of_elsewhere hg)), fun hg => ⟨fun r hc =>
      ⟨fun hr => taken.trans (congrArg _ (takeBatchOpen_of_committed hg hc hr)),
        fun hr ho => taken.trans (congrArg _ (takeBatchOpen_of_own hg hc hr ho)),
        fun hr ho => taken.trans (congrArg _ (takeBatchOpen_of_duplicate hg hc hr ho))⟩,
      fun hc => ⟨fun hn => taken.trans (congrArg _ (takeBatchOpen_of_room hg hc hn)), fun hn hopen => ?_,
        fun r hr hn hcom hleast => ?_⟩⟩⟩
    · exact taken.trans (congrArg _ (takeBatchOpen_of_full hg hc hn (oldestCommitted_of_opened hopen)))
    · exact taken.trans (congrArg _ (takeBatchOpen_of_oldest hg hc hn (oldestCommitted_of_least hr hcom hleast)))
  · intro run answers
    have taken : run = .next (takeClose h b count waived s) := exec_close ha hl hh h1 h2 hcount hlen hpos
    refine ⟨fun hu => taken.trans (congrArg _ (takeClose_of_unknown hu)), fun r hc ho => ⟨fun p => mem_missing,
      missing_rising, excess_eq, excess_eq_zero_iff,
      fun hm => taken.trans (congrArg _ (takeClose_of_incomplete hc ho hm)),
      fun hm hx hr => taken.trans (congrArg _ (takeClose_of_committed hc ho hm hx hr)), fun hm hx hr => ?_⟩⟩
    have committed := commitBatch_of_ict (b := b) (hand_ict h.src h.tag (.committed b) s)
    exact taken.trans (congrArg _ ((takeClose_of_opened hc ho hm hx hr).trans committed))
  · rw [freeBatchSlots_eq, freeSlots_slotsWhere]
    rfl

end Sys2Proof.Machine
end

section
/-! The owner of a batch and its holes: a HOLE CLAIM agreed with the filler and answered (O45), a hole filled (O46),
holes released (O47). -/

namespace Sys2Proof.Machine

variable {s : State} {r : BatchRec} {a b p w : Nat} {held ps : List Nat} {final : Bool} {h : Hdr}

/-! ## The frames of the claim exchange at a scanner -/

theorem exec_holeClaim (hs : s.scans) (hl : s.listens) (hh : s.reached h) (h1 : 1 ≤ b) (h2 : b ≤ 16777215)
    (hw : w + held.length ≤ 8) (hp : ∀ p ∈ held, 1 ≤ p ∧ p ≤ 4095) : exec (.holeClaim h b w held) s =
      .next (hand h.src h.tag (ownerClaim h.src b w held s).1 (ownerClaim h.src b w held s).2) :=
  exec_taken (f := ⟨h, .holeClaim b w held⟩) rfl hl hh
    (by simp [Payload.inRange, batchOk_of h1 h2, hw, all_positionOk_iff.mpr hp]) (by rw [hs.2]; rfl) (by simp)

theorem exec_filled (hs : s.scans) (hl : s.listens) (hh : s.reached h) (h1 : 1 ≤ b) (h2 : b ≤ 16777215)
    (hp1 : 1 ≤ p) (hp2 : p ≤ 4095) : exec (.filled h b p) s = .next (ownerFilled b p s) :=
  exec_taken (f := ⟨h, .filled b p⟩) rfl hl hh
    (by simp [Payload.inRange, batchOk_of h1 h2, positionOk_iff.mpr ⟨hp1, hp2⟩]) (by rw [hs.2]; rfl) (by simp)

theorem exec_release (hs : s.scans) (hl : s.listens) (hh : s.reached h) (h1 : 1 ≤ b) (h2 : b ≤ 16777215)
    (hn : ps.length ≤ 8) (hp : ∀ p ∈ ps, 1 ≤ p ∧ p ≤ 4095) :
    exec (.release h b final ps) s = .next (ownerRelease h.src b final ps s) :=
  exec_taken (f := ⟨h, .release b final ps⟩) rfl hl hh
    (by simp [Payload.inRange, batchOk_of h1 h2, hn, all_positionOk_iff.mpr hp]) (by rw [hs.2]; rfl) (by simp)

/-! ## One hole under a claim and under a RELEASE (R159, R166) -/

theorem claimedBy_iff {x : Hole} : x.claimedBy a = true ↔ x.state = .claimed ∧ x.claimant = some a := by
  simp [Hole.claimedBy]

theorem reconcileHeld_eq (a : Nat) (held : List Nat) (x : Hole) : reconcileHeld a held x =
    if (x.state = .claimed ∧ x.claimant = some a) ∧ x.position ∉ held then
      { x with state := .vacant, claimant := none, retries := min 255 (x.retries + 1) }
    else if x.state = .vacant ∧ x.position ∈ held then { x with state := .claimed, claimant := some a }
    else x := by
  simp only [reconcileHeld, Bool.and_eq_true, claimedBy_iff, Bool.not_eq_true', List.contains_eq_mem,
    decide_eq_false_iff_not, beq_iff_eq, decide_eq_true_eq]
  rfl

theorem released_eq (a : Nat) (final : Bool) (ps : List Nat) (x : Hole) : x.released a final ps =
    if x.state = .claimed ∧ x.claimant = some a ∧ (final = true ∨ x.position ∈ ps) then
      { x with state := .vacant, claimant := none, retries := min 255 (x.retries + 1) }
    else x := by
  simp only [Hole.released, Bool.and_eq_true, claimedBy_iff, Bool.or_eq_true, List.contains_eq_mem,
    decide_eq_true_eq, and_assoc]
  rfl

/-- In a list of distinct holes, the lowest OPEN ones that a claim takes are the first of those that stand OPEN. -/
theorem claimLowest_eq_map (a n : Nat) {hs : List Hole} (hd : hs.Nodup) : claimLowest a n hs =
    hs.map fun x => if x ∈ (hs.filter (·.state == .vacant)).take n then x.claimFor a else x := by
  induction hs generalizing n with
  | nil => simp [claimLowest]
  | cons y hs ih =>
    obtain ⟨hy, hd⟩ := List.nodup_cons.mp hd
    cases n with
    | zero => simp [claimLowest]
    | succ n =>
      by_cases hv : y.state = .vacant
      · have htail : ∀ x ∈ hs, x ≠ y := fun x hx e => hy (e ▸ hx)
        simp only [claimLowest, hv, if_true, ih n hd, List.filter_cons, beq_self_eq_true, List.take_succ_cons,
          List.map_cons, List.mem_cons, true_or, List.cons.injEq, true_and]
        exact List.map_congr_left fun x hx => by simp only [htail x hx, false_or]
      · have hnot : y ∉ (hs.filter (·.state == .vacant)).take (n + 1) := fun hm =>
          hy (List.mem_of_mem_filter (List.mem_of_mem_take hm))
        simp only [claimLowest, hv, if_false, ih (n + 1) hd, List.filter_cons, beq_iff_eq, List.map_cons, hnot]

/-! ## A HOLE CLAIM by the state of the batch (R159) -/

theorem ownerClaim_of_none (hb : s.findBatch b = none) :
    ownerClaim a b w held s = (.holeRefuse b .unknownBatch, s) := by
  simp only [ownerClaim, hb]

theorem ownerClaim_of_terminal (hb : s.findBatch b = some r) (ht : r.state.terminal = true) :
    ownerClaim a b w held s = (.holeRefuse b .unknownBatch, s) := by
  simp only [ownerClaim, hb, ht, if_true]

theorem ownerClaim_of_ungranting (hb : s.findBatch b = some r) (ht : r.state.terminal = false)
    (hg : r.state.grants = false) : ownerClaim a b w held s = (.holeRefuse b .badState, s) := by
  simp only [ownerClaim, hb, ht, hg, Bool.false_eq_true, if_false]

/-- The hole list of a batch, agreed with what a claim says that its station holds (R159, steps 1 and 2). -/
def BatchRec.agreed (r : BatchRec) (a : Nat) (held : List Nat) : List Hole := r.holes.map (reconcileHeld a held)

theorem ownerClaim_of_granting (hb : s.findBatch b = some r) (ht : r.state.terminal = false)
    (hg : r.state.grants = true) : ownerClaim a b w held s =
      (if lowestVacant w (r.agreed a held) = [] then .holeNone b
        else .holeGrant b r.gateway (lowestVacant w (r.agreed a held)),
        s.updBatch b fun r' => { r' with holes := claimLowest a w (r.agreed a held) }) := by
  simp only [ownerClaim, hb, ht, hg, Bool.false_eq_true, if_false, if_true]
  rfl

theorem agreed_nodup (h : (r.holes.map (·.position)).Nodup) : (r.agreed a held).Nodup := by
  refine List.Nodup.of_map (·.position) ?_
  have hsame : (r.agreed a held).map (·.position) = r.holes.map (·.position) := by
    simp [BatchRec.agreed, Function.comp_def, reconcileHeld_position]
  rwa [hsame]

/-- Settles O45: a claim by the state of the batch; where holes are granted, by whether there is one. -/
theorem ownerGrantsTheLowestHoles : Obligations.OwnerGrantsTheLowestHoles := by
  unfold Obligations.OwnerGrantsTheLowestHoles
  intro h b w held s hs hl hh h1 h2 hw hp run answers
  have taken : run = .next (hand h.src h.tag (ownerClaim h.src b w held s).1 (ownerClaim h.src b w held s).2) :=
    exec_holeClaim hs hl hh h1 h2 hw hp
  have answered {q : Payload} {t : State} (hc : ownerClaim h.src b w held s = (q, t)) : answers q t := by
    rw [hc] at taken
    exact taken
  refine ⟨fun hb => answered (ownerClaim_of_none hb), fun r hb => ⟨fun hst => ?_, fun hst => ?_, fun hst hd => ?_⟩⟩
  · exact answered (ownerClaim_of_terminal hb (terminal_iff.mpr (by simpa using hst)))
  · have hwait : r.state.terminal = false ∧ r.state.grants = false := by
      simp only [List.mem_cons, List.not_mem_nil, or_false] at hst
      rcases hst with e | e | e <;> rw [e] <;> exact ⟨rfl, rfl⟩
    exact answered (ownerClaim_of_ungranting hb hwait.1 hwait.2)
  · have hlive : r.state.terminal = false ∧ r.state.grants = true := by
      simp only [List.mem_cons, List.not_mem_nil, or_false] at hst
      rcases hst with e | e | e | e <;> rw [e] <;> exact ⟨rfl, rfl⟩
    intro mine agreed granted t
    have hagreed : r.agreed h.src held = agreed := List.map_congr_left fun x _ => reconcileHeld_eq h.src held x
    have hclaim := ownerClaim_of_granting (a := h.src) (w := w) (held := held) hb hlive.1 hlive.2
    have hleft : claimLowest h.src w (r.agreed h.src held) = agreed.map fun x =>
        if x ∈ granted then { x with state := .claimed, claimant := some h.src } else x := by
      rw [claimLowest_eq_map _ _ (agreed_nodup hd), hagreed]
      rfl
    rw [hleft, hagreed] at hclaim
    have hlow : lowestVacant w agreed = granted.map fun x => (x.position, x.snap) := rfl
    refine ⟨fun hg => ?_, fun hg => ?_⟩
    · rw [if_pos (by rw [hlow, hg]; rfl)] at hclaim
      exact answered hclaim
    · rw [if_neg (by rw [hlow]; simpa using hg)] at hclaim
      exact answered hclaim

/-! ## A hole filled (R165) -/

theorem ownerFilled_of_none (hb : s.findBatch b = none) : ownerFilled b p s = s := by
  simp only [ownerFilled, hb]

theorem ownerFilled_of_terminal (hb : s.findBatch b = some r) (ht : r.state.terminal = true) :
    ownerFilled b p s = s := by
  simp [ownerFilled, hb, ht]

/-- The hole of a position that a FILLED can mark. -/
def Hole.unfilledAt (p : Nat) (x : Hole) : Bool := x.position == p && (x.state == .vacant || x.state == .claimed)

theorem ownerFilled_of_absent (hb : s.findBatch b = some r) (hx : ∀ x ∈ r.holes, x.unfilledAt p = false) :
    ownerFilled b p s = s := by
  have hany : r.holes.any (Hole.unfilledAt p) = false := List.any_eq_false.mpr fun x hm => by simp [hx x hm]
  simp only [ownerFilled, hb]
  exact if_neg fun hc => Bool.false_ne_true (hany.symm.trans hc.2)

theorem ownerFilled_of_split {before after : List Hole} {x : Hole} (hb : s.findBatch b = some r)
    (ht : r.state.terminal = false) (hl : r.holes = before ++ x :: after) (hx : x.unfilledAt p = true)
    (hfirst : ∀ y ∈ before, y.unfilledAt p = false) :
    ownerFilled b p s = closeTest b (s.updBatch b fun r => { r with
      holes := before ++ { x with state := .filled, claimant := none } :: after }) := by
  have hany : r.holes.any (Hole.unfilledAt p) = true := List.any_eq_true.mpr ⟨x, by simp [hl], hx⟩
  have hmark : updFirst (Hole.unfilledAt p) (fun y => { y with state := .filled, claimant := none }) r.holes =
      before ++ { x with state := .filled, claimant := none } :: after := by
    rw [hl]
    exact updFirst_append_cons hfirst hx
  simp only [ownerFilled, hb]
  refine (if_pos ⟨by simp [ht], hany⟩).trans (congrArg (closeTest b) (updBatch_congr hb ?_))
  rw [← hmark]
  rfl

/-- Settles O46: a FILLED by the state of the batch and the hole that it finds. -/
theorem filledMarksTheHole : Obligations.FilledMarksTheHole := by
  unfold Obligations.FilledMarksTheHole
  intro h b p s hs hl hh h1 h2 hp1 hp2 run
  have taken : run = .next (ownerFilled b p s) := exec_filled hs hl hh h1 h2 hp1 hp2
  refine ⟨fun hb => taken.trans (congrArg _ (ownerFilled_of_none hb)), fun r hb => ⟨fun ht => ?_, fun hx => ?_,
    fun hc hr ha before after x hl hp hx hfirst => ?_⟩⟩
  · exact taken.trans (congrArg _ (ownerFilled_of_terminal hb (terminal_iff.mpr ht)))
  · refine taken.trans (congrArg _ (ownerFilled_of_absent hb fun x hm => ?_))
    by_cases hp : x.position = p
    · rcases hx x hm hp with e | e <;> simp [Hole.unfilledAt, e]
    · simp [Hole.unfilledAt, hp]
  · have hlive : r.state.terminal = false := Bool.eq_false_iff.mpr (terminal_iff.not.mpr (by tauto))
    exact taken.trans (congrArg _ (ownerFilled_of_split hb hlive hl (by simp [Hole.unfilledAt, hp, hx])
      fun y hy => by simp [Hole.unfilledAt, hfirst y hy]))

/-! ## Holes released (R166) -/

theorem ownerRelease_of_none (hb : s.findBatch b = none) : ownerRelease a b final ps s = s := by
  simp only [ownerRelease, hb]

theorem ownerRelease_of_terminal (hb : s.findBatch b = some r) (ht : r.state.terminal = true) :
    ownerRelease a b final ps s = s := by
  simp only [ownerRelease, hb, ht, if_true]

theorem ownerRelease_of_live (hb : s.findBatch b = some r) (ht : r.state.terminal = false) :
    ownerRelease a b final ps s = s.updBatch b fun r => { r with holes := r.holes.map (Hole.released a final ps) } := by
  simp only [ownerRelease, hb, ht, Bool.false_eq_true, if_false]

/-- Settles O47: a RELEASE by the state of the batch, hole by hole. -/
theorem releaseReopensTheHoles : Obligations.ReleaseReopensTheHoles := by
  unfold Obligations.ReleaseReopensTheHoles
  intro h b final ps s hs hl hh h1 h2 hn hp run
  have taken : run = .next (ownerRelease h.src b final ps s) := exec_release hs hl hh h1 h2 hn hp
  refine ⟨fun hb => taken.trans (congrArg _ (ownerRelease_of_none hb)), fun r hb => ⟨fun ht => ?_,
    fun hc hr ha => ?_⟩⟩
  · exact taken.trans (congrArg _ (ownerRelease_of_terminal hb (terminal_iff.mpr ht)))
  · have hlive : r.state.terminal = false := Bool.eq_false_iff.mpr (terminal_iff.not.mpr (by tauto))
    rw [taken, ownerRelease_of_live hb hlive, funext (released_eq h.src final ps)]

end Sys2Proof.Machine
end

section
/-! The fill job: what it reserves, gives up and waits for, its end, the claims that it makes and the answers that it
takes (O48). -/

namespace Sys2Proof.Machine

variable {s : State} {j : FillJob} {cause : EndCause} {refusal : Option HoleRefusal} {h : Hdr} {b : Nat}

/-! ## What a job reserves, gives up and waits for (R38, R163, R164) -/

theorem reserves_iff {p : Nat} : s.reserves p = true ↔ ∃ e ∈ s.tsq.track, e.binding = .fill (some p) := by
  simp [State.reserves]

theorem waitsFor_iff {g : Grant} : s.waitsFor g = true ↔
    g.state = .scanned ∨ (g.state = .unused ∧ s.reserves g.position = true) := by
  simp [State.waitsFor]

theorem givesUp_of_waitsFor {g : Grant} (hw : s.waitsFor g = true) : s.givesUp g = false := by
  rcases waitsFor_iff.mp hw with hg | ⟨hg, hr⟩
  · simp [State.givesUp, hg]
  · simp [State.givesUp, hg, hr]

/-- The job with what it gives up moved from its granted list to its release set. -/
def State.yielded (s : State) (j : FillJob) : FillJob :=
  { j with
    granted := j.granted.filter fun g => !s.givesUp g
    releaseSet := j.releaseSet ++ (j.granted.filter s.givesUp).map (·.position) }

theorem collectReleases_of_some (hj : s.bct.fill = some j) : collectReleases s = s.withJob (s.yielded j) :=
  updJob_of_some hj _

/-- A job gives up nothing that it waits for. -/
theorem yielded_waits_iff : (s.yielded j).granted.any s.waitsFor = true ↔ ∃ g ∈ j.granted,
    g.state = .scanned ∨ (g.state = .unused ∧ s.reserves g.position = true) := by
  simp only [List.any_eq_true, State.yielded, List.mem_filter]
  constructor
  · rintro ⟨g, ⟨hg, -⟩, hw⟩
    exact ⟨g, hg, waitsFor_iff.mp hw⟩
  · rintro ⟨g, hg, hw⟩
    have hw := waitsFor_iff.mpr hw
    exact ⟨g, ⟨hg, by rw [givesUp_of_waitsFor hw]; rfl⟩, hw⟩

/-! ## The test of a job in ENDING (R164) -/

theorem endingTest_of_feeding (hj : s.bct.fill = some j) (hp : j.phase = .feeding) : endingTest s = s := by
  simp [endingTest, hj, hp]

theorem endingTest_of_ending (hj : s.bct.fill = some j) (hp : j.phase = .ending) : endingTest s =
    if (s.yielded j).granted.any s.waitsFor then s.withJob (s.yielded j)
    else removeJob (s.yielded j) (s.withJob (s.yielded j)) := by
  simp only [endingTest, hj, hp, if_true, collectReleases_of_some hj]
  rfl

/-! ## A fill in FEEDING ends (R163) -/

theorem fillEnd_of_ending (hj : s.bct.fill = some j) (hp : j.phase = .ending) : fillEnd cause refusal s = s := by
  simp [fillEnd, hj, hp]

/-- The job in ENDING with its cause, its claim withdrawn. -/
def FillJob.ended (j : FillJob) (cause : EndCause) (refusal : Option HoleRefusal) : FillJob :=
  { j with phase := .ending, endCause := some cause, refusal, claimTag := none }

/-- The transport after the fill feed has been withdrawn by a job in ENDING. -/
def Tsq.fillWithdrawn (t : Tsq) : Tsq :=
  if t.feedMode = some .fill ∧
      (t.transport = .armed ∨ ((t.transport = .feeding ∨ t.transport = .paused) ∧ t.track = [])) then
    { t with transport := .idle, feedMode := none, fedBatch := none }
  else if t.feedMode = some .fill ∧ (t.transport = .feeding ∨ t.transport = .paused) then
    { t with transport := .draining }
  else t

theorem feedStops_of_still (h : s.tsq.transport = .draining ∨ s.tsq.transport = .held ∨ s.tsq.transport = .idle) :
    feedStops s = s := by
  rcases h with h | h | h <;> simp only [feedStops, h]

theorem drainedNow_toIdle : drainedNow s (toIdle s) = false := by
  simp [drainedNow, State.drained, toIdle]

theorem withdrawFill_of_fill (hm : s.tsq.feedMode = some .fill) : withdrawFill s = feedStops s := if_pos hm

theorem withdrawFill_of_other (hm : s.tsq.feedMode ≠ some .fill) : withdrawFill s = s := if_neg hm

theorem withdrawEnding_of_fill (hm : s.tsq.feedMode = some .fill) :
    withdrawEnding s = if drainedNow s (feedStops s) then toIdle (feedStops s) else feedStops s := by
  simp only [withdrawEnding, withdrawFill_of_fill hm, hm, true_and]

theorem withdrawEnding_eq (s : State) : withdrawEnding s = { s with tsq := s.tsq.fillWithdrawn } := by
  unfold Tsq.fillWithdrawn
  by_cases hm : s.tsq.feedMode = some .fill
  · rw [withdrawEnding_of_fill hm]
    cases ht : s.tsq.transport with
    | armed =>
      rw [feedStops_of_armed ht, drainedNow_toIdle]
      simp [hm, toIdle, State.modTsq]
    | feeding | paused =>
      have hmoves : s.tsq.transport = .feeding ∨ s.tsq.transport = .paused := by simp [ht]
      rw [feedStops_of_fed hmoves, drainedNow_of_fed hmoves]
      by_cases hn : s.tsq.track = [] <;> simp [hm, hn, toIdle, State.modTsq]
    | idle | draining | held =>
      rw [feedStops_of_still (by simp [ht]), drainedNow_self]
      simp
  · have hsame : withdrawEnding s = s := by simp [withdrawEnding, withdrawFill_of_other hm, hm]
    simp [hsame, hm]

theorem fillWithdrawn_track (t : Tsq) : t.fillWithdrawn.track = t.track := by
  unfold Tsq.fillWithdrawn
  split
  · rfl
  · split <;> rfl

/-- The state in which a fill has ended: its job in ENDING, what it gives up in its release set, its feed withdrawn. -/
def State.fillEnded (s : State) (j : FillJob) (cause : EndCause) (refusal : Option HoleRefusal) : State :=
  { s.withJob (s.yielded (j.ended cause refusal)) with tsq := s.tsq.fillWithdrawn }

theorem reserves_of_track {t : State} (ht : t.tsq.track = s.tsq.track) : t.reserves = s.reserves := by
  funext p
  simp only [State.reserves, ht]

theorem yielded_of_track {t : State} (ht : t.tsq.track = s.tsq.track) (j : FillJob) : t.yielded j = s.yielded j := by
  have hgives : t.givesUp = s.givesUp := by
    funext g
    simp only [State.givesUp, reserves_of_track ht]
  simp only [State.yielded, hgives]

theorem waitsFor_of_track {t : State} (ht : t.tsq.track = s.tsq.track) : t.waitsFor = s.waitsFor := by
  funext g
  simp only [State.waitsFor, reserves_of_track ht]

theorem fillEnd_of_feeding (hj : s.bct.fill = some j) (hp : j.phase = .feeding) : fillEnd cause refusal s =
    if (s.yielded j).granted.any s.waitsFor then
      if (s.yielded j).releaseSet = [] then s.fillEnded j cause refusal
      else (sendRelease (s.yielded (j.ended cause refusal)) false (s.fillEnded j cause refusal)).updJob
        fun j => { j with releaseSet := [] }
    else removeJob (s.yielded (j.ended cause refusal)) (s.fillEnded j cause refusal) := by
  have htrack : (s.fillEnded j cause refusal).tsq.track = s.tsq.track := fillWithdrawn_track _
  have hcollect : collectReleases (withdrawEnding (s.withJob (j.ended cause refusal))) =
      s.fillEnded j cause refusal := by
    rw [withdrawEnding_eq, collectReleases_of_some rfl, yielded_of_track (s := s) (fillWithdrawn_track _)]
    rfl
  have hjob : (s.fillEnded j cause refusal).bct.fill = some (s.yielded (j.ended cause refusal)) := rfl
  have hstart : s.updJob (fun j => { j with
      phase := .ending, endCause := some cause, refusal := refusal, claimTag := none }) =
      s.withJob (j.ended cause refusal) := updJob_of_some hj _
  simp only [fillEnd, hj, hp, if_true, hstart, hcollect, hjob, waitsFor_of_track htrack]
  rfl

/-! ## The test's act on the feed (R158, R35) -/

/-- A fill in FEEDING whose UNUSED positions are all reserved. -/
def State.spent (s : State) (j : FillJob) : Prop :=
  j.phase = .feeding ∧ ∀ g ∈ j.granted, g.state = .unused → ∃ e ∈ s.tsq.track, e.binding = .fill (some g.position)

theorem spent_iff : j.phase = .feeding ∧ s.allReserved j = true ↔ s.spent j := by
  simp only [State.allReserved, List.all_eq_true, Bool.or_eq_true, bne_iff_ne, reserves_iff, State.spent,
    ← imp_iff_not_or]

/-- The test withdraws the fill feed: a spent fill with an EMPTY tray. -/
def State.stopsFeed (s : State) (j : FillJob) : Prop :=
  s.spent j ∧ s.tsq.tray = .empty ∧ s.tsq.feedMode = some .fill

theorem stopsFeed_iff : (j.phase = .feeding ∧ s.allReserved j = true ∧ s.tsq.tray = .empty ∧
    s.tsq.feedMode = some .fill) ↔ s.stopsFeed j := by
  rw [State.stopsFeed, ← spent_iff, and_assoc]

theorem feedTest_of_not (hj : s.bct.fill = some j) (hn : ¬ s.stopsFeed j) : feedTest s = s := by
  simp only [feedTest, hj]
  exact if_neg (mt stopsFeed_iff.mp hn)

theorem feedTest_of_stops (hj : s.bct.fill = some j) (hs : s.stopsFeed j) : feedTest s =
    if drainedNow s (feedStops s) then toIdle (fillEnd .trayEmpty none (feedStops s)) else feedStops s := by
  obtain ⟨-, -, hm⟩ := id hs
  simp only [feedTest, hj, withdrawFill_of_fill hm]
  exact if_pos (stopsFeed_iff.mpr hs)

theorem feedTest_of_armed (hj : s.bct.fill = some j) (hs : s.stopsFeed j) (ht : s.tsq.transport = .armed) :
    feedTest s = toIdle s := by
  rw [feedTest_of_stops hj hs, feedStops_of_armed ht, drainedNow_toIdle, if_neg Bool.false_ne_true]

theorem feedTest_of_moving (hj : s.bct.fill = some j) (hs : s.stopsFeed j)
    (ht : s.tsq.transport = .feeding ∨ s.tsq.transport = .paused) : feedTest s =
    if s.tsq.track = [] then toIdle (fillEnd .trayEmpty none { s with tsq := { s.tsq with transport := .draining } })
    else { s with tsq := { s.tsq with transport := .draining } } := by
  rw [feedTest_of_stops hj hs, feedStops_of_fed ht, drainedNow_of_fed ht]
  simp only [List.isEmpty_iff]

theorem feedTest_of_still (ht : s.tsq.transport = .draining ∨ s.tsq.transport = .held ∨ s.tsq.transport = .idle) :
    feedTest s = s := by
  cases hj : s.bct.fill with
  | none => simp only [feedTest, hj]
  | some j =>
    by_cases hs : s.stopsFeed j
    · rw [feedTest_of_stops hj hs, feedStops_of_still ht, drainedNow_self, if_neg Bool.false_ne_true]
    · exact feedTest_of_not hj hs

/-! ## The claim condition (R158) -/

/-- The claim condition: a spent fill with no claim pending, room in its list, and a sheet to feed or a first claim. -/
def State.claimsNow (s : State) (first : Bool) (j : FillJob) : Prop :=
  s.spent j ∧ j.claimTag = none ∧ (j.granted.filter (·.held)).length < 8 ∧ (s.tsq.tray = .loaded ∨ first = true)

theorem claimDueNow_iff {first : Bool} : s.claimDueNow first j = true ↔ s.claimsNow first j := by
  simp only [State.claimDueNow, State.claimsNow, ← spent_iff, Bool.and_eq_true, beq_iff_eq, decide_eq_true_eq,
    Bool.or_eq_true, List.countP_eq_length_filter, Config.grantEntries]
  tauto

theorem fillTest_of_due {n : Nat} {first : Bool} (hj : s.bct.fill = some j) (hd : s.claimsNow first j) :
    fillTest (n + 1) first s = feedTest (makeClaim (fillTest n false) j s) := by
  simp only [fillTest, hj, claimDueNow_iff.mpr hd, if_true]

theorem fillTest_of_not_due {n : Nat} {first : Bool} (hj : s.bct.fill = some j) (hd : ¬ s.claimsNow first j) :
    fillTest (n + 1) first s = feedTest s := by
  simp only [fillTest, hj, mt claimDueNow_iff.mp hd, if_false, Bool.false_eq_true]

/-! ## A claim made (R157, R158) -/

/-- The job as it makes a claim: what it holds is kept, the claim counted. -/
def FillJob.claiming (j : FillJob) : FillJob :=
  { j with granted := j.granted.filter (·.held), claims := min 255 (j.claims + 1) }

theorem makeClaim_of_remote {again : State → State} (hj : s.bct.fill = some j) (hh : j.atHome = false) :
    makeClaim again j s = ask j.owner
      (.holeClaim j.batch (8 - j.claiming.granted.length) (j.claiming.granted.map (·.position)))
      (s.withJob { j.claiming with claimTag := some s.fli.askTag, claimDue := s.now + s.oru.settings.answerMs }) := by
  simp only [makeClaim, updJob_of_some hj]
  exact if_neg (Bool.eq_false_iff.mp hh)

theorem makeClaim_of_home {again : State → State} (hj : s.bct.fill = some j) (hh : j.atHome = true) :
    makeClaim again j s = takeLocal again
      (ownerClaim s.oru.address j.batch (8 - j.claiming.granted.length) (j.claiming.granted.map (·.position))
        (s.withJob j.claiming)).1
      (ownerClaim s.oru.address j.batch (8 - j.claiming.granted.length) (j.claiming.granted.map (·.position))
        (s.withJob j.claiming)).2 := by
  simp only [makeClaim, updJob_of_some hj]
  exact if_pos hh

/-! ## The answer to a claim (R160) -/

/-- The entry that a granted position makes. -/
def grantEntry (x : Nat × AttrSet) : Grant :=
  { position := x.1, snap := x.2, state := .unused, stored := 0, required := if x.2.duplex = .duplex then 2 else 1 }

theorem joinGrant_of_new {l : List Grant} {x : Nat × AttrSet} (hr : l.length < 8) (hn : ∀ y ∈ l, y.position ≠ x.1) :
    joinGrant l x = l ++ [grantEntry x] := by
  have hany : ¬ l.any (·.position == x.1) = true := by simpa using hn
  rw [joinGrant, if_pos ⟨hr, hany⟩, pagesRequired_eq]
  rfl

/-- Granted positions for which there is room and of which none repeats another or one held all join the list. -/
theorem foldl_joinGrant {l : List Grant} {gs : List (Nat × AttrSet)} (hr : l.length + gs.length ≤ 8)
    (hd : (gs.map (·.1)).Nodup) (hn : ∀ x ∈ gs, ∀ y ∈ l, y.position ≠ x.1) :
    gs.foldl joinGrant l = l ++ gs.map grantEntry := by
  induction gs generalizing l with
  | nil => simp
  | cons x gs ih =>
    rw [List.map_cons, List.nodup_cons] at hd
    rw [List.length_cons] at hr
    obtain ⟨hx, hd⟩ := hd
    have hstep : joinGrant l x = l ++ [grantEntry x] :=
      joinGrant_of_new (by omega) (hn x List.mem_cons_self)
    have hrest : ∀ z ∈ gs, ∀ y ∈ l ++ [grantEntry x], y.position ≠ z.1 := by
      intro z hz y hy
      rcases List.mem_append.mp hy with hy | hy
      · exact hn z (List.mem_cons_of_mem _ hz) y hy
      · rw [List.mem_singleton.mp hy]
        exact fun e => hx (List.mem_map.mpr ⟨z, hz, e.symm⟩)
    rw [List.foldl_cons, hstep, ih (by simp; omega) hd hrest]
    simp

/-- The job whose claim has been answered. -/
def FillJob.answered (j : FillJob) : FillJob := { j with claimTag := none, timeouts := 0 }

theorem claimAnswered_of_some (hj : s.bct.fill = some j) : claimAnswered s = s.withJob j.answered :=
  updJob_of_some hj _

theorem takeGrant_of_new {again : State → State} {g : Nat} {gs : List (Nat × AttrSet)} (hj : s.bct.fill = some j)
    (hr : j.granted.length + gs.length ≤ 8) (hd : (gs.map (·.1)).Nodup)
    (hn : ∀ x ∈ gs, ∀ y ∈ j.granted, y.position ≠ x.1) : takeGrant again g gs s =
      again (pickTest (s.withJob { j.answered with gateway := g, granted := j.granted ++ gs.map grantEntry })) := by
  rw [takeGrant, claimAnswered_of_some hj, updJob_of_some rfl, ← foldl_joinGrant hr hd hn]
  rfl

theorem takeNone_of_some (hj : s.bct.fill = some j) : takeNone s =
    if j.claims ≠ 1 ∧ s.tsq.tray = .loaded then raise .fillSurplus (fillEnd .noHoles none (s.withJob j.answered))
    else fillEnd .noHoles none (s.withJob j.answered) := by
  simp only [takeNone, claimAnswered_of_some hj, hj, Option.any_some, Bool.and_eq_true, bne_iff_ne, beq_iff_eq]

theorem takeHoleRefuse_of_some {reason : HoleRefusal} (hj : s.bct.fill = some j) :
    takeHoleRefuse reason s = fillEnd .refused (some reason) (s.withJob j.answered) := by
  rw [takeHoleRefuse, claimAnswered_of_some hj]

/-- The fill job waits for this answer to its claim. -/
def FillJob.waitsOn (j : FillJob) (h : Hdr) (b : Nat) : Prop := j.claimTag = some h.tag ∧ j.owner = h.src ∧ j.batch = b

theorem claimAnsweredBy_iff : s.claimAnsweredBy h b = true ↔ ∃ j, s.bct.fill = some j ∧ j.waitsOn h b := by
  simp [State.claimAnsweredBy, Option.any_eq_true, FillJob.waitsOn, and_assoc]

/-! ## The claim's timeout (R158) -/

theorem claimExpired_of_none (hj : s.bct.fill = none) : claimExpired s = s := by
  simp only [claimExpired, hj]

theorem claimExpired_of_unasked (hj : s.bct.fill = some j) (ht : j.claimTag = none) : claimExpired s = s := by
  simp [claimExpired, hj, ht]

theorem claimExpired_of_pending (hj : s.bct.fill = some j) (ht : j.claimTag ≠ none) : claimExpired s =
    if 3 ≤ j.timeouts + 1 then
      fillEnd .noAnswer none ((s.withJob { j with claimTag := none, timeouts := 3 }).advanceTo j.claimDue)
    else fillTest 4 false
      ((s.withJob { j with claimTag := none, timeouts := j.timeouts + 1 }).advanceTo j.claimDue) := by
  have hcount : (s.advanceTo j.claimDue).updJob (fun j => { j with
      claimTag := none, timeouts := bump Config.claimTimeouts j.timeouts }) =
      (s.withJob { j with claimTag := none, timeouts := min 3 (j.timeouts + 1) }).advanceTo j.claimDue :=
    updJob_of_some (s := s.advanceTo j.claimDue) hj _
  simp only [claimExpired, hj, Option.isSome_iff_ne_none.mpr ht, if_true, hcount]
  show (if 3 ≤ j.timeouts + 1 then _ else _) = _
  split
  · next hlast => rw [Nat.min_eq_left hlast]
  · next hlast => rw [Nat.min_eq_right (by omega)]

/-! ## The answers at a filler -/

theorem exec_holeGrant {g : Nat} {gs : List (Nat × AttrSet)} (hs : s.scans) (hl : s.listens) (hh : s.reached h)
    (h1 : 1 ≤ b) (h2 : b ≤ 16777215) (g1 : 1 ≤ g) (g2 : g ≤ 15) (n1 : 1 ≤ gs.length) (n2 : gs.length ≤ 8)
    (hgs : ∀ x ∈ gs, 1 ≤ x.1 ∧ x.1 ≤ 4095 ∧ (∀ l, x.2.nominal = some l → l ≤ 2000) ∧ x.2.tolerance ≤ 50) :
    exec (.holeGrant h b g gs) s = .next (takeHoleGrant h b g gs s) := by
  have hall : gs.all grantOk = true := all_grantOk_iff.mpr fun x hx => by simpa only [and_assoc] using hgs x hx
  exact exec_taken (f := ⟨h, .holeGrant b g gs⟩) rfl hl hh
    (by simp [Payload.inRange, batchOk_of h1 h2, gatewayOk_of g1 g2, hall, n1, n2]) (by rw [hs.2]; rfl) (by simp)

theorem exec_holeNone (hs : s.scans) (hl : s.listens) (hh : s.reached h) (h1 : 1 ≤ b) (h2 : b ≤ 16777215) :
    exec (.holeNone h b) s = .next (takeHoleNone h b s) :=
  exec_taken (f := ⟨h, .holeNone b⟩) rfl hl hh (batchOk_of h1 h2) (by rw [hs.2]; rfl) (by simp)

theorem exec_holeRefuse {reason : HoleRefusal} (hs : s.scans) (hl : s.listens) (hh : s.reached h) (h1 : 1 ≤ b)
    (h2 : b ≤ 16777215) : exec (.holeRefuse h b reason) s = .next (takeHoleRefusal h b reason s) :=
  exec_taken (f := ⟨h, .holeRefuse b reason⟩) rfl hl hh (batchOk_of h1 h2) (by rw [hs.2]; rfl) (by simp)

theorem takeHoleGrant_of_waiting {g : Nat} {gs : List (Nat × AttrSet)} (hj : s.bct.fill = some j)
    (hw : j.waitsOn h b) : takeHoleGrant h b g gs s = takeGrant (fillTest 4 false) g gs s :=
  if_pos (claimAnsweredBy_iff.mpr ⟨j, hj, hw⟩)

theorem takeHoleNone_of_waiting (hj : s.bct.fill = some j) (hw : j.waitsOn h b) : takeHoleNone h b s = takeNone s :=
  if_pos (claimAnsweredBy_iff.mpr ⟨j, hj, hw⟩)

theorem takeHoleRefusal_of_waiting {reason : HoleRefusal} (hj : s.bct.fill = some j) (hw : j.waitsOn h b) :
    takeHoleRefusal h b reason s = takeHoleRefuse reason s :=
  if_pos (claimAnsweredBy_iff.mpr ⟨j, hj, hw⟩)

/-- Settles O48: the answers and the timeout of a claim, the owner's taking of the filler's frames, and a claim made,
its answer at a local fill, the test and its act on the feed. -/
theorem fillerTakesClaimAnswers : Obligations.FillerTakesClaimAnswers := by
  unfold Obligations.FillerTakesClaimAnswers
  refine ⟨fun h b g gs reason s hs h1 h2 g1 g2 n1 n2 hgs => ?_,
    fun h b wanted p final ps s hs hl hh h1 h2 hw hps hp1 hp2 =>
      ⟨exec_holeClaim hs hl hh h1 h2 hw hps, exec_filled hs hl hh h1 h2 hp1 hp2,
        exec_release hs hl hh h1 h2 (by omega) hps⟩, fun again j s hj => ?_⟩
  · intro grants nothing refuses waits job
    have expires : exec .claimTimeout s = .next (claimExpired s) := scanner_next _ hs
    refine ⟨fun hl hh => ?_, fun hj => expires.trans (congrArg _ (claimExpired_of_none hj)), fun j hj => ⟨fun ht => ?_,
      fun ht => ⟨fun hn => ?_, fun hn => ?_⟩⟩⟩
    · have hgrant : grants = .next (takeHoleGrant h b g gs s) := exec_holeGrant hs hl hh h1 h2 g1 g2 n1 n2 hgs
      have hnone : nothing = .next (takeHoleNone h b s) := exec_holeNone hs hl hh h1 h2
      have hrefuse : refuses = .next (takeHoleRefusal h b reason s) := exec_holeRefuse hs hl hh h1 h2
      refine ⟨fun hno => ?_, fun j hj hw => ?_⟩
      · have hstray : ¬ s.claimAnsweredBy h b = true := fun ha => by
          obtain ⟨j, hj, hw⟩ := claimAnsweredBy_iff.mp ha
          exact hno j hj hw
        exact ⟨hgrant.trans (congrArg _ (if_neg hstray)), hnone.trans (congrArg _ (if_neg hstray)),
          hrefuse.trans (congrArg _ (if_neg hstray))⟩
      · rw [takeHoleGrant_of_waiting hj hw] at hgrant
        rw [takeHoleNone_of_waiting hj hw, takeNone_of_some hj] at hnone
        rw [takeHoleRefusal_of_waiting hj hw, takeHoleRefuse_of_some hj] at hrefuse
        refine ⟨fun hr hd hn => ?_, fun hq => ?_, fun hc ht => ?_, hrefuse⟩
        · rw [takeGrant_of_new hj hr hd hn] at hgrant
          exact hgrant
        · rw [if_neg (by rcases hq with e | e <;> simp [e])] at hnone
          exact hnone
        · rw [if_pos ⟨hc, ht⟩] at hnone
          exact hnone
    · exact expires.trans (congrArg _ (claimExpired_of_unasked hj ht))
    · rw [expires, claimExpired_of_pending hj ht, if_neg (by omega)]
      rfl
    · rw [expires, claimExpired_of_pending hj ht, if_pos (by omega)]
      rfl
  · intro job held claimed answered
    refine ⟨makeClaim_of_remote hj, makeClaim_of_home hj, fun b g gs => takeGrant_of_new hj,
      fun b => takeNone_of_some hj, fun b reason => takeHoleRefuse_of_some hj,
      fun n first => ⟨rfl, fillTest_of_due hj, fillTest_of_not_due hj⟩, feedTest_of_not hj, feedTest_of_armed hj,
      feedTest_of_moving hj, feedTest_of_still⟩

end Sys2Proof.Machine
end

section
/-! The orders FILL and FILL CANCEL, and the fill that ends (O17). -/

namespace Sys2Proof.Machine

variable {s : State} {j : FillJob} {cause : EndCause} {refusal : Option HoleRefusal} {h : Hdr} {b : Nat}

/-! ## FILL (R157) -/

theorem exec_fill (hc : s.consoleOrder h) (hr : s.oru.role = .scanner) : exec (.fill h b) s =
    .next (answer h (fillOrder b s.orderCounted).1 [] (fillOrder b s.orderCounted).2) :=
  exec_answered rfl hc rfl (by rw [hr]; rfl) rfl

theorem fillOrder_of_zero : fillOrder 0 s = (.badArgument, s) := rfl

theorem fillOrder_of_feed (hb : b ≠ 0) (ht : s.tsq.transport ≠ .idle) : fillOrder b s = (.notIdle, s) := by
  rw [fillOrder, if_neg hb, if_pos ht]

theorem fillOrder_of_busy (hb : b ≠ 0) (ht : s.tsq.transport = .idle) (hf : s.bct.fill ≠ none) :
    fillOrder b s = (.busy, s) := by
  rw [fillOrder, if_neg hb, if_neg (not_not_intro ht), if_pos (Option.isSome_iff_ne_none.mpr hf)]

theorem fillOrder_of_unknown (hb : b ≠ 0) (ht : s.tsq.transport = .idle) (hf : s.bct.fill = none)
    (hd : s.findDir b = none) : fillOrder b s = (.unknownBatch, s) := by
  simp [fillOrder, hb, ht, hf, hd]

/-- The job that FILL makes for a batch of the directory. -/
def DirEntry.fillJob (d : DirEntry) (b : Nat) (atHome : Bool) : FillJob :=
  { batch := b, owner := d.owner, gateway := d.gateway, atHome }

theorem fillOrder_of_known {d : DirEntry} (hb : b ≠ 0) (ht : s.tsq.transport = .idle) (hf : s.bct.fill = none)
    (hd : s.findDir b = some d) : fillOrder b s =
      (.accepted, fillTest 4 true (s.withJob (d.fillJob b (d.owner == s.oru.address)))) := by
  simp [fillOrder, hb, ht, hf, hd]
  rfl

@[simp] theorem ask_tsq (d : Nat) (p : Payload) (s : State) : (ask d p s).tsq = s.tsq := (ask_same d p s).2

/-- The first claim of a remote owner's batch: the job holds nothing, so the claim is for all 8 places. -/
theorem fillTest_of_first {n : Nat} {d : DirEntry} (ht : s.tsq.transport = .idle) :
    fillTest (n + 1) true (s.withJob (d.fillJob b false)) = ask d.owner (.holeClaim b 8 []) (s.withJob
      { d.fillJob b false with
        claims := 1, claimTag := some s.fli.askTag, claimDue := s.now + s.oru.settings.answerMs }) := by
  have hdue : (s.withJob (d.fillJob b false)).claimsNow true (d.fillJob b false) :=
    ⟨⟨rfl, by simp [DirEntry.fillJob]⟩, rfl, by simp [DirEntry.fillJob], Or.inr rfl⟩
  rw [fillTest_of_due rfl hdue, makeClaim_of_remote rfl rfl, feedTest_of_still (by simp [State.withJob, ht])]
  rfl

/-! ## FILL CANCEL (R163) -/

theorem exec_fillCancel (hc : s.consoleOrder h) (hr : s.oru.role = .scanner) : exec (.fillCancel h) s =
    .next (answer h (fillCancel s.orderCounted).1 [] (fillCancel s.orderCounted).2) :=
  exec_answered rfl hc rfl (by rw [hr]; rfl) rfl

theorem fillCancel_of_none (hj : s.bct.fill = none) : fillCancel s = (.badState, s) := by
  simp only [fillCancel, hj]

theorem fillCancel_of_some (hj : s.bct.fill = some j) : fillCancel s = (.accepted, fillEnd .cancel none s) := by
  simp only [fillCancel, hj]

theorem hand_setBct (d t : Nat) (p : Payload) (c : Bct) (s : State) :
    hand d t p { s with bct := c } = { hand d t p s with bct := c } := by
  unfold hand
  cases s.fli.line with
  | joined | listening => dsimp only; split <;> rfl
  | unaddressed | conflict => rfl

theorem sendRelease_of_remote {final : Bool} (hh : j.atHome = false) :
    sendRelease j final s = tell j.owner (.release j.batch final j.releaseSet) s := if_neg (Bool.eq_false_iff.mp hh)

/-- A remote owner's fill that holds nothing but STORED positions, with no fill feed to withdraw, is removed at once. -/
theorem fillEnd_of_stored (hj : s.bct.fill = some j) (hp : j.phase = .feeding) (hh : j.atHome = false)
    (hg : ∀ g ∈ j.granted, g.state = .stored) (hm : s.tsq.feedMode ≠ some .fill) :
    fillEnd cause refusal s = raise .fillEnded
      { tell j.owner (.release j.batch true j.releaseSet) s with bct := { s.bct with fill := none } } := by
  have hnone : ¬ (s.yielded j).granted.any s.waitsFor = true := fun hw => by
    obtain ⟨g, hgm, hw⟩ := yielded_waits_iff.mp hw
    simp [hg g hgm] at hw
  have hfeed : s.tsq.fillWithdrawn = s.tsq := by simp [Tsq.fillWithdrawn, hm]
  have hgives : j.granted.filter s.givesUp = [] :=
    List.filter_eq_nil_iff.mpr fun g hgm => by simp [State.givesUp, hg g hgm]
  have hset : (s.yielded (j.ended cause refusal)).releaseSet = j.releaseSet := by
    simp [State.yielded, FillJob.ended, hgives]
  have hsent : sendRelease (s.yielded (j.ended cause refusal)) true (s.fillEnded j cause refusal) =
      { tell j.owner (.release j.batch true j.releaseSet) s with
        bct := (s.withJob (s.yielded (j.ended cause refusal))).bct } := by
    rw [sendRelease_of_remote (j := s.yielded (j.ended cause refusal)) hh, hset, State.fillEnded, hfeed]
    exact hand_setBct _ _ _ _ s
  rw [fillEnd_of_feeding hj hp, if_neg hnone, removeJob, hsent]
  rfl

/-- Settles O17: FILL by its checks and the owner of the batch, FILL CANCEL by the job, and the end of a fill by its
phase and what it waits for. -/
theorem fillMadeAndCancelled : Obligations.FillMadeAndCancelled := by
  unfold Obligations.FillMadeAndCancelled
  refine ⟨⟨fun h b s hc hr => ?_, fun h s hc hr => ⟨fun hj => ?_, fun j hj => ⟨?_, fillEnd_of_stored hj⟩⟩⟩,
    fun cause refusal j s hj => ?_⟩
  · intro refused job
    have ordered := exec_fill (b := b) hc hr
    have answered {c : ResultCode} {t : State} (ho : fillOrder b s.orderCounted = (c, t)) :
        exec (.fill h b) s = .next (answer h c [] t) := by
      rw [ordered, ho]
    refine ⟨?_, fun hb ht => answered (fillOrder_of_feed hb ht), fun hb ht hf => answered (fillOrder_of_busy hb ht hf),
      fun hb ht hf hd => answered (fillOrder_of_unknown hb ht hf hd), fun d hb ht hf hd => ⟨fun ho => ?_, fun ho => ?_⟩⟩
    · rintro rfl
      exact answered fillOrder_of_zero
    · have hmade := fillOrder_of_known (s := s.orderCounted) hb ht hf hd
      rw [orderCounted_address, beq_false_of_ne ho, fillTest_of_first (s := s.orderCounted) ht] at hmade
      exact answered hmade
    · have hmade := fillOrder_of_known (s := s.orderCounted) hb ht hf hd
      rw [orderCounted_address, beq_iff_eq.mpr ho] at hmade
      exact answered hmade
  · rw [exec_fillCancel hc hr, fillCancel_of_none (s := s.orderCounted) hj]
  · rw [exec_fillCancel hc hr, fillCancel_of_some (s := s.orderCounted) hj]
  · intro reserved gives waits ending job sends removed
    have hwaits : (s.yielded j).granted.any s.waitsFor = true ↔ ∃ g ∈ j.granted, waits g := yielded_waits_iff
    have hnone (hn : ∀ g ∈ j.granted, ¬ waits g) : ¬ (s.yielded j).granted.any s.waitsFor = true := fun hw => by
      obtain ⟨g, hg, hwg⟩ := hwaits.mp hw
      exact hn g hg hwg
    refine ⟨fun hp => ⟨fillEnd_of_ending hj hp, fun hw => ?_, fun hn => ?_⟩, fun hp => ?_⟩
    · rw [endingTest_of_ending hj hp, if_pos (hwaits.mpr hw)]
      rfl
    · rw [endingTest_of_ending hj hp, if_neg (hnone hn)]
      rfl
    · intro ended idle moves feed t
      refine ⟨endingTest_of_feeding hj hp, fun hn => ?_, fun hw => ?_⟩
      · rw [fillEnd_of_feeding hj hp, if_neg (hnone hn)]
        rfl
      · rw [fillEnd_of_feeding hj hp, if_pos (hwaits.mpr hw)]
        rfl

end Sys2Proof.Machine
end

section
/-! The answers to CLOSE and their timeout (O43, O44): the record in CLOSING that waits for the answer, and the batch
that the answer disputes or commits. -/

namespace Sys2Proof.Machine

variable {s : State} {h : Hdr} {b t e : Nat} {ps : List Nat}

/-! ## The frames that answer a CLOSE, at a scanner -/

theorem exec_committed (hs : s.scans) (hl : s.listens) (hh : s.reached h) (h1 : 1 ≤ b) (h2 : b ≤ 16777215) :
    exec (.committed h b) s = .next (takeCommitted h b s) :=
  exec_taken (f := ⟨h, .committed b⟩) rfl hl hh (batchOk_of h1 h2) (by rw [hs.2]; rfl) (by simp)

theorem exec_incomplete (hs : s.scans) (hl : s.listens) (hh : s.reached h) (h1 : 1 ≤ b) (h2 : b ≤ 16777215)
    (ht : t ≤ 4095) (he : e ≤ 4095) (hn : ps.length ≤ 8) (hp : ∀ p ∈ ps, 1 ≤ p ∧ p ≤ 4095) :
    exec (.incomplete h b t e ps) s = .next (takeIncomplete h b t e ps s) :=
  exec_taken (f := ⟨h, .incomplete b t e ps⟩) rfl hl hh
    (by simp [Payload.inRange, batchOk_of h1 h2, Config.maxPosition, ht, he, hn, all_positionOk_iff.mpr hp])
    (by rw [hs.2]; rfl) (by simp)

theorem exec_unknown (hs : s.scans) (hl : s.listens) (hh : s.reached h) (h1 : 1 ≤ b) (h2 : b ≤ 16777215) :
    exec (.unknown h b) s = .next (takeUnknown h b s) :=
  exec_taken (f := ⟨h, .unknown b⟩) rfl hl hh (batchOk_of h1 h2) (by rw [hs.2]; rfl) (by simp)

/-! ## The record that an answer is for (R172) -/

/-- The record stands in CLOSING and waits for the answer that a frame with this header carries. -/
def BatchRec.waitsClose (r : BatchRec) (h : Hdr) : Prop :=
  r.state = .closing ∧ r.closeAsk = some h.tag ∧ r.gateway = h.src

theorem closeAnswered_iff : s.closeAnswered h b = true ↔ ∃ r, s.findBatch b = some r ∧ r.waitsClose h := by
  simp [State.closeAnswered, BatchRec.waitsClose, Option.any_eq_true, and_assoc]

theorem closeAnswered_of_waits {r : BatchRec} (hb : s.findBatch b = some r) (hw : r.waitsClose h) :
    s.closeAnswered h b = true := closeAnswered_iff.mpr ⟨r, hb, hw⟩

theorem not_closeAnswered_of (hn : ∀ r, s.findBatch b = some r → ¬ r.waitsClose h) : ¬ s.closeAnswered h b = true :=
  fun ha => by
    obtain ⟨r, hb, hw⟩ := closeAnswered_iff.mp ha
    exact hn r hb hw

/-! ## The timeout (R176) -/

theorem closeExpired_of_other {r : BatchRec} (hb : s.findBatch b = some r)
    (ho : r.state ≠ .closing ∨ r.closeAsk = none) : closeExpired b s = s := by
  simp only [closeExpired, hb]
  rw [if_neg]
  rintro ⟨hs, ha⟩
  rcases ho with ho | ho
  · exact ho hs
  · rw [ho] at ha; cases ha

theorem closeExpired_of_waiting {r : BatchRec} (hb : s.findBatch b = some r) (hs : r.state = .closing)
    (ha : r.closeAsk ≠ none) : closeExpired b s = dispute b .noAnswer none (s.advanceTo r.closeDue) := by
  simp only [closeExpired, hb]
  rw [if_pos ⟨hs, Option.isSome_iff_ne_none.mpr ha⟩]

/-! ## COMMITTED (R173) -/

/-- A record that enters a terminal state and is then changed under its number: the two changes are one, and its queue
is gone. -/
theorem enterTerminal_updBatch (st : BatchState) (f : BatchRec → BatchRec) :
    (enterTerminal b st s).updBatch b f = { s with
      bct := { s.bct with
        terminalNext := s.bct.terminalNext + 1
        batches := updFirst (·.number == b) (fun r => f { r with
          state := st, terminalOrder := some s.bct.terminalNext }) s.bct.batches }
      pgs := { s.pgs with queues := s.pgs.queues.filter (·.batch != b) } } :=
  congrArg (fun l => ({ s with
    bct := { s.bct with terminalNext := s.bct.terminalNext + 1, batches := l }
    pgs := { s.pgs with queues := s.pgs.queues.filter (·.batch != b) } } : State))
    (updFirst_updFirst (p := (·.number == b))
      (f := fun r : BatchRec => { r with state := st, terminalOrder := some s.bct.terminalNext }) (fun _ hr => hr)
      s.bct.batches)

/-- The state in which a record has become COMMITTED: its terminal order, its close fields absent, and its queue
gone. -/
def State.committedRecord (s : State) (b : Nat) : State :=
  { s with
    bct := { s.bct with
      terminalNext := s.bct.terminalNext + 1
      batches := updFirst (·.number == b) (fun r => { r with
        state := .committed, terminalOrder := some s.bct.terminalNext, closeAsk := none
        disputeCause := none, lastClose := none }) s.bct.batches }
    pgs := { s.pgs with queues := s.pgs.queues.filter (·.batch != b) } }

/-- The state in which a committed batch has been given up: BATCH GONE told and its directory entry removed. -/
def State.committedBatch (s : State) (b : Nat) : State :=
  removeDir b s.oru.address (tell Config.everyStation (.batchGone b) (s.committedRecord b))

@[simp] theorem committedBatch_fill : (s.committedBatch b).bct.fill = s.bct.fill := by
  simp [State.committedBatch, removeDir, State.committedRecord]

theorem takeCommitted_of_waiting (ha : s.closeAnswered h b = true) :
    takeCommitted h b s = ownerGone b (s.committedBatch b) := by
  have hrecord : (enterTerminal b .committed s).updBatch b (fun r => { r with
      closeAsk := none, disputeCause := none, lastClose := none }) = s.committedRecord b :=
    enterTerminal_updBatch .committed _
  simp only [takeCommitted, ha, if_true, hrecord]
  rfl

/-- A local fill of a batch that its owner gives up ends with OWNER_GONE (R167). -/
theorem ownerGone_of_local {j : FillJob} (hj : s.bct.fill = some j) (hh : j.atHome = true) (hb : j.batch = b) :
    ownerGone b s = fillEnd .ownerGone none s := by
  simp only [ownerGone, hj]
  exact if_pos ⟨hh, hb⟩

/-- Settles O43: the timeout by the record's state and its ask, then the answers by whether the record waits for
them; COMMITTED by the fill that runs. -/
theorem closingAnswered : Obligations.ClosingAnswered := by
  unfold Obligations.ClosingAnswered
  intro h b total excess missing s hs h1 h2 ht he hn hp waits disputed
  have expires : exec (.closeAnswerTimeout b) s = .next (closeExpired b s) := scanner_next _ hs
  refine ⟨fun r hb => ⟨fun ho => ?_, fun hst ha => ?_⟩, fun hl hh => ?_⟩
  · rw [expires, closeExpired_of_other hb ho]
  · rw [expires, closeExpired_of_waiting hb hst ha]
    rfl
  · have commits : exec (.committed h b) s = .next (takeCommitted h b s) := exec_committed hs hl hh h1 h2
    have reports : exec (.incomplete h b total excess missing) s =
        .next (takeIncomplete h b total excess missing s) := exec_incomplete hs hl hh h1 h2 ht he hn hp
    refine ⟨fun hno => ?_, fun r hb hw => ?_⟩
    · have hnot : ¬ s.closeAnswered h b = true := not_closeAnswered_of hno
      rw [commits, reports, takeCommitted, takeIncomplete, if_neg hnot, if_neg hnot]
      exact ⟨rfl, rfl⟩
    · have ha : s.closeAnswered h b = true := closeAnswered_of_waits hb hw
      rw [commits, reports, takeCommitted_of_waiting ha, takeIncomplete, if_pos ha]
      refine ⟨rfl, fun hother => ?_, fun j hj hhome hbatch => ?_⟩
      · rw [ownerGone_of_other (by simpa only [committedBatch_fill] using hother)]
        rfl
      · rw [ownerGone_of_local (committedBatch_fill.trans hj) hhome hbatch]
        rfl

/-- Settles O44: UNKNOWN by whether the record waits for it. -/
theorem unknownDisputesTheBatch : Obligations.UnknownDisputesTheBatch := by
  unfold Obligations.UnknownDisputesTheBatch
  intro h b s hs hl hh h1 h2 waits
  rw [exec_unknown hs hl hh h1 h2, takeUnknown]
  refine ⟨fun hno => ?_, fun r hb hw => ?_⟩
  · rw [if_neg (not_closeAnswered_of hno)]
  · rw [if_pos (closeAnswered_of_waits hb hw)]
    rfl

end Sys2Proof.Machine
end

section
/-! Every command answers (O2), START_UP and the time until the settings load ends (O5), a class raised (O8), and the
lamps (O10). -/

namespace Sys2Proof.Machine

variable {s : State} {c : Instr}

/-! ## The commands of Start and the others -/

theorem startCommand_of_other (hu : ∀ x r, c ≠ .startUp x r) (hl : ∀ i, c ≠ .settingsLoad i) :
    startCommand c = false := by
  cases c with
  | startUp x r => exact absurd rfl (hu x r)
  | settingsLoad i => exact absurd rfl (hl i)
  | _ => rfl

/-- Every command but those of Start acts under the guard of R192. -/
theorem exec_runs (hc : startCommand c = false) : ∃ f, ∀ s, exec c s = running f s := by
  cases c with
  | startUp x r => cases hc
  | settingsLoad i => cases hc
  | _ => exact ⟨_, fun _ => rfl⟩

theorem running_of_off (f : State → State) (h : s.power ≠ .running) : running f s = .next s := by
  rw [running, if_neg h]

theorem sampleStraps_of_lt {straps : Nat} {role : Role} (h : straps < 16) : sampleStraps straps role s =
    { power := .loading, now := s.now, portLog := s.portLog, freeNext := s.freeNext, pending := s.pending
      oru := { address := straps, role } } := by
  rw [sampleStraps, Nat.mod_eq_of_lt h]

/-- The settings load, taken or not, leaves the queue and the clock. -/
theorem loadSettings_queue_clock (image : Option (List Byte)) :
    (loadSettings image s).pending = s.pending ∧ s.now ≤ (loadSettings image s).now := by
  by_cases h : s.power = .loading
  · have k := keeps_loaded image h
    exact ⟨k.pending, k.clock⟩
  · rw [loadSettings_of_not_loading image h]
    exact ⟨rfl, le_rfl⟩

/-- Settles O5: the straps as sampled, and the guard that every command but those of Start acts under. -/
theorem startUpSamplesStraps : Obligations.StartUpSamplesStraps := by
  unfold Obligations.StartUpSamplesStraps
  refine ⟨fun straps role s h => congrArg _ (sampleStraps_of_lt h), fun c s hp hu hl => ?_⟩
  obtain ⟨f, hf⟩ := exec_runs (startCommand_of_other hu hl)
  rw [hf, running_of_off f hp]

/-- Settles O2: a command of Start answers the state that it makes, every other one a state that is safe. -/
theorem everyCommandAnswersNext : Obligations.EveryCommandAnswersNext := by
  unfold Obligations.EveryCommandAnswersNext
  refine ⟨fun c s => ?_, fun c s t hu hl ht => ?_⟩
  · cases hc : startCommand c with
    | false =>
      obtain ⟨t, ht, -, hpending, -, -, -, hclock, -⟩ := exec_answers (s := s) c hc
      exact ⟨t, ht, hpending, hclock⟩
    | true =>
      cases c with
      | startUp straps role => exact ⟨_, rfl, rfl, le_rfl⟩
      | settingsLoad image => exact ⟨_, rfl, loadSettings_queue_clock image⟩
      | _ => cases hc
  · obtain ⟨u, hexec, hpower, -, haddress, hrole, hsettings, -, -⟩ :=
      exec_answers (s := s) c (startCommand_of_other hu hl)
    cases hexec.symm.trans ht
    exact ⟨haddress, hrole, hsettings, hpower⟩

/-! ## The attention set (R187) -/

theorem raise_of_empty {a : Attn} (h : s.oru.attention = 0) : raise a s = hand 0 0 (.attention a.bit)
    { s with oru := { s.oru with attention := a.bit, attentionFrames := bump16 s.oru.attentionFrames } } := if_pos h

theorem raise_of_nonempty {a : Attn} (h : s.oru.attention ≠ 0) : raise a s =
    { s with oru := { s.oru with attention := s.oru.attention ||| a.bit } } := if_neg h

/-- A set joined by what it holds already is the set. -/
theorem or_of_and_eq {x b : ClassSet} (h : x &&& b = b) : x ||| b = x := by
  rw [← h]
  ext i hi
  rw [BitVec.getElem_or, BitVec.getElem_and]
  exact sup_inf_self

/-- Settles O8, by whether the set is empty and, where it is not, by whether the class is in it. -/
theorem raiseJoinsTheAttentionSet : Obligations.RaiseJoinsTheAttentionSet := by
  unfold Obligations.RaiseJoinsTheAttentionSet
  refine fun a s => ⟨raise_of_empty, raise_of_nonempty, fun hn hin => ?_⟩
  rw [raise_of_nonempty hn, or_of_and_eq hin]

/-! ## The lamps (R189) -/

theorem lamps_of_off (h : s.power ≠ .running) : s.lamps = ⟨false, false, false, false⟩ := if_neg h

theorem lamps_of_running (h : s.power = .running) : s.lamps =
    { ready := s.oru.role = .scanner ∧ (s.tsq.transport = .armed ∨ s.tsq.transport = .feeding)
      hold := s.oru.role = .scanner ∧ s.tsq.transport = .held
      attention := s.oru.attention ≠ 0
      line := s.fli.line = .joined } := if_pos h

/-- Settles O10: every lamp before the settings load ends, and each lamp after it. -/
theorem lampsFollowTheState : Obligations.LampsFollowTheState := by
  unfold Obligations.LampsFollowTheState
  refine fun s => ⟨lamps_of_off, fun h => ?_⟩
  rw [lamps_of_running h]
  exact ⟨decide_eq_true_iff, decide_eq_true_iff, decide_eq_true_iff, decide_eq_true_iff⟩

end Sys2Proof.Machine
end

section
/-! Orders of the console: the checks before an order's owner (O11), and ACK ATTENTION (O20). -/

namespace Sys2Proof.Machine

variable {s : State} {c : Instr} {h : Hdr} {o : Order}

/-! ## Checks 1 to 4 (R182) -/

/-- An order command whose order reaches a station that listens comes to ORU. -/
theorem exec_order (hc : commandOrder c = some (h, o)) (hl : s.listens) (hd : s.oru.restartDue = none)
    (hh : s.reached h) : exec c s = .next (takeOrder h o s) := by
  rw [exec_of_reached (commandFrame_of_order hc) hl.1 hh, accept_order o hl hd]

theorem exec_order_of_takes (hc : commandOrder c = some (h, o)) (ht : s.takesOrder h) :
    exec c s = .next (takeOrder h o s) := by
  obtain ⟨hl, hd, hdst, -, hsrc⟩ := ht
  exact exec_order hc hl hd ⟨Or.inl hdst, hsrc⟩

theorem takeOrder_of_wrongRole (ht : s.consoleOrder h) (ha : o.argsOk = true)
    (ho : o.owned s.oru.role = false) : takeOrder h o s = answer h .wrongRole [] s.orderCounted := by
  obtain ⟨⟨-, -, -, hb, -⟩, hs⟩ := ht
  have ho' : o.owned (s.modOru fun u => { u with ordersTaken := bump16 u.ordersTaken }).oru.role = false := ho
  rw [takeOrder, if_neg hb]
  simp only [hs, ne_eq, not_true_eq_false, if_false, ha, ho', Bool.false_eq_true, not_false_eq_true, if_true]
  rfl

/-- Settles O11: the four checks in their order, then what check 3 asks of each order and the roles of its owner. -/
theorem ordersCheckedBeforeTheirOwner : Obligations.OrdersCheckedBeforeTheirOwner := by
  unfold Obligations.OrdersCheckedBeforeTheirOwner
  refine ⟨⟨fun c h o s hc => ⟨fun hl hd hs hb => ?_, fun ht hs => ?_, fun ht ha => ?_, fun ht ha ho => ?_⟩,
    fun h r body s => rfl⟩, fun o => ⟨?_, fun role => ?_⟩⟩
  · rw [exec_order hc hl hd ⟨Or.inr hb, hs⟩, takeOrder_of_broadcast o hb]
    rfl
  · rw [exec_order_of_takes hc ht, takeOrder_of_stranger o ht hs]
    rfl
  · rw [exec_order_of_takes hc ht.1, takeOrder_of_badArgument o ht (by rw [ha]; decide)]
  · rw [exec_order_of_takes hc ht.1, takeOrder_of_wrongRole ht ha ho]
  · cases o with
    | waiveHoles b ps => simp only [Order.argsOk, Bool.and_eq_true, decide_eq_true_eq]
    | loadExemption k e v m mask pattern => exact decide_eq_true_iff
    | query q b i => exact decide_eq_true_iff
    | undecodable => exact iff_of_false Bool.false_ne_true id
    | _ => exact iff_of_true rfl trivial
  · cases o with
    | abandonBatch | query | ackAttention | restart | undecodable => exact iff_of_true rfl trivial
    | _ => exact beq_iff_eq

/-! ## ACK ATTENTION (R188) -/

/-- Settles O20: the order has an owner in both roles, and its answer is made after the removal. -/
theorem ackAttentionRemovesTheNamed : Obligations.AckAttentionRemovesTheNamed := by
  unfold Obligations.AckAttentionRemovesTheNamed
  exact fun h cs s ht => frameIn_runOrder h (.ackAttention cs) ht rfl rfl

end Sys2Proof.Machine
end

section
/-! The ten QUERY orders (O19): the way of an order to its answer, the run of items that an answer carries, and the
items of each subject in each role. -/

namespace Sys2Proof.Machine

variable {s : State} {c : Instr} {h : Hdr}

/-! ## A QUERY and its answer (R185) -/

section Orders

variable {q : Subject} {b i : Nat}

/-- A QUERY with an index that R196 allows comes to its answer in both roles. -/
theorem exec_query (hc : commandOrder c = some (h, .query q b i)) (ht : s.consoleOrder h) (hi : i ≤ 4095) :
    exec c s = .next (runOrder h (.query q b i) s.orderCounted) := by
  rw [exec_of_commandFrame c _ (commandFrame_of_order hc)]
  exact frameIn_runOrder h (.query q b i) ht (decide_eq_true hi) rfl

theorem runOrder_query_of_other (hq : q ≠ .peers) : runOrder h (.query q b i) s =
    answer h (answerQuery q b i s).1 (answerQuery q b i s).2 s := by
  simp only [runOrder, hq, and_false, if_false]

theorem exec_query_of_other (hc : commandOrder c = some (h, .query q b i)) (ht : s.consoleOrder h) (hi : i ≤ 4095)
    (hq : q ≠ .peers) : exec c s = .next (answer h (answerQuery q b i s.orderCounted).1
      (answerQuery q b i s.orderCounted).2 s.orderCounted) := by
  rw [exec_query hc ht hi, runOrder_query_of_other hq]

theorem runOrder_queryPeers_of_refused {r : ResultCode} (ha : answerQuery .peers b i s = (r, []))
    (hr : r ≠ .accepted) : runOrder h (.query .peers b i) s = answer h r [] s := by
  simp only [runOrder, ha, hr, false_and, if_false]

theorem runOrder_queryPeers_of_accepted {body : List Byte} (ha : answerQuery .peers b i s = (.accepted, body)) :
    runOrder h (.query .peers b i) s = answer h .accepted body (clearMarks i s) := by
  simp only [runOrder, ha, and_self, if_true]

end Orders

/-! ## The run of items that an answer carries (R94, R185) -/

section Runs

variable {q : Subject} {b i limit : Nat} {items : List (List Byte)}

/-- The bytes of items, each with its length byte. -/
def itemBytes (l : List (List Byte)) : Nat := (l.map fun x => x.length + 1).sum

/-- Items that fit a room are its leading ones, as many as the room holds. -/
theorem fitItems_maximal (items : List (List Byte)) : ∀ room, ∃ left, items = fitItems room items ++ left ∧
    itemBytes (fitItems room items) ≤ room ∧
    ∀ x xs, left = x :: xs → room < itemBytes (fitItems room items) + (x.length + 1) := by
  induction items with
  | nil => exact fun room => ⟨[], rfl, Nat.zero_le _, fun x xs h => by cases h⟩
  | cons y ys ih =>
    intro room
    by_cases hy : y.length + 1 ≤ room
    · obtain ⟨left, hsplit, hfits, hmax⟩ := ih (room - (y.length + 1))
      have htake : fitItems room (y :: ys) = y :: fitItems (room - (y.length + 1)) ys := if_pos hy
      have hbytes : itemBytes (y :: fitItems (room - (y.length + 1)) ys) =
          (y.length + 1) + itemBytes (fitItems (room - (y.length + 1)) ys) := List.sum_cons
      rw [htake, hbytes]
      refine ⟨left, congrArg (y :: ·) hsplit, by omega, fun x xs hx => ?_⟩
      have := hmax x xs hx
      omega
    · have htake : fitItems room (y :: ys) = [] := if_neg hy
      rw [htake]
      refine ⟨y :: ys, rfl, Nat.zero_le _, fun x xs hx => ?_⟩
      cases hx
      simpa [itemBytes] using hy

theorem answerRun_of_beyond (h : items.length < i) : answerRun q b i limit items = (.badArgument, []) := if_pos h

theorem answerRun_of_within (h : i ≤ items.length) : answerRun q b i limit items =
    (.accepted, queryBody q b i (if i + (queryRun i limit items).length = items.length then 65535
      else i + (queryRun i limit items).length) (queryRun i limit items)) := if_neg (Nat.not_lt.mpr h)

end Runs

/-! ## QUERY PEERS (R110, R186) -/

theorem answerQuery_peers (b i : Nat) : answerQuery .peers b i s =
    answerRun .peers 0 i 16 (s.fli.peers.map (peerItem s.now)) := rfl

theorem queryPeers_of_beyond {i : Nat} (ht : s.consoleOrder h) (hi : i ≤ 4095) (hb : 16 < i)
    (hp : s.fli.peers.length = 16) : exec (.queryPeers h i) s = .next (answer h .badArgument [] s.orderCounted) := by
  have hitems : (s.orderCounted.fli.peers.map (peerItem s.orderCounted.now)).length < i := by
    rw [List.length_map]
    exact hp.symm ▸ hb
  rw [exec_query (q := .peers) (b := 0) rfl ht hi, runOrder_queryPeers_of_refused
    ((answerQuery_peers 0 i).trans (answerRun_of_beyond hitems)) (by decide)]

theorem queryPeers_of_within {i : Nat} (ht : s.consoleOrder h) (hw : i ≤ 16) (hp : s.fli.peers.length = 16) :
    let run := queryRun i 16 (s.fli.peers.map (peerItem s.now))
    exec (.queryPeers h i) s = .next (answer h .accepted
      (queryBody .peers 0 i (if i + run.length = 16 then 65535 else i + run.length) run)
      (clearMarks i s.orderCounted)) := by
  have hlen : (s.orderCounted.fli.peers.map (peerItem s.orderCounted.now)).length = 16 := by
    rw [List.length_map]
    exact hp
  have hanswer := (answerQuery_peers (s := s.orderCounted) 0 i).trans (answerRun_of_within (by rw [hlen]; exact hw))
  rw [hlen] at hanswer
  rw [exec_query (q := .peers) (b := 0) rfl ht (by omega), runOrder_queryPeers_of_accepted hanswer]
  rfl

/-! ## The subjects of a role (R186) -/

section Roles

variable {q : Subject} {b i : Nat}

theorem answerQuery_of_outside (h : Subject.inRole q s.oru.role = false) : answerQuery q b i s = (.wrongRole, []) :=
  if_pos (by rw [h]; decide)

theorem outside_of_gateway (hr : s.oru.role = .gateway) (hq : q ∈ [Subject.batch, .holes, .fill, .channels]) :
    Subject.inRole q s.oru.role = false := by
  rw [hr]
  revert q
  decide

theorem outside_of_scanner (hr : s.oru.role = .scanner) (hq : q ∈ [Subject.slots, .commit]) :
    Subject.inRole q s.oru.role = false := by
  rw [hr]
  revert q
  decide

/-- A subject of the gateway is not refused there, in the form of the test that `answerQuery` makes. -/
theorem inside_of_gateway (hr : s.oru.role = .gateway) (hq : q ∈ [Subject.slots, .commit]) :
    ¬ ¬ Subject.inRole q s.oru.role = true := by
  rw [hr]
  revert q
  decide

theorem inside_of_scanner (hr : s.oru.role = .scanner) (hq : q ∈ [Subject.batch, .holes, .fill, .channels]) :
    ¬ ¬ Subject.inRole q s.oru.role = true := by
  rw [hr]
  revert q
  decide

end Roles

/-! ## QUERY COMMIT (R186) -/

section Commit

variable {r : CommitRec} {start : Nat} {p : Nat → Bool}

theorem lt_of_mem_firstEight {x : Nat} (hx : x ∈ firstEight start p) : x < 4096 := by
  have hmem := List.mem_of_mem_filter (List.mem_of_mem_take hx)
  have hb : start ≤ x ∧ x < start + (4096 - start) := List.mem_range'_1.mp hmem
  omega

/-- The index after a list of at most 8 positions: the one after the eighth, and 4096 where there is no eighth. -/
def indexAfter (l : List Nat) : Nat := if l.length = 8 then l.getLastD 0 + 1 else 4096

theorem length_firstEight : (firstEight start p).length ≤ 8 := List.length_take_le _ _

theorem afterEighth_eq {l : List Nat} (hl : l.length ≤ 8) :
    afterEighth l = if l.length = 8 then some (indexAfter l) else none := by
  unfold afterEighth indexAfter
  split
  · rename_i h
    have h7 : 7 < l.length := by omega
    rw [List.getLastD_eq_getLast?, List.getLast?_eq_getElem?, h, List.getElem?_eq_getElem h7]
    rfl
  · rw [List.getElem?_eq_none (by omega)]
    rfl

theorem indexAfter_le : indexAfter (firstEight start p) ≤ 4096 := by
  unfold indexAfter
  split
  · rename_i h
    have hne : firstEight start p ≠ [] := fun he => by rw [he] at h; cases h
    rw [List.getLastD_eq_getLast?, List.getLast?_eq_some_getLast hne]
    exact lt_of_mem_firstEight (List.getLast_mem hne)
  · exact le_rfl

/-- The next index is the lower of the two after the lists, and NONE where that lies past the last position. -/
theorem commitNext_eq : commitNext r start =
    (let next := min (indexAfter (commitLists r start).1) (indexAfter (commitLists r start).2)
     if next = 4096 then 65535 else next) := by
  have hm : afterEighth (commitLists r start).1 = _ := afterEighth_eq length_firstEight
  have hk : afterEighth (commitLists r start).2 = _ := afterEighth_eq length_firstEight
  have hmle : indexAfter (commitLists r start).1 ≤ 4096 := indexAfter_le
  have hkle : indexAfter (commitLists r start).2 ≤ 4096 := indexAfter_le
  have absent {l : List Nat} (h : ¬ l.length = 8) : indexAfter l = 4096 := if_neg h
  unfold commitNext
  simp only [hm, hk]
  by_cases h1 : (commitLists r start).1.length = 8 <;> by_cases h2 : (commitLists r start).2.length = 8
  · rw [if_pos h1, if_pos h2]
    rfl
  · rw [if_pos h1, if_neg h2, absent h2, min_eq_left hmle]
    rfl
  · rw [if_neg h1, if_pos h2, absent h1, min_eq_right hkle]
    rfl
  · rw [if_neg h1, if_neg h2, absent h1, absent h2]
    rfl

/-- The item and the next index of COMMIT, from the two lists that R186 names. -/
theorem answerQuery_commit_of_some {b i : Nat} (hr : s.oru.role = .gateway) (hc : s.findCommit b = some r) :
    answerQuery .commit b i s =
      (.accepted, queryBody .commit b i (commitNext r (max 1 i)) [commitItem r (max 1 i)]) := by
  rw [answerQuery, if_neg (inside_of_gateway hr (by decide))]
  simp only [hc]

theorem answerQuery_commit_of_none {b i : Nat} (hr : s.oru.role = .gateway) (hc : s.findCommit b = none) :
    answerQuery .commit b i s = (.unknownBatch, []) := by
  rw [answerQuery, if_neg (inside_of_gateway hr (by decide))]
  simp only [hc]

theorem max_one_eq (i : Nat) : max 1 i = if i = 0 then 1 else i := by
  split <;> omega

theorem commitLists_eq : commitLists r start =
    (firstEight start fun p => decide (p ∉ (r.positions.filter (·.isPresent)).map (·.position)),
      firstEight start fun p => decide (p ∈ (r.positions.filter (·.mark)).map (·.position))) := by
  simp only [commitLists, CommitRec.presentList, List.contains_eq_mem, decide_not]

end Commit

/-! ## The items of the other subjects (R186) -/

theorem answerQuery_station (b i : Nat) : answerQuery .station b i s = answerRun .station 0 i 3 (stationItems s) := rfl

theorem answerQuery_counters (b i : Nat) : answerQuery .counters b i s =
    answerRun .counters 0 i 2 (counterItems s) := rfl

theorem stationItems_of_gateway (hr : s.oru.role = .gateway) : stationItems s = [stationItem s] := by
  simp only [stationItems, hr]

theorem stationItems_of_scanner (hr : s.oru.role = .scanner) : stationItems s =
    [stationItem s, placeItem s 0, placeItem s 1, placeItem s 2] ++ s.dfm.exemptions.map exemptionItem ++
      [optField (learnItem s.oru.settings.toleranceDefault) s.dfm.learn] := by
  simp only [stationItems, hr]
  rfl

theorem counterItems_of_gateway (hr : s.oru.role = .gateway) :
    counterItems s = [fliCounters s.fli, ictCounters s.ict, oruCounters s.oru] := by
  simp only [counterItems, hr]

theorem counterItems_of_scanner (hr : s.oru.role = .scanner) : counterItems s =
    [fliCounters s.fli, pgsCounters s.pgs, txeCounters s.txe, be 2 s.dfm.strayReadings, oruCounters s.oru] := by
  simp only [counterItems, hr]

section Scanner

variable {b i : Nat}

theorem answerQuery_batch_of_none (hr : s.oru.role = .scanner) (hb : s.findBatch b = none) :
    answerQuery .batch b i s = (.unknownBatch, []) ∧ answerQuery .holes b i s = (.unknownBatch, []) := by
  rw [answerQuery, answerQuery, if_neg (inside_of_scanner hr (by decide)), if_neg (inside_of_scanner hr (by decide))]
  simp only [hb, and_self]

theorem answerQuery_batch_of_some {r : BatchRec} (hr : s.oru.role = .scanner) (hb : s.findBatch b = some r) :
    answerQuery .batch b i s = answerRun .batch b i 1 [batchItem r, closeItem s r] ∧
    answerQuery .holes b i s = answerRun .holes b i 8 (r.holes.map holeItem) := by
  rw [answerQuery, answerQuery, if_neg (inside_of_scanner hr (by decide)), if_neg (inside_of_scanner hr (by decide))]
  simp only [hb, and_self]

theorem answerQuery_fill (hr : s.oru.role = .scanner) :
    answerQuery .fill b i s = answerRun .fill 0 i 9 (fillItems s) :=
  if_neg (inside_of_scanner hr (by decide))

theorem fillItems_of_none (hf : s.bct.fill = none) : fillItems s = [be 1 0] := by
  rw [fillItems, hf]
  rfl

theorem fillItems_of_some {j : FillJob} (hf : s.bct.fill = some j) :
    fillItems s = (be 1 1 ++ jobItem j) :: j.granted.map grantItem := by
  rw [fillItems, hf]
  rfl

theorem answerQuery_channels (hr : s.oru.role = .scanner) : answerQuery .channels b i s =
    answerRun .channels 0 i (if i < 2 then 2 - i else 8) (channelItems s ++ outstandingItems s) :=
  if_neg (inside_of_scanner hr (by decide))

end Scanner

theorem answerQuery_slots {b i : Nat} (hr : s.oru.role = .gateway) :
    answerQuery .slots b i s = answerRun .slots 0 i 4 (slotItems s) :=
  if_neg (inside_of_gateway hr (by decide))

/-- Settles O19: each order comes to its answer; the answers at a gateway and at a scanner, subject by subject; and the
run of items by R94's room. -/
theorem queriesAnswered : Obligations.QueriesAnswered := by
  unfold Obligations.QueriesAnswered
  refine ⟨fun h b i s ht hi => ?_, fun b i s => ⟨fun hr => ?_, fun hr => ?_, rfl⟩, fun q b i limit items => ?_⟩
  · intro answers
    have other {c : Instr} {q : Subject} {b : Nat} (hc : commandOrder c = some (h, .query q b i)) (hq : q ≠ .peers) :
        answers c q b := exec_query_of_other hc ht hi hq
    exact ⟨other rfl (by decide), other rfl (by decide), other rfl (by decide), other rfl (by decide),
      other rfl (by decide), other rfl (by decide), other rfl (by decide), other rfl (by decide),
      other rfl (by decide), queryPeers_of_beyond ht hi, queryPeers_of_within ht⟩
  · refine ⟨fun q hq => answerQuery_of_outside (outside_of_gateway hr hq), ?_, answerQuery_slots hr, ?_,
      answerQuery_commit_of_none hr, fun r hc => ?_⟩
    · rw [answerQuery_station, stationItems_of_gateway hr]
    · rw [answerQuery_counters, counterItems_of_gateway hr]
    · rw [answerQuery_commit_of_some hr hc, commitNext_eq, commitItem, commitLists_eq, max_one_eq]
      rfl
  · refine ⟨fun q hq => answerQuery_of_outside (outside_of_scanner hr hq), ?_, answerQuery_batch_of_none hr,
      fun r hb => answerQuery_batch_of_some hr hb, fun hf => ?_, fun j hf => ?_, ⟨fun hi => ?_, fun hi => ?_⟩, ?_⟩
    · rw [answerQuery_station, stationItems_of_scanner hr]
    · rw [answerQuery_fill hr, fillItems_of_none hf]
    · rw [answerQuery_fill hr, fillItems_of_some hf]
    · rw [answerQuery_channels hr, if_pos hi]
      rfl
    · rw [answerQuery_channels hr, if_neg (Nat.not_lt.mpr hi)]
      rfl
    · rw [answerQuery_counters, counterItems_of_scanner hr]
  · exact ⟨answerRun_of_beyond, answerRun_of_within, fitItems_maximal _ answerRoom, fun next => rfl⟩

end Sys2Proof.Machine
end

section
/-! The bytes of payloads and frames read back (O40): numbers and codes (section 11.1), lists and grants, the
orders (section 11.4), the payloads (section 11.3), and the frame with its check (R194). -/

namespace Sys2Proof.Machine

/-! ## Numbers (section 11.1) -/

theorem length_be (n v : Nat) : (be n v).length = n := by
  induction n with
  | zero => rfl
  | succ n ih => rw [be, List.length_cons, ih]

theorem foldl_be (n v : Nat) : ∀ a : Nat,
    (be n v).foldl (fun a b => a * 256 + b.toNat) a = a * 256 ^ n + v % 256 ^ n := by
  induction n with
  | zero => simp [be, Nat.mod_one]
  | succ n ih =>
    intro a
    have split : v % 256 ^ (n + 1) = v % 256 ^ n + 256 ^ n * (v / 256 ^ n % 256) := Nat.mod_mul
    have first : (BitVec.ofNat 8 (v / 256 ^ n)).toNat = v / 256 ^ n % 256 := BitVec.toNat_ofNat ..
    rw [be, List.foldl_cons, ih, first, split, pow_succ]
    ring

/-- Bytes hold a number up to their width. -/
theorem num_be (n v : Nat) : num (be n v) = v % 256 ^ n := by
  rw [num, foldl_be, zero_mul, zero_add]

theorem num_be_of_lt {n v : Nat} (h : v < 256 ^ n) : num (be n v) = v := by
  rw [num_be, Nat.mod_eq_of_lt h]

theorem ofNat_num_be_toNat {n w : Nat} (hw : 2 ^ w = 256 ^ n) (m : BitVec w) :
    BitVec.ofNat w (num (be n m.toNat)) = m := by
  rw [num_be_of_lt (hw ▸ m.isLt), BitVec.ofNat_toNat, BitVec.setWidth_eq]

/-- The one byte of `be 1 v` holds `v`. It is written as `be` makes it, so that the decoder's patterns meet it. -/
theorem toNat_byte {v : Nat} (h : v < 256) : (BitVec.ofNat 8 (v / 256 ^ 0)).toNat = v := by
  rw [pow_zero, Nat.div_one, BitVec.toNat_ofNat, Nat.mod_eq_of_lt h]

theorem fitsBytes_iff {n v : Nat} : fitsBytes n v = true ↔ v < 256 ^ n := decide_eq_true_iff

theorem num_batch {b : Nat} (h : batchOk b = true) : num (be 3 b) = b :=
  num_be_of_lt (Nat.lt_succ_of_le (batchOk_iff.mp h).2)

theorem num_count {n : Nat} (h : n ≤ Config.maxPosition) : num (be 2 n) = n :=
  num_be_of_lt (h.trans_lt (by decide))

theorem toNat_gateway {g : Nat} (h : gatewayOk g = true) : (BitVec.ofNat 8 (g / 256 ^ 0)).toNat = g :=
  toNat_byte ((gatewayOk_iff.mp h).2.trans_lt (by decide))

/-! ## Codes of named values (section 11.1) -/

theorem side_ofCode_byte (x : Side) : Side.ofCode (BitVec.ofNat 8 (x.code / 256 ^ 0)).toNat = some x := by
  cases x <;> rfl

theorem duplex_ofCode_byte (x : Duplex) : Duplex.ofCode (BitVec.ofNat 8 (x.code / 256 ^ 0)).toNat = some x := by
  cases x <;> rfl

theorem policy_ofCode_byte (x : Policy) : Policy.ofCode (BitVec.ofNat 8 (x.code / 256 ^ 0)).toNat = some x := by
  cases x <;> rfl

theorem presenceRole_ofCode_byte (x : PresenceRole) :
    PresenceRole.ofCode (BitVec.ofNat 8 (x.code / 256 ^ 0)).toNat = some x := by
  cases x <;> rfl

theorem openRefusal_ofCode_byte (x : OpenRefusal) :
    OpenRefusal.ofCode (BitVec.ofNat 8 (x.code / 256 ^ 0)).toNat = some x := by
  cases x <;> rfl

theorem pageRefusal_ofCode_byte (x : PageRefusal) :
    PageRefusal.ofCode (BitVec.ofNat 8 (x.code / 256 ^ 0)).toNat = some x := by
  cases x <;> rfl

theorem holeRefusal_ofCode_byte (x : HoleRefusal) :
    HoleRefusal.ofCode (BitVec.ofNat 8 (x.code / 256 ^ 0)).toNat = some x := by
  cases x <;> rfl

theorem subject_ofCode_byte (x : Subject) : Subject.ofCode (BitVec.ofNat 8 (x.code / 256 ^ 0)).toNat = some x := by
  cases x <;> rfl

theorem flagOf_byte (x : Bool) : flagOf (BitVec.ofNat 8 (flagCode x / 256 ^ 0)).toNat = some x := by
  cases x <;> rfl

/-! ## Attribute sets and lists -/

theorem nominalOf_num_be {nominal : Option Nat} (h : ∀ l, nominal = some l → 0 < l ∧ l < 65536) :
    nominalOf (num (be 2 (nominal.getD 0))) = nominal := by
  cases nominal with
  | none => rw [Option.getD_none, num_be_of_lt (by decide), nominalOf, if_pos rfl]
  | some l =>
    obtain ⟨hpos, hlt⟩ := h l rfl
    rw [Option.getD_some, num_be_of_lt hlt, nominalOf, if_neg hpos.ne']

/-- An omitted tolerance is carried as 255, which no given one is. -/
theorem toleranceOf_byte {tolerance : Option Nat} (h : ∀ t, tolerance = some t → t < 255) :
    (if BitVec.ofNat 8 (tolerance.getD 255 / 256 ^ 0) = 255#8 then none
      else some (BitVec.ofNat 8 (tolerance.getD 255 / 256 ^ 0)).toNat) = tolerance := by
  cases tolerance with
  | none => exact if_pos (congrArg (BitVec.ofNat 8) (Nat.div_one 255))
  | some t =>
    have read := toNat_byte ((h t rfl).trans (by decide))
    have given : BitVec.ofNat 8 (t / 256 ^ 0) ≠ 255#8 := fun h255 =>
      (h t rfl).ne (read.symm.trans (congrArg BitVec.toNat h255))
    exact (if_neg given).trans (congrArg some read)

theorem attrSet_wf_iff {a : AttrSet} : a.wf = true ↔
    a.bank < 256 ∧ (∀ l, a.nominal = some l → 0 < l ∧ l < 65536) ∧ a.tolerance < 256 := by
  unfold AttrSet.wf
  cases a.nominal <;> simp [fitsBytes_iff, and_assoc]

theorem attrArg_wf_iff {a : AttrArg} : a.wf = true ↔ a.duplex < 256 ∧ a.policy < 256 ∧ a.bank < 256 ∧
    (∀ l, a.nominal = some l → 0 < l ∧ l < 65536) ∧ ∀ t, a.tolerance = some t → t < 255 := by
  unfold AttrArg.wf
  cases a.nominal <;> cases a.tolerance <;> simp [fitsBytes_iff, and_assoc]

theorem positionsOf_positionsBytes {ps : List Nat} (h : ∀ p ∈ ps, p < 65536) :
    positionsOf ps.length (positionsBytes ps) = some ps := by
  induction ps with
  | nil => rfl
  | cons p ps ih =>
    obtain ⟨hp, hps⟩ := List.forall_mem_cons.mp h
    change (positionsOf ps.length (positionsBytes ps)).map (num (be 2 p) :: ·) = _
    rw [ih hps, num_be_of_lt hp, Option.map_some]

theorem attrSet_reads_back {a : AttrSet} (h : a.wf = true) : ∃ d p k l0 l1 t,
    attrBytes a = [d, p, k, l0, l1, t] ∧ attrOf d p k l0 l1 t = some a := by
  obtain ⟨hbank, hnominal, htolerance⟩ := attrSet_wf_iff.mp h
  refine ⟨_, _, _, _, _, _, rfl, ?_⟩
  rw [attrOf, duplex_ofCode_byte, policy_ofCode_byte, toNat_byte hbank, toNat_byte htolerance]
  exact congrArg (fun l => some (AttrSet.mk a.duplex a.policy a.bank l a.tolerance)) (nominalOf_num_be hnominal)

theorem attrArg_reads_back {a : AttrArg} (h : a.wf = true) : ∃ d p k l0 l1 t,
    attrArgBytes a = [d, p, k, l0, l1, t] ∧ attrArgOf d p k l0 l1 t = a := by
  obtain ⟨hduplex, hpolicy, hbank, hnominal, htolerance⟩ := attrArg_wf_iff.mp h
  refine ⟨_, _, _, _, _, _, rfl, ?_⟩
  rw [attrArgOf, toNat_byte hduplex, toNat_byte hpolicy, toNat_byte hbank, toleranceOf_byte htolerance]
  exact congrArg (fun l => AttrArg.mk a.duplex a.policy a.bank l a.tolerance) (nominalOf_num_be hnominal)

theorem grantsOf_grantsBytes {gs : List (Nat × AttrSet)} (h : ∀ g ∈ gs, g.1 < 65536 ∧ g.2.wf = true) :
    grantsOf gs.length (grantsBytes gs) = some gs := by
  induction gs with
  | nil => rfl
  | cons g gs ih =>
    obtain ⟨⟨hp, ha⟩, hgs⟩ := List.forall_mem_cons.mp h
    obtain ⟨d, p, k, l0, l1, t, hbytes, hread⟩ := attrSet_reads_back ha
    rw [grantsBytes, hbytes, List.length_cons]
    change (match attrOf d p k l0 l1 t, grantsOf gs.length (grantsBytes gs) with
      | some s, some gs => some ((num (be 2 g.1), s) :: gs)
      | _, _ => none) = _
    rw [hread, ih hgs, num_be_of_lt hp]

/-! ## Orders (section 11.4) -/

/-- An order's bytes are a code and arguments that are read as that order. -/
theorem order_reads_back {o : Order} (h : orderFits o) :
    ∃ code args, o.bytes = code :: args ∧ Order.ofBytes code.toNat args = o := by
  cases o with
  | openBatch b g a =>
    obtain ⟨hb, hg, ha⟩ := h
    obtain ⟨d, p, k, l0, l1, t, hbytes, hread⟩ := attrArg_reads_back ha
    refine ⟨_, _, congrArg (be 1 1 ++ be 3 b ++ be 1 g ++ ·) hbytes, ?_⟩
    change Order.openBatch (num (be 3 b)) _ (attrArgOf d p k l0 l1 t) = _
    rw [num_be_of_lt hb, toNat_byte hg, hread]
  | waiveHoles b ps =>
    obtain ⟨hb, hn, hps⟩ := h
    refine ⟨_, _, rfl, ?_⟩
    change (match positionsOf (BitVec.ofNat 8 (ps.length / 256 ^ 0)).toNat (positionsBytes ps) with
      | some ps => .waiveHoles (num (be 3 b)) ps
      | none => .undecodable) = Order.waiveHoles b ps
    rw [num_be_of_lt hb, toNat_byte hn, positionsOf_positionsBytes hps]
  | loadExemption k e v m mask pat =>
    obtain ⟨hk, he, hv, hm⟩ := h
    refine ⟨_, _, rfl, ?_⟩
    change Order.loadExemption _ _ _ _ (BitVec.ofNat 64 (num (be 8 mask.toNat)))
      (BitVec.ofNat 64 (num (be 8 pat.toNat))) = _
    rw [toNat_byte hk, toNat_byte he, toNat_byte hv, toNat_byte hm, ofNat_num_be_toNat rfl, ofNat_num_be_toNat rfl]
  | learnExemption k e m mask =>
    obtain ⟨hk, he, hm⟩ := h
    refine ⟨_, _, rfl, ?_⟩
    change Order.learnExemption _ _ _ (BitVec.ofNat 64 (num (be 8 mask.toNat))) = _
    rw [toNat_byte hk, toNat_byte he, toNat_byte hm, ofNat_num_be_toNat rfl]
  | query q b i =>
    obtain ⟨hb, hi⟩ := h
    refine ⟨_, _, rfl, ?_⟩
    change (match Subject.ofCode (BitVec.ofNat 8 (q.code / 256 ^ 0)).toNat with
      | some q => .query q (num (be 3 b)) (num (be 2 i))
      | none => .undecodable) = Order.query q b i
    rw [subject_ofCode_byte, num_be_of_lt hb, num_be_of_lt hi]
  | ackAttention cs => exact ⟨_, _, rfl, congrArg Order.ackAttention (ofNat_num_be_toNat (n := 4) rfl cs)⟩
  | endBatch b => exact ⟨_, _, rfl, congrArg Order.endBatch (num_be_of_lt (n := 3) h)⟩
  | abandonBatch b => exact ⟨_, _, rfl, congrArg Order.abandonBatch (num_be_of_lt (n := 3) h)⟩
  | closeAgain b => exact ⟨_, _, rfl, congrArg Order.closeAgain (num_be_of_lt (n := 3) h)⟩
  | fill b => exact ⟨_, _, rfl, congrArg Order.fill (num_be_of_lt (n := 3) h)⟩
  | fillCancel => exact ⟨_, _, rfl, rfl⟩
  | restart => exact ⟨_, _, rfl, rfl⟩
  | undecodable => exact ⟨_, _, rfl, rfl⟩

/-! ## Payloads (section 11.3) -/

/-- A list of positions under its one-byte count, as the payloads carry it. -/
theorem positions_read_back {ps : List Nat} {most : Nat} (hn : ps.length ≤ most) (hmost : most < 256)
    (h : ps.all positionOk = true) :
    positionsOf (BitVec.ofNat 8 (ps.length / 256 ^ 0)).toNat (positionsBytes ps) = some ps := by
  have fits : ∀ p ∈ ps, p < 65536 := fun p hp => (all_positionOk_iff.mp h p hp).2.trans_lt (by decide)
  rw [toNat_byte (hn.trans_lt hmost), positionsOf_positionsBytes fits]

theorem completion_reads_back (mk : PageId → Nat → Payload) {p : PageId} {slot : Nat} (hp : p.wf = true)
    (hslot : slot < 256) : completionOf mk (pageBytes p ++ be 1 slot) = some (mk p slot) := by
  obtain ⟨hbatch, hposition⟩ := Bool.and_eq_true_iff.mp hp
  change (Side.ofCode _).map (fun side => mk ⟨num (be 3 p.batch), num (be 2 p.position), side⟩ _) = _
  rw [side_ofCode_byte, num_be_of_lt (fitsBytes_iff.mp hbatch), num_be_of_lt (fitsBytes_iff.mp hposition),
    toNat_byte hslot, Option.map_some]

/-- A payload in R195's ranges is read back: the decoder sees each field's bytes, and each field fits them. -/
theorem payload_reads_back {src : Nat} {p : Payload} (hr : p.inRange src = true) (hf : payloadFits p) :
    Payload.ofBytes p.kind p.bytes = some p := by
  cases p with
  | order o =>
    obtain ⟨code, args, hbytes, hread⟩ := order_reads_back hf
    rw [Payload.bytes, hbytes]
    exact congrArg (fun o => some (Payload.order o)) hread
  | orderAnswer code body => exact congrArg (fun c => some (Payload.orderAnswer c body)) (toNat_byte hf)
  | attention cs => exact congrArg (fun c => some (Payload.attention c)) (ofNat_num_be_toNat (n := 4) rfl cs)
  | presence r => exact congrArg (Option.map Payload.presence) (presenceRole_ofCode_byte r)
  | batchOpen b g =>
    obtain ⟨hb, hg⟩ := Bool.and_eq_true_iff.mp hr
    exact congrArg₂ (fun b g => some (Payload.batchOpen b g)) (num_batch hb) (toNat_gateway hg)
  | openAccept b => exact congrArg (fun b => some (Payload.openAccept b)) (num_batch hr)
  | openRefuse b r =>
    exact congrArg₂ (fun b r => r.map (Payload.openRefuse b)) (num_batch hr) (openRefusal_ofCode_byte r)
  | batchGone b => exact congrArg (fun b => some (Payload.batchGone b)) (num_batch hr)
  | abandon b => exact congrArg (fun b => some (Payload.abandon b)) (num_batch hr)
  | close b n ps =>
    simp only [Payload.inRange, Bool.and_eq_true, decide_eq_true_eq] at hr
    obtain ⟨⟨⟨hb, hn⟩, hlength⟩, hps⟩ := hr
    change (positionsOf _ (positionsBytes ps)).map (Payload.close (num (be 3 b)) (num (be 2 n))) = _
    rw [num_batch hb, num_count hn, positions_read_back hlength (by decide) hps, Option.map_some]
  | committed b => exact congrArg (fun b => some (Payload.committed b)) (num_batch hr)
  | incomplete b t e ps =>
    simp only [Payload.inRange, Bool.and_eq_true, decide_eq_true_eq] at hr
    obtain ⟨⟨⟨⟨hb, ht⟩, he⟩, hlength⟩, hps⟩ := hr
    change (positionsOf _ (positionsBytes ps)).map
      (Payload.incomplete (num (be 3 b)) (num (be 2 t)) (num (be 2 e))) = _
    rw [num_batch hb, num_count ht, num_count he, positions_read_back hlength (by decide) hps, Option.map_some]
  | unknown b => exact congrArg (fun b => some (Payload.unknown b)) (num_batch hr)
  | holeClaim b w ps =>
    simp only [Payload.inRange, Bool.and_eq_true, decide_eq_true_eq] at hr
    obtain ⟨⟨hb, hsum⟩, hps⟩ := hr
    change (positionsOf _ (positionsBytes ps)).map (Payload.holeClaim (num (be 3 b)) _) = _
    rw [num_batch hb, toNat_byte (by omega), positions_read_back (le_of_add_le_right hsum) (by decide) hps,
      Option.map_some]
  | holeGrant b g gs =>
    simp only [Payload.inRange, Bool.and_eq_true, decide_eq_true_eq] at hr
    obtain ⟨⟨⟨⟨hb, hg⟩, -⟩, hlength⟩, hgs⟩ := hr
    have fits : ∀ x ∈ gs, x.1 < 65536 ∧ x.2.wf = true := fun x hx =>
      ⟨(all_grantOk_iff.mp hgs x hx).1.2.trans_lt (by decide), hf x hx⟩
    change (grantsOf _ (grantsBytes gs)).map (Payload.holeGrant (num (be 3 b)) _) = _
    rw [num_batch hb, toNat_gateway hg, toNat_byte (hlength.trans_lt (by decide)), grantsOf_grantsBytes fits,
      Option.map_some]
  | holeNone b => exact congrArg (fun b => some (Payload.holeNone b)) (num_batch hr)
  | holeRefuse b r =>
    exact congrArg₂ (fun b r => r.map (Payload.holeRefuse b)) (num_batch hr) (holeRefusal_ofCode_byte r)
  | filled b p =>
    obtain ⟨hb, hp⟩ := Bool.and_eq_true_iff.mp hr
    exact congrArg₂ (fun b p => some (Payload.filled b p)) (num_batch hb) (num_count (positionOk_iff.mp hp).2)
  | release b final ps =>
    simp only [Payload.inRange, Bool.and_eq_true, decide_eq_true_eq] at hr
    obtain ⟨⟨hb, hlength⟩, hps⟩ := hr
    change (match flagOf (BitVec.ofNat 8 (flagCode final / 256 ^ 0)).toNat,
        positionsOf (BitVec.ofNat 8 (ps.length / 256 ^ 0)).toNat (positionsBytes ps) with
      | some final, some ps => some (.release (num (be 3 b)) final ps)
      | _, _ => none) = some (Payload.release b final ps)
    rw [num_batch hb, flagOf_byte, positions_read_back hlength (by decide) hps]
  | pageOffer p k size mark =>
    simp only [Payload.inRange, Bool.and_eq_true, Bool.or_eq_true, beq_iff_eq, decide_eq_true_eq] at hr
    obtain ⟨⟨⟨hb, hp⟩, hk⟩, -⟩ := hr
    change (match Side.ofCode (BitVec.ofNat 8 (p.side.code / 256 ^ 0)).toNat,
        flagOf (BitVec.ofNat 8 (flagCode mark / 256 ^ 0)).toNat with
      | some side, some mark => some (.pageOffer ⟨num (be 3 p.batch), num (be 2 p.position), side⟩
          (BitVec.ofNat 8 (k / 256 ^ 0)).toNat (num (be 4 size)) mark)
      | _, _ => none) = some (Payload.pageOffer p k size mark)
    rw [side_ofCode_byte, flagOf_byte, num_batch hb, num_count (positionOk_iff.mp hp).2, toNat_byte (by omega),
      num_be_of_lt hf]
  | slotGrant slot start =>
    obtain ⟨hslot, hstart⟩ := hf
    exact congrArg₂ (fun n o => some (Payload.slotGrant n o)) (toNat_byte hslot) (num_be_of_lt (n := 2) hstart)
  | slotWait => rfl
  | pageRefuse r => exact congrArg (Option.map Payload.pageRefuse) (pageRefusal_ofCode_byte r)
  | pageStored p slot => exact completion_reads_back .pageStored hf.1 hf.2
  | pageFail p slot => exact completion_reads_back .pageFail hf.1 hf.2
  | pageFault p slot => exact completion_reads_back .pageFault hf.1 hf.2
  | pageData slot off bytes =>
    obtain ⟨hslot, hoff⟩ := hf
    exact congrArg₂ (fun n o => some (Payload.pageData n o bytes)) (toNat_byte hslot) (num_be_of_lt (n := 4) hoff)

/-! ## Frames and the frame check (section 11.2, R194) -/

theorem kind_lt (p : Payload) : p.kind < 256 := by
  cases p <;> simp [Payload.kind]

/-- The tests of R194 on six header bytes, a payload of the stated length and four check bytes over both. -/
theorem ofBytes_of_check {d s k t l0 l1 : Byte} {payload check : List Byte} (hlength : num [l0, l1] = payload.length)
    (hcheck : check = be 4 (frameCheck (d :: s :: k :: t :: l0 :: l1 :: payload)).toNat) :
    RawFrame.ofBytes (d :: s :: k :: t :: l0 :: l1 :: (payload ++ check)) =
      some ⟨⟨d.toNat, s.toNat, t.toNat⟩, k.toNat, payload⟩ := by
  have six : (d :: s :: k :: t :: l0 :: l1 :: payload).length = 6 + payload.length := Nat.add_comm payload.length 6
  have body : (d :: s :: k :: t :: l0 :: l1 :: (payload ++ check)).take (6 + payload.length) =
      d :: s :: k :: t :: l0 :: l1 :: payload := List.take_left' six
  have whole : (payload ++ check).length = payload.length + 4 := by rw [List.length_append, hcheck, length_be]
  simp only [RawFrame.ofBytes, hlength, body, List.drop_left, List.take_left]
  exact if_pos ⟨whole, hcheck.symm⟩

theorem frame_reads_back {f : Frame} (hd : f.hdr.dst < 256) (hs : f.hdr.src < 256) (ht : f.hdr.tag < 256)
    (hl : f.payload.bytes.length < 65536) :
    RawFrame.ofBytes f.bytes = some ⟨f.hdr, f.payload.kind, f.payload.bytes⟩ := by
  refine (ofBytes_of_check (num_be_of_lt (n := 2) hl) rfl).trans ?_
  rw [toNat_byte hd, toNat_byte hs, toNat_byte ht, toNat_byte (kind_lt f.payload)]

/-- Settles O40: every field of a payload is read back from its bytes, kind by kind, and a frame's check is taken over
the bytes that its receiver takes it over. -/
theorem framesReadBack : Obligations.FramesReadBack := by
  unfold Obligations.FramesReadBack
  exact ⟨fun _ _ hr hf => payload_reads_back hr hf, fun _ hd hs ht hl => frame_reads_back hd hs ht hl⟩

end Sys2Proof.Machine
end

section
/-! The command that a step takes from the queue. -/

namespace Sys2Proof.Machine

/-- Settles O1, from the equations of a step on a queue with a command at the front and on an empty one. -/
theorem stepRunsFront : Obligations.StepRunsFront := by
  unfold Obligations.StepRunsFront
  constructor
  · intro c rest s hfront
    exact step_of_pending hfront
  · intro s hempty
    exact step_of_none hempty

end Sys2Proof.Machine
end
